-- ==== Sys2Proof/Word.lean ====
section
/-! DEFINITION. The word types of the machine (spec 00 R9, 01 R15): bytes, 32-bit register lanes, 64-bit
register pairs and CSRs, lane masks, program counters and instruction words. -/

namespace Sys2Proof

abbrev Byte := BitVec 8
abbrev Half := BitVec 16
/-- One lane of a vector register (R15). -/
abbrev Word := BitVec 32
/-- A register pair, a 64-bit CSR or a 64-bit word of memory (R15, R31). -/
abbrev DWord := BitVec 64
/-- One bit per lane of a skein, lane 0 in bit 0 (R13). -/
abbrev Mask := BitVec 64
/-- A program counter: line address over 128 in bits [54:7], slot in bits [6:0] (R88). -/
abbrev Pc := BitVec 55
/-- One instruction word (R91). -/
abbrev IWord := BitVec 96
/-- A 16-bit lease timestamp (R253). -/
abbrev Stamp := BitVec 16

/-- A table kept as key and value pairs: contexts, cores, skeins and so on, each by its number. -/
abbrev Tbl (α : Type) := List (Nat × α)

/-- Bytes by address, in canonical form: addresses strictly rising, no listed byte 0 (an unlisted byte reads 0). -/
abbrev Memory := List (Nat × Byte)

end Sys2Proof
end

