-- ==== Sys2Proof/Syntax.lean ====
section
/-! DEFINITION. The instructions and steps of the machine: one constructor of `Instr` for each row of
spec/opcode_table.json. Rows that a skein issues carry the control fields of R91 and their operands; the other rows are
steps of engines, caches, links, the scheduler and the host, and carry what names the step. -/

namespace Sys2Proof

/-- The type codes 0x00 to 0x12 of R103, in code order. -/
inductive Ty where
  | i8 | i16 | i32 | i64 | n8 | n16 | n32 | n64 | f32 | f16 | bf16 | f16x2 | bf16x2
  | e5m2 | e4m3 | e3m2 | e2m3 | e2m1 | e8m0
  deriving DecidableEq, Repr

/-- Rounding codes 0 to 4 of R104. -/
inductive Rm where
  | rne | rz | ru | rd | dyn
  deriving DecidableEq, Repr

/-- Integer conditions 0 to 5 of R105. -/
inductive ICond where
  | eq | ne | lt | le | gt | ge
  deriving DecidableEq, Repr

/-- Float conditions 0 to 7 of R105. -/
inductive FCond where
  | eq | ne | lt | le | gt | ge | un | ord
  deriving DecidableEq, Repr

/-- Orders 0 to 5 of R105. -/
inductive Order where
  | weak | rlx | acq | rel | acqRel | sc
  deriving DecidableEq, Repr

/-- Scopes 0 to 4 of R105. -/
inductive Scope where
  | skein | block | die | device | system
  deriving DecidableEq, Repr

/-- The issue fields of a word (R91): clause start, yield, stall, flag to set, flags to wait for, guard. -/
structure Ctl where
  cls : Bool
  yld : Bool
  stall : BitVec 4
  setf : BitVec 4
  wait : BitVec 12
  gn : Bool
  gp : BitVec 4
  deriving DecidableEq, Repr

/-- A 12-bit operand field (R92): register class with its index, or channel class with its peek bit. -/
inductive Opnd where
  | reg (n : BitVec 10)
  | chan (c : BitVec 10) (peek : Bool)
  deriving DecidableEq, Repr

/-- Operand B, or the imm24 that replaces B and C (R96). -/
inductive SrcImm where
  | src (o : Opnd)
  | imm (v : BitVec 24)
  deriving DecidableEq, Repr

/-- The offset of a memory address (R190): operand B as a vector, or imm12. -/
inductive Offset where
  | vec (o : Opnd)
  | imm (v : BitVec 12)
  deriving DecidableEq, Repr

/-! Operand forms of the integer group (R118). -/

structure Alu2 where
  ty : Ty
  sat : Bool
  d : Opnd
  a : Opnd
  b : SrcImm
  deriving DecidableEq, Repr

structure Alu1 where
  ty : Ty
  sat : Bool
  d : Opnd
  a : Opnd
  deriving DecidableEq, Repr

structure Alu3 where
  ty : Ty
  sat : Bool
  d : Opnd
  a : Opnd
  b : Opnd
  c : Opnd
  deriving DecidableEq, Repr

structure ICmp where
  ty : Ty
  cc : ICond
  p : Opnd
  a : Opnd
  b : Opnd
  deriving DecidableEq, Repr

structure Sel where
  ty : Ty
  d : Opnd
  a : Opnd
  b : Opnd
  p : Opnd
  deriving DecidableEq, Repr

structure AddC where
  ty : Ty
  sub : Bool
  d : Opnd
  a : Opnd
  b : Opnd
  p : Opnd
  deriving DecidableEq, Repr

structure Lea where
  ty : Ty
  sh : BitVec 2
  d : Opnd
  a : Opnd
  b : SrcImm
  deriving DecidableEq, Repr

/-- `pand` operations 0 to 4 (R131). -/
inductive POp where
  | and | or | xor | andn | orn
  deriving DecidableEq, Repr

/-- `vote` operations 0 to 2 (R132). -/
inductive VoteOp where
  | all | any | eq
  deriving DecidableEq, Repr

/-- `lscan` and `lreduce` operations 0 to 5 (R133). -/
inductive ScanOp where
  | add | min | max | and | or | xor
  deriving DecidableEq, Repr

structure Scan where
  op : ScanOp
  ty : Ty
  d : Opnd
  a : Opnd
  deriving DecidableEq, Repr

structure Pack where
  ty : Ty
  sat : Bool
  hi : Bool
  d : Opnd
  a : Opnd
  b : Opnd
  deriving DecidableEq, Repr

/-! Operand forms of the float group (R145). -/

structure Flt1 where
  ty : Ty
  rm : Rm
  d : Opnd
  a : Opnd
  deriving DecidableEq, Repr

structure Flt2 where
  ty : Ty
  rm : Rm
  d : Opnd
  a : Opnd
  b : Opnd
  deriving DecidableEq, Repr

structure Flt3 where
  ty : Ty
  rm : Rm
  d : Opnd
  a : Opnd
  b : Opnd
  c : Opnd
  deriving DecidableEq, Repr

structure FMinMax where
  ty : Ty
  d : Opnd
  a : Opnd
  b : Opnd
  deriving DecidableEq, Repr

structure FCmp where
  ty : Ty
  cc : FCond
  p : Opnd
  a : Opnd
  b : Opnd
  deriving DecidableEq, Repr

/-- `cvt`, `cvti` and `cvtf`: destination type, rounding, SAT, source type (R152). -/
structure Cvt where
  ty : Ty
  rm : Rm
  sat : Bool
  sty : Ty
  d : Opnd
  a : Opnd
  deriving DecidableEq, Repr

/-! Operand forms of the bolt group (R158). -/

structure BAdd where
  ty : Ty
  d : Opnd
  a : Opnd
  deriving DecidableEq, Repr

structure BMac where
  ty : Ty
  d : Opnd
  a : Opnd
  b : Opnd
  deriving DecidableEq, Repr

structure BDot where
  ty : Ty
  mx : Bool
  d : Opnd
  a : Opnd
  b : Opnd
  c : Opnd
  deriving DecidableEq, Repr

structure BRnd where
  ty : Ty
  rm : Rm
  sat : Bool
  d : Opnd
  a : Opnd
  deriving DecidableEq, Repr

/-- Forms 0 to 2 of `bamo`: MOD[6:5] (R158). -/
inductive BForm where
  | value | mul | bolt
  deriving DecidableEq, Repr

structure BAmo where
  ret : Bool
  form : BForm
  ty : Ty
  d : Opnd
  a : Opnd
  b : Opnd
  c : Opnd
  deriving DecidableEq, Repr

structure BCmp where
  cc : ICond
  p : Opnd
  a : Opnd
  b : Opnd
  deriving DecidableEq, Repr

structure BFix where
  ty : Ty
  rm : Rm
  d : Opnd
  a : Opnd
  b : Opnd
  deriving DecidableEq, Repr

structure BAddI where
  ty : Ty
  d : Opnd
  a : Opnd
  e : BitVec 24
  deriving DecidableEq, Repr

/-! Operand forms of the matrix group (R169). -/

structure MMap where
  ty : Ty
  w : Bool
  idx : Bool
  m : Opnd
  a : Opnd
  b : Opnd
  c : Opnd
  deriving DecidableEq, Repr

structure Mma where
  p : BitVec 2
  kb : BitVec 8
  a : Opnd
  b : Opnd
  deriving DecidableEq, Repr

structure MRnd where
  ty : Ty
  rm : Rm
  sat : Bool
  p : BitVec 2
  a : Opnd
  b : Opnd
  deriving DecidableEq, Repr

structure MTile where
  merge : Bool
  p : BitVec 2
  a : Opnd
  b : Opnd
  deriving DecidableEq, Repr

structure Qmx where
  ty : Ty
  sat : Bool
  expl : Bool
  a : Opnd
  b : Opnd
  c : Opnd
  deriving DecidableEq, Repr

/-! Operand forms of the memory group (R190 to R213). -/

structure LdSt where
  ord : Order
  scope : Scope
  promote : Bool
  ty : Ty
  d : Opnd
  a : Opnd
  off : Offset
  deriving DecidableEq, Repr

structure HallLS where
  w : Bool
  ty : Ty
  d : Opnd
  a : Opnd
  off : Offset
  deriving DecidableEq, Repr

structure FeLS where
  ty : Ty
  d : Opnd
  a : Opnd
  off : Offset
  deriving DecidableEq, Repr

/-- Atomic operations 0 to 7 of R206. -/
inductive AOp where
  | add | min | max | and | or | xor | exch | cas
  deriving DecidableEq, Repr

structure Amo where
  op : AOp
  ord : Order
  scope : Scope
  ret : Bool
  promote : Bool
  ty : Ty
  d : Opnd
  a : Opnd
  b : Opnd
  deriving DecidableEq, Repr

structure Cnt where
  hall : Bool
  scope : Scope
  promote : Bool
  a : Opnd
  b : SrcImm
  deriving DecidableEq, Repr

structure CntRd where
  acq : Bool
  hall : Bool
  scope : Scope
  promote : Bool
  d : Opnd
  a : Opnd
  deriving DecidableEq, Repr

/-! What the steps of the engines, caches and links carry. -/

/-- A bolt (R73): ten 64-bit digits, ten pending carries, and S bits [3:0]. -/
structure Bolt where
  dig : List DWord
  car : List Int
  nan : Bool
  pinf : Bool
  ninf : Bool
  poison : Bool
  deriving DecidableEq, Repr

/-- A load request on its way to a home (R255): the load it serves, the line, the LCLK and LEASE it carries, and its
transaction tag (R359). -/
structure LoadReq where
  op : Nat
  sk : Nat
  core : Nat
  ctx : Nat
  la : Nat
  cached : Bool
  bolt : Bool
  strong : Bool
  lclk : Stamp
  lease : Nat
  tag : Nat := 0
  deriving DecidableEq, Repr

/-- A load reply on its way to a core (R255): data, poison of the line's units, wts and rts; `att` names the page
attributes under which the line was asked for (R268), `tag` the request (R359). -/
structure LoadRep where
  op : Nat
  sk : Nat
  core : Nat
  ctx : Nat
  la : Nat
  cached : Bool
  att : Nat
  data : List Byte
  poison : List (Nat × Nat)
  wts : Stamp
  rts : Stamp
  tag : Nat := 0
  deriving DecidableEq, Repr

/-- A write on its way to a home (R255): bytes by physical address, the LCLK it carries, the skeins it came from, and
whether it is a release narrower than device scope (R280). `bad` lists the 32-byte units of the line that arrive poisoned
(R354). -/
structure WriteReq where
  core : Nat
  ctx : Nat
  la : Nat
  bytes : List (Nat × Byte)
  lclk : Stamp
  cached : Bool
  writers : List Nat
  narrow : Bool
  bad : List Nat := []
  deriving DecidableEq, Repr

/-- A write acknowledgement on its way to the writer (R255). -/
structure WriteAck where
  core : Nat
  ctx : Nat
  la : Nat
  bytes : List (Nat × Byte)
  wts : Stamp
  cached : Bool
  writers : List Nat
  deriving DecidableEq, Repr

/-- One lane of a store-fault record (R324): its effective address, 8 bytes of data, the data's poison. -/
structure FaultLane where
  lane : Nat
  ea : DWord
  data : DWord
  poison : Bool
  deriving DecidableEq, Repr

/-- A store-fault record (R324): PC, mask, and the parts of the information word of R243. -/
structure StoreRec where
  sk : Nat
  pc : Pc
  mask : Mask
  cause : Nat
  size : Nat
  slot : Nat
  lanes : List FaultLane
  deriving DecidableEq, Repr

/-- A holder's returned partial on its way to the home (R260, R359). -/
structure RecallAck where
  core : Nat
  la : Nat
  tag : Nat
  bolt : Bolt
  count : Nat
  deriving DecidableEq, Repr

/-- What an ordered entry does to its location (R394). -/
inductive OrdWrite where
  | store (bytes : List (Nat × Byte))
  | amo (op : AOp) (ty : Ty) (val : DWord) (expect : DWord)
  deriving DecidableEq, Repr

/-- An ordered entry (R394): its key, grid, block, issuing skein and lane, the span that its words count for, as the
name of that span and its index (R391), its location, and the load that takes the old value. -/
structure OrdEntry where
  key : DWord
  grid : Nat
  blk : Nat
  ctx : Nat
  core : Nat
  sk : Nat
  span : Option (Nat × Nat)
  lane : Nat
  pa : Nat
  va : Nat
  op : Option Nat
  bolt : Bool
  act : OrdWrite
  backoff : Nat
  deriving DecidableEq, Repr

/-- The ports that number records (R222, R225, R291). `num` is the channel, core, die or ring number. -/
inductive PortKind where
  | shuttle (core : Nat) (ch : Nat)
  | reed (die : Nat)
  | heddle (die : Nat)
  | launch (core : Nat)
  | ring (n : Nat)
  deriving DecidableEq, Repr

/-- A context's view of a port: numbering is per context and port (R225). -/
structure Port where
  ctx : Nat
  kind : PortKind
  deriving DecidableEq, Repr

/-- A copy template (R231). -/
structure Template where
  rowlen : Nat
  planes : Nat
  sstride : Int
  dstride : Int
  spstride : Int
  dpstride : Int
  sfmt : Ty
  dfmt : Ty
  conv : Nat
  sat : Bool
  deriving DecidableEq, Repr

inductive CopyKind where
  | copy | gather | shard
  deriving DecidableEq, Repr

/-- The body of a copy record with its template snapshot (R230, R231). -/
structure CopyRec where
  kind : CopyKind
  src : DWord
  dst : DWord
  rows : Nat
  tmpl : Template
  sspace : Nat
  dspace : Nat
  index : DWord
  version : DWord
  expect : DWord
  stat : DWord
  deriving DecidableEq, Repr

/-- The body of a LAUNCH (R235). -/
structure LaunchRec where
  desc : DWord
  gx : Nat
  gy : Nat
  gz : Nat
  bx : Nat
  bY : Nat
  bz : Nat
  prio : Nat
  filler : Bool
  expd : Bool
  ltag : DWord
  expdig : DWord
  deriving DecidableEq, Repr

/-- The body of a COLL (R236), or the collective binding of a launch (R373). -/
structure CollRec where
  plan : DWord
  src : DWord
  dst : DWord
  elems : Nat
  fmt : Ty
  op : Nat
  rm : Nat
  step : DWord
  deriving DecidableEq, Repr

/-- The body of a record by kind (R222, R236, R389). -/
inductive Rec where
  | copy (r : CopyRec)
  | launch (r : LaunchRec)
  | coll (r : CollRec)
  | cxch (plan : DWord) (npkt : Nat) (ctrs : DWord)
  | side (bid : DWord) (va : DWord)
  | srel (bid : DWord)
  | mark (target : DWord) (inc : DWord) (scope : Nat)
  | qctl (op : Nat) (level : Nat) (digest : DWord)
  deriving DecidableEq, Repr

/-- An element of a reed chunk (R367, R369): its number, bits and poison. -/
structure ChunkElem where
  e : Nat
  x : DWord
  bad : Bool
  deriving DecidableEq, Repr

/-- Where an arrival comes from (R366, R369): this package, a device of the pod, or a bridge. -/
inductive Source where
  | here
  | pod (n : Nat)
  | bridge
  deriving DecidableEq, Repr

/-- A reed chunk from one rank to another (R367, R369): a contribution on its way to the chunk's owner, or a result on its
way to an OUT. `lead` is the lead die of the rank it goes to, `bytes` the length of its payload. -/
structure Chunk where
  src : Source
  planid : DWord
  step : DWord
  chunk : Nat
  rank : Nat
  dest : Nat
  lead : Nat
  bytes : Nat
  elems : List ChunkElem
  deriving DecidableEq, Repr

/-- A chunk that is to be sent again, and the global time from which on (R369). -/
structure Resend where
  chunk : Chunk
  due : Nat
  deriving DecidableEq, Repr

/-- A rank's DIGEST on its way, and where it comes from (R375). -/
structure SentDigest where
  src : Source
  value : DWord
  deriving DecidableEq, Repr

/-- What a late result is (R99, R180): the flag that it lowers, and the group 4 instruction that lands, where it is one. -/
structure Landing where
  flag : Option Nat
  op : Option Nat
  deriving DecidableEq, Repr

/-- One component of a packet (R380). -/
structure Comp where
  bid : DWord
  check : DWord
  dst : DWord
  rdev : Nat
  rdie : Nat
  deriving DecidableEq, Repr

/-- A component of a plan (R378): its SRC, and the component that its packet carries. -/
structure PlanComp where
  src : DWord
  comp : Comp
  deriving DecidableEq, Repr

/-- A heddle packet (R380): the fields of its header, and the 4,096-byte payload with the poison of its bytes (R326,
R354). -/
structure Packet where
  xid : DWord
  entry : Nat
  pod : Nat
  die : Nat
  comps : List Comp
  payload : List (Byte × Bool)
  deriving DecidableEq, Repr

/-- What a receiver tells the heddle of the sending die about a packet or a fallback: the entry and the receiver that name
the component, and a NACK's reason, 1 to 4, with the block that failed (R385), or, as 16 + STATUS, the component's STATUS
(R386). -/
structure NackMsg where
  die : Nat
  xid : DWord
  entry : Nat
  rdev : Nat
  rdie : Nat
  fallback : Bool
  reason : Nat
  bid : DWord
  deriving DecidableEq, Repr

/-- A control message that its requester sends again (R359): a holder's returned partial, a load's request for a line, or
the recall that a holder has answered. -/
inductive CtlMsg where
  | ack (r : RecallAck)
  | renewal (r : LoadReq)
  | recall (core la : Nat)
  deriving DecidableEq, Repr

/-- A request of a peer device (R361, R360): a read, a write, or an atomic on a local address. -/
inductive PeerReq where
  | read (pod : Nat) (pa : Nat) (len : Nat)
  | write (pod : Nat) (pa : Nat) (bytes : List Byte)
  | atomic (pod : Nat) (pa : Nat) (op : AOp) (ty : Ty) (val : DWord) (expect : DWord)
  deriving DecidableEq, Repr

/-- What the access of a walk is (R322 byte 17): a `bamo.ret` and an `msave` stand apart, since their refusals differ. -/
inductive Acc where
  | load | store | atomic | boltAtomic | fetch | tile | tileStore
  deriving DecidableEq, Repr

/-- The instructions and steps: one constructor per row of the opcode table. -/
inductive Instr where
  | nop (h : Ctl)
  | iadd (h : Ctl) (f : Alu2)
  | isub (h : Ctl) (f : Alu2)
  | iadd3 (h : Ctl) (f : Alu3)
  | imul (h : Ctl) (f : Alu2)
  | imulh (h : Ctl) (f : Alu2)
  | imad (h : Ctl) (f : Alu3)
  | idiv (h : Ctl) (f : Alu2)
  | irem (h : Ctl) (f : Alu2)
  | imin (h : Ctl) (f : Alu2)
  | imax (h : Ctl) (f : Alu2)
  | iabs (h : Ctl) (f : Alu1)
  | ineg (h : Ctl) (f : Alu1)
  | and (h : Ctl) (f : Alu2)
  | or (h : Ctl) (f : Alu2)
  | xor (h : Ctl) (f : Alu2)
  | not (h : Ctl) (f : Alu1)
  | shl (h : Ctl) (f : Alu2)
  | shr (h : Ctl) (f : Alu2)
  | sar (h : Ctl) (f : Alu2)
  | rot (h : Ctl) (f : Alu2)
  | bfx (h : Ctl) (f : Alu2)
  | bfi (h : Ctl) (f : Alu3)
  | popc (h : Ctl) (f : Alu1)
  | clz (h : Ctl) (f : Alu1)
  | ctz (h : Ctl) (f : Alu1)
  | brev (h : Ctl) (f : Alu1)
  | icmp (h : Ctl) (f : ICmp)
  | sel (h : Ctl) (f : Sel)
  | iaddc (h : Ctl) (f : AddC)
  | lea (h : Ctl) (f : Lea)
  | mov (h : Ctl) (wide : Bool) (d a : Opnd)
  | movi (h : Ctl) (d : Opnd) (imm : Word)
  | pand (h : Ctl) (op : POp) (d a b : Opnd)
  | pmovToPred (h : Ctl) (d a : Opnd)
  | pmovToReg (h : Ctl) (d a : Opnd)
  | vote (h : Ctl) (op : VoteOp) (d a : Opnd)
  | voteBallot (h : Ctl) (d a : Opnd)
  | lbcast (h : Ctl) (d a : Opnd) (b : SrcImm)
  | lshuf (h : Ctl) (d a b : Opnd)
  | lrot (h : Ctl) (d a : Opnd) (b : SrcImm)
  | lscan (h : Ctl) (f : Scan)
  | lreduce (h : Ctl) (f : Scan)
  | shape (h : Ctl) (d a : Opnd)
  | unif (h : Ctl) (d a : Opnd)
  | affine (h : Ctl) (d a : Opnd) (b : SrcImm)
  | pack (h : Ctl) (f : Pack)
  | unpack (h : Ctl) (ty : Ty) (j : BitVec 2) (d a : Opnd)
  | perm (h : Ctl) (d a b c : Opnd)
  | chstat (h : Ctl) (d a : Opnd)
  | fadd (h : Ctl) (f : Flt2)
  | fsub (h : Ctl) (f : Flt2)
  | fmul (h : Ctl) (f : Flt2)
  | ffma (h : Ctl) (f : Flt3)
  | fmin (h : Ctl) (f : FMinMax)
  | fmax (h : Ctl) (f : FMinMax)
  | fcmp (h : Ctl) (f : FCmp)
  | fclass (h : Ctl) (ty : Ty) (d a : Opnd)
  | frcp (h : Ctl) (f : Flt1)
  | frsq (h : Ctl) (f : Flt1)
  | fsqrt (h : Ctl) (f : Flt1)
  | fdiv (h : Ctl) (f : Flt2)
  | fex2 (h : Ctl) (f : Flt1)
  | flg2 (h : Ctl) (f : Flt1)
  | fsin (h : Ctl) (f : Flt1)
  | fcos (h : Ctl) (f : Flt1)
  | ftanh (h : Ctl) (f : Flt1)
  | fscl (h : Ctl) (f : Flt2)
  | frint (h : Ctl) (f : Flt1)
  | cvt (h : Ctl) (f : Cvt)
  | cvti (h : Ctl) (f : Cvt)
  | cvtf (h : Ctl) (f : Cvt)
  | bzero (h : Ctl) (d : Opnd)
  | badd (h : Ctl) (f : BAdd)
  | bmac (h : Ctl) (f : BMac)
  | bdot (h : Ctl) (f : BDot)
  | bmerge (h : Ctl) (d a b : Opnd)
  | bneg (h : Ctl) (d a : Opnd)
  | bnorm (h : Ctl) (d a : Opnd)
  | brnd (h : Ctl) (f : BRnd)
  | bfold (h : Ctl) (d a : Opnd)
  | bstat (h : Ctl) (d a : Opnd)
  | bld (h : Ctl) (d a : Opnd)
  | bst (h : Ctl) (a b : Opnd)
  | bamo (h : Ctl) (f : BAmo)
  | bcmp (h : Ctl) (f : BCmp)
  | bexp (h : Ctl) (d a : Opnd)
  | bfix (h : Ctl) (f : BFix)
  | baddi (h : Ctl) (f : BAddI)
  | mmap (h : Ctl) (f : MMap)
  | mma (h : Ctl) (f : Mma)
  | mmag (h : Ctl) (f : Mma)
  | mzero (h : Ctl) (p : BitVec 2)
  | mrnd (h : Ctl) (f : MRnd)
  | msave (h : Ctl) (f : MTile)
  | mload (h : Ctl) (f : MTile)
  | mmerge (h : Ctl) (p q : BitVec 2)
  | qmx (h : Ctl) (f : Qmx)
  | dqmx (h : Ctl) (ty : Ty) (d a : Opnd)
  | qscale (h : Ctl) (ty : Ty) (d a : Opnd)
  | ld (h : Ctl) (f : LdSt)
  | st (h : Ctl) (f : LdSt)
  | ldh (h : Ctl) (f : HallLS)
  | sth (h : Ctl) (f : HallLS)
  | ldf (h : Ctl) (f : FeLS)
  | ste (h : Ctl) (f : FeLS)
  | ldw (h : Ctl) (f : FeLS)
  | fe (h : Ctl) (full : Bool) (a : Opnd) (b : SrcImm)
  | amo (h : Ctl) (f : Amo)
  | amoh (h : Ctl) (f : Amo)
  | pref (h : Ctl) (l2 : Bool) (a : Opnd) (off : Offset)
  | cflush (h : Ctl) (scope : Scope) (a : Opnd) (off : Offset)
  | bra (h : Ctl) (off : BitVec 24)
  | brx (h : Ctl) (a : Opnd)
  | call (h : Ctl) (d : Opnd) (off : BitVec 24)
  | ret (h : Ctl) (a : Opnd)
  | shed (h : Ctl) (neg : Bool) (a : Opnd) (e c : BitVec 12)
  | close (h : Ctl)
  | regroup (h : Ctl) (a : Opnd)
  | exit (h : Ctl)
  | yield (h : Ctl)
  | meet (h : Ctl)
  | fence (h : Ctl) (ord : Order) (scope : Scope) (promote : Bool)
  | cntsig (h : Ctl) (f : Cnt)
  | cntwait (h : Ctl) (f : Cnt)
  | cntrd (h : Ctl) (f : CntRd)
  | ifence (h : Ctl)
  | drains (h : Ctl)
  | tbeg (h : Ctl) (a b : Opnd)
  | tend (h : Ctl)
  | submit (h : Ctl) (d a b : Opnd)
  | csrr (h : Ctl) (d : Opnd) (csr : BitVec 24)
  | csrw (h : Ctl) (a : Opnd) (csr : BitVec 24)
  | trap (h : Ctl) (imm : BitVec 24)
  | eret (h : Ctl)
  | sfrq (h : Ctl) (d : Opnd)
  | kill (h : Ctl)
  | brk (h : Ctl) (imm : BitVec 24)
  | sleep (h : Ctl) (a : SrcImm)
  | clockGt (h : Ctl) (d : Opnd)
  | clockAc (h : Ctl) (d : Opnd)
  | meter (h : Ctl) (d : Opnd) (a : SrcImm)
  | dgrdTask (h : Ctl) (d : Opnd)
  | dgrdExp (h : Ctl) (d : Opnd)
  | illegalOp (op : BitVec 8)
  -- steps around the issue of a skein
  | lineFetch (sk line : Nat)
  | stallElapse (sk : Nat)
  | issuePromotion (sk : Nat)
  | resultLand (sk : Nat) (r : Landing)
  | loadDataLand (sk op : Nat)
  | storeFaultRecord (r : StoreRec)
  | storeFault (sk : Nat)
  | boundaryCause (sk : Nat)
  | skeinWake (sk : Nat)
  | waitWatchdog (sk : Nat)
  | sleepExpire (sk : Nat)
  | leaveGrant (core : Nat)
  | allowanceRefill (core : Nat)
  -- caches and homes
  | scbDrain (core la : Nat)
  | homeLoad (r : LoadReq)
  | loadReply (r : LoadRep)
  | homeWrite (r : WriteReq)
  | writeAck (r : WriteAck)
  | lclkTick (core : Nat)
  | pclkBroadcast
  | l2Evict (la : Nat)
  | countWake (sk : Nat)
  | recall (la : Nat)
  | recallAck (r : RecallAck)
  | partialReturn (core la : Nat)
  | controlReissue (m : CtlMsg)
  | tagExpire (slice tag : Nat)
  | promoteDrain (core la : Nat)
  | translationWalk (sk : Nat) (va : DWord) (acc : Acc)
  | orderedEntryApply (slice : Nat)
  | orderedRetry (e : OrdEntry)
  | frontierUpdate (grid : Nat)
  -- records of the engines
  | copy (p : Port) (n : Nat)
  | copyGather (p : Port) (n : Nat)
  | gatherShard (p : Port) (n : Nat)
  | copyRow (p : Port) (n : Nat)
  | recordComplete (p : Port) (n : Nat)
  | mark (p : Port) (n : Nat)
  | launch (p : Port) (n : Nat)
  | coll (p : Port) (n : Nat)
  | cxch (p : Port) (n : Nat)
  | side (p : Port) (n : Nat)
  | srel (p : Port) (n : Nat)
  | setlevel (p : Port) (n : Nat)
  | expect (p : Port) (n : Nat)
  | reexec (p : Port) (n : Nat)
  | ringPoll (ctx ring : Nat)
  -- the scheduler
  | blockPlace (die : Nat)
  | stealRequest (grid victim thief : Nat)
  | stealReply (grid thief : Nat) (blocks : List Nat)
  | gridComplete (grid : Nat)
  | preemptionPoint (die : Nat)
  | blockSave (blk : Nat)
  | blockRestore (blk core : Nat)
  | hallcSave (ctx core : Nat)
  | starvationGuard (ctx : Nat)
  | guardQuantumEnd (ctx : Nat)
  | channelStall (blk : Nat)
  | eventBacklogPost (ctx die : Nat)
  | eventInterrupt (ctx die : Nat)
  -- the reed
  | chunkArrival (c : Chunk)
  | chunkResend (c : Resend)
  | collChunkFire (grid idx : Nat) (bad : Bool)
  | reduceBlock (p : Port) (n chunk : Nat)
  | collComplete (p : Port) (n : Nat)
  | digestArrival (planid step : DWord) (rank dest : Nat) (digest : SentDigest)
  -- the heddle
  | packetDecode (die : Nat) (pk : Packet)
  | nack (m : NackMsg)
  | fallbackArrival (die : Nat) (pk : Packet)
  | bucketRefill (ctx die : Nat) (shuttles : Bool)
  -- clock, power, network
  | wholePackageBubble (n : Nat)
  | networkModeChange (fixed : Bool)
  | degradeWindow (m : Nat)
  | quietPoint (m : Nat)
  | trainingDone (m : Nat) (ok : Bool)
  | moduleRetire (m : Nat)
  | stairSleep (die : Nat)
  | stairWake (die : Nat)
  | stairWakeSlow (m : Nat)
  | linkDown (m : Nat)
  -- the host and the management processor
  | retire (ctx : Nat)
  | meterreq (ctx pa : Nat)
  | signRecord
  | faultRetry (ctx id : Nat)
  | faultRefuse (ctx id : Nat)
  | engineRetry (ctx num : Nat)
  | engineRefuse (ctx num : Nat)
  | halt (ctx : Nat) (on : Bool)
  | quiesce (ctx : Nat)
  | ttroot (ctx : Nat) (v : DWord)
  | quantum (ctx : Nat) (v : DWord)
  | ringen (ctx : Nat) (v : DWord)
  | invalidation
  | stairRate (m : Nat) (v : DWord)
  | readmit (m : Nat)
  | wakeSuccess (m : Nat)
  -- rows that only come from outside the package, or that only time brings about
  | hostWrite (func pa : Nat) (bytes : List Byte)
  | hostRead (func pa len : Nat)
  | peerRequest (r : PeerReq)
  | governorSample (watts tj : Nat)
  | escapeTimeout (flow : Nat)
  | flitCrcError (m : Nat) (lanes : List Nat) (replayed cycles : Nat)
  | ualPort (p state lanes : Nat)
  | ualPortActive (p : Nat) (peer : DWord) (peerport lanes : Nat)
  | create (ctx pa func : Nat)
  | join (ctx pa : Nat)
  | firmwareLoad (len : Nat) (good : Bool) (version : Nat)
  | registerWrite (off : Nat) (v : DWord)
  | packageReset (good : Bool) (version : Nat)
  | bringUpStep (ok : Bool)
  | hostAbort (ctx : Nat)
  | rankTimeout (planid step : DWord) (rank : Nat)
  deriving DecidableEq, Repr

end Sys2Proof
end

