-- ==== Sys2Proof/WellFormed.lean ====
section
/-! DEFINITION. Which instructions are words of the opcode map: operand kinds (R93), type lists, modifier limits and
guards of each entry. A step that no skein issues is well formed as it stands. -/

namespace Sys2Proof

/-! ## Operand kinds (R93) -/

/-- A field that the entry does not use is all zero (R92). -/
def Opnd.isNone (o : Opnd) : Bool := o == .reg 0

/-- A channel-class field naming c0 to c31. -/
def Opnd.isChan : Opnd → Bool
  | .chan c _ => c.toNat < 32
  | .reg _ => false

/-- A vector register or a defined special register as a source (R28, R93). -/
def Opnd.isVec : Opnd → Bool
  | .reg n => n.toNat ≤ 658
  | .chan _ _ => false

/-- A vector register v0 to v639. -/
def Opnd.isReg : Opnd → Bool
  | .reg n => n.toNat < 640
  | .chan _ _ => false

/-- A register pair: its first register is 0 to 638. -/
def Opnd.isPair : Opnd → Bool
  | .reg n => n.toNat ≤ 638
  | .chan _ _ => false

/-- A vector source or a channel. -/
def Opnd.isVecOrChan (o : Opnd) : Bool := o.isVec || o.isChan

/-- A destination: a vector register, or a channel that is pushed (peek bit 0). -/
def Opnd.isDst : Opnd → Bool
  | .reg n => n.toNat < 640
  | .chan c p => c.toNat < 32 && !p

/-- A bolt group: a multiple of 24 from 0 to 600. -/
def Opnd.isBolt : Opnd → Bool
  | .reg n => n.toNat ≤ 600 && n.toNat % 24 == 0
  | .chan _ _ => false

/-- A predicate source p0 to p14 or pt. -/
def Opnd.isPred : Opnd → Bool
  | .reg n => n.toNat ≤ 15
  | .chan _ _ => false

/-- A predicate destination p0 to p14. -/
def Opnd.isPredDst : Opnd → Bool
  | .reg n => n.toNat ≤ 14
  | .chan _ _ => false

/-- A map slot m0 to m15. -/
def Opnd.isMap : Opnd → Bool
  | .reg n => n.toNat ≤ 15
  | .chan _ _ => false

/-! ## Type lists -/

/-- i32, i64, n32, n64 (R124). -/
def Ty.isAlu : Ty → Bool
  | .i32 | .i64 | .n32 | .n64 => true
  | _ => false

/-- The types that take a register pair. -/
def Ty.is64 : Ty → Bool
  | .i64 | .n64 => true
  | _ => false

/-- The integer kinds (R53). -/
def Ty.isInt : Ty → Bool
  | .i8 | .i16 | .i32 | .i64 | .n8 | .n16 | .n32 | .n64 => true
  | _ => false

/-- The set S of R145: f32, f16, bf16. -/
def Ty.isS : Ty → Bool
  | .f32 | .f16 | .bf16 => true
  | _ => false

/-- The set X of R145: S and the packed pairs. -/
def Ty.isX : Ty → Bool
  | .f32 | .f16 | .bf16 | .f16x2 | .bf16x2 => true
  | _ => false

/-- The MX element formats (R59). -/
def Ty.isMx : Ty → Bool
  | .e5m2 | .e4m3 | .e3m2 | .e2m3 | .e2m1 => true
  | _ => false

/-- The set V of R158. -/
def Ty.isV : Ty → Bool
  | .f32 | .f16 | .bf16 | .f16x2 | .bf16x2 | .e5m2 | .e4m3 | .e3m2 | .e2m3 | .e2m1
  | .i8 | .i16 | .i32 | .n8 | .n16 | .n32 => true
  | _ => false

/-- The set P of R158. -/
def Ty.isP : Ty → Bool
  | .f32 | .f16 | .bf16 | .f16x2 | .bf16x2 | .e5m2 | .e4m3 | .i8 | .i32 => true
  | _ => false

/-- The types of `bdot` (R158). -/
def Ty.isDot : Ty → Bool
  | .f16x2 | .bf16x2 | .e5m2 | .e4m3 | .e2m1 | .i8 => true
  | _ => false

/-- The targets of `brnd` and `mrnd` (R158, R169). -/
def Ty.isRnd : Ty → Bool
  | .f32 | .f16 | .bf16 | .e5m2 | .e4m3 => true
  | _ => false

/-- The element formats of an operand map (R169). -/
def Ty.isMapTy : Ty → Bool
  | .f32 | .f16 | .bf16 | .i8 | .e5m2 | .e4m3 | .e3m2 | .e2m3 | .e2m1 => true
  | _ => false

/-- The pairs that `cvt` accepts, source first: X, R and "See below" of R66. -/
def Ty.cvtPair : Ty → Ty → Bool
  | .f32, d => d == .e8m0 || (d.isS && d != .f32) || d.isMx
  | .e8m0, d => d == .f32
  | s, d => (s.isS || s.isMx) && (d.isS || d.isMx) && s != d

/-! ## Control fields and CSRs -/

/-- SETF is 0 to 11 or 15, and the guard is not `!pt` (R95, R99). -/
def Ctl.wf (h : Ctl) : Bool :=
  (h.setf.toNat < 12 || h.setf.toNat == 15) && !(h.gn && h.gp == 15)

/-- The guard `pt` (R137, R239). -/
def Ctl.isPt (h : Ctl) : Bool := !h.gn && h.gp == 15

/-- CSRs of 64 bits, which take a pair (R31). -/
def csrIs64 (n : Nat) : Bool :=
  n == 1 || n == 3 || n == 4 || n == 5 || n == 0x14 || (0x40 ≤ n && n ≤ 0x5F)

/-! ## Forms -/

/-- Operand B of a scalar or pair form, or its immediate. -/
def SrcImm.wfAlu (wide : Bool) : SrcImm → Bool
  | .src o => if wide then o.isPair else o.isVecOrChan
  | .imm _ => true

/-- A single operand B (R117): never a pair. -/
def SrcImm.wfSingle : SrcImm → Bool
  | .src o => o.isVecOrChan
  | .imm _ => true

/-- Operand B of group 1 forms: a vector or special register. -/
def SrcImm.wfVec : SrcImm → Bool
  | .src o => o.isVec
  | .imm _ => true

/-- A data operand of group 0 under a type (R117). -/
def Opnd.isAluSrc (o : Opnd) (t : Ty) : Bool := if t.is64 then o.isPair else o.isVecOrChan

/-- A destination of group 0 under a type (R117). -/
def Opnd.isAluDst (o : Opnd) (t : Ty) : Bool := if t.is64 then o.isPair else o.isDst

def Alu2.wf (f : Alu2) (sat : Bool) : Bool :=
  f.ty.isAlu && (sat || !f.sat) && f.d.isAluDst f.ty && f.a.isAluSrc f.ty && f.b.wfAlu f.ty.is64

/-- Shifts: operand B is single (R126). -/
def Alu2.wfShift (f : Alu2) : Bool :=
  f.ty.isAlu && !f.sat && f.d.isAluDst f.ty && f.a.isAluSrc f.ty && f.b.wfSingle

/-- `bfx`: an imm24 descriptor has bits [23:16] zero (R126). -/
def Alu2.wfBfx (f : Alu2) : Bool :=
  f.wfShift && match f.b with
    | .imm v => v.toNat < 0x10000
    | .src _ => true

def Alu1.wf (f : Alu1) (sat : Bool) : Bool :=
  f.ty.isAlu && (sat || !f.sat) && f.d.isAluDst f.ty && f.a.isAluSrc f.ty

/-- `popc`, `clz`, `ctz`: the result is single (R126). -/
def Alu1.wfCount (f : Alu1) : Bool :=
  f.ty.isAlu && !f.sat && f.d.isDst && f.a.isAluSrc f.ty

def Alu3.wf (f : Alu3) (sat : Bool) : Bool :=
  f.ty.isAlu && (sat || !f.sat) && f.d.isAluDst f.ty && f.a.isAluSrc f.ty && f.b.isAluSrc f.ty
    && f.c.isAluSrc f.ty

/-- `bfi`: operand C, the descriptor, is single (R126). -/
def Alu3.wfBfi (f : Alu3) : Bool :=
  f.ty.isAlu && !f.sat && f.d.isAluDst f.ty && f.a.isAluSrc f.ty && f.b.isAluSrc f.ty && f.c.isVecOrChan

def Flt1.wf (f : Flt1) : Bool := f.ty.isS && f.d.isDst && f.a.isVecOrChan

def Flt2.wf (f : Flt2) (ok : Ty → Bool) : Bool :=
  ok f.ty && f.d.isDst && f.a.isVecOrChan && f.b.isVecOrChan

def Offset.wf : Offset → Bool
  | .vec o => o.isVec
  | .imm _ => true

/-- The data operand of an access: a vector register, or a pair for 64-bit types (R192). -/
def Opnd.isData (o : Opnd) (t : Ty) : Bool := if t.is64 then o.isPair else o.isReg

/-- Weak order takes scope 0 and no promotion (R192). -/
def LdSt.wf (f : LdSt) (strong : Order) (prom : Bool) : Bool :=
  f.ty.isInt && f.d.isData f.ty && f.a.isPair && f.off.wf
    && (f.ord == .weak || f.ord == .rlx || f.ord == strong)
    && (f.ord != .weak || f.scope == .skein)
    && (!f.promote || (prom && f.ord == .acq))

def HallLS.wf (f : HallLS) : Bool :=
  f.ty.isInt && f.d.isData f.ty && f.a.isVec && f.off.wf

/-- `ldf`, `ste`, `ldw` take i32 or n32 (R200). -/
def FeLS.wf (f : FeLS) : Bool :=
  (f.ty == .i32 || f.ty == .n32) && f.d.isReg && f.a.isVec && f.off.wf

def Amo.wf (f : Amo) (hall : Bool) : Bool :=
  f.ty.isAlu && (f.ord != .weak && f.ord != .sc) && (f.op != .cas || f.ret)
    && (if f.ret then f.d.isData f.ty else f.d.isNone)
    && (if hall then f.a.isVec && !f.promote && (f.scope == .skein || f.scope == .block) else f.a.isPair)
    && (!f.promote || f.ord == .acq || f.ord == .acqRel)
    && (if f.ty.is64 then f.b.isPair else f.b.isVec)

/-- A count-word address: a hall A offset under HALL, else a pair (R213). -/
def Cnt.wf (f : Cnt) (prom : Bool) : Bool :=
  (if f.hall then f.a.isVec && (f.scope == .skein || f.scope == .block) else f.a.isPair)
    && (prom || !f.promote)
    && match f.b with
      | .src o => o.isPair
      | .imm _ => true

/-- The instruction is a word of the opcode map, or a step that no word encodes. -/
def Instr.wf : Instr → Bool
  | .nop h => h.wf
  | .iadd h f | .isub h f | .imul h f | .idiv h f => h.wf && f.wf true
  | .iadd3 h f | .imad h f => h.wf && f.wf true
  | .imulh h f | .irem h f | .imin h f | .imax h f | .and h f | .or h f | .xor h f => h.wf && f.wf false
  | .iabs h f => h.wf && f.wf true && (f.ty == .i32 || f.ty == .i64)
  | .ineg h f => h.wf && f.wf true
  | .not h f | .brev h f => h.wf && f.wf false
  | .shl h f | .shr h f | .sar h f | .rot h f => h.wf && f.wfShift
  | .bfx h f => h.wf && f.wfBfx
  | .bfi h f => h.wf && f.wfBfi
  | .popc h f | .clz h f | .ctz h f => h.wf && f.wfCount
  | .icmp h f => h.wf && f.ty.isAlu && f.p.isPredDst && f.a.isAluSrc f.ty && f.b.isAluSrc f.ty
  | .sel h f => h.wf && f.ty.isAlu && f.d.isAluDst f.ty && f.a.isAluSrc f.ty && f.b.isAluSrc f.ty && f.p.isPred
  | .iaddc h f =>
    h.wf && f.ty.isAlu && f.d.isAluDst f.ty && f.a.isAluSrc f.ty && f.b.isAluSrc f.ty && f.p.isPredDst
  | .lea h f => h.wf && (f.ty == .i32 || f.ty == .n32) && f.d.isPair && f.a.isPair && f.b.wfSingle
  | .mov h wide d a => h.wf && if wide then d.isPair && a.isPair else d.isDst && a.isVecOrChan
  | .movi h d _ => h.wf && d.isReg
  | .pand h _ d a b => h.wf && d.isPredDst && a.isPred && b.isPred
  | .pmovToPred h d a => h.wf && d.isPredDst && a.isVec
  | .pmovToReg h d a => h.wf && d.isReg && a.isPred
  | .vote h _ d a => h.wf && d.isPredDst && a.isPred
  | .voteBallot h d a => h.wf && d.isPair && a.isPred
  | .lbcast h d a b | .lrot h d a b | .affine h d a b => h.wf && d.isReg && a.isVec && b.wfVec
  | .lshuf h d a b => h.wf && d.isReg && a.isVec && b.isVec
  | .lscan h f | .lreduce h f => h.wf && (f.ty == .i32 || f.ty == .n32) && f.d.isReg && f.a.isVec
  | .shape h d a | .unif h d a => h.wf && d.isReg && a.isVec
  | .pack h f =>
    h.wf && (f.ty == .i8 || f.ty == .n8 || ((f.ty == .i16 || f.ty == .n16) && !f.hi)) && f.d.isReg && f.a.isVec
      && f.b.isVec
  | .unpack h ty j d a =>
    h.wf && (ty == .i8 || ty == .n8 || ((ty == .i16 || ty == .n16) && j.toNat < 2)) && d.isReg && a.isVec
  | .perm h d a b c => h.wf && d.isReg && a.isVec && b.isVec && c.isVec
  | .chstat h d a => h.wf && d.isReg && match a with
    | .chan c p => c.toNat < 32 && !p
    | .reg _ => false
  | .fadd h f | .fsub h f | .fmul h f => h.wf && f.wf Ty.isX
  | .ffma h f => h.wf && f.ty.isX && f.d.isDst && f.a.isVecOrChan && f.b.isVecOrChan && f.c.isVecOrChan
  | .fmin h f | .fmax h f => h.wf && f.ty.isX && f.d.isDst && f.a.isVecOrChan && f.b.isVecOrChan
  | .fcmp h f => h.wf && f.ty.isS && f.p.isPredDst && f.a.isVecOrChan && f.b.isVecOrChan
  | .fclass h ty d a => h.wf && ty.isS && d.isDst && a.isVecOrChan
  | .frcp h f | .frsq h f | .fsqrt h f | .fex2 h f | .flg2 h f | .fsin h f | .fcos h f | .ftanh h f
  | .frint h f => h.wf && f.wf
  | .fdiv h f | .fscl h f => h.wf && f.wf Ty.isS
  | .cvt h f => h.wf && f.sty.cvtPair f.ty && (!f.sat || f.ty.isMx) && f.d.isDst && f.a.isVecOrChan
  | .cvti h f =>
    h.wf && f.ty.isInt && f.sty.isS && !f.sat && f.d.isAluDst f.ty && f.a.isVecOrChan
  | .cvtf h f =>
    h.wf && f.ty.isS && f.sty.isInt && !f.sat && f.d.isDst && f.a.isAluSrc f.sty
  | .bzero h d => h.wf && d.isBolt
  | .badd h f => h.wf && f.ty.isV && f.d.isBolt && f.a.isVec
  | .bmac h f => h.wf && f.ty.isP && f.d.isBolt && f.a.isVec && f.b.isVec
  | .bdot h f =>
    h.wf && f.ty.isDot && f.d.isBolt && f.a.isVec && f.b.isVec
      && if f.mx then (f.ty == .e5m2 || f.ty == .e4m3 || f.ty == .e2m1) && f.c.isVec else f.c.isNone
  | .bmerge h d a b => h.wf && d.isBolt && a.isBolt && b.isBolt
  | .bneg h d a | .bnorm h d a | .bfold h d a => h.wf && d.isBolt && a.isBolt
  | .brnd h f => h.wf && f.ty.isRnd && (!f.sat || f.ty == .e5m2 || f.ty == .e4m3) && f.d.isReg && f.a.isBolt
  | .bstat h d a | .bexp h d a => h.wf && d.isReg && a.isBolt
  | .bld h d a => h.wf && d.isBolt && a.isPair
  | .bst h a b => h.wf && a.isPair && b.isBolt
  | .bamo h f =>
    h.wf && (if f.ret then f.d.isBolt else f.d.isNone) && f.a.isPair
      && match f.form with
        | .value => f.ty.isV && f.b.isVec && f.c.isNone
        | .mul => f.ty.isP && f.b.isVec && f.c.isVec
        | .bolt => f.ty == .i8 && f.b.isBolt && f.c.isNone
  | .bcmp h f => h.wf && f.p.isPredDst && f.a.isBolt && f.b.isBolt
  | .bfix h f =>
    h.wf && (f.ty == .i32 || f.ty == .i64) && f.d.isData f.ty && f.a.isBolt && f.b.isVec
  | .baddi h f =>
    h.wf && (f.ty == .i32 || f.ty == .i64) && f.d.isBolt && (if f.ty == .i64 then f.a.isPair else f.a.isVec)
      && (-300 ≤ f.e.toInt) && (f.e.toInt ≤ if f.ty == .i64 then 208 else 240)
  | .mmap h f => h.wf && f.ty.isMapTy && f.m.isMap && f.a.isVec && f.b.isVec && if f.idx then f.c.isVec else f.c.isNone
  | .mma h f | .mmag h f => h.wf && f.kb != 0 && f.a.isMap && f.b.isMap
  | .mzero h _ | .mmerge h _ _ => h.wf
  | .mrnd h f => h.wf && f.ty.isRnd && (!f.sat || f.ty == .e5m2 || f.ty == .e4m3) && f.a.isVec && f.b.isVec
  | .msave h f => h.wf && f.a.isPair && f.b.isVec
  | .mload h f => h.wf && f.a.isPair && f.b.isVec && !f.merge
  | .qmx h f => h.wf && f.ty.isMx && f.a.isVec && f.b.isVec && if f.expl then f.c.isVec else f.c.isNone
  | .dqmx h ty d a | .qscale h ty d a => h.wf && ty.isMx && d.isReg && a.isVec
  | .ld h f => h.wf && f.wf .acq true
  | .st h f => h.wf && f.wf .rel false
  | .ldh h f | .sth h f => h.wf && f.wf
  | .ldf h f | .ste h f | .ldw h f => h.wf && f.wf
  | .fe h _ a b => h.wf && a.isVec && b.wfVec
  | .amo h f => h.wf && f.wf false
  | .amoh h f => h.wf && f.wf true
  | .pref h _ a off => h.wf && a.isPair && off.wf
  | .cflush h sc a off => h.wf && a.isPair && off.wf && sc != .skein && sc != .block
  | .bra h _ => h.wf
  | .brx h a | .ret h a => h.wf && a.isPair
  | .call h d _ => h.wf && d.isPair
  | .shed h _ a e c => h.wf && h.isPt && a.isPred && 1 ≤ e.toNat && e.toNat ≤ c.toNat
  | .close h | .meet h | .eret h | .kill h => h.wf && h.isPt
  | .regroup h a => h.wf && h.isPt && a.isPred
  | .exit h | .yield h | .ifence h | .drains h | .tend h | .trap h _ | .brk h _ => h.wf
  | .fence h o _ p => h.wf && o != .weak && o != .rlx && (!p || o != .rel)
  | .cntsig h f => h.wf && f.wf false
  | .cntwait h f => h.wf && f.wf true
  | .cntrd h f =>
    h.wf && f.d.isPair && (if f.hall then f.a.isVec && (f.scope == .skein || f.scope == .block) else f.a.isPair)
      && (!f.promote || f.acq)
  | .tbeg h a b => h.wf && a.isPair && b.isVec
  | .submit h d a b => h.wf && d.isPair && a.isVec && match b with
    | .reg n => n.toNat ≤ 624
    | .chan _ _ => false
  | .csrr h d csr => h.wf && csr.toNat < 0x1000 && if csrIs64 csr.toNat then d.isPair else d.isReg
  | .csrw h a csr => h.wf && csr.toNat < 0x1000 && if csrIs64 csr.toNat then a.isPair else a.isVec
  | .sfrq h d => h.wf && match d with
    | .reg n => n.toNat ≤ 630
    | .chan _ _ => false
  | .sleep h a => h.wf && a.wfVec
  | .clockGt h d | .clockAc h d | .dgrdTask h d | .dgrdExp h d => h.wf && d.isPair
  | .meter h d a => h.wf && d.isPair && match a with
    | .src o => o.isVec
    | .imm v => v.toNat ≤ 32
  | .lineFetch .. | .stallElapse .. | .issuePromotion .. | .resultLand .. | .loadDataLand .. | .storeFaultRecord ..
  | .storeFault .. | .boundaryCause .. | .skeinWake .. | .waitWatchdog .. | .sleepExpire .. | .leaveGrant ..
  | .allowanceRefill .. | .scbDrain .. | .homeLoad .. | .loadReply .. | .homeWrite .. | .writeAck .. | .lclkTick ..
  | .pclkBroadcast | .l2Evict .. | .countWake .. | .recall .. | .recallAck .. | .partialReturn ..
  | .controlReissue .. | .tagExpire .. | .promoteDrain .. | .hostWrite .. | .hostRead .. | .peerRequest ..
  | .translationWalk .. | .orderedEntryApply .. | .orderedRetry .. | .frontierUpdate .. | .copy .. | .copyGather ..
  | .gatherShard .. | .copyRow .. | .recordComplete .. | .mark .. | .launch .. | .coll .. | .cxch .. | .side ..
  | .srel .. | .setlevel .. | .expect .. | .reexec .. | .ringPoll .. | .blockPlace .. | .stealRequest ..
  | .stealReply .. | .gridComplete .. | .preemptionPoint .. | .blockSave .. | .blockRestore .. | .hallcSave ..
  | .starvationGuard .. | .guardQuantumEnd .. | .channelStall .. | .eventBacklogPost .. | .eventInterrupt ..
  | .chunkArrival .. | .chunkResend .. | .collChunkFire .. | .reduceBlock .. | .collComplete .. | .digestArrival ..
  | .rankTimeout .. | .packetDecode .. | .nack .. | .fallbackArrival .. | .bucketRefill .. | .wholePackageBubble ..
  | .governorSample .. | .escapeTimeout .. | .networkModeChange .. | .flitCrcError .. | .degradeWindow ..
  | .quietPoint .. | .trainingDone .. | .moduleRetire .. | .stairSleep .. | .stairWake .. | .stairWakeSlow ..
  | .linkDown .. | .ualPort .. | .create .. | .retire .. | .meterreq .. | .signRecord | .faultRetry ..
  | .faultRefuse .. | .engineRetry .. | .engineRefuse .. | .halt .. | .quiesce .. | .join .. | .ttroot ..
  | .quantum .. | .ringen .. | .invalidation | .stairRate .. | .readmit .. | .firmwareLoad .. | .registerWrite ..
  | .packageReset .. | .bringUpStep .. | .hostAbort .. | .illegalOp .. | .wakeSuccess .. | .ualPortActive .. => true

end Sys2Proof
end

