-- ==== Sys2Proof/Decode.lean ====
section
/-! DEFINITION. The encoding of instruction words (R91, R92, R96, R102 to R106 and each entry's table): `decode` reads
a 96-bit word and answers an instruction, ILLEGAL_OP or ILLEGAL_ENC; `encode` lays a well-formed instruction out. -/

namespace Sys2Proof

/-- Why a word is no instruction (R106). -/
inductive DecodeErr where
  | illegalOp
  | illegalEnc
  deriving DecidableEq, Repr

/-- The six fields of a word that an entry's encoding fixes (R91). -/
structure Fields where
  op : BitVec 8
  mod : BitVec 8
  d : BitVec 12
  a : BitVec 12
  b : BitVec 12
  c : BitVec 12
  deriving DecidableEq, Repr

/-- The word of the fields, from bit 95 down (R91). -/
def packWord (h : Ctl) (f : Fields) : IWord :=
  0#4 ++ BitVec.ofBool h.cls ++ BitVec.ofBool h.yld ++ h.stall ++ h.setf ++ h.wait ++ 0#1 ++ BitVec.ofBool h.gn
    ++ h.gp ++ f.c ++ f.b ++ f.a ++ f.d ++ f.mod ++ f.op

/-- The issue fields of a word (R91). -/
def ctlOf (w : IWord) : Ctl :=
  { cls := w.getLsbD 91, yld := w.getLsbD 90, stall := w.extractLsb' 86 4, setf := w.extractLsb' 82 4,
    wait := w.extractLsb' 70 12, gn := w.getLsbD 68, gp := w.extractLsb' 64 4 }

/-- The other fields of a word (R91). -/
def fieldsOf (w : IWord) : Fields :=
  { op := w.extractLsb' 0 8, mod := w.extractLsb' 8 8, d := w.extractLsb' 16 12, a := w.extractLsb' 28 12,
    b := w.extractLsb' 40 12, c := w.extractLsb' 52 12 }

/-! ## Codes -/

/-- The type code of R103. -/
def Ty.code : Ty → BitVec 5
  | .i8 => 0x00 | .i16 => 0x01 | .i32 => 0x02 | .i64 => 0x03 | .n8 => 0x04 | .n16 => 0x05 | .n32 => 0x06
  | .n64 => 0x07 | .f32 => 0x08 | .f16 => 0x09 | .bf16 => 0x0A | .f16x2 => 0x0B | .bf16x2 => 0x0C
  | .e5m2 => 0x0D | .e4m3 => 0x0E | .e3m2 => 0x0F | .e2m3 => 0x10 | .e2m1 => 0x11 | .e8m0 => 0x12

/-- The type of a code; 0x13 to 0x1F are reserved (R103). -/
def Ty.ofCode (c : BitVec 5) : Option Ty :=
  match c.toNat with
  | 0x00 => some .i8 | 0x01 => some .i16 | 0x02 => some .i32 | 0x03 => some .i64 | 0x04 => some .n8
  | 0x05 => some .n16 | 0x06 => some .n32 | 0x07 => some .n64 | 0x08 => some .f32 | 0x09 => some .f16
  | 0x0A => some .bf16 | 0x0B => some .f16x2 | 0x0C => some .bf16x2 | 0x0D => some .e5m2 | 0x0E => some .e4m3
  | 0x0F => some .e3m2 | 0x10 => some .e2m3 | 0x11 => some .e2m1 | 0x12 => some .e8m0 | _ => none

/-- The rounding code of R104. -/
def Rm.code : Rm → BitVec 3
  | .rne => 0 | .rz => 1 | .ru => 2 | .rd => 3 | .dyn => 4

def Rm.ofCode (c : BitVec 3) : Option Rm :=
  match c.toNat with
  | 0 => some .rne | 1 => some .rz | 2 => some .ru | 3 => some .rd | 4 => some .dyn | _ => none

/-- The integer condition of R105. -/
def ICond.code : ICond → BitVec 3
  | .eq => 0 | .ne => 1 | .lt => 2 | .le => 3 | .gt => 4 | .ge => 5

def ICond.ofCode (c : BitVec 3) : Option ICond :=
  match c.toNat with
  | 0 => some .eq | 1 => some .ne | 2 => some .lt | 3 => some .le | 4 => some .gt | 5 => some .ge | _ => none

/-- The float condition of R105. -/
def FCond.code : FCond → BitVec 3
  | .eq => 0 | .ne => 1 | .lt => 2 | .le => 3 | .gt => 4 | .ge => 5 | .un => 6 | .ord => 7

def FCond.ofCode (c : BitVec 3) : FCond :=
  match c.toNat with
  | 0 => .eq | 1 => .ne | 2 => .lt | 3 => .le | 4 => .gt | 5 => .ge | 6 => .un | _ => .ord

/-- The order value of R105. -/
def Order.code : Order → BitVec 3
  | .weak => 0 | .rlx => 1 | .acq => 2 | .rel => 3 | .acqRel => 4 | .sc => 5

def Order.ofCode (c : BitVec 3) : Option Order :=
  match c.toNat with
  | 0 => some .weak | 1 => some .rlx | 2 => some .acq | 3 => some .rel | 4 => some .acqRel | 5 => some .sc | _ => none

/-- The scope value of R105. -/
def Scope.code : Scope → BitVec 3
  | .skein => 0 | .block => 1 | .die => 2 | .device => 3 | .system => 4

def Scope.ofCode (c : BitVec 3) : Option Scope :=
  match c.toNat with
  | 0 => some .skein | 1 => some .block | 2 => some .die | 3 => some .device | 4 => some .system | _ => none

def POp.code : POp → BitVec 3
  | .and => 0 | .or => 1 | .xor => 2 | .andn => 3 | .orn => 4

def POp.ofCode (c : BitVec 3) : Option POp :=
  match c.toNat with
  | 0 => some .and | 1 => some .or | 2 => some .xor | 3 => some .andn | 4 => some .orn | _ => none

def ScanOp.code : ScanOp → BitVec 3
  | .add => 0 | .min => 1 | .max => 2 | .and => 3 | .or => 4 | .xor => 5

def ScanOp.ofCode (c : BitVec 3) : Option ScanOp :=
  match c.toNat with
  | 0 => some .add | 1 => some .min | 2 => some .max | 3 => some .and | 4 => some .or | 5 => some .xor | _ => none

def AOp.code : AOp → BitVec 3
  | .add => 0 | .min => 1 | .max => 2 | .and => 3 | .or => 4 | .xor => 5 | .exch => 6 | .cas => 7

def AOp.ofCode (c : BitVec 3) : AOp :=
  match c.toNat with
  | 0 => .add | 1 => .min | 2 => .max | 3 => .and | 4 => .or | 5 => .xor | 6 => .exch | _ => .cas

/-! ## Operand fields -/

/-- A 12-bit operand field (R92). -/
def Opnd.enc : Opnd → BitVec 12
  | .reg n => 0#2 ++ n
  | .chan c p => 1#1 ++ BitVec.ofBool p ++ c

/-- The operand of a field: class in bit 11, peek in bit 10, index below. A register-class field with its peek bit set
reads as the register; the word is refused because it does not encode again to itself. -/
def Opnd.dec (x : BitVec 12) : Opnd :=
  if x.getLsbD 11 then .chan (x.extractLsb' 0 10) (x.getLsbD 10) else .reg (x.extractLsb' 0 10)

/-- imm24 of fields B and C (R96). -/
def imm24 (f : Fields) : BitVec 24 := f.c ++ f.b

/-- MOD of a 3-bit field over a type code (R103, R104). -/
def mod35 (hi : BitVec 3) (lo : BitVec 5) : BitVec 8 := hi ++ lo

def modHi (f : Fields) : BitVec 3 := f.mod.extractLsb' 5 3
def modTy (f : Fields) : Option Ty := Ty.ofCode (f.mod.extractLsb' 0 5)

/-- B and C of a source or immediate, and the IMM bit. -/
def SrcImm.encB : SrcImm → BitVec 12
  | .src o => o.enc
  | .imm v => v.extractLsb' 0 12

def SrcImm.encC : SrcImm → BitVec 12
  | .src _ => 0
  | .imm v => v.extractLsb' 12 12

def SrcImm.isImm : SrcImm → Bool
  | .src _ => false
  | .imm _ => true

def SrcImm.dec (imm : Bool) (f : Fields) : SrcImm :=
  if imm then .imm (imm24 f) else .src (Opnd.dec f.b)

/-- Operand B and the X bit of a memory offset (R191). -/
def Offset.encB : Offset → BitVec 12
  | .vec o => o.enc
  | .imm v => v

def Offset.isVec : Offset → Bool
  | .vec _ => true
  | .imm _ => false

def Offset.dec (x : Bool) (b : BitVec 12) : Offset :=
  if x then .vec (Opnd.dec b) else .imm b

/-- Operand C as the memory modifier: HW, X, PROMOTE, SCOPE (R191). -/
def memModC (hw x prom : Bool) (sc : BitVec 3) : BitVec 12 :=
  0#6 ++ BitVec.ofBool hw ++ BitVec.ofBool x ++ BitVec.ofBool prom ++ sc

/-- A count-word MOD: IMM, HALL, PROMOTE, scope (R213). -/
def cntMod (hi : BitVec 3) (hall prom : Bool) (sc : BitVec 3) : BitVec 8 :=
  hi ++ BitVec.ofBool hall ++ BitVec.ofBool prom ++ sc

/-! ## Encoding -/

def Alu2.fields (f : Alu2) (op : BitVec 8) : Fields :=
  { op := op, mod := 0#1 ++ BitVec.ofBool f.sat ++ BitVec.ofBool f.b.isImm ++ f.ty.code, d := f.d.enc, a := f.a.enc,
    b := f.b.encB, c := f.b.encC }

def Alu1.fields (f : Alu1) (op : BitVec 8) : Fields :=
  { op := op, mod := 0#1 ++ BitVec.ofBool f.sat ++ 0#1 ++ f.ty.code, d := f.d.enc, a := f.a.enc, b := 0, c := 0 }

def Alu3.fields (f : Alu3) (op : BitVec 8) : Fields :=
  { op := op, mod := 0#1 ++ BitVec.ofBool f.sat ++ 0#1 ++ f.ty.code, d := f.d.enc, a := f.a.enc, b := f.b.enc,
    c := f.c.enc }

def Flt1.fields (f : Flt1) (op : BitVec 8) : Fields :=
  { op := op, mod := mod35 f.rm.code f.ty.code, d := f.d.enc, a := f.a.enc, b := 0, c := 0 }

def Flt2.fields (f : Flt2) (op : BitVec 8) : Fields :=
  { op := op, mod := mod35 f.rm.code f.ty.code, d := f.d.enc, a := f.a.enc, b := f.b.enc, c := 0 }

def Cvt.fields (f : Cvt) (op : BitVec 8) : Fields :=
  { op := op, mod := mod35 f.rm.code f.ty.code, d := f.d.enc, a := f.a.enc, b := 0,
    c := 0#6 ++ BitVec.ofBool f.sat ++ f.sty.code }

/-- A form with operands D, A, B, C under one MOD. -/
def plainFields (op mod : BitVec 8) (d a b c : BitVec 12) : Fields :=
  { op := op, mod := mod, d := d, a := a, b := b, c := c }

/-- A form with operands D and A and an optional imm24 under MOD[5]. -/
def immFields (op : BitVec 8) (d a : BitVec 12) (b : SrcImm) : Fields :=
  { op := op, mod := 0#2 ++ BitVec.ofBool b.isImm ++ 0#5, d := d, a := a, b := b.encB, c := b.encC }

/-- A form whose imm24 is always present. -/
def imm24Fields (op : BitVec 8) (d a : BitVec 12) (v : BitVec 24) : Fields :=
  { op := op, mod := 0, d := d, a := a, b := v.extractLsb' 0 12, c := v.extractLsb' 12 12 }

def LdSt.fields (f : LdSt) (op : BitVec 8) : Fields :=
  { op := op, mod := mod35 f.ord.code f.ty.code, d := f.d.enc, a := f.a.enc, b := f.off.encB,
    c := memModC false f.off.isVec f.promote f.scope.code }

def HallLS.fields (f : HallLS) (op : BitVec 8) : Fields :=
  { op := op, mod := mod35 0 f.ty.code, d := f.d.enc, a := f.a.enc, b := f.off.encB,
    c := memModC f.w f.off.isVec false 0 }

def FeLS.fields (f : FeLS) (op : BitVec 8) : Fields :=
  { op := op, mod := mod35 0 f.ty.code, d := f.d.enc, a := f.a.enc, b := f.off.encB,
    c := memModC false f.off.isVec false 0 }

def Amo.fields (f : Amo) (op : BitVec 8) : Fields :=
  { op := op, mod := mod35 f.ord.code f.ty.code, d := f.d.enc, a := f.a.enc, b := f.b.enc,
    c := 0#4 ++ BitVec.ofBool f.ret ++ f.op.code ++ BitVec.ofBool f.promote ++ f.scope.code }

def Cnt.fields (f : Cnt) (op : BitVec 8) : Fields :=
  { op := op, mod := cntMod (0#2 ++ BitVec.ofBool f.b.isImm) f.hall f.promote f.scope.code, d := 0, a := f.a.enc,
    b := f.b.encB, c := f.b.encC }

/-- MOD and fields of a `sleep` or `meter` operand, which stands in A, or is imm24 under MOD[5] (R239). -/
def aOrImmFields (op : BitVec 8) (d : BitVec 12) (a : SrcImm) : Fields :=
  match a with
  | .src o => { op := op, mod := 0, d := d, a := o.enc, b := 0, c := 0 }
  | .imm v => { op := op, mod := 0x20, d := d, a := 0, b := v.extractLsb' 0 12, c := v.extractLsb' 12 12 }

/-- Group 0 (R124 to R130). -/
def fieldsInt : Instr → Option (Ctl × Fields)
  | .nop h => some (h, plainFields 0x00 0 0 0 0 0)
  | .iadd h f => some (h, f.fields 0x01)
  | .isub h f => some (h, f.fields 0x02)
  | .iadd3 h f => some (h, f.fields 0x03)
  | .imul h f => some (h, f.fields 0x04)
  | .imulh h f => some (h, f.fields 0x05)
  | .imad h f => some (h, f.fields 0x06)
  | .idiv h f => some (h, f.fields 0x07)
  | .irem h f => some (h, f.fields 0x08)
  | .imin h f => some (h, f.fields 0x09)
  | .imax h f => some (h, f.fields 0x0A)
  | .iabs h f => some (h, f.fields 0x0B)
  | .ineg h f => some (h, f.fields 0x0C)
  | .and h f => some (h, f.fields 0x0D)
  | .or h f => some (h, f.fields 0x0E)
  | .xor h f => some (h, f.fields 0x0F)
  | .not h f => some (h, f.fields 0x10)
  | .shl h f => some (h, f.fields 0x11)
  | .shr h f => some (h, f.fields 0x12)
  | .sar h f => some (h, f.fields 0x13)
  | .rot h f => some (h, f.fields 0x14)
  | .bfx h f => some (h, f.fields 0x15)
  | .bfi h f => some (h, f.fields 0x16)
  | .popc h f => some (h, f.fields 0x17)
  | .clz h f => some (h, f.fields 0x18)
  | .ctz h f => some (h, f.fields 0x19)
  | .brev h f => some (h, f.fields 0x1A)
  | .icmp h f => some (h, plainFields 0x1B (mod35 f.cc.code f.ty.code) f.p.enc f.a.enc f.b.enc 0)
  | .sel h f => some (h, plainFields 0x1C (mod35 0 f.ty.code) f.d.enc f.a.enc f.b.enc f.p.enc)
  | .iaddc h f =>
    some (h, plainFields 0x1D (BitVec.ofBool f.sub ++ 0#2 ++ f.ty.code) f.d.enc f.a.enc f.b.enc f.p.enc)
  | .lea h f =>
    some (h, plainFields 0x1E (f.sh ++ BitVec.ofBool f.b.isImm ++ f.ty.code) f.d.enc f.a.enc f.b.encB f.b.encC)
  | _ => none

/-- Group 1 (R131). -/
def fieldsLane : Instr → Option (Ctl × Fields)
  | .mov h w d a => some (h, plainFields 0x20 (0#7 ++ BitVec.ofBool w) d.enc a.enc 0 0)
  | .movi h d v =>
    some (h, plainFields 0x21 0 d.enc (v.extractLsb' 0 12) (v.extractLsb' 12 12) (0#4 ++ v.extractLsb' 24 8))
  | .pand h op d a b => some (h, plainFields 0x22 (0#5 ++ op.code) d.enc a.enc b.enc 0)
  | .pmovToPred h d a => some (h, plainFields 0x23 0 d.enc a.enc 0 0)
  | .pmovToReg h d a => some (h, plainFields 0x23 1 d.enc a.enc 0 0)
  | .vote h op d a =>
    some (h, plainFields 0x24 (match op with | .all => 0 | .any => 1 | .eq => 2) d.enc a.enc 0 0)
  | .voteBallot h d a => some (h, plainFields 0x24 3 d.enc a.enc 0 0)
  | .lbcast h d a b => some (h, immFields 0x25 d.enc a.enc b)
  | .lshuf h d a b => some (h, plainFields 0x26 0 d.enc a.enc b.enc 0)
  | .lrot h d a b => some (h, immFields 0x27 d.enc a.enc b)
  | .lscan h f => some (h, plainFields 0x28 (mod35 f.op.code f.ty.code) f.d.enc f.a.enc 0 0)
  | .lreduce h f => some (h, plainFields 0x29 (mod35 f.op.code f.ty.code) f.d.enc f.a.enc 0 0)
  | .shape h d a => some (h, plainFields 0x2A 0 d.enc a.enc 0 0)
  | .unif h d a => some (h, plainFields 0x2B 0 d.enc a.enc 0 0)
  | .affine h d a b => some (h, immFields 0x2C d.enc a.enc b)
  | .pack h f =>
    some (h, plainFields 0x2D (BitVec.ofBool f.hi ++ BitVec.ofBool f.sat ++ 0#1 ++ f.ty.code) f.d.enc f.a.enc f.b.enc 0)
  | .unpack h ty j d a => some (h, plainFields 0x2E (j ++ 0#1 ++ ty.code) d.enc a.enc 0 0)
  | .perm h d a b c => some (h, plainFields 0x2F 0 d.enc a.enc b.enc c.enc)
  | .chstat h d a => some (h, plainFields 0x30 0 d.enc a.enc 0 0)
  | _ => none

/-- Group 2 (R145). -/
def fieldsFlt : Instr → Option (Ctl × Fields)
  | .fadd h f => some (h, f.fields 0x40)
  | .fsub h f => some (h, f.fields 0x41)
  | .fmul h f => some (h, f.fields 0x42)
  | .ffma h f => some (h, plainFields 0x43 (mod35 f.rm.code f.ty.code) f.d.enc f.a.enc f.b.enc f.c.enc)
  | .fmin h f => some (h, plainFields 0x44 (mod35 0 f.ty.code) f.d.enc f.a.enc f.b.enc 0)
  | .fmax h f => some (h, plainFields 0x45 (mod35 0 f.ty.code) f.d.enc f.a.enc f.b.enc 0)
  | .fcmp h f => some (h, plainFields 0x46 (mod35 f.cc.code f.ty.code) f.p.enc f.a.enc f.b.enc 0)
  | .fclass h ty d a => some (h, plainFields 0x47 (mod35 0 ty.code) d.enc a.enc 0 0)
  | .frcp h f => some (h, f.fields 0x48)
  | .frsq h f => some (h, f.fields 0x49)
  | .fsqrt h f => some (h, f.fields 0x4A)
  | .fdiv h f => some (h, f.fields 0x4B)
  | .fex2 h f => some (h, f.fields 0x4C)
  | .flg2 h f => some (h, f.fields 0x4D)
  | .fsin h f => some (h, f.fields 0x4E)
  | .fcos h f => some (h, f.fields 0x4F)
  | .ftanh h f => some (h, f.fields 0x50)
  | .fscl h f => some (h, f.fields 0x51)
  | .frint h f => some (h, f.fields 0x52)
  | .cvt h f => some (h, f.fields 0x53)
  | .cvti h f => some (h, f.fields 0x54)
  | .cvtf h f => some (h, f.fields 0x55)
  | _ => none

/-- Group 3 (R158). -/
def fieldsBolt : Instr → Option (Ctl × Fields)
  | .bzero h d => some (h, plainFields 0x60 0 d.enc 0 0 0)
  | .badd h f => some (h, plainFields 0x61 (mod35 0 f.ty.code) f.d.enc f.a.enc 0 0)
  | .bmac h f => some (h, plainFields 0x62 (mod35 0 f.ty.code) f.d.enc f.a.enc f.b.enc 0)
  | .bdot h f =>
    some (h, plainFields 0x63 (0#2 ++ BitVec.ofBool f.mx ++ f.ty.code) f.d.enc f.a.enc f.b.enc f.c.enc)
  | .bmerge h d a b => some (h, plainFields 0x64 0 d.enc a.enc b.enc 0)
  | .bneg h d a => some (h, plainFields 0x65 0 d.enc a.enc 0 0)
  | .bnorm h d a => some (h, plainFields 0x66 0 d.enc a.enc 0 0)
  | .brnd h f =>
    some (h, plainFields 0x67 (mod35 f.rm.code f.ty.code) f.d.enc f.a.enc 0 (0#11 ++ BitVec.ofBool f.sat))
  | .bfold h d a => some (h, plainFields 0x68 0 d.enc a.enc 0 0)
  | .bstat h d a => some (h, plainFields 0x69 0 d.enc a.enc 0 0)
  | .bld h d a => some (h, plainFields 0x6A 0 d.enc a.enc 0 0)
  | .bst h a b => some (h, plainFields 0x6B 0 0 a.enc b.enc 0)
  | .bamo h f =>
    some (h, plainFields 0x6C (BitVec.ofBool f.ret ++ (match f.form with | .value => 0#2 | .mul => 1#2 | .bolt => 2#2)
      ++ f.ty.code) f.d.enc f.a.enc f.b.enc f.c.enc)
  | .bcmp h f => some (h, plainFields 0x6D (mod35 f.cc.code 0) f.p.enc f.a.enc f.b.enc 0)
  | .bexp h d a => some (h, plainFields 0x6E 0 d.enc a.enc 0 0)
  | .bfix h f => some (h, plainFields 0x6F (mod35 f.rm.code f.ty.code) f.d.enc f.a.enc f.b.enc 0)
  | .baddi h f =>
    some (h, plainFields 0x70 (mod35 0 f.ty.code) f.d.enc f.a.enc (f.e.extractLsb' 0 12) (f.e.extractLsb' 12 12))
  | _ => none

/-- Group 4 (R169). -/
def fieldsMat : Instr → Option (Ctl × Fields)
  | .mmap h f =>
    some (h, plainFields 0x80 (0#1 ++ BitVec.ofBool f.idx ++ BitVec.ofBool f.w ++ f.ty.code) f.m.enc f.a.enc f.b.enc
      f.c.enc)
  | .mma h f => some (h, plainFields 0x81 0 0 f.a.enc f.b.enc (0#2 ++ f.kb ++ f.p))
  | .mmag h f => some (h, plainFields 0x82 0 0 f.a.enc f.b.enc (0#2 ++ f.kb ++ f.p))
  | .mzero h p => some (h, plainFields 0x83 0 0 0 0 (0#10 ++ p))
  | .mrnd h f =>
    some (h, plainFields 0x84 (mod35 f.rm.code f.ty.code) 0 f.a.enc f.b.enc (0#9 ++ BitVec.ofBool f.sat ++ f.p))
  | .msave h f => some (h, plainFields 0x85 (0#7 ++ BitVec.ofBool f.merge) 0 f.a.enc f.b.enc (0#10 ++ f.p))
  | .mload h f => some (h, plainFields 0x86 0 0 f.a.enc f.b.enc (0#10 ++ f.p))
  | .mmerge h p q => some (h, plainFields 0x87 0 0 0 0 (0#8 ++ q ++ p))
  | .qmx h f =>
    some (h, plainFields 0x88 (0#1 ++ BitVec.ofBool f.expl ++ BitVec.ofBool f.sat ++ f.ty.code) 0 f.a.enc f.b.enc
      f.c.enc)
  | .dqmx h ty d a => some (h, plainFields 0x89 (mod35 0 ty.code) d.enc a.enc 0 0)
  | .qscale h ty d a => some (h, plainFields 0x8A (mod35 0 ty.code) d.enc a.enc 0 0)
  | _ => none

/-- Group 5 (R192, R200, R206, R210). -/
def fieldsMem : Instr → Option (Ctl × Fields)
  | .ld h f => some (h, f.fields 0xA0)
  | .st h f => some (h, f.fields 0xA1)
  | .ldh h f => some (h, f.fields 0xA2)
  | .sth h f => some (h, f.fields 0xA3)
  | .ldf h f => some (h, f.fields 0xA4)
  | .ste h f => some (h, f.fields 0xA5)
  | .ldw h f => some (h, f.fields 0xA6)
  | .fe h full a b =>
    some (h, plainFields 0xA7 (0#2 ++ BitVec.ofBool b.isImm ++ 0#4 ++ BitVec.ofBool full) 0 a.enc b.encB b.encC)
  | .amo h f => some (h, f.fields 0xA8)
  | .amoh h f => some (h, f.fields 0xA9)
  | .pref h l2 a off =>
    some (h, plainFields 0xAA (0#7 ++ BitVec.ofBool l2) 0 a.enc off.encB (memModC false off.isVec false 0))
  | .cflush h sc a off =>
    some (h, plainFields 0xAB 0 0 a.enc off.encB (memModC false off.isVec false sc.code))
  | _ => none

/-- Group 6 (R137, R211, R213, R215, R218, R238). -/
def fieldsCtl : Instr → Option (Ctl × Fields)
  | .bra h off => some (h, imm24Fields 0xC0 0 0 off)
  | .brx h a => some (h, plainFields 0xC1 0 0 a.enc 0 0)
  | .call h d off => some (h, imm24Fields 0xC2 d.enc 0 off)
  | .ret h a => some (h, plainFields 0xC3 0 0 a.enc 0 0)
  | .shed h neg a e c => some (h, plainFields 0xC4 (0#7 ++ BitVec.ofBool neg) 0 a.enc e c)
  | .close h => some (h, plainFields 0xC5 0 0 0 0 0)
  | .regroup h a => some (h, plainFields 0xC6 0 0 a.enc 0 0)
  | .exit h => some (h, plainFields 0xC7 0 0 0 0 0)
  | .yield h => some (h, plainFields 0xC8 0 0 0 0 0)
  | .meet h => some (h, plainFields 0xC9 0 0 0 0 0)
  | .fence h o sc p => some (h, plainFields 0xCA (o.code ++ 0#1 ++ BitVec.ofBool p ++ sc.code) 0 0 0 0)
  | .cntsig h f => some (h, f.fields 0xCB)
  | .cntwait h f => some (h, f.fields 0xCC)
  | .cntrd h f =>
    some (h, plainFields 0xCD (cntMod (if f.acq then 2 else 1) f.hall f.promote f.scope.code) f.d.enc f.a.enc 0 0)
  | .ifence h => some (h, plainFields 0xCE 0 0 0 0 0)
  | .drains h => some (h, plainFields 0xCF 0 0 0 0 0)
  | .tbeg h a b => some (h, plainFields 0xD0 0 0 a.enc b.enc 0)
  | .tend h => some (h, plainFields 0xD1 0 0 0 0 0)
  | _ => none

/-- Group 7 (R220, R239). -/
def fieldsSys : Instr → Option (Ctl × Fields)
  | .submit h d a b => some (h, plainFields 0xE0 0 d.enc a.enc b.enc 0)
  | .csrr h d csr => some (h, imm24Fields 0xE1 d.enc 0 csr)
  | .csrw h a csr => some (h, imm24Fields 0xE2 0 a.enc csr)
  | .trap h v => some (h, imm24Fields 0xE3 0 0 v)
  | .eret h => some (h, plainFields 0xE4 0 0 0 0 0)
  | .sfrq h d => some (h, plainFields 0xE5 0 d.enc 0 0 0)
  | .kill h => some (h, plainFields 0xE6 0 0 0 0 0)
  | .brk h v => some (h, imm24Fields 0xE7 0 0 v)
  | .sleep h a => some (h, aOrImmFields 0xE8 0 a)
  | .clockGt h d => some (h, plainFields 0xE9 0 d.enc 0 0 0)
  | .clockAc h d => some (h, plainFields 0xE9 1 d.enc 0 0 0)
  | .meter h d a => some (h, aOrImmFields 0xEA d.enc a)
  | .dgrdTask h d => some (h, plainFields 0xEB 0 d.enc 0 0 0)
  | .dgrdExp h d => some (h, plainFields 0xEB 1 d.enc 0 0 0)
  | _ => none

/-- The fields of an instruction that a word encodes, by the group of its opcode (R102). -/
def Instr.fields (i : Instr) : Option (Ctl × Fields) :=
  fieldsInt i <|> fieldsLane i <|> fieldsFlt i <|> fieldsBolt i <|> fieldsMat i <|> fieldsMem i <|> fieldsCtl i
    <|> fieldsSys i

/-- The word of an instruction; none for a step that no word encodes. -/
def encode (i : Instr) : Option IWord := i.fields.map fun p => packWord p.1 p.2

/-! ## Decoding -/

def Alu2.ofFields (f : Fields) : Option Alu2 := do
  let t ← modTy f
  pure { ty := t, sat := f.mod.getLsbD 6, d := Opnd.dec f.d, a := Opnd.dec f.a, b := SrcImm.dec (f.mod.getLsbD 5) f }

def Alu1.ofFields (f : Fields) : Option Alu1 := do
  let t ← modTy f
  pure { ty := t, sat := f.mod.getLsbD 6, d := Opnd.dec f.d, a := Opnd.dec f.a }

def Alu3.ofFields (f : Fields) : Option Alu3 := do
  let t ← modTy f
  pure { ty := t, sat := f.mod.getLsbD 6, d := Opnd.dec f.d, a := Opnd.dec f.a, b := Opnd.dec f.b, c := Opnd.dec f.c }

def Flt1.ofFields (f : Fields) : Option Flt1 := do
  let t ← modTy f
  let r ← Rm.ofCode (modHi f)
  pure { ty := t, rm := r, d := Opnd.dec f.d, a := Opnd.dec f.a }

def Flt2.ofFields (f : Fields) : Option Flt2 := do
  let t ← modTy f
  let r ← Rm.ofCode (modHi f)
  pure { ty := t, rm := r, d := Opnd.dec f.d, a := Opnd.dec f.a, b := Opnd.dec f.b }

def FMinMax.ofFields (f : Fields) : Option FMinMax := do
  let t ← modTy f
  pure { ty := t, d := Opnd.dec f.d, a := Opnd.dec f.a, b := Opnd.dec f.b }

def Cvt.ofFields (f : Fields) : Option Cvt := do
  let t ← modTy f
  let r ← Rm.ofCode (modHi f)
  let st ← Ty.ofCode (f.c.extractLsb' 0 5)
  pure { ty := t, rm := r, sat := f.c.getLsbD 5, sty := st, d := Opnd.dec f.d, a := Opnd.dec f.a }

def Scan.ofFields (f : Fields) : Option Scan := do
  let t ← modTy f
  let o ← ScanOp.ofCode (modHi f)
  pure { op := o, ty := t, d := Opnd.dec f.d, a := Opnd.dec f.a }

def LdSt.ofFields (f : Fields) : Option LdSt := do
  let t ← modTy f
  let o ← Order.ofCode (modHi f)
  let s ← Scope.ofCode (f.c.extractLsb' 0 3)
  pure { ord := o, scope := s, promote := f.c.getLsbD 3, ty := t, d := Opnd.dec f.d, a := Opnd.dec f.a,
         off := Offset.dec (f.c.getLsbD 4) f.b }

def HallLS.ofFields (f : Fields) : Option HallLS := do
  let t ← modTy f
  pure { w := f.c.getLsbD 5, ty := t, d := Opnd.dec f.d, a := Opnd.dec f.a, off := Offset.dec (f.c.getLsbD 4) f.b }

def FeLS.ofFields (f : Fields) : Option FeLS := do
  let t ← modTy f
  pure { ty := t, d := Opnd.dec f.d, a := Opnd.dec f.a, off := Offset.dec (f.c.getLsbD 4) f.b }

def Amo.ofFields (f : Fields) : Option Amo := do
  let t ← modTy f
  let o ← Order.ofCode (modHi f)
  let s ← Scope.ofCode (f.c.extractLsb' 0 3)
  pure { op := AOp.ofCode (f.c.extractLsb' 4 3), ord := o, scope := s, ret := f.c.getLsbD 7,
         promote := f.c.getLsbD 3, ty := t, d := Opnd.dec f.d, a := Opnd.dec f.a, b := Opnd.dec f.b }

def Cnt.ofFields (f : Fields) : Option Cnt := do
  let s ← Scope.ofCode (f.mod.extractLsb' 0 3)
  pure { hall := f.mod.getLsbD 4, scope := s, promote := f.mod.getLsbD 3, a := Opnd.dec f.a,
         b := SrcImm.dec (f.mod.getLsbD 5) f }

/-- Group 0: `none` for an unused OP, `some none` for a field that no instruction of the OP has. -/
def toInt (h : Ctl) (f : Fields) : Option (Option Instr) :=
  match f.op.toNat with
  | 0x00 => some (some (.nop h))
  | 0x01 => some ((Alu2.ofFields f).map (.iadd h))
  | 0x02 => some ((Alu2.ofFields f).map (.isub h))
  | 0x03 => some ((Alu3.ofFields f).map (.iadd3 h))
  | 0x04 => some ((Alu2.ofFields f).map (.imul h))
  | 0x05 => some ((Alu2.ofFields f).map (.imulh h))
  | 0x06 => some ((Alu3.ofFields f).map (.imad h))
  | 0x07 => some ((Alu2.ofFields f).map (.idiv h))
  | 0x08 => some ((Alu2.ofFields f).map (.irem h))
  | 0x09 => some ((Alu2.ofFields f).map (.imin h))
  | 0x0A => some ((Alu2.ofFields f).map (.imax h))
  | 0x0B => some ((Alu1.ofFields f).map (.iabs h))
  | 0x0C => some ((Alu1.ofFields f).map (.ineg h))
  | 0x0D => some ((Alu2.ofFields f).map (.and h))
  | 0x0E => some ((Alu2.ofFields f).map (.or h))
  | 0x0F => some ((Alu2.ofFields f).map (.xor h))
  | 0x10 => some ((Alu1.ofFields f).map (.not h))
  | 0x11 => some ((Alu2.ofFields f).map (.shl h))
  | 0x12 => some ((Alu2.ofFields f).map (.shr h))
  | 0x13 => some ((Alu2.ofFields f).map (.sar h))
  | 0x14 => some ((Alu2.ofFields f).map (.rot h))
  | 0x15 => some ((Alu2.ofFields f).map (.bfx h))
  | 0x16 => some ((Alu3.ofFields f).map (.bfi h))
  | 0x17 => some ((Alu1.ofFields f).map (.popc h))
  | 0x18 => some ((Alu1.ofFields f).map (.clz h))
  | 0x19 => some ((Alu1.ofFields f).map (.ctz h))
  | 0x1A => some ((Alu1.ofFields f).map (.brev h))
  | 0x1B => some do
    let t ← modTy f
    let c ← ICond.ofCode (modHi f)
    pure (.icmp h { ty := t, cc := c, p := Opnd.dec f.d, a := Opnd.dec f.a, b := Opnd.dec f.b })
  | 0x1C => some do
    let t ← modTy f
    pure (.sel h { ty := t, d := Opnd.dec f.d, a := Opnd.dec f.a, b := Opnd.dec f.b, p := Opnd.dec f.c })
  | 0x1D => some do
    let t ← modTy f
    pure (.iaddc h { ty := t, sub := f.mod.getLsbD 7, d := Opnd.dec f.d, a := Opnd.dec f.a, b := Opnd.dec f.b,
                     p := Opnd.dec f.c })
  | 0x1E => some do
    let t ← modTy f
    pure (.lea h { ty := t, sh := f.mod.extractLsb' 6 2, d := Opnd.dec f.d, a := Opnd.dec f.a,
                   b := SrcImm.dec (f.mod.getLsbD 5) f })
  | _ => none

/-- Group 1. -/
def toLane (h : Ctl) (f : Fields) : Option (Option Instr) :=
  match f.op.toNat with
  | 0x20 => some (some (.mov h (f.mod.getLsbD 0) (Opnd.dec f.d) (Opnd.dec f.a)))
  | 0x21 => some (some (.movi h (Opnd.dec f.d) (f.c.extractLsb' 0 8 ++ f.b ++ f.a)))
  | 0x22 => some ((POp.ofCode (f.mod.extractLsb' 0 3)).map
      fun o => .pand h o (Opnd.dec f.d) (Opnd.dec f.a) (Opnd.dec f.b))
  | 0x23 => some (some (if f.mod.getLsbD 0 then .pmovToReg h (Opnd.dec f.d) (Opnd.dec f.a)
      else .pmovToPred h (Opnd.dec f.d) (Opnd.dec f.a)))
  | 0x24 => some (some (match (f.mod.extractLsb' 0 2).toNat with
      | 0 => .vote h .all (Opnd.dec f.d) (Opnd.dec f.a)
      | 1 => .vote h .any (Opnd.dec f.d) (Opnd.dec f.a)
      | 2 => .vote h .eq (Opnd.dec f.d) (Opnd.dec f.a)
      | _ => .voteBallot h (Opnd.dec f.d) (Opnd.dec f.a)))
  | 0x25 => some (some (.lbcast h (Opnd.dec f.d) (Opnd.dec f.a) (SrcImm.dec (f.mod.getLsbD 5) f)))
  | 0x26 => some (some (.lshuf h (Opnd.dec f.d) (Opnd.dec f.a) (Opnd.dec f.b)))
  | 0x27 => some (some (.lrot h (Opnd.dec f.d) (Opnd.dec f.a) (SrcImm.dec (f.mod.getLsbD 5) f)))
  | 0x28 => some ((Scan.ofFields f).map (.lscan h))
  | 0x29 => some ((Scan.ofFields f).map (.lreduce h))
  | 0x2A => some (some (.shape h (Opnd.dec f.d) (Opnd.dec f.a)))
  | 0x2B => some (some (.unif h (Opnd.dec f.d) (Opnd.dec f.a)))
  | 0x2C => some (some (.affine h (Opnd.dec f.d) (Opnd.dec f.a) (SrcImm.dec (f.mod.getLsbD 5) f)))
  | 0x2D => some do
    let t ← modTy f
    pure (.pack h { ty := t, sat := f.mod.getLsbD 6, hi := f.mod.getLsbD 7, d := Opnd.dec f.d, a := Opnd.dec f.a,
                    b := Opnd.dec f.b })
  | 0x2E => some ((modTy f).map fun t => .unpack h t (f.mod.extractLsb' 6 2) (Opnd.dec f.d) (Opnd.dec f.a))
  | 0x2F => some (some (.perm h (Opnd.dec f.d) (Opnd.dec f.a) (Opnd.dec f.b) (Opnd.dec f.c)))
  | 0x30 => some (some (.chstat h (Opnd.dec f.d) (Opnd.dec f.a)))
  | _ => none

/-- Group 2. -/
def toFlt (h : Ctl) (f : Fields) : Option (Option Instr) :=
  match f.op.toNat with
  | 0x40 => some ((Flt2.ofFields f).map (.fadd h))
  | 0x41 => some ((Flt2.ofFields f).map (.fsub h))
  | 0x42 => some ((Flt2.ofFields f).map (.fmul h))
  | 0x43 => some do
    let t ← modTy f
    let r ← Rm.ofCode (modHi f)
    pure (.ffma h { ty := t, rm := r, d := Opnd.dec f.d, a := Opnd.dec f.a, b := Opnd.dec f.b, c := Opnd.dec f.c })
  | 0x44 => some ((FMinMax.ofFields f).map (.fmin h))
  | 0x45 => some ((FMinMax.ofFields f).map (.fmax h))
  | 0x46 => some do
    let t ← modTy f
    pure (.fcmp h { ty := t, cc := FCond.ofCode (modHi f), p := Opnd.dec f.d, a := Opnd.dec f.a, b := Opnd.dec f.b })
  | 0x47 => some ((modTy f).map fun t => .fclass h t (Opnd.dec f.d) (Opnd.dec f.a))
  | 0x48 => some ((Flt1.ofFields f).map (.frcp h))
  | 0x49 => some ((Flt1.ofFields f).map (.frsq h))
  | 0x4A => some ((Flt1.ofFields f).map (.fsqrt h))
  | 0x4B => some ((Flt2.ofFields f).map (.fdiv h))
  | 0x4C => some ((Flt1.ofFields f).map (.fex2 h))
  | 0x4D => some ((Flt1.ofFields f).map (.flg2 h))
  | 0x4E => some ((Flt1.ofFields f).map (.fsin h))
  | 0x4F => some ((Flt1.ofFields f).map (.fcos h))
  | 0x50 => some ((Flt1.ofFields f).map (.ftanh h))
  | 0x51 => some ((Flt2.ofFields f).map (.fscl h))
  | 0x52 => some ((Flt1.ofFields f).map (.frint h))
  | 0x53 => some ((Cvt.ofFields f).map (.cvt h))
  | 0x54 => some ((Cvt.ofFields f).map (.cvti h))
  | 0x55 => some ((Cvt.ofFields f).map (.cvtf h))
  | _ => none

/-- Group 3. -/
def toBolt (h : Ctl) (f : Fields) : Option (Option Instr) :=
  match f.op.toNat with
  | 0x60 => some (some (.bzero h (Opnd.dec f.d)))
  | 0x61 => some ((modTy f).map fun t => .badd h { ty := t, d := Opnd.dec f.d, a := Opnd.dec f.a })
  | 0x62 => some ((modTy f).map fun t => .bmac h { ty := t, d := Opnd.dec f.d, a := Opnd.dec f.a, b := Opnd.dec f.b })
  | 0x63 => some ((modTy f).map fun t =>
      .bdot h { ty := t, mx := f.mod.getLsbD 5, d := Opnd.dec f.d, a := Opnd.dec f.a, b := Opnd.dec f.b,
                c := Opnd.dec f.c })
  | 0x64 => some (some (.bmerge h (Opnd.dec f.d) (Opnd.dec f.a) (Opnd.dec f.b)))
  | 0x65 => some (some (.bneg h (Opnd.dec f.d) (Opnd.dec f.a)))
  | 0x66 => some (some (.bnorm h (Opnd.dec f.d) (Opnd.dec f.a)))
  | 0x67 => some do
    let t ← modTy f
    let r ← Rm.ofCode (modHi f)
    pure (.brnd h { ty := t, rm := r, sat := f.c.getLsbD 0, d := Opnd.dec f.d, a := Opnd.dec f.a })
  | 0x68 => some (some (.bfold h (Opnd.dec f.d) (Opnd.dec f.a)))
  | 0x69 => some (some (.bstat h (Opnd.dec f.d) (Opnd.dec f.a)))
  | 0x6A => some (some (.bld h (Opnd.dec f.d) (Opnd.dec f.a)))
  | 0x6B => some (some (.bst h (Opnd.dec f.a) (Opnd.dec f.b)))
  | 0x6C => some do
    let t ← modTy f
    let fm ← match (f.mod.extractLsb' 5 2).toNat with
      | 0 => some BForm.value
      | 1 => some BForm.mul
      | 2 => some BForm.bolt
      | _ => none
    pure (.bamo h { ret := f.mod.getLsbD 7, form := fm, ty := t, d := Opnd.dec f.d, a := Opnd.dec f.a,
                    b := Opnd.dec f.b, c := Opnd.dec f.c })
  | 0x6D => some ((ICond.ofCode (modHi f)).map fun c =>
      .bcmp h { cc := c, p := Opnd.dec f.d, a := Opnd.dec f.a, b := Opnd.dec f.b })
  | 0x6E => some (some (.bexp h (Opnd.dec f.d) (Opnd.dec f.a)))
  | 0x6F => some do
    let t ← modTy f
    let r ← Rm.ofCode (modHi f)
    pure (.bfix h { ty := t, rm := r, d := Opnd.dec f.d, a := Opnd.dec f.a, b := Opnd.dec f.b })
  | 0x70 => some ((modTy f).map fun t => .baddi h { ty := t, d := Opnd.dec f.d, a := Opnd.dec f.a, e := imm24 f })
  | _ => none

/-- Group 4. -/
def toMat (h : Ctl) (f : Fields) : Option (Option Instr) :=
  match f.op.toNat with
  | 0x80 => some ((modTy f).map fun t =>
      .mmap h { ty := t, w := f.mod.getLsbD 5, idx := f.mod.getLsbD 6, m := Opnd.dec f.d, a := Opnd.dec f.a,
                b := Opnd.dec f.b, c := Opnd.dec f.c })
  | 0x81 => some (some (.mma h { p := f.c.extractLsb' 0 2, kb := f.c.extractLsb' 2 8, a := Opnd.dec f.a,
                                 b := Opnd.dec f.b }))
  | 0x82 => some (some (.mmag h { p := f.c.extractLsb' 0 2, kb := f.c.extractLsb' 2 8, a := Opnd.dec f.a,
                                  b := Opnd.dec f.b }))
  | 0x83 => some (some (.mzero h (f.c.extractLsb' 0 2)))
  | 0x84 => some do
    let t ← modTy f
    let r ← Rm.ofCode (modHi f)
    pure (.mrnd h { ty := t, rm := r, sat := f.c.getLsbD 2, p := f.c.extractLsb' 0 2, a := Opnd.dec f.a,
                    b := Opnd.dec f.b })
  | 0x85 => some (some (.msave h { merge := f.mod.getLsbD 0, p := f.c.extractLsb' 0 2, a := Opnd.dec f.a,
                                   b := Opnd.dec f.b }))
  | 0x86 => some (some (.mload h { merge := false, p := f.c.extractLsb' 0 2, a := Opnd.dec f.a, b := Opnd.dec f.b }))
  | 0x87 => some (some (.mmerge h (f.c.extractLsb' 0 2) (f.c.extractLsb' 2 2)))
  | 0x88 => some ((modTy f).map fun t =>
      .qmx h { ty := t, sat := f.mod.getLsbD 5, expl := f.mod.getLsbD 6, a := Opnd.dec f.a, b := Opnd.dec f.b,
               c := Opnd.dec f.c })
  | 0x89 => some ((modTy f).map fun t => .dqmx h t (Opnd.dec f.d) (Opnd.dec f.a))
  | 0x8A => some ((modTy f).map fun t => .qscale h t (Opnd.dec f.d) (Opnd.dec f.a))
  | _ => none

/-- Group 5. -/
def toMem (h : Ctl) (f : Fields) : Option (Option Instr) :=
  match f.op.toNat with
  | 0xA0 => some ((LdSt.ofFields f).map (.ld h))
  | 0xA1 => some ((LdSt.ofFields f).map (.st h))
  | 0xA2 => some ((HallLS.ofFields f).map (.ldh h))
  | 0xA3 => some ((HallLS.ofFields f).map (.sth h))
  | 0xA4 => some ((FeLS.ofFields f).map (.ldf h))
  | 0xA5 => some ((FeLS.ofFields f).map (.ste h))
  | 0xA6 => some ((FeLS.ofFields f).map (.ldw h))
  | 0xA7 => some (some (.fe h (f.mod.getLsbD 0) (Opnd.dec f.a) (SrcImm.dec (f.mod.getLsbD 5) f)))
  | 0xA8 => some ((Amo.ofFields f).map (.amo h))
  | 0xA9 => some ((Amo.ofFields f).map (.amoh h))
  | 0xAA => some (some (.pref h (f.mod.getLsbD 0) (Opnd.dec f.a) (Offset.dec (f.c.getLsbD 4) f.b)))
  | 0xAB => some ((Scope.ofCode (f.c.extractLsb' 0 3)).map fun s =>
      .cflush h s (Opnd.dec f.a) (Offset.dec (f.c.getLsbD 4) f.b))
  | _ => none

/-- Group 6. -/
def toCtl (h : Ctl) (f : Fields) : Option (Option Instr) :=
  match f.op.toNat with
  | 0xC0 => some (some (.bra h (imm24 f)))
  | 0xC1 => some (some (.brx h (Opnd.dec f.a)))
  | 0xC2 => some (some (.call h (Opnd.dec f.d) (imm24 f)))
  | 0xC3 => some (some (.ret h (Opnd.dec f.a)))
  | 0xC4 => some (some (.shed h (f.mod.getLsbD 0) (Opnd.dec f.a) f.b f.c))
  | 0xC5 => some (some (.close h))
  | 0xC6 => some (some (.regroup h (Opnd.dec f.a)))
  | 0xC7 => some (some (.exit h))
  | 0xC8 => some (some (.yield h))
  | 0xC9 => some (some (.meet h))
  | 0xCA => some do
    let o ← Order.ofCode (modHi f)
    let s ← Scope.ofCode (f.mod.extractLsb' 0 3)
    pure (.fence h o s (f.mod.getLsbD 3))
  | 0xCB => some ((Cnt.ofFields f).map (.cntsig h))
  | 0xCC => some ((Cnt.ofFields f).map (.cntwait h))
  | 0xCD => some do
    let s ← Scope.ofCode (f.mod.extractLsb' 0 3)
    pure (.cntrd h { acq := f.mod.getLsbD 6, hall := f.mod.getLsbD 4, scope := s, promote := f.mod.getLsbD 3,
                     d := Opnd.dec f.d, a := Opnd.dec f.a })
  | 0xCE => some (some (.ifence h))
  | 0xCF => some (some (.drains h))
  | 0xD0 => some (some (.tbeg h (Opnd.dec f.a) (Opnd.dec f.b)))
  | 0xD1 => some (some (.tend h))
  | _ => none

/-- Group 7. -/
def toSys (h : Ctl) (f : Fields) : Option (Option Instr) :=
  match f.op.toNat with
  | 0xE0 => some (some (.submit h (Opnd.dec f.d) (Opnd.dec f.a) (Opnd.dec f.b)))
  | 0xE1 => some (some (.csrr h (Opnd.dec f.d) (imm24 f)))
  | 0xE2 => some (some (.csrw h (Opnd.dec f.a) (imm24 f)))
  | 0xE3 => some (some (.trap h (imm24 f)))
  | 0xE4 => some (some (.eret h))
  | 0xE5 => some (some (.sfrq h (Opnd.dec f.d)))
  | 0xE6 => some (some (.kill h))
  | 0xE7 => some (some (.brk h (imm24 f)))
  | 0xE8 => some (some (.sleep h (if f.mod.getLsbD 5 then .imm (imm24 f) else .src (Opnd.dec f.a))))
  | 0xE9 => some (some (if f.mod.getLsbD 0 then .clockAc h (Opnd.dec f.d) else .clockGt h (Opnd.dec f.d)))
  | 0xEA => some (some (.meter h (Opnd.dec f.d) (if f.mod.getLsbD 5 then .imm (imm24 f) else .src (Opnd.dec f.a))))
  | 0xEB => some (some (if f.mod.getLsbD 0 then .dgrdExp h (Opnd.dec f.d) else .dgrdTask h (Opnd.dec f.d)))
  | _ => none

/-- The instruction of the fields, by OP[7:4] (R102); `none` for an unused OP. -/
def toInstr (h : Ctl) (f : Fields) : Option (Option Instr) :=
  match (f.op.extractLsb' 4 4).toNat with
  | 0x0 | 0x1 => toInt h f
  | 0x2 | 0x3 => toLane h f
  | 0x4 | 0x5 => toFlt h f
  | 0x6 | 0x7 => toBolt h f
  | 0x8 => toMat h f
  | 0xA => toMem h f
  | 0xC | 0xD => toCtl h f
  | 0xE => toSys h f
  | _ => none

/-- Decode a word (R106, R107): ILLEGAL_OP for an unused OP comes before ILLEGAL_ENC, which every word gets that is not,
bit for bit, the word of a well-formed instruction (reserved bits, unused fields, kinds, types, guards). -/
def decode (w : IWord) : Except DecodeErr Instr :=
  match toInstr (ctlOf w) (fieldsOf w) with
  | none => .error .illegalOp
  | some none => .error .illegalEnc
  | some (some i) => if i.wf && encode i == some w then .ok i else .error .illegalEnc

/-! ## Bytes of a word (R86) -/

/-- The bytes of a number, little-endian (R9). -/
def leBytes : Nat → Nat → List Byte
  | 0, _ => []
  | k + 1, x => BitVec.ofNat 8 x :: leBytes k (x / 256)

/-- The number that little-endian bytes hold (R9). -/
def ofLeBytes : List Byte → Nat
  | [] => 0
  | b :: bs => b.toNat + 256 * ofLeBytes bs

/-- The word of the 12 bytes of a slot (R86). -/
def wordOfBytes (bs : List Byte) : IWord := BitVec.ofNat 96 (ofLeBytes bs)

/-- The instruction that the decoder reads from a word given as bits, laid out as a code line stores it (R86). -/
def decodeTableWord (nbits w : Nat) : Option Instr :=
  match decode (wordOfBytes (leBytes 12 (w % 2 ^ nbits))) with
  | .ok i => some i
  | .error _ => none

end Sys2Proof
end

