-- ==== Sys2Proof/Config.lean ====
section
/-! DEFINITION. What the manual leaves open: free values, each an opaque constant that no proof can see through, and the
sizes that an implementation fixes. -/

namespace Sys2Proof.Config

/-- Arithmetic clocks that pass in a step (log 2). The argument is State.free. -/
opaque clocksOf : Nat → Nat

/-- Nanoseconds of global time that pass in a step (log 2). -/
opaque nsOf : Nat → Nat

/-- Byte `i` after the index of the XMSS^MT signature with index `idx` over a body (R404; log 12). -/
opaque signByte : Nat → List Byte → Nat → Byte

/-- Byte `i` of the public-key certificate (R404; log 12). -/
opaque certByte : Nat → Byte

/-- Byte `i` of the measurement of firmware version `v` with rollback count `r` (R407; log 12). -/
opaque measureByte : Nat → Nat → Nat → Byte

/-- The hash of a UALink destination, fixed at bring-up (R362; log 14). -/
opaque ualHash : Nat → Nat

/-- The hash of a flow's source, destination and class, fixed at bring-up (R353; log 14). -/
opaque stairHash : Nat → Nat

/-- The tag that the hardware gives the results of the opcode `op`, whose entry states no tag (log 18): 0 uniform,
1 affine, else general. -/
opaque tagOf : Nat → Nat

/-- The word that a register holds in a lane without a thread after `regroup` (R144; log 19). The first argument is
State.free. -/
opaque idleLane : Nat → Nat → Nat → BitVec 32

/-- A CSR of privileged firmware, whose contents the manual does not give (R43; log 18). The first argument is
State.free. -/
opaque firmwareCsr : Nat → Nat → BitVec 64

/-- Which of n lines a full slice gives up (R3; log 41). The first argument is State.free. -/
opaque victimOf : Nat → Nat → Nat

/-- Which of n values that a hall word held between issue and landing the loom reads (R182; log 11). The first argument is
State.free, then come the hall (0 A, 1 W) and the word. -/
opaque seenOf : Nat → Nat → Nat → Nat → Nat

/-- The words of hall A that a rounding writes before it lands (R181; log 11). The first argument is the choice's name. -/
opaque early : Nat → Nat → Bool

/-- A field of an event entry or trap register for which the manual states no value (log 21): which field, and a number
of the case. -/
opaque openField : Nat → Nat → Nat

/-- An address of the pod lies in an inbound window of the peer that it names; outside every window the peer answers with
an error (R361; log 10). -/
opaque peerServes : Nat → Bool

end Sys2Proof.Config
end

