-- ==== Sys2Proof/Machine/State.lean ====
section
/-! DEFINITION. The machine's state as plain data: what the spec gives each skein, block, grid, context, core, die,
slice, stair, link and the package, the model's own scheduling fields, and the state after reset. -/

namespace Sys2Proof.Machine

/-- The shape tag of a vector register (R16). -/
inductive Shape where
  | uniform | affine | general
  deriving DecidableEq, Repr

/-- A vector register of a skein (R15, R16): its tag, a word per lane (a lane not listed reads 0), a poison bit per
lane. The base and stride of an affine register are those of its lanes 0 and 1. -/
structure VReg where
  tag : Shape := .uniform
  lanes : List Word := []
  poison : Mask := 0
  deriving DecidableEq, Repr

/-- A shed stack entry (R24). -/
structure Shed where
  deferred : Mask
  parked : Mask
  elsePc : Pc
  closePc : Pc
  inElse : Bool
  deriving DecidableEq, Repr

/-- A valid map slot (R171). `list` is present when an index list is attached. -/
structure MapSlot where
  ty : Ty
  hallW : Bool
  base : Word
  stride : Word
  list : Option Word
  deriving DecidableEq, Repr

/-- A held boundary cause (R329). -/
structure Held where
  code : Nat
  addr : DWord
  info : DWord
  deriving DecidableEq, Repr

/-- The trap CSRs of a skein (R35, R315). -/
structure TrapRegs where
  cause : Word := 0
  pc : DWord := 0
  addr : DWord := 0
  info : DWord := 0
  deriving DecidableEq, Repr

/-- The handler-entry save (R316), with the parts of the control block that stood at trap entry (R329). -/
structure EntrySave where
  pc : Pc
  running : Mask
  sheds : List Shed
  live : Mask
  preds : Tbl Mask
  flags : Tbl Nat
  stall : Nat
  spanOpen : Bool
  deriving DecidableEq, Repr

/-- The task state of a skein (R38, R238, R395). -/
structure Task where
  isOpen : Bool := false
  ts : DWord := 0
  digest : DWord := 0
  index : Nat := 0
  lastKey : Option DWord := none
  /-- The name of the open span, which no other span has (R248). -/
  name : Nat := 0
  deriving DecidableEq, Repr

/-- What a parked skein waits for (R50, R205, R245, R319, R142): the clock of parking, the condition, and what
WAIT_WATCHDOG reports (R314). `walk` waits for a translation walk; `fault` for the host's reply; `refused` is a reply that
found the skein saved. -/
inductive Park where
  | no
  | word (since : Nat) (lane : Nat) (offs : List Nat) (full : Bool)
  | count (since : Nat) (lane : Nat) (pa : Nat) (va : DWord) (threshold : DWord)
  | countHall (since : Nat) (lane : Nat) (off : Nat) (threshold : DWord)
  | chan (since : Nat) (lane : Nat) (c : Nat)
  | sleep (since : Nat) (clocks : Nat)
  | walk (va : DWord) (acc : Acc) (lane : Option Nat)
  | fault (id : Nat) (va : DWord) (acc : Acc) (fcode : Nat) (lane : Option Nat)
  | refused (va : DWord) (acc : Acc) (fcode : Nat) (lane : Option Nat)
  deriving DecidableEq, Repr

/-- Where a skein stands with a meeting of its block (R142): the STALL of a `meet`, the predicate of a `regroup`. It stands
at that instruction's PC. -/
inductive Meeting where
  | no
  | meet (stall : Nat)
  | regroup (p : Nat)
  deriving DecidableEq, Repr

/-- Where a skein stands with leave for a heavy operation (R399). -/
inductive Leave where
  | no | asked | granted
  deriving DecidableEq, Repr

/-- One lane of a load in flight: its lane, its physical address, and the attributes of its mapping (R268): 1 for
cacheable plus 2 for BOLT. -/
structure LoadLane where
  lane : Nat
  pa : Nat
  att : Nat := 0
  deriving DecidableEq, Repr

/-- The bytes of one line that a load in flight has bound under the attributes of a mapping. -/
structure GotLine where
  la : Nat
  att : Nat := 0
  data : List Byte
  poison : List (Nat × Nat)
  deriving DecidableEq, Repr

/-- A load in flight (R199): destination, type, lanes, lines bound so far, the store bytes that it reads over
them (R252), the flag it holds, and whether it is strong or an acquire. A `bld` (R164) reads whole bolts; an ordered atomic
without RET (R397) has no destination. -/
structure LoadOp where
  id : Nat
  dst : Nat
  ty : Ty
  lanes : List LoadLane
  got : List GotLine
  overlay : List (Nat × Byte)
  flag : Option Nat
  strong : Bool
  acq : Bool
  /-- Every lane is active and the address is uniform (R199). -/
  uniform : Bool
  /-- An ordered atomic's old values by lane (R397), and the lanes whose old value is poisoned. -/
  olds : List (Nat × DWord)
  oldBad : List Nat := []
  bolt : Bool := false
  noDst : Bool := false
  /-- Requests without a reply, with the global time at which each was last sent (R359). -/
  asked : List (LoadReq × Nat) := []
  deriving DecidableEq, Repr

/-- A skein (R13 to R35, R50, R302, R316, R329). -/
structure Skein where
  ctx : Nat
  grid : Nat
  blk : Nat
  core : Nat
  quad : Nat
  slot : Nat
  width : Nat
  num : Nat
  regCount : Nat
  tid : List Nat
  live : Mask
  running : Mask
  pc : Pc
  regs : Tbl VReg := []
  preds : Tbl Mask := []
  flags : Tbl Nat := []
  sheds : List Shed := []
  maps : Tbl MapSlot := []
  clockh : Word := 0
  fpcsr : Word := 0
  trap : TrapRegs := {}
  hnd : Bool := false
  entry : Option EntrySave := none
  bclost : Bool := false
  held : List Held := []
  sfInd : Bool := false
  task : Task := {}
  stall : Nat := 0
  park : Park := .no
  meeting : Meeting := .no
  leave : Leave := .no
  loads : List LoadOp := []
  lines : Tbl (List Byte) := []
  /-- Poisoned words of fetched lines: line and slot (R326). -/
  badWords : List (Nat × Nat) := []
  regrouped : Bool := false
  age : Nat := 0
  readyAt : Nat := 0
  /-- The clock from which a wait that was interrupted by a wake counts against the watchdog (R205). -/
  waited : Option Nat := none
  promoted : Option Nat := none
  /-- A change of the count word that the skein waits on met its threshold (R214). -/
  met : Bool := false
  /-- The skein's last word asked its quadrant to prefer another (R101). -/
  yielded : Bool := false
  /-- Lines that the core's instruction cache took in before this number are not for the skein (R215). -/
  fenced : Nat := 0
  guard : Bool := false
  halted : Bool := false
  firmware : Bool := false
  deriving DecidableEq, Repr

/-- A bound channel (R25). -/
structure Chan where
  off : Nat
  depth : Nat
  head : Nat := 0
  tail : Nat := 0
  count : Nat := 0
  deriving DecidableEq, Repr

/-- A kernel descriptor as read at acceptance, with its channel table (R114, R115, R116). -/
structure Desc where
  va : DWord := 0
  code : Pc := 0
  regs : Nat := 0
  widthCode : Nat := 0
  skeins : Nat := 1
  granA : Nat := 0
  granW : Nat := 0
  hallc : Nat := 0
  chans : Tbl Chan := []
  prio : Nat := 0
  level : Nat := 0
  midpre : Bool := false
  serial : Bool := false
  trapPc : DWord := 0
  collVa : DWord := 0
  deriving DecidableEq, Repr

/-- A hall word as it stood before a write: hall W or A, its number, value and poison. -/
structure PastWord where
  hallW : Bool
  word : Nat
  val : Word
  bad : Bool
  deriving DecidableEq, Repr

/-- A block on a core or in an image (R25, R44 to R46, R142, R299, R390). -/
structure Block where
  ctx : Nat := 0
  grid : Nat := 0
  idx : Nat := 0
  core : Nat := 0
  skeins : List Nat := []
  nskein : Nat := 0
  granA : Nat := 0
  granW : Nat := 0
  hallA : Memory := []
  hallW : Memory := []
  full : List Nat := []
  poisonA : List Nat := []
  poisonW : List Nat := []
  hallc : List Nat := []
  chans : Tbl Chan := []
  digest : DWord := 0
  ended : Option Nat := none
  allEnded : Bool := false
  /-- The block is to end with this cause once its skeins' refused ordered entries are accepted and its group 4
  instructions have landed (R244). -/
  dying : Option Nat := none
  launches : Nat := 0
  parent : Bool := false
  stalled : Bool := false
  placedAt : Nat := 0
  /-- Tile products of the block that have issued and not landed, and the hall words replaced while there was one, oldest
  first (R182). -/
  reading : Nat := 0
  past : List PastWord := []
  deriving DecidableEq, Repr

/-- A die's share of a grid's unplaced blocks (R294, R295): its own blocks die + d×j for lo ≤ j < hi, and blocks
stolen from others. -/
structure Share where
  die : Nat
  lo : Nat
  hi : Nat
  extra : List Nat := []
  mayAsk : Bool := true
  deriving DecidableEq, Repr

/-- A grid (R235, R294, R35, R388, R392, R312). -/
structure Grid where
  ctx : Nat := 0
  queue : Nat := 0
  num : Nat := 0
  port : Port := ⟨0, .launch 0⟩
  die : Nat := 0
  desc : Desc := {}
  gx : Nat := 1
  gy : Nat := 1
  gz : Nat := 1
  bx : Nat := 1
  bY : Nat := 1
  bz : Nat := 1
  prio : Nat := 0
  filler : Bool := false
  serial : Bool := false
  level : Nat := 0
  depth : Nat := 0
  trapvec : DWord := 0
  ltag : DWord := 0
  expect : Option DWord := none
  reexec : Bool := false
  shares : Tbl Share := []
  placed : Nat := 0
  blocksEnded : Nat := 0
  badCount : Nat := 0
  lowest : Option Nat := none
  cause : Nat := 0
  dsum : DWord := 0
  frontier : DWord := 0
  coll : Option Nat := none
  submitter : Option Nat := none
  parent : Option Nat := none
  /-- The latest logical time of what happens before the grid's blocks, and of what they did (R223, R299). -/
  lclk : Stamp := 0
  deriving DecidableEq, Repr

/-- The states of a context (R10). -/
inductive CtxState where
  | free | resident | saved | lost
  deriving DecidableEq, Repr

/-- A user ring (R290, R291). -/
structure Ring where
  base : DWord
  log2n : Nat
  cls : Nat
  die : Nat
  enabled : Bool
  headVa : DWord
  tailVa : DWord
  doneVa : DWord
  taken : Nat := 0
  /-- The tail word is to be read afresh at the next visit (R410). -/
  fresh : Bool := false
  deriving DecidableEq, Repr

/-- An event ring with its control register, its backlog and its interrupt counts (R309 to R311). -/
structure EvRing where
  base : DWord := 0
  log2n : Nat := 4
  vector : Nat := 0
  headVa : DWord := 0
  tailVa : DWord := 0
  posted : Nat := 0
  en : Bool := false
  etime : Nat := 0
  ecount : Nat := 1
  since : Nat := 0
  oldest : Option Nat := none
  backlog : List (List Byte) := []
  deriving DecidableEq, Repr

/-- A declared job-wide identifier (R364). -/
structure Ident where
  id : DWord
  heddle : Bool
  recvVa : DWord
  deriving DecidableEq, Repr

/-- A queue's determinism level, armed expectation and re-execution mark (R388, R389). -/
structure QueueSt where
  level : Nat := 0
  expect : Option DWord := none
  reexec : Bool := false
  deriving DecidableEq, Repr

/-- An outstanding page fault (R319 to R321). -/
structure PFault where
  id : Nat
  die : Nat
  page : Nat
  waiters : List Nat
  deriving DecidableEq, Repr

/-- A record as the port numbers it (R225, R227), with how far it has come. -/
structure RecSt where
  num : Nat
  tag : Nat
  trap : Bool
  flag : Option Nat
  sk : Option Nat
  blk : Option Nat
  core : Nat
  body : Rec
  started : Bool := false
  leave : Leave := .no
  paused : Bool := false
  trapped : Bool := false
  rows : Nat := 0
  version : Option DWord := none
  /-- GATHER_SHARD: the version did not match, and the second read is made (R234). -/
  stale : Bool := false
  reread : Bool := false
  /-- CXCH: the STATUS of each component sent, by entry × 4 + component: 0 while owed, and 8 more until it is written into
  the plan; the counters of R386. -/
  stats : Tbl Nat := []
  /-- CXCH: the components sent, by entry × 4 + component (R385). -/
  comps : Tbl PlanComp := []
  /-- The latest wts that acknowledged a write of the record (R223). -/
  seen : Stamp := 0
  /-- A copy that a restore took up again, and that has not begun on its new channel (R331). -/
  resumed : Bool := false
  /-- Bytes of transfers that the regulator has let through and that have not been made (R377). -/
  paid : Nat := 0
  /-- A copy's bytes of words that a later row is to write, with their poison (R232). -/
  owed : List (Nat × Byte × Bool) := []
  decodes : Nat := 0
  faults : Nat := 0
  fallbacks : Nat := 0
  coded : Nat := 0
  /-- CXCH: the XID of the plan's header, as read when the record was checked (R378). -/
  xid : DWord := 0
  raw : List Byte := []
  deriving DecidableEq, Repr

/-- A port of a context (R225): records accepted, its count word, records completed above it, records under way. -/
structure PortSt where
  port : Port
  accepted : Nat := 0
  word : Nat := 0
  done : List Nat := []
  recs : List RecSt := []
  /-- The latest wts that acknowledged a write of a completed record (R225). -/
  seen : Stamp := 0
  deriving DecidableEq, Repr

/-- The debug registers of a context (R333), and the records that a QUIESCE listed. -/
structure Debug where
  halt : Bool := false
  brken : Bool := false
  qmode : Bool := false
  qdone : Bool := false
  dbglist : DWord := 0
  listed : List (Port × RecSt) := []
  deriving DecidableEq, Repr

/-- A token-bucket regulator (R377), with the global time up to which it is filled, and the RATE and DEPTH that take effect at
the next microsecond. -/
structure Bucket where
  rate : Nat := 0
  depth : Nat := 0x00100000
  level : Nat := 0x00100000
  refillAt : Nat := 0
  next : Option (Nat × Nat) := none
  deriving DecidableEq, Repr

/-- The areas of a context that the host fixes (R411). -/
structure Areas where
  saveVa : DWord := 0
  saveLen : DWord := 0
  cntVa : DWord := 0
  tmplVa : DWord := 0
  retention : DWord := 0
  metOut : DWord := 0
  deriving DecidableEq, Repr

/-- A context (R10, R11, R31, R402, R410, R411). -/
structure Context where
  state : CtxState := .free
  loss : Nat := 0
  create : Nat := 0
  mode : Nat := 0
  device : Nat := 0
  func : Nat := 0
  launchPorts : Bool := false
  abortOnPoison : Bool := false
  lease : Nat := 10
  ltick : Nat := 256
  linkwatch : BitVec 2 := 0
  quantum : Nat := 1000
  meter : Tbl Nat := []
  ttroot : DWord := 0
  areas : Areas := {}
  rings : Tbl Ring := []
  events : Tbl EvRing := []
  ids : List Ident := []
  queues : Tbl QueueSt := []
  faults : List PFault := []
  nextFault : Nat := 0
  dbg : Debug := {}
  buckets : Tbl Bucket := []
  job : DWord × DWord := (0, 0)
  metSeq : Nat := 0
  created : Nat := 0
  granules : List (Nat × Nat) := []
  lastRes : Nat := 0
  guardCore : Option Nat := none
  guardEnd : Nat := 0
  /-- The global time at which the context qualified for the starvation guard (R307). -/
  starvedAt : Option Nat := none
  deriving DecidableEq, Repr

/-- A leased L1 copy (R254). -/
structure L1Line where
  data : List Byte
  rts : Stamp
  poison : List (Nat × Nat) := []
  deriving DecidableEq, Repr

/-- A merge-state copy (R258). -/
structure MergeCopy where
  ctx : Nat
  bolt : Bolt
  count : Nat
  deriving DecidableEq, Repr

/-- An entry of the store-combining buffer, or a strong store on its way (R252). -/
structure ScbEntry where
  ctx : Nat
  la : Nat
  bytes : List (Nat × Byte)
  writers : List Nat
  cached : Bool
  sent : Bool
  strong : Bool := false
  /-- The stores that land with this entry: skein, flag, a name of the store. -/
  ops : List (Nat × Nat × Nat) := []
  deriving DecidableEq, Repr

/-- A TLB entry: a valid leaf of a context (R338). -/
structure TlbEntry where
  ctx : Nat
  vbase : Nat
  size : Nat
  entry : DWord
  deriving DecidableEq, Repr

/-- A hall C partition granted to a context (R46). A bolt not listed is zero. -/
structure Part where
  ctx : Nat
  blk : Option Nat := none
  reserved : Option Nat := none
  bolts : Tbl Bolt := []
  deriving DecidableEq, Repr

/-- An ask for leave (R399): of a skein, or of a copy record. -/
inductive Asker where
  | skein (sk : Nat)
  | record (p : Port) (n : Nat)
  deriving DecidableEq, Repr

/-- What a group 4 instruction that has issued is still to do (R174, R177, R178): a product with its maps as copied and the
rows of map A, a partition cleared, two partitions merged, a partition rounded into hall A, or a tile transfer that waits for
its lines. A rounding that has begun names the choice by which it wrote some of its words. Partitions are the core's. -/
inductive LoomAct where
  | mul (a b : MapSlot) (kb : Nat) (rows : List (Option Nat)) (p : Nat)
  | zero (p : Nat)
  | merge (p q : Nat)
  | round (ty : Ty) (mode : Nat) (sat : Bool) (off stride : Nat) (p : Nat) (begun : Option Nat)
  | lines
  deriving DecidableEq, Repr

/-- A group 4 instruction that has issued and not landed (R180): its name, skein, block and context, and how many replaced
hall words its block listed when it issued. -/
structure LoomOp where
  id : Nat
  sk : Nat
  blk : Nat
  ctx : Nat
  mark : Nat
  act : LoomAct
  deriving DecidableEq, Repr

/-- A line of a core's instruction cache, with the number at which it was taken in (R215, R251). -/
structure CodeLine where
  la : Nat
  bytes : List Byte
  taken : Nat
  deriving DecidableEq, Repr

/-- A core (R36, R46, R180, R251, R252, R254, R258, R299, R324, R338, R399). The next logical tick is due at `tickAt`. -/
structure CoreSt where
  lclk : Stamp := 0
  tickAt : Nat := 256
  l1 : Tbl L1Line := []
  merges : Tbl MergeCopy := []
  scb : List ScbEntry := []
  recWait : List StoreRec := []
  recQ : List StoreRec := []
  utlb : List TlbEntry := []
  refill : Nat := 0x04000000
  allow : Int := 0x10000000
  refillAt : Nat := 0
  asks : List (Asker × Nat) := []
  hallc : Tbl Part := []
  /-- Group 4 instructions in loom order (R180). -/
  loom : List LoomOp := []
  icache : List CodeLine := []
  /-- The clock at which the core last acted (log 2), and the skein that each quadrant chose last (R101). -/
  actedAt : Option Nat := none
  lastIssue : Tbl Nat := []
  /-- The sequence number of the next transaction tag, and the partials returned without a reply, with the global time at
  which each was last sent (R359). -/
  seq : Nat := 0
  acks : List (RecallAck × Nat) := []
  deriving DecidableEq, Repr

/-- A side-information entry (R381). -/
structure SideEntry where
  ctx : Nat
  bid : DWord
  va : DWord
  inuse : Bool
  deriving DecidableEq, Repr

/-- A logical die (R254, R338, R358, R368, R369, R381, R382). The most recently used side entry stands last. -/
structure Die where
  lost : Bool := false
  discarded : Nat := 0
  pclk : Stamp := 0
  tlb : List TlbEntry := []
  side : List SideEntry := []
  slots : Nat := 0
  counters : Nat := 0
  /-- For each priority, the queue that last placed a block in its turn, as context × 256 + queue (R297). -/
  turns : Tbl Nat := []
  /-- The global time at which a flit last crossed the die's stair (R356). -/
  lastFlit : Nat := 0
  intake : List Chunk := []
  /-- Bytes that regulators have let through for the oldest packet of the die (R377). -/
  paid : Nat := 0
  deriving DecidableEq, Repr

/-- A home line (R254): stamps, the context that last dirtied it, the core of a release narrower than device scope. -/
structure HomeLine where
  wts : Stamp := 0
  rts : Stamp := 0
  dirty : Option Nat := none
  relCore : Option Nat := none
  deriving DecidableEq, Repr

/-- An L2 slice (R254, R397, R359): a completed tag stands with the global time of its completion. -/
structure Slice where
  mts : Stamp := 0
  ordered : List OrdEntry := []
  tags : List (Nat × Nat) := []
  deriving DecidableEq, Repr

/-- What a quiet point trains a module at (R351, R352): code, width, the half in use at x32, the lane it retires, and the
step of R355, 0 for a change that the host commands. -/
structure Retraining where
  code : Nat
  width : Nat
  half : Nat := 0
  lane : Option Nat := none
  step : Nat := 0
  deriving DecidableEq, Repr

/-- A stair module (R347 to R352, R356). -/
structure Stair where
  code : Nat := 0
  limit : Nat := 4096
  wakefail : Nat := 0
  state : Nat := 0
  ruse : BitVec 4 := 0
  rret : BitVec 4 := 0
  rate : Nat := 0
  width : Nat := 0
  retired : DWord := 0
  crcerr : Nat := 0
  replay : Nat := 0
  replaycyc : Nat := 0
  retrain : Nat := 0
  trainedAt : Option Nat := none
  /-- The window of R352: its start, the growth of REPLAY, attributions by lane; times of retrains in place. -/
  windowAt : Nat := 0
  windowReplay : Nat := 0
  attrib : Tbl Nat := []
  inPlace : List Nat := []
  /-- The data lane that each redundant lane carries, lanes found bad without a redundant lane, and the half at x32. -/
  carries : Tbl Nat := []
  bad : List Nat := []
  half : Nat := 0
  /-- A quiet point ahead or under way; a training of it fell back; the rate was written during it; it re-admits. -/
  target : Option Retraining := none
  fell : Bool := false
  rewritten : Bool := false
  readmit : Bool := false
  /-- The module stands at the quiet point of its whole stair (R351). -/
  held : Bool := false
  /-- The global time at which the wake attempt under way began. -/
  waking : Option Nat := none
  deriving DecidableEq, Repr

/-- A UALink port (R363). -/
structure UalPort where
  peer : DWord := 0
  peerport : Nat := 0
  state : Nat := 0
  lanes : Nat := 0
  crcerr : Nat := 0
  replay : Nat := 0
  retrain : Nat := 0
  activeAt : Option Nat := none
  txbytes : Nat := 0
  rxbytes : Nat := 0
  deriving DecidableEq, Repr

/-- A collective of a rank (R365 to R375). Keys of `counters` are chunks that the rank owns. -/
structure Coll where
  ctx : Nat
  die : Nat
  port : Port
  num : Nat
  planid : DWord
  ranks : Nat
  self : Nat
  root : Nat
  chunk : Nat
  planVa : DWord
  outVa : DWord
  statVa : DWord
  body : CollRec
  level : Nat
  queue : Nat
  tag : Nat
  grid : Option Nat
  accepted : Bool := false
  counters : Tbl Nat := []
  seen : List (Nat × Nat) := []
  sent : List Nat := []
  written : List Nat := []
  digests : Tbl DWord := []
  poisoned : Nat := 0
  failed : Bool := false
  digested : Bool := false
  /-- Chunks on their way to other devices that none of them has acknowledged (R371). -/
  owed : List Chunk := []
  deriving DecidableEq, Repr

/-- A block held in a save image (R328): what the image does not list is kept by the device. -/
structure Saved where
  block : Block
  skeins : Tbl Skein
  va : Nat
  bytes : Nat
  copies : List (Port × RecSt)
  /-- Its store-fault records (R331). -/
  recs : List StoreRec := []
  /-- The VA of each skein's control block. -/
  controls : Tbl Nat := []
  /-- The latest logical time of records that completed while the block was saved (R223). -/
  lclk : Stamp := 0
  /-- The clock at which the image was written (R332). -/
  savedAt : Nat := 0
  deriving DecidableEq, Repr

/-- A context's hall C held in a save image (R328). -/
structure SavedHallC where
  ctx : Nat
  parts : Nat
  owners : List (Option Nat)
  va : Nat
  bytes : Nat
  savedAt : Nat := 0
  deriving DecidableEq, Repr

/-- What the receiver of a chunk answers (R369, R371): merged or written, no room, or an identifier that no context
declares. -/
inductive Answer where
  | done | full | refused
  deriving DecidableEq, Repr

/-- What has left the package (log 17). -/
inductive Outward where
  | interrupt (func vector : Nat)
  | reply (func : Nat) (bytes : List Byte)
  | peerReply (pod : Nat) (ok : Bool) (bytes : List Byte)
  /-- A chunk for a pod number, or for the address of a bridge window, which lies above every pod number. -/
  | chunk (dest : Nat) (c : Chunk)
  /-- A heddle packet as its bytes (R380). -/
  | packet (pod : Nat) (bytes : List Byte)
  | digest (dest : Nat) (planid step : DWord) (rank : Nat) (digest : DWord)
  | answer (src : Source) (planid step : DWord) (chunk rank dest : Nat) (a : Answer)
  | nackTo (pod : Nat) (m : NackMsg)
  | mgmt (kind : Nat) (bytes : List Byte)
  deriving DecidableEq, Repr

/-- A signing request that waits (R405): the body of a meter record, or the job of a membership record, whose body is made
at signing (R407). -/
structure SignReq where
  ctx : Nat
  pa : Nat
  body : List Byte
  job : Option (DWord × DWord)
  deriving DecidableEq, Repr

/-- The package's own registers (R262, R340, R360, R405, R409, R413 to R415). -/
structure Package where
  fuse : BitVec 16 := 0xC688
  extents : Tbl (Nat × Nat) := []
  podnum : Nat := 0
  hostbase : DWord := 0
  serial : DWord := 0
  watts : Nat := 2400
  tjmax : Nat := 105
  bubbleclk : Nat := 0
  /-- The invalidation registers: context, VA, length; and the commands that were started, oldest first (R339). -/
  inval : DWord × DWord × DWord := (0, 0, 0)
  invalCmd : DWord := 0
  invalQ : List (DWord × DWord × DWord × DWord) := []
  invalDone : DWord := 0
  fwstate : Nat := 1
  fwversion : Nat := 0
  rollback : Nat := 0
  window : Memory := []
  bringUp : Nat := 0
  failed : Bool := false
  xmssIdx : Nat := 0
  /-- The signature index that is reserved and not yet used (R405). -/
  reserved : Option Nat := none
  signQ : List SignReq := []
  fixedClass : Bool := true
  /-- Flows on the escape channel (R343). -/
  escaped : List Nat := []
  /-- The power samples of the last 100 microseconds, the newest first (R415). -/
  samples : List Nat := []
  idle : Nat := 0
  windows : List (Nat × Nat) := []
  /-- The ring visited last, as context × 64 + ring (R291). -/
  ringLast : Option Nat := none
  pclk : Stamp := 0
  sampledAt : Nat := 0
  hostLclk : Stamp := 0
  hostTickAt : Nat := 0
  deriving DecidableEq, Repr

/-- What a cache gives up by itself (log 41): a leased copy of a core (R255), a fetched line of a skein, a line of a
core's instruction cache (R215), an entry of a core's micro-TLB or of a die's TLB, by its place (R338). -/
inductive Evicted where
  | copy (core la : Nat)
  | code (sk la : Nat)
  | icode (core n : Nat)
  | microTlb (core n : Nat)
  | dieTlb (die n : Nat)
  deriving DecidableEq, Repr

/-- What firmware, other devices and chance do without a row of the opcode table: the idle time of the stairs (R356) and the
inbound windows (R361) are set; an uncorrectable error strikes a line at its home, a leased copy, a word of hall A or W, a bolt
of hall C, a register lane, a segment of an image as a save writes it, or the replay copy of a message under way (R250, R326,
R332, R354, R416); a UALink port receives bad flits
or sends flits again (R363); another device answers a chunk (R369, R371); the host asks for a context to be saved (R304). -/
inductive Outside where
  | idle (ns : Nat)
  | windows (ws : List (Nat × Nat))
  | lineError (la : Nat)
  | copyError (core la : Nat)
  | hallError (blk : Nat) (hallW : Bool) (word : Nat)
  | boltError (core p e : Nat)
  | laneError (sk reg lane : Nat)
  | imageError (hallC : Bool) (id seg off : Nat)
  | replayError (n : Nat) (units : List Nat)
  | ualErrors (p crc replayed : Nat)
  | answer (planid step : DWord) (chunk rank dest : Nat) (a : Answer)
  | saveContext (ctx : Nat)
  deriving DecidableEq, Repr

/-- What moves next (log 1): a skein issues in its turn, a skein performs at once what it waited for (R203), a step under
way is taken out of turn, an event comes about, a cache gives something up, or firmware or chance acts. -/
inductive Move where
  | issue (sk : Nat)
  | now (sk : Nat)
  | pend (n : Nat)
  | ev (i : Instr)
  | evict (e : Evicted)
  | outside (o : Outside)
  deriving DecidableEq, Repr

/-- The machine. The first seven fields are the model's own: `shut` lists the stair modules out of service that a flit of
the step under way has met. -/
structure State where
  shut : List Nat
  cur : Nat
  sched : List Move
  pending : List Instr
  free : Nat
  nextId : Nat
  out : List Outward
  clk : Nat
  gt : Nat
  mem : Memory
  memPoison : List (Nat × Nat)
  lines : Tbl HomeLine
  mergeDir : Tbl (List Nat)
  slices : Tbl Slice
  pkg : Package
  dies : Tbl Die
  cores : Tbl CoreSt
  ctxs : Tbl Context
  ports : List PortSt
  grids : Tbl Grid
  blocks : Tbl Block
  skeins : Tbl Skein
  stairs : Tbl Stair
  ual : Tbl UalPort
  colls : Tbl Coll
  saved : Tbl Saved
  savedC : Tbl SavedHallC
  deriving DecidableEq, Repr

/-- Why a step stops the model. -/
inductive Fault where
  /-- Raised by `issue`, when the instruction word is to be issued by a skein that the state does not hold. Safe: the
  hardware issues no instruction without a skein, and `step` never asks for it. -/
  | noSkein (sk : Nat)
  deriving DecidableEq, Repr

/-- Why a step is refused. -/
inductive Refusal where
  /-- Raised by `exec` for an instruction that has no meaning yet. Safe: nothing is claimed of it. -/
  | notModelled (mnemonic : String)
  deriving DecidableEq, Repr

/-- What a step answers. -/
abbrev Out := Host.Outcome State Fault Refusal

/-- The machine right after reset: every field at the value the spec states, or at the value that log 5 names. -/
def State.reset : State :=
  { shut := [], cur := 0, sched := [], pending := [], free := 0, nextId := 0, out := [], clk := 0, gt := 0, mem := [],
    memPoison := [], lines := [], mergeDir := [], slices := [], pkg := {}, dies := [], cores := [], ctxs := [],
    ports := [], grids := [], blocks := [], skeins := [], stairs := [], ual := [], colls := [], saved := [],
    savedC := [] }

end Sys2Proof.Machine
end

