-- ==== Sys2Proof/Machine/Tables.lean ====
section
/-! DEFINITION. Tables by number, memory by address in its canonical form, bytes and lane masks. -/

namespace Sys2Proof.Machine

/-! ## Tables -/

/-- The entry of a key. -/
def tget {α : Type} : Tbl α → Nat → Option α
  | [], _ => none
  | (k, v) :: t, i => if k = i then some v else tget t i

/-- The table with the entry of a key set; keys stay in rising order. -/
def tput {α : Type} : Tbl α → Nat → α → Tbl α
  | [], i, x => [(i, x)]
  | (k, v) :: t, i, x =>
    if k = i then (i, x) :: t else if i < k then (i, x) :: (k, v) :: t else (k, v) :: tput t i x

/-- The table without a key. -/
def tdel {α : Type} : Tbl α → Nat → Tbl α
  | [], _ => []
  | (k, v) :: t, i => if k = i then tdel t i else (k, v) :: tdel t i

/-- The entry of a key changed, where it is present. -/
def tmod {α : Type} (t : Tbl α) (i : Nat) (f : α → α) : Tbl α :=
  match tget t i with
  | some x => tput t i (f x)
  | none => t

/-! ## Memory -/

/-- The byte at an address; an unlisted byte reads 0 (log 4). -/
def Mem.get : Memory → Nat → Byte
  | [], _ => 0
  | (k, v) :: m, a => if k = a then v else Mem.get m a

/-- The memory with one byte written, in canonical form: a byte of 0 is not listed. -/
def Mem.put : Memory → Nat → Byte → Memory
  | [], a, b => if b = 0 then [] else [(a, b)]
  | (k, v) :: m, a, b =>
    if b = 0 then ((k, v) :: m).filter fun c => c.1 != a
    else if k = a then (a, b) :: m
    else if a < k then (a, b) :: (k, v) :: m
    else (k, v) :: Mem.put m a b

/-- Every address is at least the bound, addresses rise, and no listed byte is 0. -/
def Mem.wfFrom : Nat → Memory → Bool
  | _, [] => true
  | lo, (k, v) :: m => decide (lo ≤ k) && (v != 0) && Mem.wfFrom (k + 1) m

/-- The canonical form of a memory. -/
def Mem.wf (m : Memory) : Bool := Mem.wfFrom 0 m

/-- The bytes from an address on. -/
def Mem.read (m : Memory) (a : Nat) : Nat → List Byte
  | 0 => []
  | n + 1 => Mem.get m a :: Mem.read m (a + 1) n

/-- The memory with bytes written from an address on. -/
def Mem.write (m : Memory) (a : Nat) : List Byte → Memory
  | [] => m
  | b :: bs => Mem.write (Mem.put m a b) (a + 1) bs

/-- The memory with bytes written, each at its own address. -/
def Mem.writeCells (m : Memory) : List (Nat × Byte) → Memory
  | [] => m
  | (a, b) :: cs => Mem.writeCells (Mem.put m a b) cs

/-- A little-endian number of n bytes (R9). -/
def Mem.nat (m : Memory) (a n : Nat) : Nat := ofLeBytes (Mem.read m a n)

/-- The bytes of a list given their addresses. -/
def cellsAt (a : Nat) : List Byte → List (Nat × Byte)
  | [] => []
  | b :: bs => (a, b) :: cellsAt (a + 1) bs

/-- A field of n bytes at offset o of a byte list. -/
def fieldAt (bs : List Byte) (o n : Nat) : Nat := ofLeBytes ((bs.drop o).take n)

/-- Some byte of [o, o + n) is not 0. -/
def anySet (bs : List Byte) (o n : Nat) : Bool := ((bs.drop o).take n).any (· != 0)

/-! ## Poisoned units (R326) -/

/-- The ranges [a, a + n) and the unit meet. -/
def unitMeets (a n : Nat) (u : Nat × Nat) : Bool := decide (a < u.1 + u.2) && decide (u.1 < a + n)

/-- Some byte of [a, a + n) lies in a poisoned unit. -/
def poisonedAt (us : List (Nat × Nat)) (a n : Nat) : Bool := us.any (unitMeets a n)

/-- The units left after a write of [a, a + n): a unit written whole is clear. -/
def clearUnits (us : List (Nat × Nat)) (a n : Nat) : List (Nat × Nat) :=
  us.filter fun u => !(decide (a ≤ u.1) && decide (u.1 + u.2 ≤ a + n))

/-- The units with one added. -/
def addUnit (us : List (Nat × Nat)) (u : Nat × Nat) : List (Nat × Nat) := if us.contains u then us else us ++ [u]

/-! ## Lane masks -/

/-- Lane l is in the mask. -/
def Mask.has (m : Mask) (l : Nat) : Bool := m.getLsbD l

/-- The mask of every lane below the width. -/
def Mask.full (w : Nat) : Mask := BitVec.ofNat 64 (2 ^ w - 1)

/-- The mask of the lanes below the width that satisfy a test. -/
def Mask.ofFn (w : Nat) (p : Nat → Bool) : Mask :=
  (List.range w).foldl (fun m l => if p l then m ||| (1#64 <<< l) else m) 0

/-- The lanes of a mask below the width, ascending. -/
def Mask.lanes (m : Mask) (w : Nat) : List Nat := (List.range w).filter (Mask.has m)

/-- The number of lanes. -/
def Mask.count (m : Mask) : Nat := ((List.range 64).filter (Mask.has m)).length

/-- The lowest lane. -/
def Mask.low (m : Mask) : Option Nat := (List.range 64).find? (Mask.has m)

end Sys2Proof.Machine
end

