-- ==== Sys2Proof/Machine/Numbers.lean ====
section
/-! DEFINITION. Number formats, RoundToFormat and the exact operations of the float group (spec 02 R53 to R72, 05 R147 to
R151). A finite value is a sign, a natural m and an exponent e, and stands for (−1)^neg × m × 2^e. -/

namespace Sys2Proof.Machine

/-- The value of a lane (R55). -/
inductive Val where
  | nan (signalling : Bool)
  | inf (neg : Bool)
  | fin (neg : Bool) (m : Nat) (e : Int)
  deriving DecidableEq, Repr

/-- The IEEE flags NV, DZ, OF, UF, NX in bits 0 to 4, in the order of FPCSR[8:4] (R33). -/
abbrev Fl := BitVec 5

def flNV : Fl := 1
def flDZ : Fl := 2
def flOF : Fl := 4
def flUF : Fl := 8
def flNX : Fl := 16

/-- The layout of a float format (R54): widths of exponent and mantissa, bias, infinities, NaNs. -/
structure Fmt where
  eb : Nat
  mb : Nat
  bias : Int
  hasInf : Bool
  hasNan : Bool
  /-- The largest finite encoding without its sign (R56). -/
  maxEnc : Nat
  /-- The canonical NaN (R56). -/
  qnan : Nat
  deriving DecidableEq, Repr

/-- The formats of R54 and R56. The packed pairs stand for one element. -/
def fmtOf : Ty → Fmt
  | .f32 => ⟨8, 23, 127, true, true, 0x7F7FFFFF, 0x7FC00000⟩
  | .f16 | .f16x2 => ⟨5, 10, 15, true, true, 0x7BFF, 0x7E00⟩
  | .bf16 | .bf16x2 => ⟨8, 7, 127, true, true, 0x7F7F, 0x7FC0⟩
  | .e5m2 => ⟨5, 2, 15, true, true, 0x7B, 0x7E⟩
  | .e4m3 => ⟨4, 3, 7, false, true, 0x7E, 0x7F⟩
  | .e3m2 => ⟨3, 2, 3, false, false, 0x1F, 0⟩
  | .e2m3 => ⟨2, 3, 1, false, false, 0x1F, 0⟩
  | .e2m1 => ⟨2, 1, 1, false, false, 0x7, 0⟩
  | _ => ⟨8, 23, 127, true, true, 0x7F7FFFFF, 0x7FC00000⟩

/-- The width of a float format in bits. -/
def Fmt.width (f : Fmt) : Nat := 1 + f.eb + f.mb

/-- The width in bits of a type (R53, R54). -/
def Ty.bits : Ty → Nat
  | .i8 | .n8 | .e5m2 | .e4m3 | .e8m0 => 8
  | .i16 | .n16 | .f16 | .bf16 => 16
  | .i64 | .n64 => 64
  | .e3m2 | .e2m3 => 6
  | .e2m1 => 4
  | .i32 | .n32 | .f32 | .f16x2 | .bf16x2 => 32

/-- The type is signed. -/
def Ty.signed : Ty → Bool
  | .i8 | .i16 | .i32 | .i64 => true
  | _ => false

/-- The least value of an integer kind (R53). -/
def Ty.minV (t : Ty) : Int := if Ty.signed t then -(2 ^ (Ty.bits t - 1) : Nat) else 0

/-- The greatest value of an integer kind (R53). -/
def Ty.maxV (t : Ty) : Int := if Ty.signed t then (2 ^ (Ty.bits t - 1) : Nat) - 1 else (2 ^ Ty.bits t : Nat) - 1

/-- Bits read as an integer of a kind (R117). -/
def intOf (t : Ty) (x : Nat) : Int :=
  let w := Ty.bits t
  let y := x % 2 ^ w
  if Ty.signed t && decide (2 ^ (w - 1) ≤ y) then (y : Int) - (2 ^ w : Nat) else y

/-- The value that an encoding denotes (R55, R70). -/
def valOf (t : Ty) (bits : Nat) : Val :=
  if t == .e8m0 then
    let x := bits % 256
    if x == 255 then .nan false else .fin false 1 ((x : Int) - 127)
  else if Ty.isInt t then
    let v := intOf t bits
    .fin (decide (v < 0)) v.natAbs 0
  else
    let f := fmtOf t
    let x := bits % 2 ^ Fmt.width f
    let neg := decide (2 ^ (f.eb + f.mb) ≤ x)
    let ex := x / 2 ^ f.mb % 2 ^ f.eb
    let mn := x % 2 ^ f.mb
    if f.hasInf && ex == 2 ^ f.eb - 1 then
      (if mn == 0 then .inf neg else .nan (decide (mn < 2 ^ (f.mb - 1))))
    else if f.hasNan && !f.hasInf && ex == 2 ^ f.eb - 1 && mn == 2 ^ f.mb - 1 then .nan false
    else if ex == 0 then .fin neg mn (1 - f.bias - f.mb)
    else .fin neg (2 ^ f.mb + mn) ((ex : Int) - f.bias - f.mb)

/-- The element of an MX block with scale byte s (R60). -/
def mxVal (t : Ty) (bits s : Nat) : Val :=
  if s == 255 || (t == .e5m2 && decide (0xF8 ≤ s)) then .nan false
  else match valOf t bits with
    | .fin n m e => .fin n m (e + s - 127)
    | v => v

/-! ## Rounding (R61 to R63) -/

/-- The number of bits of a natural. -/
def bitLen (m : Nat) : Nat := if m = 0 then 0 else Nat.log2 m + 1

/-- The encoding of a magnitude overflow (R62). -/
def overflowBits (f : Fmt) (neg : Bool) (mode : Nat) (sat : Bool) : Nat :=
  let sg := if neg then 2 ^ (f.eb + f.mb) else 0
  let toInf := match mode with
    | 0 => true
    | 1 => false
    | 2 => !neg
    | _ => neg
  if sat || !f.hasNan || !toInf then sg + f.maxEnc
  else if f.hasInf then sg + (2 ^ f.eb - 1) * 2 ^ f.mb
  else f.qnan

/-- m × 2^e divided by 2^q: the integer part, and the remainder against one half (0 exact, 1 below, 2 tie, 3 above). With
`sticky`, the true value lies strictly between m and m + 1 units. -/
def cutAt (m : Nat) (e : Int) (sticky : Bool) (q : Int) : Nat × Nat :=
  if q ≤ e then (m * 2 ^ (e - q).toNat, if sticky then 1 else 0)
  else
    let sh := (q - e).toNat
    let n := m / 2 ^ sh
    let r := m % 2 ^ sh
    let half := 2 ^ (sh - 1)
    (n, if r == 0 && !sticky then 0
        else if r < half then 1
        else if r == half && !sticky then 2 else 3)

/-- The integer after the mode's choice (R61). -/
def roundUpBy (mode : Nat) (neg : Bool) (n rem : Nat) : Nat :=
  if rem == 0 then n
  else match mode with
    | 0 => if rem == 3 || (rem == 2 && n % 2 == 1) then n + 1 else n
    | 1 => n
    | 2 => if neg then n else n + 1
    | _ => if neg then n + 1 else n

/-- RoundToFormat of a finite value (R61 to R63): its bits and flags. `sticky` marks a value strictly above m × 2^e in
magnitude and below the next unit. -/
def roundFin (t : Ty) (mode : Nat) (sat neg : Bool) (m : Nat) (e : Int) (sticky : Bool := false) : Nat × Fl :=
  let f := fmtOf t
  let sg := if neg then 2 ^ (f.eb + f.mb) else 0
  if m == 0 && !sticky then (sg, 0)
  else
    let top : Int := (bitLen m : Int) - 1 + e
    let emin : Int := 1 - f.bias
    let q : Int := (if top < emin then emin else top) - f.mb
    let (n, rem) := cutAt m e sticky q
    let n' := roundUpBy mode neg n rem
    let (n2, q2) : Nat × Int := if n' == 2 ^ (f.mb + 1) then (2 ^ f.mb, q + 1) else (n', q)
    let enc := if n2 < 2 ^ f.mb then n2 else (q2 + f.mb + f.bias).toNat * 2 ^ f.mb + (n2 - 2 ^ f.mb)
    let tinyTop := decide (top < emin)
    let (u, urem) := cutAt m e sticky (top - f.mb)
    let tiny := tinyTop && !(top == emin - 1 && roundUpBy mode neg u urem == 2 ^ (f.mb + 1))
    if f.maxEnc < enc then (overflowBits f neg mode sat, flOF ||| flNX)
    else (sg + enc, if rem == 0 then 0 else if tiny then flNX ||| flUF else flNX)

/-- A NaN result (R57, R67): QNaN, or +0 with NV where the format has none. -/
def nanBits (t : Ty) : Nat × Fl :=
  let f := fmtOf t
  if f.hasNan then (f.qnan, 0) else (0, flNV)

/-- An infinity in a format (R62, R67). -/
def infBits (t : Ty) (neg sat : Bool) : Nat × Fl :=
  let f := fmtOf t
  let sg := if neg then 2 ^ (f.eb + f.mb) else 0
  if f.hasInf && !sat then (sg + (2 ^ f.eb - 1) * 2 ^ f.mb, 0)
  else if !f.hasNan || sat then (sg + f.maxEnc, 0)
  else (f.qnan, flNV)

/-- RoundToFormat of any value, with the special inputs of R62 and R67. -/
def roundVal (t : Ty) (mode : Nat) (sat : Bool) : Val → Nat × Fl
  | .nan sn => let r := nanBits t; (r.1, if sn then r.2 ||| flNV else r.2)
  | .inf neg => infBits t neg sat
  | .fin neg m e => roundFin t mode sat neg m e

/-- The rounding code of a mode field, with the dynamic mode taken from FPCSR.RM (R104). -/
def Rm.num (r : Rm) (fpcsr : Word) : Nat :=
  match r with
  | .rne => 0 | .rz => 1 | .ru => 2 | .rd => 3 | .dyn => (fpcsr &&& 3).toNat

/-! ## Exact arithmetic on values (R147) -/

/-- A signed integer as sign and magnitude. -/
def finOfInt (v : Int) (e : Int) : Val := .fin (decide (v < 0)) v.natAbs e

/-- The signed mantissa. -/
def sgn (neg : Bool) (m : Nat) : Int := if neg then -(m : Int) else m

/-- The exact sum of two finite values, with the sign of an exact zero by R65. -/
def addFin (mode : Nat) (n1 : Bool) (m1 : Nat) (e1 : Int) (n2 : Bool) (m2 : Nat) (e2 : Int) : Val :=
  let e := min e1 e2
  let v := sgn n1 (m1 * 2 ^ (e1 - e).toNat) + sgn n2 (m2 * 2 ^ (e2 - e).toNat)
  if v = 0 then
    (if n1 == n2 then .fin n1 0 0 else .fin (mode == 3) 0 0)
  else finOfInt v e

/-- A NaN among the operands, quiet or signalling. -/
def anyNan : List Val → Option Bool
  | [] => none
  | v :: vs => match v, anyNan vs with
    | .nan s, some t => some (s || t)
    | .nan s, none => some s
    | _, r => r

/-- NV for a signalling NaN. -/
def nvIf (b : Bool) : Fl := if b then flNV else 0

/-- QNaN with NV (an invalid case of R147). -/
def invalidBits (t : Ty) : Nat × Fl := ((nanBits t).1, flNV)

/-- `fadd` and, with the second sign inverted, `fsub` (R147). -/
def fAdd (t : Ty) (mode : Nat) (a b : Val) : Nat × Fl :=
  match anyNan [a, b] with
  | some s => ((nanBits t).1, nvIf s)
  | none => match a, b with
    | .inf x, .inf y => if x == y then infBits t x false else invalidBits t
    | .inf x, _ => infBits t x false
    | _, .inf y => infBits t y false
    | .fin n1 m1 e1, .fin n2 m2 e2 => roundVal t mode false (addFin mode n1 m1 e1 n2 m2 e2)
    | _, _ => nanBits t

/-- The value with its sign inverted. -/
def Val.negate : Val → Val
  | .nan s => .nan s
  | .inf n => .inf (!n)
  | .fin n m e => .fin (!n) m e

/-- The value is a zero. -/
def Val.isZero : Val → Bool
  | .fin _ 0 _ => true
  | _ => false

/-- The sign of a value. -/
def Val.neg : Val → Bool
  | .nan _ => false
  | .inf n => n
  | .fin n _ _ => n

/-- The exact product of two values that are not NaN and not 0 × ∞. -/
def mulVal (a b : Val) : Val :=
  match a, b with
  | .fin n1 m1 e1, .fin n2 m2 e2 => .fin (n1 != n2) (m1 * m2) (e1 + e2)
  | x, y => .inf (x.neg != y.neg)

/-- 0 × ∞ in either order. -/
def zeroTimesInf (a b : Val) : Bool :=
  match a, b with
  | .inf _, y => y.isZero
  | x, .inf _ => x.isZero
  | _, _ => false

/-- `fmul` (R147). -/
def fMul (t : Ty) (mode : Nat) (a b : Val) : Nat × Fl :=
  match anyNan [a, b] with
  | some s => ((nanBits t).1, nvIf s)
  | none => if zeroTimesInf a b then invalidBits t else roundVal t mode false (mulVal a b)

/-- `ffma` (R147): an invalid product raises NV even beside a quiet NaN. -/
def fFma (t : Ty) (mode : Nat) (a b c : Val) : Nat × Fl :=
  if zeroTimesInf a b then invalidBits t
  else match anyNan [a, b, c] with
    | some s => ((nanBits t).1, nvIf s)
    | none => fAdd t mode (mulVal a b) c

/-- An integer that a value rounds to, with whether it changed (R61, R68). -/
def roundInt (mode : Nat) (neg : Bool) (m : Nat) (e : Int) : Int × Bool :=
  let (n, rem) := cutAt m e false 0
  (sgn neg (roundUpBy mode neg n rem), rem != 0)

/-- `frint` (R147). -/
def fRint (t : Ty) (mode : Nat) (a : Val) : Nat × Fl :=
  match a with
  | .nan s => ((nanBits t).1, nvIf s)
  | .inf n => infBits t n false
  | .fin n m e =>
    let (v, ch) := roundInt mode n m e
    ((roundFin t 1 false n v.natAbs 0).1, if ch then flNX else 0)

/-- `fscl` (R147): the exponent is limited to where the result no longer changes. -/
def fScl (t : Ty) (mode : Nat) (a : Val) (k : Int) : Nat × Fl :=
  match a with
  | .nan s => ((nanBits t).1, nvIf s)
  | .inf n => infBits t n false
  | .fin n 0 _ => roundFin t mode false n 0 0
  | .fin n m e => roundFin t mode false n m (e + max (-1000) (min 1000 k))

/-- The order of two finite or infinite values: −1, 0 or 1. -/
def cmpVal (a b : Val) : Int :=
  match a, b with
  | .inf x, .inf y => if x == y then 0 else if x then -1 else 1
  | .inf x, _ => if x then -1 else 1
  | _, .inf y => if y then 1 else -1
  | .fin n1 m1 e1, .fin n2 m2 e2 =>
    let e := min e1 e2
    let d := sgn n1 (m1 * 2 ^ (e1 - e).toNat) - sgn n2 (m2 * 2 ^ (e2 - e).toNat)
    if d < 0 then -1 else if d = 0 then 0 else 1
  | _, _ => 0

/-- `fmin` and `fmax` (R148): the bits of the operand chosen. -/
def fMinMax (t : Ty) (isMax : Bool) (xa xb : Nat) : Nat × Fl :=
  let a := valOf t xa
  let b := valOf t xb
  let msk := 2 ^ Fmt.width (fmtOf t)
  let nv := nvIf ((anyNan [a, b]).getD false)
  match a, b with
  | .nan _, .nan _ => ((nanBits t).1, nv)
  | .nan _, _ => (xb % msk, nv)
  | _, .nan _ => (xa % msk, nv)
  | _, _ =>
    let c := cmpVal a b
    let aLess := decide (c < 0) || (c == 0 && a.neg && !b.neg)
    (if aLess == isMax then xb % msk else xa % msk, 0)

/-- The float conditions of R149 with the NV they raise. -/
def fCmp (cc : FCond) (a b : Val) : Bool × Fl :=
  match anyNan [a, b] with
  | some s =>
    match cc with
    | .ne | .un => (true, nvIf s)
    | .eq | .ord => (false, nvIf s)
    | _ => (false, flNV)
  | none =>
    let c := cmpVal a b
    (match cc with
      | .eq => c == 0
      | .ne => c != 0
      | .lt => decide (c < 0)
      | .le => decide (c ≤ 0)
      | .gt => decide (0 < c)
      | .ge => decide (0 ≤ c)
      | .un => false
      | .ord => true, 0)

/-- The class bit of R150. -/
def fClass (t : Ty) (bits : Nat) : Nat :=
  let f := fmtOf t
  match valOf t bits with
  | .nan s => if s then 256 else 512
  | .inf n => if n then 1 else 128
  | .fin n 0 _ => if n then 8 else 16
  | .fin n m _ => if m < 2 ^ f.mb then (if n then 4 else 32) else (if n then 2 else 64)

/-! ## Division and roots (R64, R151) -/

/-- The quotient of two naturals to at least 96 bits, with its exponent and whether a remainder is left. -/
def quotNat (m1 m2 : Nat) : Nat × Int × Bool :=
  let k := 96 + bitLen m2
  let x := m1 * 2 ^ k
  (x / m2, -(k : Int), x % m2 != 0)

/-- `fdiv` (R151). -/
def fDiv (t : Ty) (mode : Nat) (a b : Val) : Nat × Fl :=
  match anyNan [a, b] with
  | some s => ((nanBits t).1, nvIf s)
  | none =>
    let n := a.neg != b.neg
    match a, b with
    | .inf _, .inf _ => invalidBits t
    | .inf _, _ => infBits t n false
    | _, .inf _ => roundFin t mode false n 0 0
    | .fin _ m1 e1, .fin _ m2 e2 =>
      if m2 = 0 then (if m1 = 0 then invalidBits t else ((infBits t n false).1, flDZ))
      else if m1 = 0 then roundFin t mode false n 0 0
      else
        let (q, e, st) := quotNat m1 m2
        roundFin t mode false n q (e + e1 - e2) st
    | _, _ => nanBits t

/-- The integer square root, bit by bit from the top. -/
def isqrtAux : Nat → Nat → Nat → Nat
  | 0, _, r => r
  | k + 1, x, r =>
    let c := r + 2 ^ k
    isqrtAux k x (if c * c ≤ x then c else r)

/-- The integer square root. -/
def isqrt (x : Nat) : Nat := isqrtAux (bitLen x / 2 + 1) x 0

/-- m and e with e made even. -/
def evenExp (m : Nat) (e : Int) : Nat × Int := if e % 2 = 0 then (m, e) else (2 * m, e - 1)

/-- `fsqrt` (R151). -/
def fSqrt (t : Ty) (mode : Nat) (a : Val) : Nat × Fl :=
  match a with
  | .nan s => ((nanBits t).1, nvIf s)
  | .inf n => if n then invalidBits t else infBits t false false
  | .fin n m e =>
    if m = 0 then roundFin t mode false n 0 0
    else if n then invalidBits t
    else
      let (m', e') := evenExp m e
      let x := m' * 2 ^ 128
      let r := isqrt x
      roundFin t mode false false r (e' / 2 - 64) (r * r != x)

/-- `frsq` (R151): 1 ÷ √(m × 2^e) = 2^(−e/2) ÷ √m. -/
def fRsq (t : Ty) (mode : Nat) (a : Val) : Nat × Fl :=
  match a with
  | .nan s => ((nanBits t).1, nvIf s)
  | .inf n => if n then invalidBits t else roundFin t mode false false 0 0
  | .fin n m e =>
    if m = 0 then ((infBits t n false).1, flDZ)
    else if n then invalidBits t
    else
      let (m', e') := evenExp m e
      let r := isqrt (2 ^ 256 / m')
      roundFin t mode false false r (-(e' / 2) - 128) (r * r * m' != 2 ^ 256)

/-! ## Conversions (R66 to R70) -/

/-- `cvt` (R66, R67, R70): f32 to e8m0, or RoundToFormat of the source value. -/
def fCvt (dst : Ty) (mode : Nat) (sat : Bool) (src : Ty) (bits : Nat) : Nat × Fl :=
  if dst == .e8m0 then
    match valOf src bits with
    | .nan _ | .inf _ => (255, flNV)
    | .fin _ 0 _ => (0, flNX)
    | .fin _ m e =>
      let top : Int := (bitLen m : Int) - 1 + e
      let x := max (-127) (min 127 top)
      ((x + 127).toNat, if m == 2 ^ (bitLen m - 1) && x == top then 0 else flNX)
  else roundVal dst mode sat (valOf src bits)

/-- `cvti` (R68): an integer of the kind, as its bits. -/
def fCvtI (dst : Ty) (mode : Nat) (v : Val) : Int × Fl :=
  match v with
  | .nan _ => (0, flNV)
  | .inf n => (if n then Ty.minV dst else Ty.maxV dst, flNV)
  | .fin n m e =>
    let (x, ch) := roundInt mode n m e
    if Ty.maxV dst < x then (Ty.maxV dst, flNV)
    else if x < Ty.minV dst then (Ty.minV dst, flNV)
    else (x, if ch then flNX else 0)

/-! ## MX blocks (R59, R71, R72) -/

/-- emax of an element format (R71). -/
def emaxOf : Ty → Int
  | .e5m2 => 15 | .e4m3 => 8 | .e3m2 => 4 | _ => 2

/-- The block size in bytes (R59). -/
def mxBlock (t : Ty) : Nat := Ty.bits t * 4 + 1

/-- floor(log2 |x|) of a finite nonzero value. -/
def Val.top : Val → Option Int
  | .fin _ 0 _ => none
  | .fin _ m e => some ((bitLen m : Int) - 1 + e)
  | _ => none

/-- The scale exponent X of R71, steps 1 and 2; none when a value is a NaN. -/
def mxScale (t : Ty) (vs : List Val) : Option Int :=
  if (anyNan vs).isSome then none
  else
    let tops := vs.filterMap Val.top
    match tops with
    | [] => some (-127)
    | x :: xs => some (max (-127) (min 127 (xs.foldl max x - emaxOf t)))

/-- One element of R71, step 4. -/
def mxElem (t : Ty) (sat : Bool) (x : Int) : Val → Nat × Fl
  | .fin n m e => roundFin t 0 sat n m (e - x)
  | .inf n =>
    if sat then infBits t n true
    else if (fmtOf t).hasNan then ((fmtOf t).qnan, flNV) else infBits t n true
  | .nan _ => ((nanBits t).1, flNV)

/-- Bits of elements of width w as one number, element 0 lowest (R59). -/
def packElems (w : Nat) : List Nat → Nat
  | [] => 0
  | x :: xs => x % 2 ^ w + 2 ^ w * packElems w xs

/-- `qmx` of 32 values (R71, R72): scale byte, elements and flags; `expl` is an explicit scale byte (R187). -/
def mxQuantise (t : Ty) (sat : Bool) (expl : Option Nat) (vs : List Val) : Nat × List Nat × Fl :=
  if (anyNan vs).isSome then (255, vs.map fun _ => (nanBits t).1, flNV)
  else
    let s : Nat := match expl with
      | some b => b
      | none => (((mxScale t vs).getD (-127)) + 127).toNat
    let rs := vs.map (mxElem t sat ((s : Int) - 127))
    (s, rs.map Prod.fst, rs.foldl (fun f r => f ||| r.2) 0)

/-- The bytes of a block: elements, then the scale (R59). -/
def mxBytes (t : Ty) (scale : Nat) (es : List Nat) : List Byte :=
  leBytes (mxBlock t - 1) (packElems (Ty.bits t) es) ++ [BitVec.ofNat 8 scale]

/-- Element j of a block's bytes, as its value (R60). -/
def mxRead (t : Ty) (bs : List Byte) (j : Nat) : Val :=
  let w := Ty.bits t
  let x := ofLeBytes (bs.take (mxBlock t - 1))
  mxVal t (x / 2 ^ (w * j) % 2 ^ w) ((bs.getD (mxBlock t - 1) 0).toNat)

end Sys2Proof.Machine
end

