-- ==== Sys2Proof/Machine/Bolts.lean ====
section
/-! DEFINITION. The bolt (spec 02 R73 to R85): its value, additions, merges, normal form, rounding, and its images in
registers and in a memory line. -/

namespace Sys2Proof.Machine

/-- The zero bolt. -/
def Bolt.zero : Bolt :=
  { dig := List.replicate 10 0, car := List.replicate 10 0, nan := false, pinf := false, ninf := false, poison := false }

/-- The sum over digits and carries before reduction, from digit i on (R73). -/
def boltSum : Nat → List DWord → List Int → Int
  | i, d :: ds, k :: ks => (d.toNat * 2 ^ (64 * i) : Nat) + k * (2 ^ (64 * (i + 1)) : Nat) + boltSum (i + 1) ds ks
  | _, _, _ => 0

/-- An integer reduced into [−2^639, 2^639). -/
def wrap640 (t : Int) : Int :=
  let u := t % (2 ^ 640 : Nat)
  if (2 ^ 639 : Nat) ≤ u then u - (2 ^ 640 : Nat) else u

/-- BoltValue (R73). -/
def boltValue (b : Bolt) : Int := wrap640 (boltSum 0 b.dig b.car)

/-- Ten digits of a natural (R75). -/
def digitsOf : Nat → Nat → List DWord
  | 0, _ => []
  | k + 1, u => BitVec.ofNat 64 u :: digitsOf k (u / 2 ^ 64)

/-- The digits of an integer modulo 2^640. -/
def digits640 (v : Int) : List DWord := digitsOf 10 (v % (2 ^ 640 : Nat)).toNat

/-- BoltNorm (R75). -/
def boltNorm (b : Bolt) : Bolt := { b with dig := digits640 (boltSum 0 b.dig b.car), car := List.replicate 10 0 }

/-- CarryCheck (R75). -/
def carryCheck (b : Bolt) : Bolt :=
  if b.car.any (fun k => decide (63 < k) || decide (k < -64)) then boltNorm b else b

/-- Digit sums with their carries out. -/
def addDigits : List DWord → List DWord → List Int → List DWord × List Int
  | d :: ds, u :: us, k :: ks =>
    let r := addDigits ds us ks
    let t := d.toNat + u.toNat
    (BitVec.ofNat 64 t :: r.1, (k + (t / 2 ^ 64 : Nat)) :: r.2)
  | _, _, _ => ([], [])

/-- The kinds of addend (R76). -/
inductive Addend where
  | fin (q : Int)
  | nan
  | pinf
  | ninf
  deriving DecidableEq, Repr

/-- BoltAdd (R78). -/
def boltAdd (b : Bolt) (a : Addend) (p : Bool) : Bolt :=
  let b := if p then { b with poison := true } else b
  match a with
  | .nan => { b with nan := true }
  | .pinf => { b with pinf := true }
  | .ninf => { b with ninf := true }
  | .fin q =>
    let r := addDigits b.dig (digits640 q) b.car
    carryCheck { b with dig := r.1, car := r.2 }

/-- BoltMerge (R79). -/
def boltMerge (a c : Bolt) : Bolt :=
  let r := addDigits a.dig c.dig (List.zipWith (· + ·) a.car c.car)
  carryCheck { dig := r.1, car := r.2, nan := a.nan || c.nan, pinf := a.pinf || c.pinf, ninf := a.ninf || c.ninf,
               poison := a.poison || c.poison }

/-- value × 2^300 of a finite value (R76); every supported value gives an integer (R77). -/
def scale300 (neg : Bool) (m : Nat) (e : Int) : Int :=
  let s := e + 300
  if 0 ≤ s then sgn neg (m * 2 ^ s.toNat) else sgn neg (m / 2 ^ (-s).toNat)

/-- Addend (R76). -/
def addendOf : Val → Addend
  | .nan _ => .nan
  | .inf n => if n then .ninf else .pinf
  | .fin n m e => .fin (scale300 n m e)

/-- Product (R76). -/
def productOf (x y : Val) : Addend :=
  if (anyNan [x, y]).isSome || zeroTimesInf x y then .nan else addendOf (mulVal x y)

/-- The class of a bolt (R163): its value, or what its status makes of it. -/
def boltClass (b : Bolt) : Val :=
  if b.nan || (b.pinf && b.ninf) then .nan false
  else if b.pinf then .inf false
  else if b.ninf then .inf true
  else finOfInt (boltValue b) (-300)

/-- BoltRound (R81, R82): the bits and the flags; the poison indication is S.POISON. -/
def boltRound (t : Ty) (mode : Nat) (sat : Bool) (b : Bolt) : Nat × Fl :=
  match boltClass b with
  | .nan _ => ((fmtOf t).qnan, 0)
  | .inf n => ((infBits t n sat).1, 0)
  | .fin n m e => if m = 0 then (0, 0) else roundFin t mode sat n m e

/-- S bits [3:0] as a number (R74). -/
def boltS (b : Bolt) : Nat :=
  (if b.nan then 1 else 0) + (if b.pinf then 2 else 0) + (if b.ninf then 4 else 0) + (if b.poison then 8 else 0)

/-- A bolt with the status bits of a byte; bits [7:4] are ignored (R74). -/
def boltWithS (b : Bolt) (s : Nat) : Bolt :=
  { b with nan := s % 2 == 1, pinf := s / 2 % 2 == 1, ninf := s / 4 % 2 == 1, poison := s / 8 % 2 == 1 }

/-- `bneg` (R161). -/
def boltNeg (b : Bolt) : Bolt :=
  { dig := digits640 (-(boltValue b)), car := List.replicate 10 0, nan := b.nan, pinf := b.ninf, ninf := b.pinf,
    poison := b.poison }

/-- A signed byte of a carry. -/
def carByte (k : Int) : Byte := BitVec.ofInt 8 k

/-- A memory line of a bolt with an addend count (R84). -/
def boltLine (b : Bolt) (count : Nat) : List Byte :=
  (b.dig.map fun d => leBytes 8 d.toNat).flatten ++ b.car.map carByte ++ [BitVec.ofNat 8 (boltS b)]
    ++ List.replicate 5 0 ++ leBytes 8 count ++ List.replicate 24 0

/-- The ten digits of a line's bytes. -/
def lineDigits : Nat → List Byte → List DWord
  | 0, _ => []
  | k + 1, bs => BitVec.ofNat 64 (ofLeBytes (bs.take 8)) :: lineDigits k (bs.drop 8)

/-- The bolt of a line's bytes (R84, R85). -/
def boltOfLine (bs : List Byte) : Bolt :=
  boltWithS { dig := lineDigits 10 bs, car := ((bs.drop 80).take 10).map BitVec.toInt, nan := false, pinf := false,
              ninf := false, poison := false } ((bs.getD 90 0).toNat)

/-- The addend count of a line (R84). -/
def countOfLine (bs : List Byte) : Nat := fieldAt bs 96 8

/-- The line as every reader sees it: normal form, reserved bytes zero, the count as held (R85). R268 takes the reserved bytes
of a line written through a mapping without BOLT as they were written; the model follows R85 (DESIGN CHOICE, log 23). -/
def normLine (bs : List Byte) : List Byte := boltLine (boltNorm (boltOfLine bs)) (countOfLine bs)

/-- A saturating 64-bit sum. -/
def satAdd64 (a b : Nat) : Nat := min (a + b) (2 ^ 64 - 1)

/-- Word k of a bolt's register group, k = 0 to 23 (R21). -/
def boltWord (b : Bolt) (k : Nat) : Word :=
  let byte (i : Nat) : Nat := (carByte (b.car.getD i 0)).toNat
  if k < 20 then
    let d := b.dig.getD (k / 2) 0
    if k % 2 = 0 then d.setWidth 32 else (d >>> 32).setWidth 32
  else if k = 20 then BitVec.ofNat 32 (byte 0 + 256 * byte 1 + 65536 * byte 2 + 16777216 * byte 3)
  else if k = 21 then BitVec.ofNat 32 (byte 4 + 256 * byte 5 + 65536 * byte 6 + 16777216 * byte 7)
  else if k = 22 then BitVec.ofNat 32 (byte 8 + 256 * byte 9 + 65536 * boltS b)
  else 0

/-- The bolt of 24 register words (R21). -/
def boltOfWords (f : Nat → Word) : Bolt :=
  let dig := (List.range 10).map fun i => (f (2 * i + 1) ++ f (2 * i) : BitVec 64)
  let byte (k i : Nat) : Int := ((f k).extractLsb' (8 * i) 8).toInt
  let car := (List.range 10).map fun i => byte (20 + i / 4) (i % 4)
  boltWithS { dig := dig, car := car, nan := false, pinf := false, ninf := false, poison := false }
    ((f 22).extractLsb' 16 8).toNat

/-- The element of a packed register lane (R160), with a scale byte or none. -/
def packedElem (t : Ty) (x : Nat) (j : Nat) (s : Option Nat) : Val :=
  let e := match t with
    | .f16x2 | .bf16x2 => x / 2 ^ (16 * j) % 2 ^ 16
    | .e2m1 => x / 2 ^ (4 * j) % 16
    | _ => x / 2 ^ (8 * j) % 256
  match s with
  | none => valOf t e
  | some b => mxVal t e b

/-- Elements of a register lane that `badd` and `bmac` read: two under .x2, else one (R159). -/
def laneVals (t : Ty) (x : Nat) : List Val :=
  match t with
  | .f16x2 | .bf16x2 => [valOf t (x % 2 ^ 16), valOf t (x / 2 ^ 16 % 2 ^ 16)]
  | _ => [valOf t x]

/-- The number of elements of `bdot` (R160). -/
def dotN : Ty → Nat
  | .f16x2 | .bf16x2 => 2
  | .e2m1 => 8
  | _ => 4

/-- The counter of a product format (R168). -/
def macCounter : Ty → Nat
  | .e2m1 => 0
  | .e3m2 | .e2m3 => 1
  | .e4m3 => 2
  | .e5m2 => 3
  | .bf16 | .bf16x2 => 4
  | .f16 | .f16x2 => 5
  | .f32 => 6
  | .i8 => 7
  | _ => 13

end Sys2Proof.Machine
end

