-- ==== Sys2Proof/Machine/Access.lean ====
section
/-! DEFINITION. Named reads and updates of the parts of the state: skeins, blocks, contexts, cores, dies, slices, links;
the meter; event entries; what is posted for later steps. -/

namespace Sys2Proof.Machine

/-! ## Parts by number. A part of a fixed set that no step has changed is as at reset. -/

def State.ctx (s : State) (c : Nat) : Context := (tget s.ctxs c).getD {}
def State.core (s : State) (k : Nat) : CoreSt := (tget s.cores k).getD {}
def State.die (s : State) (d : Nat) : Die := (tget s.dies d).getD {}
def State.slice (s : State) (n : Nat) : Slice := (tget s.slices n).getD {}
def State.stair (s : State) (m : Nat) : Stair := (tget s.stairs m).getD {}
def State.ualPort (s : State) (p : Nat) : UalPort := (tget s.ual p).getD {}

def State.setCtx (s : State) (c : Nat) (x : Context) : State := { s with ctxs := tput s.ctxs c x }
def State.setCore (s : State) (k : Nat) (x : CoreSt) : State := { s with cores := tput s.cores k x }
def State.setDie (s : State) (d : Nat) (x : Die) : State := { s with dies := tput s.dies d x }
def State.setSlice (s : State) (n : Nat) (x : Slice) : State := { s with slices := tput s.slices n x }
def State.setStair (s : State) (m : Nat) (x : Stair) : State := { s with stairs := tput s.stairs m x }
def State.setUal (s : State) (p : Nat) (x : UalPort) : State := { s with ual := tput s.ual p x }
def State.setSkein (s : State) (i : Nat) (x : Skein) : State := { s with skeins := tput s.skeins i x }
def State.setBlock (s : State) (i : Nat) (x : Block) : State := { s with blocks := tput s.blocks i x }
def State.setGrid (s : State) (i : Nat) (x : Grid) : State := { s with grids := tput s.grids i x }

/-- A home line replaced. -/
def State.setLine (s : State) (la : Nat) (x : HomeLine) : State := { s with lines := tput s.lines la x }

def State.modCtx (s : State) (c : Nat) (f : Context → Context) : State := s.setCtx c (f (s.ctx c))
def State.modCore (s : State) (k : Nat) (f : CoreSt → CoreSt) : State := s.setCore k (f (s.core k))
def State.modDie (s : State) (d : Nat) (f : Die → Die) : State := s.setDie d (f (s.die d))
def State.modSlice (s : State) (n : Nat) (f : Slice → Slice) : State := s.setSlice n (f (s.slice n))
def State.modStair (s : State) (m : Nat) (f : Stair → Stair) : State := s.setStair m (f (s.stair m))
def State.modUal (s : State) (p : Nat) (f : UalPort → UalPort) : State := s.setUal p (f (s.ualPort p))
def State.modSkein (s : State) (i : Nat) (f : Skein → Skein) : State := { s with skeins := tmod s.skeins i f }
def State.modBlock (s : State) (i : Nat) (f : Block → Block) : State := { s with blocks := tmod s.blocks i f }
def State.modGrid (s : State) (i : Nat) (f : Grid → Grid) : State := { s with grids := tmod s.grids i f }

/-- A step posted for later. -/
def State.post (s : State) (i : Instr) : State := { s with pending := s.pending ++ [i] }

/-- A step posted once: not again while it is under way. -/
def State.postOnce (s : State) (i : Instr) : State := if s.pending.contains i then s else s.post i

/-- A step under way taken out of the list, when it is there. -/
def State.take? (s : State) (i : Instr) : Option State :=
  if s.pending.contains i then some { s with pending := s.pending.erase i } else none

/-- What leaves the package. -/
def State.emit (s : State) (o : Outward) : State := { s with out := s.out ++ [o] }

/-! ## Devices, dies and cores (R11, R12) -/

/-- The first logical die of a context's device. -/
def Context.firstDie (c : Context) : Nat :=
  match c.mode with
  | 0 => 0
  | 1 => 2 * c.device
  | _ => c.device

/-- The number of dies of a context's device. -/
def Context.nDies (c : Context) : Nat :=
  match c.mode with
  | 0 => 4
  | 1 => 2
  | _ => 1

/-- The device of a context includes a logical die. -/
def Context.hasDie (c : Context) (d : Nat) : Bool := decide (c.firstDie ≤ d) && decide (d < c.firstDie + c.nDies)

/-- `%core` of a core (R12). -/
def Context.relCore (c : Context) (k : Nat) : Nat := k - c.firstDie * 48

/-- `%die` of a core (R12). -/
def Context.relDie (c : Context) (k : Nat) : Nat := k / 48 - c.firstDie

/-! ## Skein registers -/

/-- A vector register of a skein. -/
def Skein.reg (k : Skein) (n : Nat) : VReg := (tget k.regs n).getD {}

/-- A lane of a register; a lane not listed reads 0 (R18). -/
def VReg.lane (r : VReg) (l : Nat) : Word := r.lanes.getD l 0

/-- A predicate as a mask; index 15 is `pt` (R22). -/
def Skein.pred (k : Skein) (p : Nat) : Mask := if p = 15 then Mask.full 64 else (tget k.preds p).getD 0

/-- A completion flag's count (R23). -/
def Skein.flag (k : Skein) (f : Nat) : Nat := (tget k.flags f).getD 0

/-- The guard of a word selects the lane (R95). -/
def guardLane (k : Skein) (h : Ctl) (l : Nat) : Bool := Mask.has (k.pred h.gp.toNat) l != h.gn

/-- The active lanes of an instruction (R95). -/
def Skein.active (k : Skein) (h : Ctl) : Mask := Mask.ofFn k.width fun l => Mask.has k.running l && guardLane k h l

/-- The number of a PC (R88). -/
def pcNum (pc : Pc) : Nat := pc.toNat / 128 * 10 + pc.toNat % 128

/-- The PC of an instruction number, modulo 10 × 2^48 (R88, R97). -/
def pcOfNum (n : Int) : Pc :=
  let m := (n % (10 * 2 ^ 48 : Nat)).toNat
  BitVec.ofNat 55 (m / 10 * 128 + m % 10)

/-- The PC of the next instruction (R88). -/
def pcNext (pc : Pc) : Pc := pcOfNum ((pcNum pc : Int) + 1)

/-- The code line address of a PC. -/
def pcLine (pc : Pc) : Nat := pc.toNat / 128 * 128

/-- A slot that a PC may have (R89). -/
def slotOk (pc : Nat) : Bool := decide (pc % 128 ≤ 9)

/-- The value with every lane's register written under R17: inactive lanes keep theirs, and the tag is general when lanes
are left out or poisoned. -/
def VReg.write (r : VReg) (w : Nat) (act : Mask) (tag : Shape) (val : Nat → Word) (poi : Nat → Bool) : VReg :=
  let lanes := (List.range w).map fun l => if Mask.has act l then val l else r.lane l
  let poison := Mask.ofFn w fun l => if Mask.has act l then poi l else Mask.has r.poison l
  { tag := if act == Mask.full w && poison == 0 then tag else .general, lanes := lanes, poison := poison }

/-- A register written in the active lanes. -/
def Skein.setReg (k : Skein) (n : Nat) (act : Mask) (tag : Shape) (val : Nat → Word) (poi : Nat → Bool) : Skein :=
  { k with regs := tput k.regs n ((k.reg n).write k.width act tag val poi) }

/-- A predicate written in the active lanes (R22). -/
def Skein.setPred (k : Skein) (p : Nat) (act : Mask) (val : Nat → Bool) : Skein :=
  { k with preds := tput k.preds p (Mask.ofFn 64 fun l =>
      if Mask.has act l then val l else Mask.has ((tget k.preds p).getD 0) l) }

/-- A register pair written in the active lanes, low half first (R15). -/
def Skein.setPair (k : Skein) (n : Nat) (act : Mask) (tag : Shape) (val : Nat → DWord) (poi : Nat → Bool) : Skein :=
  (k.setReg n act tag (fun l => (val l).setWidth 32) poi).setReg (n + 1) act tag
    (fun l => (val l >>> 32).setWidth 32) poi

/-! ## The halls of a block (R44, R182, R326) -/

/-- The bytes of hall A or hall W. -/
def Block.hall (b : Block) (w : Bool) : Memory := if w then b.hallW else b.hallA

/-- The poisoned words of hall A or hall W. -/
def Block.hallPoison (b : Block) (w : Bool) : List Nat := if w then b.poisonW else b.poisonA

/-- n bytes of a hall as a number. -/
def Block.hallNat (b : Block) (w : Bool) (off n : Nat) : Nat := Mem.nat (b.hall w) off n

/-- Some word that holds a byte of [off, off + n) is poisoned. -/
def Block.hallBad (b : Block) (w : Bool) (off n : Nat) : Bool :=
  (b.hallPoison w).any fun i => decide (off < 4 * i + 4) && decide (4 * i < off + n)

/-- The poisoned words left after a write of [off, off + n): a word written whole is clear (R326). -/
def clearWords (ps : List Nat) (off n : Nat) : List Nat :=
  ps.filter fun i => !(decide (off ≤ 4 * i) && decide (4 * i + 4 ≤ off + n))

/-- The words that hold a byte of [off, off + n). -/
def wordsAt (off n : Nat) : List Nat := (List.range ((off + n + 3) / 4 - off / 4)).map (off / 4 + ·)

/-- A hall word as it stands. -/
def Block.wordNow (b : Block) (w : Bool) (i : Nat) : PastWord :=
  { hallW := w, word := i, val := BitVec.ofNat 32 (b.hallNat w (4 * i) 4), bad := (b.hallPoison w).contains i }

/-- Words that are about to be replaced are kept while a tile product of the block is under way (R182). -/
def Block.keepWords (b : Block) (w : Bool) (off n : Nat) : Block :=
  if b.reading = 0 then b else { b with past := b.past ++ (wordsAt off n).map (b.wordNow w) }

/-- Bytes written to a hall. -/
def Block.hallWrite (b : Block) (w : Bool) (off : Nat) (bs : List Byte) : Block :=
  let b := b.keepWords w off bs.length
  if w then { b with hallW := Mem.write b.hallW off bs, poisonW := clearWords b.poisonW off bs.length }
  else { b with hallA := Mem.write b.hallA off bs, poisonA := clearWords b.poisonA off bs.length }

/-- The words of [off, off + n) poisoned. -/
def Block.hallSpoil (b : Block) (w : Bool) (off n : Nat) : Block :=
  let ws := wordsAt off n
  let b := b.keepWords w off n
  let add := fun ps => ps.filter (fun i => !(ws.contains i)) ++ ws
  if w then { b with poisonW := add b.poisonW } else { b with poisonA := add b.poisonA }

/-! ## The meter (R402, R403) -/

/-- A gain of a context's counter. The exact total is kept. A number above every context's is an agent that is charged to
none (R402). -/
def State.meterAdd (s : State) (c i n : Nat) : State :=
  if n = 0 || 256 ≤ c then s else s.modCtx c fun x => { x with meter := tput x.meter i ((tget x.meter i).getD 0 + n) }

/-- Several gains. -/
def State.meterAll (s : State) (c : Nat) : List (Nat × Nat) → State
  | [] => s
  | (i, n) :: gs => (s.meterAdd c i n).meterAll c gs

/-- A counter as it reads: min(T, 2^64 − 1), and 0 from index 26 on. -/
def Context.counter (c : Context) (i : Nat) : Nat :=
  if i < 26 then min ((tget c.meter i).getD 0) (2 ^ 64 - 1) else 0

/-- METERSAT (R403). -/
def Context.metersat (c : Context) : Nat :=
  (List.range 26).foldl (fun a i => if 2 ^ 64 ≤ (tget c.meter i).getD 0 then a + 2 ^ i else a) 0

/-! ## Event entries (R309 to R312) -/

/-- An event entry (R312): bytes 0 to 7, the time, the kind, and bytes 17 to 31. -/
def evEntry (tag : Nat) (time kind : Nat) (rest : List Byte) : List Byte :=
  leBytes 8 tag ++ leBytes 8 time ++ leBytes 1 kind ++ (rest ++ List.replicate 15 0).take 15

/-- An entry put behind the entries of one event ring of a context; d counts dies within the device (R311). -/
def State.event (s : State) (c d tag kind : Nat) (rest : List Byte) : State :=
  let x := s.ctx c
  let e := (tget x.events d).getD {}
  let s := s.setCtx c { x with events := tput x.events d { e with backlog := e.backlog ++ [evEntry tag s.gt kind rest] } }
  s.post (.eventBacklogPost c d)

/-- An entry put to every event ring of a context. -/
def State.eventAll (s : State) (c tag kind : Nat) (rest : List Byte) : State :=
  (List.range (s.ctx c).nDies).foldl (fun s d => s.event c d tag kind rest) s

/-- Every context that is not FREE. -/
def State.liveCtxs (s : State) : List Nat := (s.ctxs.filter fun p => p.2.state != .free).map Prod.fst

/-! ## Residency (R10, R306) -/

/-- The core holds a skein, block, parent record or hall C partition of the context. -/
def State.holds (s : State) (k c : Nat) : Bool :=
  s.blocks.any (fun b => b.2.core == k && b.2.ctx == c) || (s.core k).hallc.any (fun p => p.2.ctx == c)

/-- The contexts resident on a core. -/
def State.onCore (s : State) (k : Nat) : List Nat := s.liveCtxs.filter (s.holds k)

/-- The context is resident somewhere. -/
def State.isResident (s : State) (c : Nat) : Bool :=
  s.blocks.any (fun b => b.2.ctx == c) || s.cores.any (fun p => p.2.hallc.any (fun q => q.2.ctx == c))

/-- RESIDENT and SAVED follow what the cores hold (R306). -/
def State.settle (s : State) (c : Nat) : State :=
  match (s.ctx c).state with
  | .free | .lost => s
  | _ => s.modCtx c fun x => { x with state := if s.isResident c then .resident else .saved }

/-! ## Stamps (R253) -/

/-- a ≤ b by serial arithmetic. -/
def Stamp.le (a b : Stamp) : Bool := decide ((b - a).toNat < 2 ^ 15)

/-- The later of two stamps. -/
def Stamp.max (a b : Stamp) : Stamp := if Stamp.le a b then b else a

/-- a lies more than k ticks behind b. -/
def Stamp.behind (a b : Stamp) (k : Nat) : Bool := decide ((b - a).toNat < 2 ^ 15) && decide (k < (b - a).toNat)

/-- A stamp more than n ticks behind a clock brought up (R257). -/
def Stamp.floor (a b : Stamp) (n : Nat) : Stamp := if Stamp.behind a b n then b - BitVec.ofNat 16 n else a

/-! ## Ports and records (R225) -/

/-- A port of a context. -/
def State.port (s : State) (p : Port) : PortSt := (s.ports.find? (·.port == p)).getD { port := p, seen := s.pkg.pclk }

/-- A port replaced. -/
def State.setPort (s : State) (x : PortSt) : State :=
  { s with ports := s.ports.filter (·.port != x.port) ++ [x] }

/-- A record under way. -/
def State.record (s : State) (p : Port) (n : Nat) : Option RecSt := (s.port p).recs.find? (·.num == n)

/-- A record replaced; the time of the latest write that was acknowledged for it stays. -/
def State.setRecord (s : State) (p : Port) (r : RecSt) : State :=
  let x := s.port p
  s.setPort { x with recs := x.recs.map fun q => if q.num == r.num then { r with seen := Stamp.max q.seen r.seen } else q }

/-- A write of a record has been acknowledged with a wts (R223). -/
def State.sawWrite (s : State) (p : Port) (n : Nat) (w : Stamp) : State :=
  let x := s.port p
  s.setPort { x with recs := x.recs.map fun q => if q.num == n then { q with seen := Stamp.max q.seen w } else q }

/-- A queue of a context (R388). -/
def Context.queue (c : Context) (q : Nat) : QueueSt := (tget c.queues q).getD {}

/-! ## FPCSR (R33) -/

/-- The IEEE flags ORed into FPCSR[8:4]. -/
def fpcsrOr (w : Word) (f : Fl) : Word := w ||| (f.setWidth 32 <<< 4)

end Sys2Proof.Machine
end

