-- ==== Sys2Proof/Machine/Home.lean ====
section
/-! DEFINITION. Translation (spec 12 R335 to R338), homes, leases, recalls and the accesses of skeins and engines at a home
(spec 09 R251 to R266, R428). -/

namespace Sys2Proof.Machine

/-! ## Physical addresses (R262, R263, R361) -/

/-- The regions of R361. -/
inductive Region where
  | localHbm | peer | host | none
  deriving DecidableEq, Repr

/-- A host address, 64 bits, as an address of the model: its low 50 bits, the region, its high bits. -/
def hostKey (ha : Nat) : Nat := ha % 2 ^ 50 + 2 ^ 51 + ha / 2 ^ 50 % 2 ^ 14 * 2 ^ 52

/-- The address that a physical address stands for (R361): the local address that a peer address of the device's own pod number
carries; in the host region, PA[49:0] plus the host window base. -/
def State.canon (s : State) (pa : Nat) : Nat :=
  match pa / 2 ^ 50 % 4 with
  | 1 => if pa / 2 ^ 40 % 2 ^ 10 == s.pkg.podnum then pa % 2 ^ 40 else pa
  | 2 => hostKey (pa % 2 ^ 50 + s.pkg.hostbase.toNat)
  | _ => pa

/-- The region of a canonical address. -/
def regionOf (pa : Nat) : Region :=
  match pa / 2 ^ 50 % 4 with
  | 0 => .localHbm
  | 1 => .peer
  | 2 => .host
  | _ => .none

/-- CLASS and FIRST of the extent of a local address (R262). -/
def State.extent (s : State) (pa : Nat) : Nat × Nat := (tget s.pkg.extents (pa / 2 ^ 30)).getD (0, 0)

/-- The address has a home or lies in a region that exists, and a peer serves it (R262, R361; FCODE 7 otherwise). -/
def State.paOk (s : State) (pa : Nat) : Bool :=
  match regionOf pa with
  | .localHbm => decide (pa < 0x7700000000) && (s.extent pa).1 != 0
  | .none => false
  | .peer => Config.peerServes pa
  | .host => true

/-- The XOR of the six-bit fields of a line number (R263). -/
def lineHash : Nat → Nat → Nat
  | 0, _ => 0
  | k + 1, la => (la % 64) ^^^ lineHash k (la / 64)

/-- The home slice of a local line, as die × 16 + slice (R263). -/
def State.homeSlice (s : State) (la : Nat) : Nat :=
  let (cls, first) := s.extent (la * 128)
  let n := match cls with | 1 => 8 | 2 => 4 | _ => 2
  let d0 := first / 2
  let dies := (first + n - 1) / 2 - d0 + 1
  let h := lineHash 8 la % (16 * dies)
  (d0 + h / 16) * 16 + h % 16

/-- The die of a line's home; peer and host lines have none here. -/
def State.homeDie (s : State) (la : Nat) : Option Nat :=
  if regionOf (la * 128) == .localHbm then some (s.homeSlice la / 16) else none

/-! ## Translation -/

/-- A leaf found: physical address and the leaf entry. -/
structure Phys where
  pa : Nat
  leaf : DWord
  deriving DecidableEq, Repr

def Phys.bolt (p : Phys) : Bool := p.leaf.getLsbD 6
def Phys.ordered (p : Phys) : Bool := p.leaf.getLsbD 7
def Phys.pinned (p : Phys) : Bool := p.leaf.getLsbD 8
def Phys.readOnly (p : Phys) : Bool := p.leaf.getLsbD 9

/-- The page is cacheable and the address local (R251, R265). -/
def Phys.cached (p : Phys) : Bool := p.leaf.getLsbD 4 && regionOf p.pa == .localHbm

/-- A page fault: FCODE and walk level (R322, R337). -/
structure WalkFault where
  fcode : Nat
  level : Nat
  deriving DecidableEq, Repr

/-- The access writes. -/
def Acc.writes : Acc → Bool
  | .store | .atomic | .boltAtomic | .tileStore => true
  | _ => false

/-- Attributes of a leaf are valid: one of cacheable and uncached, not both BOLT and ORDERED (R268). -/
def leafOk (e : DWord) : Bool := (e.getLsbD 4 != e.getLsbD 5) && !(e.getLsbD 6 && e.getLsbD 7)

/-- Reserved bits [63:52], [15:11] and [3:2] of an entry (R336). -/
def entryReserved (e : DWord) : Bool := e.toNat / 2 ^ 52 != 0 || e.toNat / 2 ^ 11 % 32 != 0 || e.toNat / 4 % 4 != 0

/-- Bits [51:16] of an entry. -/
def entryAddr (e : DWord) : Nat := e.toNat / 2 ^ 16 % 2 ^ 36 * 2 ^ 16

/-- One level of the walk: the leaf with its size, the next table, or a failure (R335, R337). -/
inductive WalkStep where
  | leaf (e : DWord) (size : Nat)
  | table (pa : Nat)
  | fail (f : WalkFault)
  deriving DecidableEq, Repr

/-- The entry at one level classified. -/
def walkEntry (level : Nat) (e : DWord) : WalkStep :=
  if !e.getLsbD 0 then .fail ⟨1, level⟩
  else if e.getLsbD 1 then
    if level = 2 || !leafOk e then .fail ⟨4, level⟩
    else if entryReserved e || (level = 1 && entryAddr e % 2 ^ 29 != 0) then .fail ⟨5, level⟩
    else .leaf e (if level = 1 then 2 ^ 29 else 2 ^ 16)
  else if level = 0 || e.toNat / 16 % 128 != 0 then .fail ⟨4, level⟩
  else if entryReserved e then .fail ⟨5, level⟩
  else .table (entryAddr e)

/-- The walk from a table at a level down. A table at an address that no extent holds is as an access to such an address:
FCODE 7 (R262). -/
def walkFrom (s : State) (va : Nat) : Nat → Nat → Except WalkFault (DWord × Nat)
  | level, pa =>
    if !s.paOk (s.canon pa) then .error ⟨7, 3⟩
    else
      let idx := va / 2 ^ (16 + 13 * level) % 8192
      match level, walkEntry level (BitVec.ofNat 64 (Mem.nat s.mem (s.canon pa + 8 * idx) 8)) with
      | _, .fail f => .error f
      | _, .leaf e sz => .ok (e, sz)
      | l + 1, .table t => walkFrom s va l t
      | 0, .table _ => .error ⟨4, 0⟩

/-- A leaf cached by the micro-TLB of the core or the TLB of its die (R338). -/
def State.tlbFind (s : State) (c core : Nat) (va : Nat) : Option TlbEntry :=
  ((s.core core).utlb ++ (s.die (core / 48)).tlb).find? fun t =>
    t.ctx == c && decide (t.vbase ≤ va) && decide (va < t.vbase + t.size)

/-- The leaf of an address, from a TLB or by a walk. -/
def State.findLeaf (s : State) (c core : Nat) (va : DWord) : Except WalkFault (DWord × Nat) :=
  if va.toNat / 2 ^ 55 != 0 then .error ⟨6, 0xFF⟩
  else match s.tlbFind c core va.toNat with
    | some t => .ok (t.entry, t.size)
    | none => walkFrom s va.toNat 2 (entryAddr (s.ctx c).ttroot)

/-- The entries of a table that are not zero. -/
def State.tableEntries (s : State) (t : Nat) : List DWord :=
  (((s.mem.filter fun c => decide (t ≤ c.1) && decide (c.1 < t + 65536)).map fun c => c.1 / 8).dedup).map fun i =>
    BitVec.ofNat 64 (Mem.nat s.mem (8 * i) 8)

/-- A table maps a page that holds an address with attribute BOLT. -/
def State.tableBolt (s : State) (pa : Nat) : Nat → Nat → Bool
  | level, t => (s.tableEntries t).any fun e =>
    match level, walkEntry level e with
    | _, .leaf e sz =>
      let b := s.canon (entryAddr e / sz * sz)
      e.getLsbD 6 && decide (b ≤ pa) && decide (pa < b + sz)
    | l + 1, .table u => s.tableBolt pa l (s.canon u)
    | _, _ => false

/-- Some context maps the address with attribute BOLT: the line is a memory bolt line to a reader by physical address
(R84, R85). -/
def State.boltPa (s : State) (pa : Nat) : Bool :=
  s.ctxs.any fun c => c.2.state != .free && s.tableBolt (pa / 128 * 128) 2 (s.canon (entryAddr c.2.ttroot))

/-- A global access translated: the failures of the walk, then those of the access (R337). -/
def State.translate (s : State) (c core : Nat) (va : DWord) (acc : Acc) : Except WalkFault Phys :=
  match s.findLeaf c core va with
  | .error f => .error f
  | .ok (e, sz) =>
    if Acc.writes acc && e.getLsbD 9 then .error ⟨2, 3⟩
    else if acc == .fetch && e.getLsbD 10 then .error ⟨3, 3⟩
    else
      let pa := s.canon (entryAddr e / sz * sz + va.toNat % sz)
      if s.paOk pa then .ok ⟨pa, e⟩ else .error ⟨7, 3⟩

/-! ## L1 and clocks of a core -/

/-- LCLK raised to a stamp, with the sweep of R257 when it passes a multiple of 2^13. -/
def CoreSt.raise (k : CoreSt) (t : Stamp) : CoreSt :=
  let l := Stamp.max k.lclk t
  let k' := { k with lclk := l }
  if l.toNat / 2 ^ 13 != k.lclk.toNat / 2 ^ 13 then
    { k' with l1 := k'.l1.filter fun c => !(Stamp.behind c.2.rts l (2 ^ 14)) }
  else k'

/-! ## Home lines -/

/-- The home line of a line number as it stands, or as a refill makes it (R254, R255). -/
def State.homeLine (s : State) (la : Nat) : HomeLine :=
  match tget s.lines la with
  | some l => l
  | none => let m := (s.slice (s.homeSlice la)).mts; { wts := m, rts := m }

/-! ## Flows across the stairs (R341, R343, R353) -/

/-- A flow: the source, the destination and the class (0 request, 1 recall, 2 response, 3 data), where places are dies,
home slices from 64 on, and 63 for the gallery and what lies outside. -/
def flowNum (src dst cls : Nat) : Nat := (src * 128 + dst) * 4 + cls

/-- A die, or the gallery, as a place. -/
def placeNum (a : Option Nat) : Nat := a.getD 63

/-- The home of a line as a place. -/
def State.placeOf (s : State) (la : Nat) : Nat := if (s.homeDie la).isSome then 64 + s.homeSlice la else 63

/-- A message crosses the network, so that it holds a packet there (R343). -/
def State.onNetwork (s : State) : Instr → Bool
  | .homeLoad r => s.homeDie r.la != some (r.core / 48)
  | .homeWrite r => s.homeDie r.la != some (r.core / 48)
  | .promoteDrain core la => s.homeDie la != some (core / 48)
  | .recallAck r => s.homeDie r.la != some (r.core / 48)
  | .loadReply r => s.homeDie r.la != some (r.core / 48)
  | .writeAck r => s.homeDie r.la != some (r.core / 48)
  | .countWake _ | .chunkArrival _ | .packetDecode _ _ | .fallbackArrival _ _ => true
  | _ => false

/-- The network is to enter another mode once it is empty, and flows wait at their sources (R344). -/
def State.changing (s : State) : Bool := s.pending.any fun i => match i with
  | .networkModeChange _ => true
  | _ => false

/-- The flow of a message under way. -/
def State.flowOf (s : State) : Instr → Option Nat
  | .homeLoad r => some (flowNum (r.core / 48) (s.placeOf r.la) 0)
  | .homeWrite r => some (flowNum (r.core / 48) (s.placeOf r.la) 0)
  | .promoteDrain core la => some (flowNum (s.placeOf la) (core / 48) 1)
  | .recallAck r => some (flowNum (r.core / 48) (s.placeOf r.la) 2)
  | .loadReply r => some (flowNum (s.placeOf r.la) (r.core / 48) 3)
  | .writeAck r => some (flowNum (s.placeOf r.la) (r.core / 48) 2)
  | .countWake sk => (tget s.skeins sk).map fun k => flowNum 63 (k.core / 48) 2
  | .chunkArrival c => some (flowNum 63 c.lead 3)
  | .packetDecode d _ => some (flowNum 63 d 3)
  | .fallbackArrival d _ => some (flowNum 63 d 2)
  | _ => none

/-- A message whose flow has an earlier message under way comes about as that one: a flow's messages arrive in the order in
which they were sent (R343, R354). -/
def State.headOf (s : State) (i : Instr) : Instr :=
  match s.flowOf i with
  | none => i
  | some f => (s.pending.find? fun j => s.flowOf j == some f).getD i

/-- A module is retired. -/
def Stair.gone (x : Stair) : Bool := x.state == 3

/-- The module that a flow across a die's stair is pinned to (R353): its preferred one, or the next that is not retired. -/
def State.stairPin (s : State) (d flow : Nat) : Option Nat :=
  ((List.range 16).map fun i => 16 * d + (Config.stairHash flow + i) % 16).find? fun m => !(s.stair m).gone

/-- The stairs between two places, each a die or the gallery (R341). -/
def crossings (a b : Option Nat) : Nat :=
  if a == b then 0 else (if a.isSome then 1 else 0) + (if b.isSome then 1 else 0)

/-- What `shut` lists while the network is to change its mode. -/
def noMode : Nat := 64

/-- A flit of a flow crosses the stair of a die on its module; a module out of service makes the step wait (R351, R356), and so
does a network that is to change its mode (R344). -/
def State.crossStair (s : State) (flow d : Nat) : State :=
  let s := if s.changing then { s with shut := s.shut ++ [noMode] } else s
  match s.stairPin d flow with
  | none => s
  | some m =>
    if (s.stair m).state = 0 then s.modDie d fun x => { x with lastFlit := s.gt } else { s with shut := s.shut ++ [m] }

/-- A flit bound for a sleeping stair wakes it (R356). -/
def State.wakeStair (s : State) (m : Nat) : State :=
  if (s.stair m).state = 2 && (s.stair m).waking.isNone then s.postOnce (.stairWake (m / 16)) else s

/-- A step that is no delivery puts a message on the network. -/
def State.launched (s t : State) : Bool := ((t.pending.diff s.pending).any t.onNetwork) || t.shut.contains noMode

/-- What a step comes to: where its flits met a module out of service, it does not come about yet, and the module wakes
(R351, R356). Where the network is to change its mode, only deliveries come about of what crosses it (R344). -/
def State.through (s t : State) (delivery : Bool := false) : State :=
  if !delivery && s.changing && s.launched t then s
  else match t.shut.filter (· != noMode) with
    | [] => { t with shut := [] }
    | ms => ms.foldl State.wakeStair s

/-- Payload moved between two places on behalf of a context, by the stairs of the dies on its way (R402 counter 18;
log 20). -/
def State.carry (s : State) (c : Nat) (a b : Option Nat) (n : Nat)
    (flow : Nat := flowNum (placeNum a) (placeNum b) 3) : State :=
  if a == b then s
  else (a.toList ++ b.toList).foldl (fun s d => s.crossStair flow d) (s.meterAdd c 18 (n * crossings a b))

/-- The port that a flow to a pod number is pinned to: its preferred port or the next active one (R362). -/
def State.ualPin (s : State) (pod : Nat) : Option Nat :=
  ((List.range 8).map fun i => (Config.ualHash pod + i) % 8).find? fun p => (s.ualPort p).state == 2

/-- Payload that the ports to a pod count (R363). -/
def State.ualBytes (s : State) (pod tx rx : Nat) : State :=
  match s.ualPin pod with
  | none => s
  | some p => s.modUal p fun x => { x with
      txbytes := min (x.txbytes + tx) (2 ^ 64 - 1), rxbytes := min (x.rxbytes + rx) (2 ^ 64 - 1) }

/-- Payload moved to and from the pod on behalf of a context (R363, R402 counters 16 and 17). -/
def State.ualMove (s : State) (c pod tx rx : Nat) : State := (s.meterAll c [(16, tx), (17, rx)]).ualBytes pod tx rx

/-- Payload of an access to an address that has no home here (R265, R361, R402). -/
def State.offPackage (s : State) (c : Nat) (src : Option Nat) (pa tx rx : Nat) : State :=
  match regionOf pa with
  | .peer => (s.carry c src none (tx + rx)).ualMove c (pa / 2 ^ 40 % 2 ^ 10) tx rx
  | .host => (s.carry c src none (tx + rx)).meterAdd c 19 (tx + rx)
  | _ => s

/-- A dirty line written back to HBM across its die's stair (R341, R402 counter 15). -/
def State.writeBack (s : State) (la : Nat) : State :=
  match tget s.lines la with
  | some h =>
    match h.dirty with
    | some c =>
      ((s.meterAdd c 15 128).carry c (s.homeDie la) none 128 (flowNum (s.placeOf la) 63 3)).setLine la
        { h with dirty := none }
    | none => s
  | none => s

/-- A home line leaves its slice: mts rises, dirty data goes to HBM (R255). -/
def State.evictLine (s : State) (la : Nat) : State :=
  let s := s.writeBack la
  let s := s.modSlice (s.homeSlice la) fun x => { x with mts := Stamp.max x.mts (s.homeLine la).rts }
  { s with lines := tdel s.lines la }

/-- A slice of 6 MiB holds 49,152 lines (R3): one of them makes room for another. A line that records a narrow release stays
(R280; log 41). -/
def State.makeRoom (s : State) (la : Nat) : State :=
  let mine := s.lines.filter fun p => s.homeSlice p.1 == s.homeSlice la
  let free := mine.filter fun p => p.2.relCore.isNone
  if mine.length < 49152 then s
  else match free[Config.victimOf s.free free.length % free.length]? with
    | some p => s.evictLine p.1
    | none => s

/-- The line is brought into its slice: a refill from HBM across the stair of its die, charged to the context (R255, R341,
R402 counter 14). -/
def State.touch (s : State) (c la : Nat) : State :=
  match tget s.lines la with
  | some _ => s
  | none =>
    let s := s.makeRoom la
    let s := (s.meterAdd c 14 128).carry c none (s.homeDie la) 128 (flowNum 63 (s.placeOf la) 3)
    { s with lines := tput s.lines la (s.homeLine la) }

/-- The die of the line's home is lost (R358). -/
def State.homeLost (s : State) (la : Nat) : Bool :=
  match s.homeDie la with
  | some d => (s.die d).lost
  | none => false

/-- A write, atomic or merge to a line of a lost die is discarded, and counted (R358). -/
def State.discardAt (s : State) (la : Nat) : State :=
  match s.homeDie la with
  | some d => s.modDie d fun x => { x with discarded := min (x.discarded + 1) (2 ^ 64 - 1) }
  | none => s

/-- The bytes of a line. -/
def State.lineBytes (s : State) (la : Nat) : List Byte := Mem.read s.mem (la * 128) 128

/-- A bolt and count written as a line's content in normal form, which is what every reader sees (R85; log 23), without a
change of stamps. -/
def State.putBolt (s : State) (la : Nat) (b : Bolt) (count : Nat) : State :=
  { s with mem := Mem.write s.mem (la * 128) (boltLine (boltNorm b) count) }

/-- The poisoned bit of a line read into its bolt: a merge into a poisoned line sets S.POISON (R266). -/
def State.lineBolt (s : State) (la : Nat) : Bolt :=
  let b := boltOfLine (s.lineBytes la)
  if poisonedAt s.memPoison (la * 128) 128 || s.homeLost la then { b with poison := true } else b

/-! ## Merge state and recalls (R258 to R261, R359) -/

/-! ## Watches on count words (R256) -/

/-- The parked count waits of global words whose word lies in the line and meets the threshold. -/
def State.watchers (s : State) (la : Nat) : List Nat :=
  (s.skeins.map Prod.fst).filter fun i => match (tget s.skeins i).map Skein.park with
    | some (.count _ _ pa _ n) => pa / 128 == la && decide (n.toNat ≤ Mem.nat s.mem pa 8)
    | _ => false

/-- A change of a line wakes the waiters whose threshold it meets; none of them misses it (R214, R256). -/
def State.wakeLine (s : State) (la : Nat) : State :=
  (s.watchers la).foldl (fun s i => (s.modSkein i fun k => { k with met := true }).postOnce (.countWake i)) s

/-- A returned partial merged into its line, whose count may meet a threshold (R256, R260). -/
def State.mergeInto (s : State) (la : Nat) (b : Bolt) (n : Nat) : State :=
  if s.homeLost la then s.discardAt la
  else (s.putBolt la (boltMerge (s.lineBolt la) b) (satAdd64 (countOfLine (s.lineBytes la)) n)).wakeLine la

/-- The holder's copy given up. -/
def State.dropCopy (s : State) (core la : Nat) : State :=
  let s := s.modCore core fun k => { k with merges := tdel k.merges la }
  let h := ((tget s.mergeDir la).getD []).filter (· != core)
  { s with mergeDir := if h.isEmpty then tdel s.mergeDir la else tput s.mergeDir la h }

/-- A holder returns its partial and count, which are merged at once; a holder on a lost die gives POISON (R261). -/
def State.returnCopy (s : State) (la core : Nat) : State :=
  if (s.die (core / 48)).lost then
    (s.mergeInto la { Bolt.zero with poison := true } 0).dropCopy core la
  else match tget (s.core core).merges la with
    | none => s.dropCopy core la
    | some m => (s.mergeInto la m.bolt m.count).dropCopy core la

/-- A transaction tag (R359): the requester's number and 20 bits of sequence. -/
def transTag (agent n : Nat) : Nat := agent * 2 ^ 20 + n % 2 ^ 20

/-- A home has completed a transaction with the tag in the last 64 µs (R359). -/
def Slice.knows (x : Slice) (tag : Nat) : Bool := x.tags.any fun t => t.1 == tag

/-- A home completes a transaction. -/
def State.completeTag (s : State) (la tag : Nat) : State :=
  s.modSlice (s.homeSlice la) fun x => { x with tags := x.tags ++ [(tag, s.gt)] }

/-- A returned partial reaches its home: it is merged once for its tag, and its holder has the reply (R260, R359). -/
def State.mergeAck (s : State) (r : RecallAck) : State :=
  let s := if (s.slice (s.homeSlice r.la)).knows r.tag then s else (s.mergeInto r.la r.bolt r.count).completeTag r.la r.tag
  s.modCore r.core fun k => { k with acks := k.acks.filter fun a => a.1.tag != r.tag }

/-- A partial on its way to its home. -/
def isAckOf (la : Nat) : Instr → Bool
  | .recallAck r => r.la == la
  | _ => false

/-- The partials of a line that holders have returned and that no reply has reached (R359). -/
def State.owedAcks (s : State) (la : Nat) : List RecallAck :=
  s.cores.flatMap fun k : Nat × CoreSt => (k.2.acks.filter fun a => a.1.la == la).map Prod.fst

/-- A recall completed at once: every partial on its way, or lost there and sent again, and every holder's copy merge into the
line (R260, R359). -/
def State.recallNow (s : State) (la : Nat) : State :=
  let acks := s.owedAcks la
  let s := { s with pending := s.pending.filter fun i => !(isAckOf la i) }
  let s := acks.foldl State.mergeAck s
  ((tget s.mergeDir la).getD []).foldl (fun s k => s.returnCopy la k) s

/-! ## Writes at a home -/

/-- The units clear whose bytes are all written. -/
def clearCells (us : List (Nat × Nat)) (cells : List (Nat × Byte)) : List (Nat × Nat) :=
  us.filter fun u => !((List.range u.2).all fun i => cells.any fun c => c.1 == u.1 + i)

/-- A write applied at a line's home (R255): recall, stamps, data. `src` is the die it comes from, `rel` the core of a
release narrower than device scope (R280). Answers the wts of the acknowledgement. -/
def State.homeStore (s : State) (c : Nat) (src : Option Nat) (la : Nat) (l : Stamp) (cells : List (Nat × Byte))
    (rel : Option Nat := none) : State × Stamp :=
  match s.homeDie la with
  | none =>
    let s := { s with mem := Mem.writeCells s.mem cells, memPoison := clearCells s.memPoison cells }
    ((s.offPackage c src (la * 128) cells.length 0).wakeLine la, l)
  | some d =>
    if (s.die d).lost then ((s.carry c src none cells.length).discardAt la, l)
    else
      let s := ((s.recallNow la).touch c la).carry c src (some d) cells.length (flowNum (placeNum src) (s.placeOf la) 0)
      let h := s.homeLine la
      let w := Stamp.max l (h.rts + 1)
      let s := { s with
        lines := tput s.lines la { h with wts := w, rts := w, dirty := some c, relCore := rel },
        mem := Mem.writeCells s.mem cells, memPoison := clearCells s.memPoison cells }
      (s.wakeLine la, w)

/-- 32-byte units of a line poisoned (R354). -/
def State.spoilUnits (s : State) (la : Nat) (us : List Nat) : State :=
  { s with memPoison := us.foldl (fun m u => addUnit m (la * 128 + 32 * u, 32)) s.memPoison }

/-- The poisoned bytes of a write as units: each run within a line is one, which only a write of all of it clears (R326;
log 8). -/
def poisonRuns : List ((Nat × Byte) × Bool) → List (Nat × Nat)
  | [] => []
  | (c, bad) :: cs =>
    match bad, poisonRuns cs with
    | false, us => us
    | true, (a, n) :: us => if a == c.1 + 1 && a % 128 != 0 then (c.1, n + 1) :: us else (c.1, 1) :: (a, n) :: us
    | true, [] => [(c.1, 1)]

/-- The cells of a write by line. -/
def byLine : List (Nat × Byte) → Tbl (List (Nat × Byte))
  | [] => []
  | c :: cs =>
    let t := byLine cs
    tput t (c.1 / 128) (c :: (tget t (c.1 / 128)).getD [])

/-- A write by an agent that is no skein, line by line (R428), with the latest wts of its acknowledgements. -/
def State.agentStore (s : State) (c : Nat) (src : Option Nat) (l : Stamp) (cells : List (Nat × Byte)) : State × Stamp :=
  (byLine cells).foldl (fun (x : State × Stamp) g =>
    let (s, w) := x.1.homeStore c src g.1 l g.2
    (s, Stamp.max x.2 w)) (s, l)

/-- The acknowledgement of a core's write: LCLK, and the written bytes in a leased copy, whose units written whole are clean
(R255, R326). -/
def State.ackStore (s : State) (core la : Nat) (cells : List (Nat × Byte)) (w : Stamp) : State :=
  s.modCore core fun k =>
    let k := k.raise w
    match tget k.l1 la with
    | none => k
    | some x => { k with l1 := tput k.l1 la { x with
        data := Mem.read (Mem.writeCells (Mem.write [] (la * 128) x.data) cells) (la * 128) 128, rts := w,
        poison := clearCells x.poison cells } }

/-- The place of a core. -/
def dieOf (core : Nat) : Option Nat := some (core / 48)

/-- A core's write performed whole: home, then acknowledgement. -/
def State.coreStore (s : State) (c core la : Nat) (cells : List (Nat × Byte)) (rel : Option Nat := none) : State :=
  let (s, w) := s.homeStore c (dieOf core) la (s.core core).lclk cells rel
  s.ackStore core la cells w

/-! ## Reads at a home -/

/-- A line as a reader sees it after the recall: the normal form on a BOLT page (R85). -/
def State.lineView (s : State) (bolt : Bool) (la : Nat) : List Byte :=
  if bolt then normLine (s.lineBytes la) else s.lineBytes la

/-- A read of n bytes within one line, after the recall (R260): bytes and poison. -/
def State.agentRead (s : State) (c : Nat) (src : Option Nat) (bolt : Bool) (pa n : Nat) : State × List Byte × Bool :=
  let la := pa / 128
  match s.homeDie la with
  | none => (s.offPackage c src pa 0 n, Mem.read s.mem pa n, poisonedAt s.memPoison pa n)
  | some d =>
    if (s.die d).lost then (s.carry c src none n, ((s.lineView bolt la).drop (pa % 128)).take n, true)
    else
      let s := ((s.recallNow la).touch c la).carry c src (some d) n (flowNum (s.placeOf la) (placeNum src) 3)
      (s, ((s.lineView bolt la).drop (pa % 128)).take n, poisonedAt s.memPoison pa n)

/-- A core's load at the home granted a lease of n ticks (R255): rts rises, and the reply's wts raises LCLK. -/
def State.lease (s : State) (n core la : Nat) (l : Stamp) : State × Stamp × Stamp :=
  match s.homeDie la with
  | none => (s, (s.core core).lclk, (s.core core).lclk)
  | some d =>
    let h := s.homeLine la
    let r := Stamp.max h.rts (l + BitVec.ofNat 16 n)
    if (s.die d).lost then (s, h.wts, r) else
    ({ s with lines := tput s.lines la { h with rts := r } }, h.wts, r)

/-- A core's read served at the home at once, without a copy (R256). -/
def State.coreRead (s : State) (c core : Nat) (bolt : Bool) (pa n : Nat) : State × List Byte × Bool :=
  let l := (s.core core).lclk
  let (s, bs, poi) := s.agentRead c (dieOf core) bolt pa n
  let (s, w, _) := s.lease (s.ctx c).lease core (pa / 128) l
  (s.modCore core fun k => k.raise w, bs, poi)

/-! ## Accesses of engines by virtual address. The translation is made per line (R233, R429). -/

/-- A fault of an engine access: address, FCODE or 8 for HALL_RANGE. -/
structure EngFault where
  va : DWord
  fcode : Nat
  deriving DecidableEq, Repr

/-- A read of n bytes; the first number bounds the number of lines. -/
def State.readVa (s : State) (c core : Nat) (src : Option Nat) (va : Nat) : Nat → Nat → Except EngFault (State × List Byte × Bool)
  | 0, _ => .ok (s, [], false)
  | fuel + 1, n =>
    if n = 0 then .ok (s, [], false)
    else match s.translate c core (BitVec.ofNat 64 va) .load with
      | .error f => .error ⟨BitVec.ofNat 64 va, f.fcode⟩
      | .ok p =>
        let m := min n (128 - va % 128)
        let (s, bs, poi) := s.agentRead c src p.bolt p.pa m
        match s.readVa c core src (va + m) fuel (n - m) with
        | .error f => .error f
        | .ok (s, bs', poi') => .ok (s, bs ++ bs', poi || poi')

/-- A read of n bytes by an engine at a place. -/
def State.engRead (s : State) (c core : Nat) (src : Option Nat) (va n : Nat) :
    Except EngFault (State × List Byte × Bool) :=
  s.readVa c core src va (n / 128 + 2) n

/-- The physical cells of a write of bytes at a virtual address. -/
def State.cellsVa (s : State) (c core : Nat) (va : Nat) : Nat → List Byte → Except EngFault (List (Nat × Byte))
  | 0, _ => .ok []
  | fuel + 1, bs =>
    if bs.isEmpty then .ok []
    else match s.translate c core (BitVec.ofNat 64 va) .store with
      | .error f => .error ⟨BitVec.ofNat 64 va, f.fcode⟩
      | .ok p =>
        let m := 128 - va % 128
        match s.cellsVa c core (va + m) fuel (bs.drop m) with
        | .error f => .error f
        | .ok cs => .ok (cellsAt p.pa (bs.take m) ++ cs)

/-- A write of bytes at a virtual address by an agent that carries a logical time (R428), with the wts that acknowledges
it. -/
def State.engStore (s : State) (c core : Nat) (src : Option Nat) (l : Stamp) (va : Nat) (bs : List Byte) :
    Except EngFault (State × Stamp) :=
  match s.cellsVa c core va (bs.length / 128 + 2) bs with
  | .error f => .error f
  | .ok cs => .ok (s.agentStore c src l cs)

/-- The same where nobody looks at the acknowledgement. -/
def State.engWrite (s : State) (c core : Nat) (src : Option Nat) (l : Stamp) (va : Nat) (bs : List Byte) :
    Except EngFault State := (s.engStore c core src l va bs).map Prod.fst

/-- The 64-bit word of a virtual address. -/
def State.engWord (s : State) (c core : Nat) (src : Option Nat) (va : Nat) : Except EngFault (State × Nat) :=
  match s.engRead c core src va 8 with
  | .error f => .error f
  | .ok (s, bs, _) => .ok (s, ofLeBytes bs)

/-- The grids of a context that are not complete. -/
def State.gridsOf (s : State) (c : Nat) : List Nat := (s.grids.filter fun g => g.2.ctx == c).map Prod.fst

/-- What a core holds of a context that is ended is given up. -/
def CoreSt.without (k : CoreSt) (c : Nat) (sks : List Nat) : CoreSt :=
  { k with
    hallc := k.hallc.filter fun p => p.2.ctx != c
    loom := k.loom.filter fun o => o.ctx != c
    recQ := k.recQ.filter fun r => !(sks.contains r.sk)
    recWait := k.recWait.filter fun r => !(sks.contains r.sk)
    asks := k.asks.filter fun a => match a.1 with
      | .skein i => !(sks.contains i)
      | .record p _ => p.ctx != c }

/-- The context becomes LOST (R306, R430): it is ended, so its blocks leave the cores and its records are given up; each of
its launches completes with CTX_LOST (R312). -/
def State.lose (s : State) (c cause : Nat) : State :=
  match (s.ctx c).state with
  | .resident | .saved =>
    let s := s.modCtx c fun x => { x with state := .lost, loss := cause, faults := [] }
    let sks := (s.skeins.filter fun k => k.2.ctx == c).map Prod.fst
    let s := { s with
      ports := s.ports.map fun p : PortSt => if p.port.ctx == c then { p with recs := [] } else p
      colls := s.colls.filter fun k => k.2.ctx != c
      skeins := s.skeins.filter fun k => k.2.ctx != c
      blocks := s.blocks.filter fun b => b.2.ctx != c
      saved := s.saved.filter fun b => b.2.block.ctx != c
      savedC := s.savedC.filter fun h => h.2.ctx != c
      cores := s.cores.map fun k : Nat × CoreSt => (k.1, CoreSt.without k.2 c sks) }
    (s.gridsOf c).foldl (fun s g => s.postOnce (.gridComplete g)) s
  | _ => s

/-- A bookkeeping write of the device: its failure makes the context LOST (R430). It is placed no earlier than the
logical time `l` of what it tells of (log 68). -/
def State.bookWrite (s : State) (c : Nat) (va : DWord) (bs : List Byte) (l : Stamp := s.pkg.pclk) : State :=
  match s.engWrite c ((s.ctx c).firstDie * 48) none (Stamp.max s.pkg.pclk l) va.toNat bs with
  | .ok s => s
  | .error _ => s.lose c 5

/-- A bookkeeping read of the device. -/
def State.bookRead (s : State) (c : Nat) (va : DWord) (n : Nat) : Option (State × List Byte) :=
  match s.engRead c ((s.ctx c).firstDie * 48) none va.toNat n with
  | .ok (s, bs, _) => some (s, bs)
  | .error _ => none

/-- A saturating addition to a count word at a virtual address, as `cntsig` makes it (R214): a poisoned word stays so. -/
def State.countAdd (s : State) (c core : Nat) (src : Option Nat) (l : Stamp) (va inc : Nat) : Except EngFault State :=
  match s.engRead c core src va 8, s.translate c core (BitVec.ofNat 64 va) .store with
  | .error f, _ => .error f
  | .ok _, .error f => .error ⟨BitVec.ofNat 64 va, f.fcode⟩
  | .ok (s, bs, bad), .ok p =>
    let s := (s.agentStore c src l (cellsAt p.pa (leBytes 8 (min (ofLeBytes bs + inc) (2 ^ 64 - 1))))).1
    .ok (if bad then { s with memPoison := addUnit s.memPoison (p.pa, 8) } else s)

end Sys2Proof.Machine
end

