-- ==== Sys2Proof/Machine/Flags.lean ====
section
/-! DEFINITION. Completion flags (spec 01 R23, 03 R99), the IEEE flags of a lane instruction (R33, R155) and the sticky
flags' write (R33, R240). -/

namespace Sys2Proof.Machine

/-- A flag's count raised by one (R23). -/
def Skein.flagUp (k : Skein) (f : Nat) : Skein := { k with flags := tput k.flags f (k.flag f + 1) }

/-- A flag's count lowered by one; a flag whose count is 0 is not listed. -/
def Skein.flagDown (k : Skein) (f : Nat) : Skein :=
  { k with flags := if k.flag f ≤ 1 then tdel k.flags f else tput k.flags f (k.flag f - 1) }

/-- The flag that an instruction's SETF names; 15 names none (R91). -/
def Ctl.flag (h : Ctl) : Option Nat := if h.setf.toNat < 12 then some h.setf.toNat else none

/-- FLAGS [11:0] (R34). -/
def Skein.flagsWord (k : Skein) : Word :=
  BitVec.ofNat 32 ((List.range 12).foldl (fun a f => if k.flag f = 0 then a else a + 2 ^ f) 0)

/-! ## The word at a PC, as far as readiness looks at it (R50, R86) -/

/-- The fetched line that holds the skein's PC. -/
def Skein.line (k : Skein) : Option (List Byte) := tget k.lines (k.pc.toNat / 128)

/-- The word of a slot of a line (R86). -/
def slotWord (line : List Byte) (slot : Nat) : IWord := wordOfBytes ((line.drop (8 + 12 * slot)).take 12)

/-- Every flag of the WAIT mask is clear, and no SETF flag stands at 63 (R50, R99). -/
def flagsReady (k : Skein) (h : Ctl) : Bool :=
  (List.range 12).all (fun f => !h.wait.getLsbD f || k.flag f == 0)
    && match Ctl.flag h with
      | some f => k.flag f != 63
      | none => true

/-- The word at the PC lets the skein be ready (R50): its WAIT flags are clear and its SETF flag is not at 63. -/
def Skein.wordReady (k : Skein) : Bool :=
  match k.line with
  | none => true
  | some line => flagsReady k (ctlOf (slotWord line (k.pc.toNat % 128)))

/-- A flag that an instruction held comes down; a skein that this makes ready has waited from now on (R99, R302). -/
def Skein.landFlag (k : Skein) (clk f : Nat) : Skein :=
  let x := k.flagDown f
  if !k.wordReady && x.wordReady then { x with readyAt := clk } else x

/-- The flags raised in the active lanes, ORed. -/
def flagsOver (lanes : List Nat) (f : Nat → Fl) : Fl := lanes.foldl (fun a l => a ||| f l) 0

/-- A write of FPCSR: RM stored, a 1 clears a sticky flag (R33). -/
def fpcsrWrite (old new : Word) : Word := (old &&& 0x1F0 &&& ~~~new) ||| (new &&& 3)

end Sys2Proof.Machine
end

