-- ==== Sys2Proof/Machine/Ops.lean ====
section
/-! DEFINITION. Shared operations: stores of a skein brought to their homes, the end of a block, taking a trap and
returning from one (spec 12 R314 to R318, 08 R242, R244), boundary causes, and completing an engine record. -/

namespace Sys2Proof.Machine

/-! ## Stores on their way (R218, R252) -/

/-- A write that the core has on its way to a home. -/
def isWriteOf (core : Nat) : Instr → Bool
  | .homeWrite r => r.core == core
  | _ => false

/-- An acknowledgement on its way to the core. -/
def isWriteAckOf (core : Nat) : Instr → Bool
  | .writeAck r => r.core == core
  | _ => false

/-- The entry on its way that a write or acknowledgement belongs to leaves the buffer; the stores that no other entry
carries land (R99, R199). -/
def State.dropEntry (s : State) (core : Nat) (e : ScbEntry) : State :=
  let s := s.modCore core fun k => { k with scb := k.scb.erase e }
  let left := (s.core core).scb
  e.ops.foldl (fun s o =>
    if left.any (fun x => x.ops.contains o) then s else s.modSkein o.1 fun k => k.landFlag s.clk o.2.1) s

/-- The entry on its way of a line. -/
def State.sentEntry (s : State) (core la : Nat) : Option ScbEntry :=
  (s.core core).scb.find? fun e => e.sent && e.la == la

/-- The entry on its way of a line leaves the buffer. -/
def State.dropSent (s : State) (core la : Nat) : State :=
  match s.sentEntry core la with
  | some e => s.dropEntry core e
  | none => s

/-- A write message performed with its acknowledgement. -/
def State.landWrite (s : State) : Instr → State
  | .homeWrite r =>
    ((s.coreStore r.ctx r.core r.la r.bytes (if r.narrow then some r.core else none)).spoilUnits r.la r.bad).dropSent
      r.core r.la
  | .writeAck r => (s.ackStore r.core r.la r.bytes r.wts).dropSent r.core r.la
  | _ => s

/-- Every write that the core has on its way is performed, and every acknowledgement arrives: the acknowledgements under way
first, then the writes as they were sent, so that each flow keeps its order (R343). -/
def State.landWrites (s : State) (core : Nat) : State :=
  let acks := s.pending.filter (isWriteAckOf core)
  let reqs := s.pending.filter (isWriteOf core)
  let s := { s with pending := s.pending.filter fun i => !(isWriteAckOf core i || isWriteOf core i) }
  (acks ++ reqs).foldl State.landWrite s

/-- A buffer entry performed. -/
def State.landEntry (s : State) (core : Nat) (e : ScbEntry) : State :=
  (s.coreStore e.ctx core e.la e.bytes).dropEntry core e

/-- The store-fault records of a skein that wait enter the queue while it has room (R217). -/
def State.enterRecords (s : State) (core sk : Nat) : State :=
  let k := s.core core
  let mine := k.recWait.filter (·.sk == sk)
  let fit := mine.take (32 - k.recQ.length)
  if fit.isEmpty then s
  else
    let s := s.setCore core { k with
      recQ := k.recQ ++ fit, recWait := k.recWait.filter fun r => !(r.sk == sk && fit.contains r) }
    let s := { s with pending := s.pending.filter fun i => match i with
      | .storeFaultRecord r => !(fit.contains r)
      | _ => true }
    (s.modSkein sk fun x => { x with sfInd := true }).postOnce (.storeFault sk)

/-- Every earlier write of a skein is acknowledged or recorded (R218), as far as the record queue has room. -/
def State.flush (s : State) (core sk : Nat) : State :=
  let s := s.landWrites core
  let s := ((s.core core).scb.filter fun e => !e.sent && e.writers.contains sk).foldl (fun s e => s.landEntry core e) s
  s.enterRecords core sk

/-- The core's buffer drains and its writes are performed. -/
def State.drainCore (s : State) (core : Nat) : State :=
  let s := s.landWrites core
  ((s.core core).scb.filter fun e => !e.sent).foldl (fun s e => s.landEntry core e) s

/-- The message is an ordered entry of the skein that its home has refused so far (R397). -/
def isRetryOf (sk : Nat) : Instr → Bool
  | .orderedRetry e => e.sk == sk
  | _ => false

/-- A home holds an ordered entry of the skein that it has accepted and not applied (R396). -/
def State.ordHeld (s : State) (sk : Nat) : Bool := s.slices.any fun n => n.2.ordered.any fun e => e.sk == sk

/-- Every write of the skein is acknowledged, accepted or recorded. -/
def State.flushed (s : State) (core sk : Nat) : Bool :=
  !((s.core core).scb.any fun e => e.writers.contains sk) && !((s.core core).recWait.any fun r => r.sk == sk)
    && !(s.pending.any (isRetryOf sk))

/-- A group 4 instruction of the skein has not landed (R180). -/
def State.looming (s : State) (core sk : Nat) : Bool := (s.core core).loom.any fun o => o.sk == sk

/-- Every write of the skein is performed, or recorded (R196). -/
def State.performed (s : State) (core sk : Nat) : Bool := s.flushed core sk && !s.ordHeld sk

/-! ## Engine records (R225, R228) -/

/-- The address of a port's count word, for ports in the count-word area (R226). -/
def State.countVa (s : State) (p : Port) : Option DWord :=
  let x := s.ctx p.ctx
  let base := x.areas.cntVa.toNat
  match p.kind with
  | .shuttle core ch => some (BitVec.ofNat 64 (base + (x.relCore core * 16 + ch) * 8))
  | .reed d => some (BitVec.ofNat 64 (base + 24576 + (d - x.firstDie) * 8))
  | .heddle d => some (BitVec.ofNat 64 (base + 24608 + (d - x.firstDie) * 8))
  | .launch core => some (BitVec.ofNat 64 (base + 24640 + x.relCore core * 8))
  | .ring n => (tget x.rings n).map (·.doneVa)

/-- The largest n with every record 1 to n completed. -/
def advance : Nat → Nat → List Nat → Nat × List Nat
  | 0, w, d => (w, d)
  | fuel + 1, w, d => if d.contains (w + 1) then advance fuel (w + 1) (d.erase (w + 1)) else (w, d)

/-- A byte of a context's save area changed by the device: an area that fails loses the context with cause 1 (R332,
R430). -/
def State.imageByte (s : State) (c : Nat) (va : DWord) (f : Nat → Nat) : State :=
  match s.bookRead c va 1 with
  | none => s.lose c 1
  | some (s, bs) =>
    match s.engWrite c ((s.ctx c).firstDie * 48) none s.pkg.pclk va.toNat (leBytes 1 (f (ofLeBytes bs))) with
    | .ok s => s
    | .error _ => s.lose c 1

/-- The count of a flag in the image of a saved skein is decremented (R331): byte 144 + f of its control block. The time `l`
of the record is kept for the core that takes the block up (R223). -/
def State.imageFlagDown (s : State) (sk f : Nat) (l : Stamp) : State :=
  match s.saved.find? fun p => (tget p.2.skeins sk).isSome with
  | none => s
  | some (b, x) =>
    let s := { s with saved := tput s.saved b { x with lclk := Stamp.max x.lclk l } }
    match tget x.controls sk with
    | none => s
    | some va => s.imageByte x.block.ctx (BitVec.ofNat 64 (va + 144 + f)) (· - 1)

/-- A flag of a skein that a record held is decremented, wherever the skein is (R228, R331). What follows the flag sees the
record's writes, so the core's LCLK reaches the time of the last of them (R223). -/
def State.recordFlagDown (s : State) (sk f : Nat) (l : Stamp) : State :=
  match tget s.skeins sk with
  | some k => (s.modSkein sk fun k => k.landFlag s.clk f).modCore k.core fun x => x.raise l
  | none => s.imageFlagDown sk f l

/-- The grid of a block has seen what happened up to a logical time (R223, R299). -/
def State.gridSaw (s : State) (b : Option Nat) (l : Stamp) : State :=
  match b.bind (tget s.blocks) with
  | some x => s.modGrid x.grid fun g => { g with lclk := Stamp.max g.lclk l }
  | none => s

/-- A record completes: its flag is decremented, and the port's count word advances as a release of what the records wrote
(R225, R228, R271). -/
def State.complete (s : State) (p : Port) (n : Nat) : State :=
  match s.record p n with
  | none => s
  | some r =>
    let x := s.port p
    let (w, d) := advance (x.done.length + 1) x.word (x.done ++ [n])
    let seen := Stamp.max x.seen r.seen
    let s := (s.setPort { x with recs := x.recs.filter (·.num != n), word := w, done := d, seen := seen }).gridSaw r.blk r.seen
    let s := match r.sk, r.flag with
      | some sk, some f => s.recordFlagDown sk f r.seen
      | _, _ => s
    if w == x.word then s
    else match s.countVa p with
      | some va => s.bookWrite p.ctx va (leBytes 8 w) seen
      | none => s

/-! ## The end of a block (R140, R244, R299) -/

/-- A copy record of the block is incomplete (R233). -/
def State.hallCopies (s : State) (b : Nat) : Bool :=
  s.ports.any fun x => x.recs.any fun r => r.blk == some b && match r.body with
    | .copy _ => true
    | _ => false

/-- The parent records of a core (R299). -/
def State.parents (s : State) (core : Nat) : Nat := (s.blocks.filter fun p => p.2.core == core && p.2.parent).length

/-- A block that has ended and waits for its children holds its block slot while it has no parent record (R299). -/
def Block.waitsForEntry (x : Block) : Bool := x.allEnded && x.launches != 0 && !x.parent

/-- A block of the core that waits for a parent record is given one while the table of 64 has an entry (R299). -/
def State.seatParent (s : State) (core : Nat) : State :=
  match s.blocks.find? fun p => p.2.core == core && p.2.waitsForEntry with
  | some (b, x) => if s.parents core < 64 then s.setBlock b { x with parent := true } else s
  | none => s

/-- The block gives up what nothing holds any more (R299). -/
def State.releaseBlock (s : State) (b : Nat) : State :=
  match tget s.blocks b with
  | none => s
  | some x =>
    if !x.allEnded || s.hallCopies b then s.seatParent x.core
    else
      let s := s.modCore x.core fun k => { k with
        hallc := k.hallc.map fun p => if p.2.blk == some b then (p.1, { p.2 with blk := none }) else p }
      let s :=
        if x.launches = 0 then { s with blocks := tdel s.blocks b }
        else s.setBlock b { x with hallA := [], hallW := [], granA := 0, granW := 0, full := [], poisonA := [],
                                   poisonW := [], hallc := [] }
      (((s.seatParent x.core).postOnce (.gridComplete x.grid)).postOnce (.blockPlace (x.core / 48))).settle x.ctx

/-- A span's or block's digest contributes to the kernel digest under a task index (R392). -/
def Grid.addDigest (g : Grid) (d : DWord) (idx : Nat) : Grid :=
  { g with dsum := g.dsum + d * BitVec.ofNat 64 (2 * idx + 1) }

/-- A timestamp as a key of a block: the nearer end of the block's range where it lies outside (R395). -/
def clampKey (i : Nat) (t : DWord) : DWord :=
  BitVec.ofNat 64 (max (i * 2 ^ 32) (min t.toNat (i * 2 ^ 32 + 2 ^ 32 - 1)))

/-- The key of a skein of block i (R394, R395): not below its last one. -/
def Task.key (t : Task) (i : Nat) : DWord :=
  match t.isOpen, t.lastKey with
  | true, some k => if clampKey i t.ts < k then k else clampKey i t.ts
  | true, none => clampKey i t.ts
  | false, some k => k
  | false, none => BitVec.ofNat 64 (i * 2 ^ 32)

/-- The linear index of a block. -/
def State.blockIdx (s : State) (b : Nat) : Nat := ((tget s.blocks b).map (·.idx)).getD 0

/-- The open span of a skein is closed (R238). -/
def State.closeSpan (s : State) (sk : Nat) : State :=
  match tget s.skeins sk with
  | none => s
  | some k =>
    if !k.task.isOpen then s
    else
      let s := s.modGrid k.grid fun g => if g.level = 0 then g else g.addDigest k.task.digest k.task.index
      (s.setSkein sk { k with task := { isOpen := false, lastKey := some (k.task.key (s.blockIdx k.blk)) } }).postOnce
        (.frontierUpdate k.grid)

/-- A block of a die has ended: the distributors of that die may ask for blocks again (R295). -/
def State.mayAskAgain (s : State) (core : Nat) : State :=
  { s with grids := s.grids.map fun g =>
      let x := s.ctx g.2.ctx
      if x.hasDie (core / 48) then
        (g.1, { g.2 with shares := tmod g.2.shares (x.relDie core) fun y => { y with mayAsk := true } })
      else g }

/-- Every skein of a block is gone and the block ends; a cause marks an end by trap or `kill` (R244, R312). -/
def State.blockEnds (s : State) (b : Nat) (cause : Option Nat) : State :=
  match tget s.blocks b with
  | none => s
  | some x =>
    let s := (s.setBlock b { x with allEnded := true, ended := cause, dying := none, skeins := [], chans := [] }).mayAskAgain
      x.core
    let s := (s.gridSaw (some b) (s.core x.core).lclk).modGrid x.grid fun g =>
      let g := if g.level = 0 then g else g.addDigest x.digest x.idx
      let g := { g with blocksEnded := g.blocksEnded + 1 }
      match cause with
      | none => g
      | some c =>
        let lower := match g.lowest with
          | none => true
          | some i => decide (x.idx < i)
        { g with badCount := g.badCount + 1, lowest := if lower then some x.idx else g.lowest,
                 cause := if lower then c else g.cause }
    let s := match (tget s.grids x.grid).bind (·.coll) with
      | some _ => s.post (.collChunkFire x.grid x.idx cause.isSome)
      | none => s
    let s := s.modCtx x.ctx fun c => { c with lastRes := s.gt }
    (s.postOnce (.frontierUpdate x.grid)).releaseBlock b

/-- Something that a block's skeins issued is still to land: an ordered entry that a home has refused so far, or a group 4
instruction (R244). -/
def State.lingers (s : State) (b : Nat) (x : Block) : Bool :=
  x.skeins.any (fun i => s.pending.any (isRetryOf i)) || (s.core x.core).loom.any fun o => o.blk == b

/-- A block that is to end does so once nothing of it lingers (R244). -/
def State.endDying (s : State) (b : Nat) : State :=
  match tget s.blocks b with
  | none => s
  | some x =>
    match x.dying with
    | none => s
    | some cause => if s.lingers b x then s else s.blockEnds b (some cause)

/-- The steps of R244: stores land, records and causes are discarded, skeins stop, and the block ends with the cause once
what they issued has landed. -/
def State.killBlock (s : State) (b cause : Nat) : State :=
  match tget s.blocks b with
  | none => s
  | some x =>
    let s := x.skeins.foldl (fun s i => s.flush x.core i) s
    let s := x.skeins.foldl (fun s i => s.closeSpan i) s
    let s := s.modCore x.core fun k => { k with
      recQ := k.recQ.filter (fun r => !(x.skeins.contains r.sk)),
      recWait := k.recWait.filter (fun r => !(x.skeins.contains r.sk)),
      asks := k.asks.filter fun a => match a.1 with
        | .skein i => !(x.skeins.contains i)
        | .record _ _ => true }
    let s := { s with skeins := s.skeins.filter fun p => !(x.skeins.contains p.1) }
    (s.modBlock b fun y => { y with dying := some cause }).endDying b

/-! ## Taking a trap, and returning -/

/-- A trap about to be taken (R314): code, TRAPADDR, TRAPINFO, the lane of TRAPCAUSE, and TRAPPC. -/
structure Trap where
  code : Nat
  addr : DWord := 0
  info : DWord := 0
  lane : Option Nat := none
  deriving DecidableEq, Repr

/-- TRAPCAUSE (R315). -/
def Trap.causeWord (t : Trap) : Word :=
  BitVec.ofNat 32 (t.code + match t.lane with
    | some l => 2 ^ 14 + l * 2 ^ 8
    | none => 0)

/-- The entry save that a skein makes (R316). -/
def Skein.entryOf (k : Skein) (pc : Pc) : EntrySave :=
  { pc := pc, running := k.running, sheds := k.sheds, live := k.live, preds := k.preds, flags := k.flags,
    stall := k.stall, spanOpen := k.task.isOpen }

/-- The skein in handler mode after a trap with the given TRAPPC (R316). -/
def Skein.enter (k : Skein) (t : Trap) (pc : Pc) (vec : DWord) : Skein :=
  { k with
    trap := { cause := Trap.causeWord t, pc := pc.setWidth 64, addr := t.addr, info := t.info },
    entry := some (k.entryOf pc), hnd := true, sheds := [], stall := 0, park := .no, waited := none,
    met := false, pc := vec.setWidth 55 }

/-- TAKING A TRAP (R316, R317, R35): outside handler mode with a handler, the skein enters it; in handler mode, or with
TRAPVEC 0, the block ends with the cause. `pc` is what TRAPPC is to hold. -/
def State.takeTrap (s : State) (sk : Nat) (t : Trap) (pc : Pc) : State :=
  match tget s.skeins sk with
  | none => s
  | some k =>
    let vec := ((tget s.grids k.grid).getD {}).trapvec
    if k.hnd || vec == 0 then s.killBlock k.blk t.code else s.setSkein sk (k.enter t pc vec)

/-- RETURNING (R242): the entry save is restored, and the skein goes on at TRAPPC. Lanes that ended in handler mode have
left the save already (R316). -/
def Skein.restore (k : Skein) : Skein :=
  match k.entry with
  | none => { k with hnd := false }
  | some e => { k with
      hnd := false, entry := none, running := e.running, sheds := e.sheds, pc := k.trap.pc.setWidth 55, stall := 0,
      bclost := if k.held.isEmpty then false else k.bclost }

/-- A boundary cause reaches a skein (R318, R329): held in order of arrival, at most 14. -/
def State.deliver (s : State) (sk : Nat) (c : Held) : State :=
  match tget s.skeins sk with
  | none =>
    { s with saved := s.saved.map fun p =>
        (p.1, { p.2 with skeins := tmod p.2.skeins sk fun k =>
          if c.code == 0x31 then k
          else if k.held.length < 14 then { k with held := k.held ++ [c] } else { k with bclost := true } }) }
  | some k =>
    if k.held.length < 14 then (s.setSkein sk { k with held := k.held ++ [c] }).postOnce (.boundaryCause sk)
    else s.setSkein sk { k with bclost := true }

/-! ## Waits -/

/-- The clock at which a park began to count against the watchdog (R205). -/
def Park.since : Park → Option Nat
  | .word t _ _ _ | .count t _ _ _ _ | .countHall t _ _ _ | .chan t _ _ => some t
  | _ => none

/-- A halted skein, or one of a halted context: a parked one stays parked (R334). -/
def State.haltedAt (s : State) (k : Skein) : Bool := k.halted || (s.ctx k.ctx).dbg.halt

/-- A skein waits no more; its wait goes on counting when its condition turns out not to hold. -/
def State.wake (s : State) (sk : Nat) : State :=
  s.modSkein sk fun k => { k with park := .no, readyAt := s.clk, waited := Park.since k.park }

/-- The parked skeins of a block are asked to look again; a wait on a count word whose threshold is met is over, however
the word changes after (R203, R214). -/
def State.stir (s : State) (b : Nat) : State :=
  match tget s.blocks b with
  | none => s
  | some x => x.skeins.foldl (fun s i => match tget s.skeins i with
      | some k => (match k.park with
        | .word _ _ _ _ | .chan _ _ _ => s.postOnce (.skeinWake i)
        | .countHall _ _ off n =>
          if n.toNat ≤ x.hallNat false off 8 then (s.modSkein i fun k => { k with met := true }).postOnce (.skeinWake i)
          else s
        | _ => s)
      | none => s) s

end Sys2Proof.Machine
end

