-- ==== Sys2Proof/Machine/Operands.lean ====
section
/-! DEFINITION. Operands (spec 01 R15 to R29, 03 R92 to R96, 04 R117, R120, R121): what a skein reads from registers,
special registers, channels, predicates and bolt groups, and what it writes. -/

namespace Sys2Proof.Machine

/-- What an instruction has at hand when it acts: the state, the skein, its block and grid, and the active lanes. -/
structure Iss where
  s : State
  id : Nat
  k : Skein
  b : Block
  g : Grid
  h : Ctl
  act : Mask

/-- A value per lane with poison and tag: an operand as read. -/
structure Oper where
  val : Nat → DWord
  poi : Nat → Bool
  tag : Shape

/-- The active lanes, ascending. -/
def Iss.lanes (c : Iss) : List Nat := Mask.lanes c.act c.k.width

/-- The lowest active lane. -/
def Iss.low (c : Iss) : Nat := c.lanes.headD 0

/-- Every lane of the skein is active. -/
def Iss.allLanes (c : Iss) : Bool := c.act == Mask.full c.k.width

/-- The skein's context. -/
def Iss.ctx (c : Iss) : Context := c.s.ctx c.k.ctx

/-! ## Special registers (R28, R29) -/

/-- A special register in a lane. -/
def Iss.special (c : Iss) (n l : Nat) : Word :=
  let k := c.k
  let g := c.g
  let t := k.tid.getD l 0
  let i := c.b.idx
  let x : Nat := match n with
    | 640 => l
    | 641 => t % g.bx
    | 642 => t / g.bx % g.bY
    | 643 => t / (g.bx * g.bY)
    | 644 => k.num
    | 645 => i % g.gx
    | 646 => i / g.gx % g.gy
    | 647 => i / (g.gx * g.gy)
    | 648 => c.ctx.relCore k.core
    | 649 => c.ctx.relDie k.core
    | 650 => k.ctx
    | 651 => k.width
    | 652 => c.s.clk
    | 653 => k.clockh.toNat
    | 654 => g.gx
    | 655 => g.gy
    | 656 => g.gz
    | 657 => c.b.nskein
    | 658 => g.depth
    | _ => 0
  BitVec.ofNat 32 x

/-- The tag of a read of a special register (R28, R29). -/
def Iss.specialTag (c : Iss) (n : Nat) : Shape :=
  if n = 640 then .affine
  else if n = 641 || n = 642 || n = 643 then
    (if !c.k.regrouped && c.g.bx % c.k.width == 0 then (if n = 641 then .affine else .uniform) else .general)
  else .uniform

/-- A register-class index in a lane. -/
def Iss.laneWord (c : Iss) (n l : Nat) : Word := if n < 640 then (c.k.reg n).lane l else c.special n l

/-- An operand of an earlier field is `%clock`, which latches the high half of the count (R30). -/
def clockRead (before : List Opnd) : Bool := before.any (· == .reg 652)

/-- A register-class index in a lane, behind the operands of earlier fields: operands are taken in field order, so `%clockh`
behind `%clock` returns the new latch (R30, R94). -/
def Iss.laneAfter (c : Iss) (before : List Opnd) (n l : Nat) : Word :=
  if n = 653 && clockRead before then BitVec.ofNat 32 (c.s.clk / 2 ^ 32) else c.laneWord n l

/-- The poison of a register-class index in a lane. -/
def Iss.lanePoison (c : Iss) (n l : Nat) : Bool := n < 640 && Mask.has (c.k.reg n).poison l

/-- The tag of a register-class index. -/
def Iss.regTag (c : Iss) (n : Nat) : Shape := if n < 640 then (c.k.reg n).tag else c.specialTag n

/-! ## Channels (R25, R94) -/

/-- A channel of the block. -/
def Iss.chan (c : Iss) (n : Nat) : Option Chan := tget c.b.chans n

/-- The hall A offset of lane l of the element that stands i places behind the head. -/
def chanOff (x : Chan) (w i l : Nat) : Nat := x.off + ((x.head + i) % x.depth) * (w * 4) + l * 4

/-- The number of pops of channel n among operands (R94). -/
def popsOf (n : Nat) (os : List Opnd) : Nat :=
  (os.filter fun o => match o with
    | .chan c p => c.toNat == n && !p
    | .reg _ => false).length

/-! ## Reading -/

/-- A 32-bit vector operand; `before` are the operands of earlier fields, whose pops and reads come first. -/
def Iss.single (c : Iss) (before : List Opnd) (o : Opnd) : Oper :=
  match o with
  | .reg n => { val := fun l => (c.laneAfter before n.toNat l).setWidth 64, poi := c.lanePoison n.toNat, tag := c.regTag n.toNat }
  | .chan n _ =>
    match c.chan n.toNat with
    | none => { val := fun _ => 0, poi := fun _ => false, tag := .general }
    | some x =>
      let i := popsOf n.toNat before
      { val := fun l => BitVec.ofNat 64 (Mem.nat c.b.hallA (chanOff x c.k.width i l) 4),
        poi := fun l => c.b.poisonA.contains (chanOff x c.k.width i l / 4), tag := .general }

/-- The join of two tags under rule U (R120). -/
def Shape.joinU (a b : Shape) : Shape := if a == .uniform && b == .uniform then .uniform else .general

/-- A register pair (R15). -/
def Iss.pair (c : Iss) (o : Opnd) : Oper :=
  match o with
  | .reg n =>
    let i := n.toNat
    { val := fun l => (c.laneWord (i + 1) l ++ c.laneWord i l : BitVec 64),
      poi := fun l => c.lanePoison i l || c.lanePoison (i + 1) l, tag := Shape.joinU (c.regTag i) (c.regTag (i + 1)) }
  | .chan _ _ => { val := fun _ => 0, poi := fun _ => false, tag := .general }

/-- A vector operand under a type: a pair for 64-bit types (R117). -/
def Iss.opnd (c : Iss) (wide : Bool) (before : List Opnd) (o : Opnd) : Oper :=
  if wide then c.pair o else c.single before o

/-- An immediate: uniform (R117). -/
def immOper (v : BitVec 24) (signed : Bool) : Oper :=
  { val := fun _ => if signed then v.signExtend 64 else v.setWidth 64, poi := fun _ => false, tag := .uniform }

/-- Operand B, or its immediate. -/
def Iss.srcImm (c : Iss) (wide signed : Bool) (before : List Opnd) (o : SrcImm) : Oper :=
  match o with
  | .src r => c.opnd wide before r
  | .imm v => immOper v signed

/-- The bolt of a lane of a register group; a poisoned register of the group gives S.POISON (R21, R157). -/
def Iss.bolt (c : Iss) (o : Opnd) (l : Nat) : Bolt :=
  match o with
  | .reg n =>
    let b := boltOfWords fun i => c.laneWord (n.toNat + i) l
    if (List.range 24).any fun i => c.lanePoison (n.toNat + i) l then { b with poison := true } else b
  | .chan _ _ => Bolt.zero

/-- The tag of a bolt group: uniform when each of its registers is (R157). -/
def Iss.boltTag (c : Iss) (o : Opnd) : Shape :=
  match o with
  | .reg n => if (List.range 24).all fun i => c.regTag (n.toNat + i) == .uniform then .uniform else .general
  | .chan _ _ => .general

/-- A predicate operand as a mask. -/
def Iss.pred (c : Iss) (o : Opnd) : Mask :=
  match o with
  | .reg n => c.k.pred n.toNat
  | .chan _ _ => 0

/-- The index of a register-class operand. -/
def opIdx : Opnd → Nat
  | .reg n => n.toNat
  | .chan c _ => c.toNat

/-- Rule U over tags (R120). -/
def tagU (ts : List Shape) : Shape := if ts.all (· == .uniform) then .uniform else .general

/-! ## What the checks of an instruction look at -/

/-- The registers and channels that a word names, by field (R20, R25, R94, R98). -/
structure Uses where
  a : List Nat := []
  b : List Nat := []
  c : List Nat := []
  d : List Nat := []
  /-- Channel operands read, in field order. -/
  reads : List Opnd := []
  /-- The channel pushed. -/
  push : Option Nat := none
  /-- A channel that is only looked at (`chstat`). -/
  look : Option Nat := none
  /-- The instruction accesses a hall of the block by its own meaning. -/
  hall : Bool := false
  deriving DecidableEq, Repr

/-- The registers of an operand of n registers, special registers among them. -/
def regsOf (o : Opnd) (n : Nat) : List Nat :=
  match o with
  | .reg r => (List.range n).map (r.toNat + ·)
  | .chan _ _ => []

/-- A source of the word is `%clock`, whose read latches the high half (R30). -/
def Uses.readsClock (u : Uses) : Bool := (u.a ++ u.b ++ u.c).contains 652

/-- The channel of an operand, as a read. -/
def chanOf (o : Opnd) : List Opnd :=
  match o with
  | .chan _ _ => [o]
  | .reg _ => []

/-- The operand of a source that may be an immediate. -/
def SrcImm.opnd : SrcImm → Option Opnd
  | .src o => some o
  | .imm _ => none

/-- The registers of operand B. -/
def regsOfImm (o : SrcImm) (n : Nat) : List Nat :=
  match o with
  | .src r => regsOf r n
  | .imm _ => []

/-- The channel of operand B, as a read. -/
def chanOfImm (o : SrcImm) : List Opnd :=
  match o with
  | .src r => chanOf r
  | .imm _ => []

/-- The channel that a destination pushes. -/
def pushOf (o : Opnd) : Option Nat :=
  match o with
  | .chan c _ => some c.toNat
  | .reg _ => none

/-- The registers of an offset operand. -/
def regsOfOff (o : Offset) : List Nat :=
  match o with
  | .vec r => regsOf r 1
  | .imm _ => []

/-- The number of registers of a value under a type. -/
def nRegs (t : Ty) : Nat := if t.is64 then 2 else 1

/-! ## Writing -/

/-- A channel element pushed: the element's lanes, 0 in inactive lanes, with poison (R25, R94). -/
def Iss.pushBlock (c : Iss) (n : Nat) (val : Nat → Word) (poi : Nat → Bool) : Block :=
  match tget c.b.chans n with
  | none => c.b
  | some x =>
    let w := c.k.width
    let base := x.off + x.tail * (w * 4)
    let bytes := ((List.range w).map fun l => leBytes 4 (if Mask.has c.act l then (val l).toNat else 0)).flatten
    let words := (List.range w).map fun l => base / 4 + l
    let bad := (List.range w).filterMap fun l => if Mask.has c.act l && poi l then some (base / 4 + l) else none
    { c.b.keepWords false base (4 * w) with
      hallA := Mem.write c.b.hallA base bytes,
      poisonA := c.b.poisonA.filter (fun i => !(words.contains i)) ++ bad,
      chans := tput c.b.chans n { x with tail := (x.tail + 1) % x.depth, count := x.count + 1 } }

/-- Pops applied to a block's channels (R94). -/
def popChans (b : Block) : List Opnd → Block
  | [] => b
  | .chan n false :: os =>
    popChans { b with chans := tmod b.chans n.toNat fun x =>
      { x with head := (x.head + 1) % x.depth, count := x.count - 1 } } os
  | _ :: os => popChans b os

/-- The skein stored back. -/
def Iss.withSkein (c : Iss) (k : Skein) : Iss := { c with k := k, s := c.s.setSkein c.id k }

/-- The block stored back. -/
def Iss.withBlock (c : Iss) (b : Block) : Iss := { c with b := b, s := c.s.setBlock c.k.blk b }

/-- A 32-bit result: to a register, or pushed to a channel. -/
def Iss.putSingle (c : Iss) (d : Opnd) (tag : Shape) (val : Nat → Word) (poi : Nat → Bool := fun _ => false) : Iss :=
  match d with
  | .reg n => c.withSkein (c.k.setReg n.toNat c.act tag val poi)
  | .chan n _ => c.withBlock (c.pushBlock n.toNat val poi)

/-- A 64-bit result to a pair. -/
def Iss.putPair (c : Iss) (d : Opnd) (tag : Shape) (val : Nat → DWord) (poi : Nat → Bool := fun _ => false) : Iss :=
  c.withSkein (c.k.setPair (opIdx d) c.act tag val poi)

/-- A result under a type. -/
def Iss.put (c : Iss) (wide : Bool) (d : Opnd) (tag : Shape) (val : Nat → DWord) (poi : Nat → Bool := fun _ => false) :
    Iss :=
  if wide then c.putPair d tag val poi else c.putSingle d tag (fun l => (val l).setWidth 32) poi

/-- Registers of a bolt group written in order from i on. -/
def Skein.setBolt (k : Skein) (n : Nat) (act : Mask) (tag : Shape) (f : Nat → Bolt) (poi : Nat → Bool) : Nat → Skein
  | 0 => k
  | i + 1 => (Skein.setBolt k n act tag f poi i).setReg (n + i) act tag (fun l => boltWord (f l) i) poi

/-- A bolt group written in the active lanes (R157). The bolts of the active lanes are formed once. -/
def Iss.putBolt (c : Iss) (d : Opnd) (tag : Shape) (f : Nat → Bolt) (poi : Nat → Bool := fun _ => false) : Iss :=
  let bs := (List.range c.k.width).map fun l => if Mask.has c.act l then f l else Bolt.zero
  c.withSkein (c.k.setBolt (opIdx d) c.act tag (fun l => bs.getD l Bolt.zero) poi 24)

/-- A predicate written in the active lanes (R22). -/
def Iss.putPred (c : Iss) (p : Opnd) (val : Nat → Bool) : Iss := c.withSkein (c.k.setPred (opIdx p) c.act val)

/-- The IEEE flags ORed into FPCSR. -/
def Iss.raise (c : Iss) (f : Fl) : Iss := c.withSkein { c.k with fpcsr := fpcsrOr c.k.fpcsr f }

/-- The high half of the clock latched by a read of `%clock` (R30). -/
def Iss.latch (c : Iss) : Iss := c.withSkein { c.k with clockh := BitVec.ofNat 32 (c.s.clk / 2 ^ 32) }

/-- The tag of a result whose entry states none (log 18); the values are the same in every lane. -/
def openTag (op : Nat) : Shape :=
  match Config.tagOf op with
  | 0 => .uniform
  | 1 => .affine
  | _ => .general

/-- What is at hand after other operations changed the state. -/
def Iss.at (c : Iss) (s : State) : Iss :=
  { c with s := s, k := (tget s.skeins c.id).getD c.k, b := (tget s.blocks c.k.blk).getD c.b }

/-- The clock from which a wait of the skein counts (R205). -/
def Iss.since (c : Iss) : Nat := c.k.waited.getD c.s.clk

/-- Skeins of the block that wait for a word or channel look again (R203, R214). -/
def Iss.stir (c : Iss) : Iss := { c with s := c.s.stir c.k.blk }

/-- Gains of the skein's context. -/
def Iss.meter (c : Iss) (gs : List (Nat × Nat)) : Iss := { c with s := c.s.meterAll c.k.ctx gs }

/-- The lowest active lane with a poisoned operand among (bit, operand) pairs, and the bits of R314. -/
def Iss.poisoned (c : Iss) (os : List (Nat × (Nat → Bool))) : Option Trap :=
  let bits := os.foldl (fun a o => if c.lanes.any o.2 then a + 2 ^ o.1 else a) 0
  if bits = 0 then none
  else some { code := 0x13, info := BitVec.ofNat 64 bits,
              lane := c.lanes.find? fun l => os.any fun o => o.2 l }

end Sys2Proof.Machine
end

