-- ==== Sys2Proof/Machine/Issue.lean ====
section
/-! DEFINITION. Issue of an instruction by a skein: the order of causes (spec 03 R107), the waits before issue (R50, R94,
R98, R99), the active lanes (R95), and what follows a completed instruction (R88, R99, R100, R402). -/

namespace Sys2Proof.Machine

/-- What the meaning of an instruction comes to. -/
inductive Act where
  /-- It completes and the skein goes on at the next instruction; `late` marks a result that lands later (R99). -/
  | done (c : Iss) (late : Bool)
  /-- It completes, and has its place in loom order under a name; it lands later (R180). -/
  | loomed (c : Iss) (id : Nat)
  /-- It completes and the skein goes on where its PC now stands, or has ended. -/
  | went (s : State)
  /-- It does not issue yet; the state is as given. -/
  | hold (s : State)
  /-- The skein parks at this instruction. -/
  | park (s : State) (p : Park)
  /-- It traps precisely; the state is as given but for the trap. -/
  | trap (s : State) (t : Trap)
  /-- It completes, and then its trap is taken at the next instruction (R241). -/
  | after (c : Iss) (t : Trap)

/-- An instruction that completes with no effect of its own beyond what `c` holds. -/
def Act.ok (c : Iss) : Act := .done c false

/-- ILLEGAL_ENC with an entry code (R314). -/
def encTrap (code : Nat) : Trap := { code := 0x02, info := BitVec.ofNat 64 code }

/-- The lowest register at or above the count in the first field that has one (R314). -/
def Uses.outOfRange (u : Uses) (n : Nat) : Option Nat :=
  [u.a, u.b, u.c, u.d].findSome? fun rs =>
    (rs.filter fun r => decide (n ≤ r) && decide (r < 640)).min?

/-- The first channel that is not bound, in field order (R314). -/
def Uses.unbound (u : Uses) (b : Block) : Option Nat :=
  (u.reads.map opIdx ++ u.push.toList ++ u.look.toList).find? fun n => (tget b.chans n).isNone

/-- The number of registers that a load in flight is to write. -/
def LoadOp.width (o : LoadOp) : Nat := if o.noDst then 0 else if o.bolt then 24 else nRegs o.ty

/-- A register that the word names is still to be written by a load in flight (R98). -/
def Uses.locked (u : Uses) (k : Skein) : Bool :=
  k.loads.any fun o =>
    (u.a ++ u.b ++ u.c ++ u.d).any fun r => decide (o.dst ≤ r) && decide (r < o.dst + LoadOp.width o)

/-- The number of elements of channel n that the operands ask for: each takes the current head, behind the pops of earlier
fields (R94). -/
def needOf (n : Nat) : List Opnd → Nat → Nat
  | [], _ => 0
  | .chan c p :: os, k =>
    if c.toNat = n then max (k + 1) (needOf n os (if p then k else k + 1)) else needOf n os k
  | .reg _ :: os, k => needOf n os k

/-- The instruction moves elements of channels. -/
def Uses.moves (u : Uses) : Bool := !(u.reads.isEmpty && u.push.isNone)

/-- The instruction accesses a hall of its block, where channels are too. -/
def Uses.touchesHall (u : Uses) : Bool := u.hall || u.moves

/-- A release waits until every earlier access of the skein is performed, or recorded (R196, R212). -/
def Iss.release (c : Iss) : Except State Iss :=
  let s := c.s.flush c.k.core c.id
  if !c.k.loads.isEmpty || !s.performed c.k.core c.id then .error s else .ok (c.at s)

/-- A channel push is a release at block scope (R274). -/
def Iss.beforePush (c : Iss) (u : Uses) : Except State Iss := if u.push.isSome then c.release else .ok c

/-- A channel that keeps the instruction from issuing: an operand without an element or a push without space (R94). -/
def Uses.blocked (u : Uses) (b : Block) : Option Nat :=
  let lacking := u.reads.findSome? fun o =>
    match tget b.chans (opIdx o) with
    | none => none
    | some x => if x.count < needOf (opIdx o) u.reads 0 then some (opIdx o) else none
  match lacking, u.push with
  | some n, _ => some n
  | none, none => none
  | none, some n =>
    match tget b.chans n with
    | none => none
    | some x => if x.depth ≤ x.count - popsOf n u.reads then some n else none

/-- The PC advanced past a completed instruction, its STALL applied (R88, R100). -/
def Skein.step (k : Skein) (h : Ctl) : Skein := { k with pc := pcNext k.pc, stall := h.stall.toNat }

/-- A STALL that runs is posted to elapse. -/
def State.postStall (s : State) (sk : Nat) (h : Ctl) : State := if h.stall = 0 then s else s.post (.stallElapse sk)

/-- The skein has issued: it is young for promotion, its wait for leave is over, and its word's YLD stands (R101, R302,
R399). -/
def Skein.issued (k : Skein) (clk : Nat) (yld : Bool := false) : Skein :=
  { k with readyAt := clk, waited := none, promoted := none, met := false, leave := .no, yielded := yld }

/-- What follows a meaning that completes: pops, the PC, STALL, SETF and the issue slot (R94, R99, R402). -/
def finish (c : Iss) (u : Uses) (late : Bool) (op : Option Nat := none) : State :=
  let s := c.s
  let s := s.modBlock c.k.blk fun b => { popChans b u.reads with stalled := false }
  let clk := s.clk
  let s := s.modSkein c.id fun k =>
    let k := (k.step c.h).issued clk c.h.yld
    if u.readsClock then { k with clockh := BitVec.ofNat 32 (clk / 2 ^ 32) } else k
  let s := match late, Ctl.flag c.h, op with
    | true, some f, o => (s.modSkein c.id fun k => k.flagUp f).post (.resultLand c.id ⟨some f, o⟩)
    | true, none, some i => s.post (.resultLand c.id ⟨none, some i⟩)
    | _, _, _ => s
  let s := if u.moves then s.stir c.k.blk else s
  (s.meterAdd c.k.ctx 24 1).postStall c.id c.h

/-- A word with no active lane: it honours WAIT, SETF and STALL, and nothing else (R95). -/
def finishEmpty (s : State) (sk : Nat) (h : Ctl) : State :=
  (s.modSkein sk fun k => (k.step h).issued s.clk h.yld).postStall sk h

/-- The block index that a share's place j stands for (R294, R296). -/
def Grid.blockAt (g : Grid) (nd : Nat) (x : Share) (j : Nat) : Nat := if g.serial then j else x.die + nd * j

/-- The outcome of a meaning turned into the next state. -/
def settleAct (c : Iss) (u : Uses) : Act → State
  | .done c' late => finish c' u late
  | .loomed c' id => finish c' u true (some id)
  | .went s => (s.modBlock c.k.blk fun b => { b with stalled := false }).meterAdd c.k.ctx 24 1
  | .hold s => s
  | .park s p => s.modSkein c.id fun k => { k with park := p }
  | .trap s t => s.takeTrap c.id t c.k.pc
  | .after c' t =>
    let s := finish c' u false
    s.takeTrap c.id t (pcNext c.k.pc)

/-- ISSUE (R95, R98, R99, R107). The causes found before issue, the waits before issue, among them that of a hall access for
an acquire in flight (R272), then the meaning `body` in the active lanes. `priv` is a PRIV trap of the entry. `whole` marks an entry that says what it does with no active lane. -/
def issue (h : Ctl) (u : Uses) (body : Iss → Act) (s : State) (priv : Skein → Option Trap := fun _ => none)
    (whole : Bool := false) : Out :=
  match tget s.skeins s.cur with
  | none => .fault (.noSkein s.cur)
  | some k =>
    let b := (tget s.blocks k.blk).getD {}
    let g := (tget s.grids k.grid).getD {}
    let c : Iss := { s := s, id := s.cur, k := k, b := b, g := g, h := h, act := k.active h }
    match priv k with
    | some t => .next (s.takeTrap s.cur t k.pc)
    | none =>
      match u.outOfRange k.regCount with
      | some r => .next (s.takeTrap s.cur { code := 0x03, info := BitVec.ofNat 64 r } k.pc)
      | none =>
        match u.unbound b with
        | some n => .next (s.takeTrap s.cur { code := 0x04, info := BitVec.ofNat 64 n } k.pc)
        | none =>
          if !flagsReady k h || u.locked k || (u.touchesHall && k.loads.any (·.acq)) then .next s
          else if c.act == 0 && !whole then .next (finishEmpty s s.cur h)
          else if c.act == 0 then .next (settleAct c u (body c))
          else
            match u.blocked b with
            | some n => .next (s.setSkein s.cur { k with park := .chan c.since c.low n })
            | none =>
              match c.beforePush u with
              | .error s => .next s
              | .ok c => .next (settleAct c u (body c))

end Sys2Proof.Machine
end

