-- ==== Sys2Proof/Machine/Transcend.lean ====
section
/-! DEFINITION. The correctly rounded transcendental functions (spec 02 R64, 05 R151): each value is enclosed in an
interval of fixed-point numbers, and rounded when both ends round alike (log 9). A fixed-point number x at precision p
stands for x ÷ 2^p. -/

namespace Sys2Proof.Machine

/-- The product of two fixed-point numbers, rounded down. -/
def fxMul (p : Nat) (a b : Int) : Int := a * b / (2 ^ p : Nat)

/-- The quotient of two fixed-point numbers, rounded down. -/
def fxDiv (p : Nat) (a b : Int) : Int := a * (2 ^ p : Nat) / b

/-- The sum of z^(2k+1) ÷ (2k+1), with alternating signs or not. -/
def atanSum (p : Nat) (alt : Bool) (z2 : Int) : Nat → Nat → Int → Int
  | 0, _, _ => 0
  | n + 1, k, term =>
    let x := term / ((2 * k + 1 : Nat) : Int)
    (if alt && k % 2 == 1 then -x else x) + atanSum p alt z2 n (k + 1) (fxMul p term z2)

/-- atanh z. -/
def fxAtanh (p : Nat) (z : Int) : Int := atanSum p false (fxMul p z z) p 0 z

/-- atan z. -/
def fxAtan (p : Nat) (z : Int) : Int := atanSum p true (fxMul p z z) p 0 z

/-- ln 2 = 2 atanh(1 ÷ 3). -/
def fxLn2 (p : Nat) : Int := 2 * fxAtanh p ((2 ^ p : Nat) / 3)

/-- π = 16 atan(1 ÷ 5) − 4 atan(1 ÷ 239). -/
def fxPi (p : Nat) : Int := 16 * fxAtan p ((2 ^ p : Nat) / 5) - 4 * fxAtan p ((2 ^ p : Nat) / 239)

/-- The sum of x^k ÷ k! from a given term on. -/
def expSum (p : Nat) (x : Int) : Nat → Nat → Int → Int
  | 0, _, _ => 0
  | n + 1, k, term => term + expSum p x n (k + 1) (fxMul p term x / ((k + 1 : Nat) : Int))

/-- e^x for |x| at most 1. -/
def fxExp (p : Nat) (x : Int) : Int := expSum p x p 0 (2 ^ p : Nat)

/-- The alternating series of sine or cosine: each term is the last times −x² ÷ ((k+1)(k+2)). -/
def trigSum (p : Nat) (x2 : Int) : Nat → Nat → Int → Int
  | 0, _, _ => 0
  | n + 1, k, term => term + trigSum p x2 n (k + 2) (-(fxMul p term x2 / (((k + 1) * (k + 2) : Nat) : Int)))

/-- sin x for |x| at most 1. -/
def fxSin (p : Nat) (x : Int) : Int := trigSum p (fxMul p x x) p 1 x

/-- cos x for |x| at most 1. -/
def fxCos (p : Nat) (x : Int) : Int := trigSum p (fxMul p x x) p 0 (2 ^ p : Nat)

/-- Rounds a value known to lie within `err` of v, in units of 2^e: the bits when both ends round alike. -/
def roundIv (t : Ty) (mode : Nat) (neg : Bool) (v : Int) (err : Nat) (e : Int) : Option (Nat × Fl) :=
  if v ≤ err then none
  else
    let lo := roundFin t mode false neg (v - err).toNat e true
    let hi := roundFin t mode false neg (v + err - 1).toNat e true
    if lo == hi then some lo else none

/-- Tries precisions in turn; when none decides, the value at the last stands (log 9). -/
def firstRound (t : Ty) (mode : Nat) (f : Nat → Bool × Int × Int) : List Nat → Nat × Fl
  | [] =>
    let (n, v, e) := f 1024
    roundFin t mode false n v.toNat e true
  | p :: ps =>
    let (n, v, e) := f p
    match roundIv t mode n v (2 ^ 16) e with
    | some r => r
    | none => firstRound t mode f ps

/-- The precisions tried. -/
def precisions : List Nat := [128, 256, 512, 1024]

/-- A dyadic m × 2^e as a fixed-point number, rounded down. -/
def fxOf (p : Nat) (m : Nat) (e : Int) : Int :=
  let s := e + p
  if 0 ≤ s then (m : Int) * (2 ^ s.toNat : Nat) else (m : Int) / (2 ^ (-s).toNat : Nat)

/-- `fex2` (R151). -/
def fEx2 (t : Ty) (mode : Nat) (a : Val) : Nat × Fl :=
  match a with
  | .nan s => ((nanBits t).1, nvIf s)
  | .inf n => if n then roundFin t mode false false 0 0 else infBits t false false
  | .fin neg m e =>
    if m = 0 then roundFin t mode false false 1 0
    else
      let top : Int := (bitLen m : Int) - 1 + e
      if 11 ≤ top then
        (if neg then roundFin t mode false false 1 (-3000) true else roundFin t mode false false 1 3000 true)
      else if top < -80 then
        (if neg then roundFin t mode false false (2 ^ 64 - 1) (-64) true
         else roundFin t mode false false (2 ^ 64) (-64) true)
      else if 0 ≤ e then roundFin t mode false false 1 (sgn neg (m * 2 ^ e.toNat))
      else
        let d := 2 ^ (-e).toNat
        let n : Int := sgn neg m / (d : Int)
        let r : Nat := (sgn neg m % (d : Int)).toNat
        if r = 0 then roundFin t mode false false 1 n
        else firstRound t mode (fun p => (false, fxExp p (fxMul p (fxOf p r e) (fxLn2 p)), n - p)) precisions

/-- `flg2` (R151): log2(m × 2^e) with m scaled into [1, 2). -/
def fLg2 (t : Ty) (mode : Nat) (a : Val) : Nat × Fl :=
  match a with
  | .nan s => ((nanBits t).1, nvIf s)
  | .inf n => if n then invalidBits t else infBits t false false
  | .fin neg m e =>
    if m = 0 then ((infBits t true false).1, flDZ)
    else if neg then invalidBits t
    else
      let k : Int := (bitLen m : Int) - 1 + e
      if m = 2 ^ (bitLen m - 1) then roundVal t mode false (.fin (decide (k < 0)) k.natAbs 0)
      else
        firstRound t mode (fun p =>
          let one : Int := (2 ^ p : Nat)
          let x := fxOf p m (-(bitLen m : Int) + 1)
          let l := fxDiv p (2 * fxAtanh p (fxDiv p (x - one) (x + one))) (fxLn2 p)
          let v := k * one + l
          (decide (v < 0), if v < 0 then -v else v, -(p : Int))) precisions

/-- sin(2πr) and cos(2πr) for r = x ÷ 2^p in [0, 1): the sign and magnitude. -/
def fxTurn (p : Nat) (cosine : Bool) (x : Int) : Bool × Int :=
  let one : Int := (2 ^ p : Nat)
  let y := if cosine then (x + one / 4) % one else x
  let q := y * 4 / one
  let f := y - q * (one / 4)
  -- within the quadrant, f runs over [0, 1/4) of a turn; above 1/8 the complement is used
  let g := one / 4 - f
  let tau := 2 * fxPi p
  let s := if f ≤ one / 8 then fxSin p (fxMul p f tau) else fxCos p (fxMul p g tau)
  let c := if f ≤ one / 8 then fxCos p (fxMul p f tau) else fxSin p (fxMul p g tau)
  (decide (2 ≤ q), if q % 2 = 0 then s else c)

/-- `fsin` and `fcos` (R151). The exact cases are multiples of a quarter turn. -/
def fTrig (t : Ty) (mode : Nat) (cosine : Bool) (a : Val) : Nat × Fl :=
  match a with
  | .nan s => ((nanBits t).1, nvIf s)
  | .inf _ => invalidBits t
  | .fin neg m e =>
    let one := roundFin t mode false
    if m = 0 then (if cosine then one false 1 0 else roundFin t mode false neg 0 0)
    else if 0 ≤ e then (if cosine then one false 1 0 else roundFin t mode false neg 0 0)
    else
      let d := 2 ^ (-e).toNat
      let r := m % d
      if 4 * r % d = 0 then
        let q := 4 * r / d
        if cosine then
          (match q with | 0 => one false 1 0 | 2 => one true 1 0 | _ => roundFin t mode false false 0 0)
        else
          (match q with | 1 => one neg 1 0 | 3 => one (!neg) 1 0 | _ => roundFin t mode false neg 0 0)
      else
        firstRound t mode (fun p =>
          let (n, v) := fxTurn (p + 200) cosine (fxOf (p + 200) r e)
          (if cosine then n else n != neg, v, -((p : Int) + 200))) precisions

/-- `ftanh` (R151): (1 − e^(−2x)) ÷ (1 + e^(−2x)), with the ends of its range taken apart. -/
def fTanh (t : Ty) (mode : Nat) (a : Val) : Nat × Fl :=
  match a with
  | .nan s => ((nanBits t).1, nvIf s)
  | .inf n => roundFin t mode false n 1 0
  | .fin neg m e =>
    let top : Int := (bitLen m : Int) - 1 + e
    if m = 0 then roundFin t mode false neg 0 0
    else if 5 ≤ top then roundFin t mode false neg (2 ^ 64 - 1) (-64) true
    else if top < -40 then roundFin t mode false neg (m * 2 ^ 64 - 1) (e - 64) true
    else
      firstRound t mode (fun p0 =>
        let p := p0 + 100
        let one : Int := (2 ^ p : Nat)
        -- e^(−2x) = (e^(−x ÷ 32))^64
        let y := fxExp p (-(fxOf p m (e - 5)))
        let y2 := fxMul p y y
        let y4 := fxMul p y2 y2
        let y8 := fxMul p y4 y4
        let y16 := fxMul p y8 y8
        let y32 := fxMul p y16 y16
        let y64 := fxMul p y32 y32
        (neg, fxDiv p (one - y64) (one + y64), -(p : Int))) precisions

end Sys2Proof.Machine
end

