-- ==== Sys2Proof/Machine/Float.lean ====
section
/-! DEFINITION. Group 2: float arithmetic, comparison, the correctly rounded functions and conversions (spec 05 R145 to
R156). -/

namespace Sys2Proof.Machine

/-- The type is a packed pair. -/
def Ty.isX2 : Ty → Bool
  | .f16x2 | .bf16x2 => true
  | _ => false

/-- The bits of a lane under a type, read from its low bits (R58, R145). -/
def Oper.bits (o : Oper) (t : Ty) (l : Nat) : Nat := (o.val l).toNat % 2 ^ Ty.bits t

/-- An operation on the elements of one lane: both elements of a packed pair, each on its own (R146). -/
def perElem (t : Ty) (op : List Nat → Nat × Fl) (xs : List Nat) : Nat × Fl :=
  if Ty.isX2 t then
    let r := op (xs.map (· % 2 ^ 16))
    let q := op (xs.map fun x => x / 2 ^ 16 % 2 ^ 16)
    (r.1 + q.1 * 2 ^ 16, r.2 ||| q.2)
  else op xs

/-- The counter of a lane operation on a float type, with its count per lane (R156). -/
def fltMeter (t : Ty) (n : Nat) : Nat × Nat := (if t == .f32 then 8 else 9, if Ty.isX2 t then 2 * n else n)

/-- A lane's entry of a table of results. -/
def laneRes (rs : List (Nat × (Nat × Fl))) (l : Nat) : Nat × Fl := (tget rs l).getD (0, 0)

/-- A float meaning over vector operands, in field order: poison, the results of the active lanes, flags and meter (R155,
R156). `os` gives the operands with their field bit of R314; `op` the lane's result and flags. -/
def fltLanes (c : Iss) (os : List (Nat × Oper)) (put : Iss → Shape → (Nat → DWord) → Iss) (gain : Nat × Nat)
    (op : Nat → Nat × Fl) : Act :=
  match c.poisoned (os.map fun p => (p.1, p.2.poi)) with
  | some t => .trap c.s t
  | none =>
    let rs := c.lanes.map fun l => (l, op l)
    let c := put c (tagU (os.map fun p => p.2.tag)) fun l => BitVec.ofNat 64 (laneRes rs l).1
    .ok ((c.raise (flagsOver c.lanes fun l => (laneRes rs l).2)).meter [gain])

/-- A one-operand meaning. -/
def flt1 (h : Ctl) (f : Flt1) (trans : Bool) (op : Nat → Nat → Nat × Fl) (s : State) : Out :=
  issue h { a := regsOf f.a 1, d := regsOf f.d 1, reads := chanOf f.a, push := pushOf f.d } (fun c =>
    let a := c.single [] f.a
    let m := Rm.num f.rm c.k.fpcsr
    fltLanes c [(1, a)] (fun c t v => c.put false f.d t v)
      (if trans then (12, c.lanes.length) else fltMeter f.ty c.lanes.length) fun l => op m (a.bits f.ty l)) s

/-- A two-operand meaning. -/
def flt2 (h : Ctl) (f : Flt2) (trans : Bool) (op : Nat → List Nat → Nat × Fl) (s : State) : Out :=
  issue h { a := regsOf f.a 1, b := regsOf f.b 1, d := regsOf f.d 1, reads := chanOf f.a ++ chanOf f.b,
            push := pushOf f.d } (fun c =>
    let a := c.single [] f.a
    let b := c.single [f.a] f.b
    let m := Rm.num f.rm c.k.fpcsr
    fltLanes c [(1, a), (2, b)] (fun c t v => c.put false f.d t v)
      (if trans then (12, c.lanes.length) else fltMeter f.ty c.lanes.length)
      fun l => perElem f.ty (op m) [a.bits f.ty l, b.bits f.ty l]) s

/-- The first of a list of operands' bits. -/
def arg (xs : List Nat) (i : Nat) : Nat := xs.getD i 0

/-- `fadd` (R147). -/
def execFadd (h : Ctl) (f : Flt2) (s : State) : Out :=
  flt2 h f false (fun m xs => fAdd f.ty m (valOf f.ty (arg xs 0)) (valOf f.ty (arg xs 1))) s

/-- `fsub` (R147). -/
def execFsub (h : Ctl) (f : Flt2) (s : State) : Out :=
  flt2 h f false (fun m xs => fAdd f.ty m (valOf f.ty (arg xs 0)) (valOf f.ty (arg xs 1)).negate) s

/-- `fmul` (R147). -/
def execFmul (h : Ctl) (f : Flt2) (s : State) : Out :=
  flt2 h f false (fun m xs => fMul f.ty m (valOf f.ty (arg xs 0)) (valOf f.ty (arg xs 1))) s

/-- `ffma` (R147). -/
def execFfma (h : Ctl) (f : Flt3) (s : State) : Out :=
  issue h { a := regsOf f.a 1, b := regsOf f.b 1, c := regsOf f.c 1, d := regsOf f.d 1,
            reads := chanOf f.a ++ chanOf f.b ++ chanOf f.c, push := pushOf f.d } (fun c =>
    let a := c.single [] f.a
    let b := c.single [f.a] f.b
    let e := c.single [f.a, f.b] f.c
    let m := Rm.num f.rm c.k.fpcsr
    fltLanes c [(1, a), (2, b), (3, e)] (fun c t v => c.put false f.d t v) (fltMeter f.ty c.lanes.length)
      fun l => perElem f.ty
        (fun xs => fFma f.ty m (valOf f.ty (arg xs 0)) (valOf f.ty (arg xs 1)) (valOf f.ty (arg xs 2)))
        [a.bits f.ty l, b.bits f.ty l, e.bits f.ty l]) s

/-- A `fmin` or `fmax` (R148). -/
def fltMinMax (h : Ctl) (f : FMinMax) (isMax : Bool) (s : State) : Out :=
  flt2 h { ty := f.ty, rm := .rne, d := f.d, a := f.a, b := f.b } false
    (fun _ xs => fMinMax f.ty isMax (arg xs 0) (arg xs 1)) s

/-- `fmin` (R148). -/
def execFmin (h : Ctl) (f : FMinMax) (s : State) : Out := fltMinMax h f false s

/-- `fmax` (R148). -/
def execFmax (h : Ctl) (f : FMinMax) (s : State) : Out := fltMinMax h f true s

/-- `fcmp` (R149). -/
def execFcmp (h : Ctl) (f : FCmp) (s : State) : Out :=
  issue h { a := regsOf f.a 1, b := regsOf f.b 1, reads := chanOf f.a ++ chanOf f.b } (fun c =>
    let a := c.single [] f.a
    let b := c.single [f.a] f.b
    fltLanes c [(1, a), (2, b)] (fun c _ v => c.putPred f.p fun l => v l != 0) (fltMeter f.ty c.lanes.length)
      fun l =>
        let r := fCmp f.cc (valOf f.ty (a.bits f.ty l)) (valOf f.ty (b.bits f.ty l))
        (if r.1 then 1 else 0, r.2)) s

/-- `fclass` (R150). -/
def execFclass (h : Ctl) (ty : Ty) (d a : Opnd) (s : State) : Out :=
  flt1 h { ty := ty, rm := .rne, d := d, a := a } false (fun _ x => (fClass ty x, 0)) s

/-- The value 1. -/
def valOne : Val := .fin false 1 0

/-- `frcp` (R151): 1 ÷ a. -/
def execFrcp (h : Ctl) (f : Flt1) (s : State) : Out :=
  flt1 h f true (fun m x => fDiv f.ty m valOne (valOf f.ty x)) s

/-- `frsq` (R151). -/
def execFrsq (h : Ctl) (f : Flt1) (s : State) : Out := flt1 h f true (fun m x => fRsq f.ty m (valOf f.ty x)) s

/-- `fsqrt` (R151). -/
def execFsqrt (h : Ctl) (f : Flt1) (s : State) : Out := flt1 h f true (fun m x => fSqrt f.ty m (valOf f.ty x)) s

/-- `fdiv` (R151). -/
def execFdiv (h : Ctl) (f : Flt2) (s : State) : Out :=
  flt2 h f true (fun m xs => fDiv f.ty m (valOf f.ty (arg xs 0)) (valOf f.ty (arg xs 1))) s

/-- `fex2` (R151). -/
def execFex2 (h : Ctl) (f : Flt1) (s : State) : Out := flt1 h f true (fun m x => fEx2 f.ty m (valOf f.ty x)) s

/-- `flg2` (R151). -/
def execFlg2 (h : Ctl) (f : Flt1) (s : State) : Out := flt1 h f true (fun m x => fLg2 f.ty m (valOf f.ty x)) s

/-- `fsin` (R151). -/
def execFsin (h : Ctl) (f : Flt1) (s : State) : Out :=
  flt1 h f true (fun m x => fTrig f.ty m false (valOf f.ty x)) s

/-- `fcos` (R151). -/
def execFcos (h : Ctl) (f : Flt1) (s : State) : Out :=
  flt1 h f true (fun m x => fTrig f.ty m true (valOf f.ty x)) s

/-- `ftanh` (R151). -/
def execFtanh (h : Ctl) (f : Flt1) (s : State) : Out := flt1 h f true (fun m x => fTanh f.ty m (valOf f.ty x)) s

/-- `fscl` (R147): B is read as i32. -/
def execFscl (h : Ctl) (f : Flt2) (s : State) : Out :=
  issue h { a := regsOf f.a 1, b := regsOf f.b 1, d := regsOf f.d 1, reads := chanOf f.a ++ chanOf f.b,
            push := pushOf f.d } (fun c =>
    let a := c.single [] f.a
    let b := c.single [f.a] f.b
    let m := Rm.num f.rm c.k.fpcsr
    fltLanes c [(1, a), (2, b)] (fun c t v => c.put false f.d t v) (fltMeter f.ty c.lanes.length)
      fun l => fScl f.ty m (valOf f.ty (a.bits f.ty l)) (intOf .i32 (b.bits .i32 l))) s

/-- `frint` (R147). -/
def execFrint (h : Ctl) (f : Flt1) (s : State) : Out := flt1 h f false (fun m x => fRint f.ty m (valOf f.ty x)) s

/-- A conversion: a source of `ws`, a result of `wd` register pairs, its counter and lane function (R152 to R156). -/
def convert (h : Ctl) (f : Cvt) (wd ws : Bool) (flt32 : Bool) (op : Nat → Nat → Nat × Fl) (s : State) : Out :=
  issue h { a := regsOf f.a (if ws then 2 else 1), d := regsOf f.d (if wd then 2 else 1), reads := chanOf f.a,
            push := pushOf f.d } (fun c =>
    let a := c.opnd ws [] f.a
    let m := Rm.num f.rm c.k.fpcsr
    fltLanes c [(1, a)] (fun c t v => c.put wd f.d t v) (if flt32 then 8 else 9, c.lanes.length)
      fun l => op m (a.bits f.sty l)) s

/-- `cvt` (R153, R66, R67, R70). -/
def execCvt (h : Ctl) (f : Cvt) (s : State) : Out :=
  convert h f false false (f.ty == .f32 || f.sty == .f32) (fun m x => fCvt f.ty m f.sat f.sty x) s

/-- `cvti` (R154, R68): narrow kinds are extended to 32 bits. -/
def execCvti (h : Ctl) (f : Cvt) (s : State) : Out :=
  convert h f f.ty.is64 false (f.sty == .f32)
    (fun m x => let r := fCvtI f.ty m (valOf f.sty x); ((r.1 % (2 ^ (if f.ty.is64 then 64 else 32) : Nat)).toNat, r.2)) s

/-- `cvtf` (R154, R69). -/
def execCvtf (h : Ctl) (f : Cvt) (s : State) : Out :=
  convert h f false f.sty.is64 (f.ty == .f32)
    (fun m x => roundVal f.ty m false (finOfInt (intOf f.sty x) 0)) s

end Sys2Proof.Machine
end

