-- ==== Sys2Proof/Machine/IntAlu.lean ====
section
/-! DEFINITION. Group 0: integer arithmetic, logic, shifts, bit fields, compare, select, carry and address
(spec 04 R117 to R130). -/

namespace Sys2Proof.Machine

/-- Deliver (R119), as bits in the low end of a 64-bit word. -/
def deliver (x : Int) (t : Ty) (sat : Bool) : DWord :=
  let y := if sat then min (max x (Ty.minV t)) (Ty.maxV t) else x
  BitVec.ofNat 64 (y % (2 ^ Ty.bits t : Nat)).toNat

/-- An operand's bits in a lane under a type. -/
def Oper.nat (o : Oper) (t : Ty) (l : Nat) : Nat := (o.val l).toNat % 2 ^ Ty.bits t

/-- An operand's value in a lane under a type (R117). -/
def Oper.int (o : Oper) (t : Ty) (l : Nat) : Int := intOf t (o.val l).toNat

/-- The type and SAT allow an affine result (R120). -/
def affTy (t : Ty) (sat : Bool) : Bool := !t.is64 && !sat

/-- A tag is uniform or affine. -/
def Shape.flat (a : Shape) : Bool := a == .uniform || a == .affine

/-- Rule A for sums: every source is uniform or affine (R124). -/
def tagSum (t : Ty) (sat : Bool) (ts : List Shape) : Shape :=
  if ts.all (· == .uniform) then .uniform
  else if affTy t sat && ts.all Shape.flat then .affine else .general

/-- Rule A for products: one source affine, the other uniform (R124). -/
def tagMul (t : Ty) (sat : Bool) (a b : Shape) : Shape :=
  if a == .uniform && b == .uniform then .uniform
  else if affTy t sat && ((a == .affine && b == .uniform) || (a == .uniform && b == .affine)) then .affine
  else .general

/-- Rule A for a left shift: affine source, uniform count (R126). -/
def tagShl (t : Ty) (a b : Shape) : Shape :=
  if a == .uniform && b == .uniform then .uniform
  else if affTy t false && a == .affine && b == .uniform then .affine else .general

/-- The registers of a two-operand form; `wb` and `wd` say whether B and D are wide. -/
def Alu2.uses (f : Alu2) (wb wd : Bool) : Uses :=
  { a := regsOf f.a (nRegs f.ty), b := regsOfImm f.b (if wb then 2 else 1), d := regsOf f.d (if wd then 2 else 1),
    reads := chanOf f.a ++ chanOfImm f.b, push := pushOf f.d }

/-- A two-operand meaning: the poison check, the result in each active lane, counter 13 (R119 to R122). -/
def alu2 (h : Ctl) (f : Alu2) (wb : Bool) (tag : Shape → Shape → Shape) (op : Oper → Oper → Nat → DWord) (s : State) :
    Out :=
  issue h (Alu2.uses f wb f.ty.is64) (fun c =>
    let a := c.opnd f.ty.is64 [] f.a
    let b := c.srcImm wb (Ty.signed f.ty) [f.a] f.b
    match c.poisoned [(1, a.poi), (2, b.poi)] with
    | some t => .trap c.s t
    | none => .ok ((c.put f.ty.is64 f.d (tag a.tag b.tag) (op a b)).meter [(13, c.lanes.length)])) s

/-- A two-operand meaning over integers (R124). -/
def aluInt (h : Ctl) (f : Alu2) (tag : Shape → Shape → Shape) (op : Int → Int → Int) (s : State) : Out :=
  alu2 h f f.ty.is64 tag (fun a b l => deliver (op (a.int f.ty l) (b.int f.ty l)) f.ty f.sat) s

/-- A two-operand meaning over bits (R126). -/
def aluNat (h : Ctl) (f : Alu2) (wb : Bool) (tag : Shape → Shape → Shape) (op : Nat → Nat → Nat → Nat) (s : State) :
    Out :=
  alu2 h f wb tag (fun a b l =>
    BitVec.ofNat 64 (op (Ty.bits f.ty) (a.nat f.ty l) (if wb then b.nat f.ty l else (b.val l).toNat % 2 ^ 32)
      % 2 ^ Ty.bits f.ty)) s

/-- A one-operand meaning; `wd` says whether the result is wide. -/
def alu1 (h : Ctl) (f : Alu1) (wd : Bool) (tag : Shape → Shape) (op : Oper → Nat → DWord) (s : State) : Out :=
  issue h { a := regsOf f.a (nRegs f.ty), d := regsOf f.d (if wd then 2 else 1), reads := chanOf f.a,
            push := pushOf f.d } (fun c =>
    let a := c.opnd f.ty.is64 [] f.a
    match c.poisoned [(1, a.poi)] with
    | some t => .trap c.s t
    | none => .ok ((c.put wd f.d (tag a.tag) (op a)).meter [(13, c.lanes.length)])) s

/-- A three-operand meaning; `wc` says whether C is wide. -/
def alu3 (h : Ctl) (f : Alu3) (wc : Bool) (tag : List Shape → Shape) (op : Oper → Oper → Oper → Nat → DWord)
    (s : State) : Out :=
  issue h { a := regsOf f.a (nRegs f.ty), b := regsOf f.b (nRegs f.ty), c := regsOf f.c (if wc then 2 else 1),
            d := regsOf f.d (nRegs f.ty), reads := chanOf f.a ++ chanOf f.b ++ chanOf f.c, push := pushOf f.d }
    (fun c =>
      let a := c.opnd f.ty.is64 [] f.a
      let b := c.opnd f.ty.is64 [f.a] f.b
      let e := c.opnd wc [f.a, f.b] f.c
      match c.poisoned [(1, a.poi), (2, b.poi), (3, e.poi)] with
      | some t => .trap c.s t
      | none => .ok ((c.put f.ty.is64 f.d (tag [a.tag, b.tag, e.tag]) (op a b e)).meter [(13, c.lanes.length)])) s

/-- `nop` (R124): no effect. It is no group 0 count, only an issue slot (R122). -/
def execNop (h : Ctl) (s : State) : Out := issue h {} (fun c => .ok c) s

/-- `iadd` (R124). -/
def execIadd (h : Ctl) (f : Alu2) (s : State) : Out := aluInt h f (fun a b => tagSum f.ty f.sat [a, b]) (· + ·) s

/-- `isub` (R124). -/
def execIsub (h : Ctl) (f : Alu2) (s : State) : Out := aluInt h f (fun a b => tagSum f.ty f.sat [a, b]) (· - ·) s

/-- `iadd3` (R124). -/
def execIadd3 (h : Ctl) (f : Alu3) (s : State) : Out :=
  alu3 h f f.ty.is64 (tagSum f.ty f.sat)
    (fun a b e l => deliver (a.int f.ty l + b.int f.ty l + e.int f.ty l) f.ty f.sat) s

/-- `imul` (R124). -/
def execImul (h : Ctl) (f : Alu2) (s : State) : Out := aluInt h f (tagMul f.ty f.sat) (· * ·) s

/-- `imulh` (R124): floor(a × b ÷ 2^w). -/
def execImulh (h : Ctl) (f : Alu2) (s : State) : Out :=
  aluInt h f Shape.joinU (fun a b => a * b / (2 ^ Ty.bits f.ty : Nat)) s

/-- `imad` (R124). -/
def execImad (h : Ctl) (f : Alu3) (s : State) : Out :=
  alu3 h f f.ty.is64 tagU (fun a b e l => deliver (a.int f.ty l * b.int f.ty l + e.int f.ty l) f.ty f.sat) s

/-- The quotient of R125. Saturation of Min ÷ −1 is Deliver's. -/
def divR125 (t : Ty) (sat : Bool) (a b : Int) : Int :=
  if b = 0 then
    (if Ty.signed t then (if sat then (if 0 ≤ a then Ty.maxV t else Ty.minV t) else -1) else Ty.maxV t)
  else Int.tdiv a b

/-- The remainder of R125. -/
def remR125 (a b : Int) : Int := if b = 0 then a else Int.tmod a b

/-- `idiv` (R124, R125). -/
def execIdiv (h : Ctl) (f : Alu2) (s : State) : Out := aluInt h f Shape.joinU (divR125 f.ty f.sat) s

/-- `irem` (R124, R125). -/
def execIrem (h : Ctl) (f : Alu2) (s : State) : Out := aluInt h f Shape.joinU remR125 s

/-- `imin` (R124). -/
def execImin (h : Ctl) (f : Alu2) (s : State) : Out := aluInt h f Shape.joinU min s

/-- `imax` (R124). -/
def execImax (h : Ctl) (f : Alu2) (s : State) : Out := aluInt h f Shape.joinU max s

/-- `iabs` (R124). -/
def execIabs (h : Ctl) (f : Alu1) (s : State) : Out :=
  alu1 h f f.ty.is64 (fun a => tagU [a]) (fun a l => deliver ((a.int f.ty l).natAbs : Int) f.ty f.sat) s

/-- `ineg` (R124): affine for an affine source. -/
def execIneg (h : Ctl) (f : Alu1) (s : State) : Out :=
  alu1 h f f.ty.is64 (fun a => tagSum f.ty f.sat [a]) (fun a l => deliver (-(a.int f.ty l)) f.ty f.sat) s

/-- `and` (R126). -/
def execAnd (h : Ctl) (f : Alu2) (s : State) : Out := aluNat h f f.ty.is64 Shape.joinU (fun _ a b => a &&& b) s

/-- `or` (R126). -/
def execOr (h : Ctl) (f : Alu2) (s : State) : Out := aluNat h f f.ty.is64 Shape.joinU (fun _ a b => a ||| b) s

/-- `xor` (R126). -/
def execXor (h : Ctl) (f : Alu2) (s : State) : Out := aluNat h f f.ty.is64 Shape.joinU (fun _ a b => a ^^^ b) s

/-- `not` (R126). -/
def execNot (h : Ctl) (f : Alu1) (s : State) : Out :=
  alu1 h f f.ty.is64 (fun a => tagU [a]) (fun a l => BitVec.ofNat 64 (2 ^ Ty.bits f.ty - 1 - a.nat f.ty l)) s

/-- a << s, 0 when s is at least w. -/
def shlNat (w a n : Nat) : Nat := if w ≤ n then 0 else a * 2 ^ n

/-- a >> s, 0 when s is at least w. -/
def shrNat (w a n : Nat) : Nat := if w ≤ n then 0 else a / 2 ^ n

/-- Arithmetic a >> s: copies of the top bit come in (R126). -/
def sarNat (w a n : Nat) : Nat :=
  let m := min n w
  let top := a / 2 ^ (w - 1) % 2
  a / 2 ^ m + (if top = 1 then 2 ^ w - 2 ^ (w - m) else 0)

/-- a rotated left by s mod w. -/
def rotNat (w a n : Nat) : Nat := a * 2 ^ (n % w) % 2 ^ w + a / 2 ^ (w - n % w)

/-- FieldLen (R126). -/
def fieldLen (pos len w : Nat) : Nat := if w ≤ pos || len = 0 then 0 else min len (w - pos)

/-- `bfx` of a under a descriptor (R126). -/
def bfxNat (signed : Bool) (w a d : Nat) : Nat :=
  let pos := d % 256
  let n := fieldLen pos (d / 256 % 256) w
  if n = 0 then 0
  else
    let f := a / 2 ^ pos % 2 ^ n
    if signed && f / 2 ^ (n - 1) % 2 = 1 then f + (2 ^ w - 2 ^ n) else f

/-- `bfi` of a into b under a descriptor (R126). -/
def bfiNat (w a b d : Nat) : Nat :=
  let pos := d % 256
  let n := fieldLen pos (d / 256 % 256) w
  if n = 0 then b else b / 2 ^ (pos + n) * 2 ^ (pos + n) + a % 2 ^ n * 2 ^ pos + b % 2 ^ pos

/-- `shl` (R126). -/
def execShl (h : Ctl) (f : Alu2) (s : State) : Out := aluNat h f false (tagShl f.ty) shlNat s

/-- `shr` (R126). -/
def execShr (h : Ctl) (f : Alu2) (s : State) : Out := aluNat h f false Shape.joinU shrNat s

/-- `sar` (R126). -/
def execSar (h : Ctl) (f : Alu2) (s : State) : Out := aluNat h f false Shape.joinU sarNat s

/-- `rot` (R126). -/
def execRot (h : Ctl) (f : Alu2) (s : State) : Out := aluNat h f false Shape.joinU rotNat s

/-- `bfx` (R126). -/
def execBfx (h : Ctl) (f : Alu2) (s : State) : Out := aluNat h f false Shape.joinU (bfxNat (Ty.signed f.ty)) s

/-- `bfi` (R126). -/
def execBfi (h : Ctl) (f : Alu3) (s : State) : Out :=
  alu3 h f false tagU
    (fun a b e l => BitVec.ofNat 64 (bfiNat (Ty.bits f.ty) (a.nat f.ty l) (b.nat f.ty l) (e.nat .n32 l))) s

/-- The number of 1 bits among the low n bits. -/
def popNat : Nat → Nat → Nat
  | 0, _ => 0
  | n + 1, x => x % 2 + popNat n (x / 2)

/-- Bit j of the result is bit w − 1 − j of x. -/
def revNat : Nat → Nat → Nat
  | 0, _ => 0
  | n + 1, x => x % 2 * 2 ^ n + revNat n (x / 2)

/-- The number of 0 bits below the lowest 1, at most n. -/
def ctzNat : Nat → Nat → Nat
  | 0, _ => 0
  | n + 1, x => if x % 2 = 1 then 0 else 1 + ctzNat n (x / 2)

/-- `popc` (R126). -/
def execPopc (h : Ctl) (f : Alu1) (s : State) : Out :=
  alu1 h f false (fun a => tagU [a]) (fun a l => BitVec.ofNat 64 (popNat (Ty.bits f.ty) (a.nat f.ty l))) s

/-- `clz` (R126). -/
def execClz (h : Ctl) (f : Alu1) (s : State) : Out :=
  alu1 h f false (fun a => tagU [a]) (fun a l => BitVec.ofNat 64 (Ty.bits f.ty - bitLen (a.nat f.ty l))) s

/-- `ctz` (R126). -/
def execCtz (h : Ctl) (f : Alu1) (s : State) : Out :=
  alu1 h f false (fun a => tagU [a]) (fun a l => BitVec.ofNat 64 (ctzNat (Ty.bits f.ty) (a.nat f.ty l))) s

/-- `brev` (R126). -/
def execBrev (h : Ctl) (f : Alu1) (s : State) : Out :=
  alu1 h f f.ty.is64 (fun a => tagU [a]) (fun a l => BitVec.ofNat 64 (revNat (Ty.bits f.ty) (a.nat f.ty l))) s

/-- An integer condition (R105). -/
def icond (cc : ICond) (a b : Int) : Bool :=
  match cc with
  | .eq => decide (a = b)
  | .ne => decide (a ≠ b)
  | .lt => decide (a < b)
  | .le => decide (a ≤ b)
  | .gt => decide (b < a)
  | .ge => decide (b ≤ a)

/-- `icmp` (R127). -/
def execIcmp (h : Ctl) (f : ICmp) (s : State) : Out :=
  issue h { a := regsOf f.a (nRegs f.ty), b := regsOf f.b (nRegs f.ty), reads := chanOf f.a ++ chanOf f.b } (fun c =>
    let a := c.opnd f.ty.is64 [] f.a
    let b := c.opnd f.ty.is64 [f.a] f.b
    match c.poisoned [(1, a.poi), (2, b.poi)] with
    | some t => .trap c.s t
    | none => .ok ((c.putPred f.p fun l => icond f.cc (a.int f.ty l) (b.int f.ty l)).meter [(13, c.lanes.length)])) s

/-- `sel` (R128): a lane reads only the operand that its predicate selects; `%clock` that no lane selects is not read, and
latches nothing (R30). -/
def execSel (h : Ctl) (f : Sel) (s : State) : Out :=
  issue h { a := (regsOf f.a (nRegs f.ty)).filter (· < 640), b := (regsOf f.b (nRegs f.ty)).filter (· < 640),
            d := regsOf f.d (nRegs f.ty), reads := chanOf f.a ++ chanOf f.b, push := pushOf f.d } (fun c =>
    let a := c.opnd f.ty.is64 [] f.a
    let p := c.pred f.p
    let b := c.opnd f.ty.is64 (if f.a == .reg 652 && c.act &&& p == 0 then [] else [f.a]) f.b
    match c.poisoned [(1, fun l => Mask.has p l && a.poi l), (2, fun l => !Mask.has p l && b.poi l)] with
    | some t => .trap c.s t
    | none =>
      let clocked := (f.a == .reg 652 && c.act &&& p != 0) || (f.b == .reg 652 && c.act &&& ~~~p != 0)
      let c := if clocked then c.latch else c
      .ok ((c.put f.ty.is64 f.d (Shape.joinU a.tag b.tag)
        fun l => if Mask.has p l then a.val l else b.val l).meter [(13, c.lanes.length)])) s

/-- The sum of R129 in a lane: unsigned operands, B inverted under SUB, and the carry. -/
def addcSum (f : AddC) (a b : Oper) (p : Mask) (l : Nat) : Nat :=
  let w := Ty.bits f.ty
  a.nat f.ty l + (if f.sub then 2 ^ w - 1 - b.nat f.ty l else b.nat f.ty l) + (if Mask.has p l then 1 else 0)

/-- `iaddc` (R129). -/
def execIaddc (h : Ctl) (f : AddC) (s : State) : Out :=
  issue h { a := regsOf f.a (nRegs f.ty), b := regsOf f.b (nRegs f.ty), d := regsOf f.d (nRegs f.ty),
            reads := chanOf f.a ++ chanOf f.b, push := pushOf f.d } (fun c =>
    let a := c.opnd f.ty.is64 [] f.a
    let b := c.opnd f.ty.is64 [f.a] f.b
    let p := c.pred f.p
    match c.poisoned [(1, a.poi), (2, b.poi)] with
    | some t => .trap c.s t
    | none =>
      let c := c.put f.ty.is64 f.d (Shape.joinU a.tag b.tag)
        fun l => BitVec.ofNat 64 (addcSum f a b p l % 2 ^ Ty.bits f.ty)
      .ok ((c.putPred f.p fun l => decide (2 ^ Ty.bits f.ty ≤ addcSum f a b p l)).meter [(13, c.lanes.length)])) s

/-- The shift of `lea` (R130). -/
def leaShift (x : BitVec 2) : Nat :=
  match x.toNat with
  | 0 => 0
  | 1 => 2
  | 2 => 3
  | _ => 7

/-- `lea` (R130). -/
def execLea (h : Ctl) (f : Lea) (s : State) : Out :=
  issue h { a := regsOf f.a 2, b := regsOfImm f.b 1, d := regsOf f.d 2, reads := chanOfImm f.b } (fun c =>
    let a := c.pair f.a
    let b := c.srcImm false (Ty.signed f.ty) [f.a] f.b
    match c.poisoned [(1, a.poi), (2, b.poi)] with
    | some t => .trap c.s t
    | none => .ok ((c.putPair f.d (Shape.joinU a.tag b.tag)
        fun l => a.val l + BitVec.ofInt 64 (b.int f.ty l) <<< leaShift f.sh).meter [(13, c.lanes.length)])) s

end Sys2Proof.Machine
end

