-- ==== Sys2Proof/Machine/BoltIsa.lean ====
section
/-! DEFINITION. Leave for heavy operations (spec 15 R399), and group 3 on register bolts (spec 05 R157 to R163, R168). -/

namespace Sys2Proof.Machine

/-! ## Leave (R399) -/

/-- The allowance grants an ask. -/
def CoreSt.grants (k : CoreSt) (ask : Nat) : Bool := decide ((min ask (4 * k.refill) : Nat) ≤ k.allow)

/-- The ask is deducted. -/
def CoreSt.deduct (k : CoreSt) (ask : Nat) : CoreSt := { k with allow := k.allow - ask }

/-- A heavy operation asks its core for leave: it goes on with the ask deducted, or waits behind the asks made before. -/
def Iss.leave (c : Iss) (ask : Nat) : Except State Iss :=
  let k := c.s.core c.k.core
  if c.k.leave == .granted then .ok c
  else if k.asks.isEmpty && k.grants ask then .ok { c with s := c.s.setCore c.k.core (k.deduct ask) }
  else .error (((c.s.modSkein c.id fun x => { x with leave := .asked }).setCore c.k.core
    { k with asks := k.asks ++ [(.skein c.id, ask)] }).postOnce (.leaveGrant c.k.core))

/-- An operation that begins once leave is granted. -/
def Iss.withLeave (c : Iss) (ask : Nat) (f : Iss → Act) : Act :=
  match c.leave ask with
  | .error s => .hold s
  | .ok c => f c

/-! ## Adding (R159, R160) -/

/-- `bzero` (R161). -/
def execBzero (h : Ctl) (d : Opnd) (s : State) : Out :=
  issue h { d := regsOf d 24 } (fun c => .ok (c.putBolt d .uniform fun _ => Bolt.zero)) s

/-- Addends added one after another, all poisoned alike. -/
def addAll (b : Bolt) (p : Bool) (xs : List Addend) : Bolt := xs.foldl (fun b x => boltAdd b x p) b

/-- The addends of `badd` in a lane (R159). -/
def baddAddends (t : Ty) (x : Nat) : List Addend := (laneVals t x).map addendOf

/-- The addends of `bmac` in a lane (R159). -/
def bmacAddends (t : Ty) (x y : Nat) : List Addend := List.zipWith productOf (laneVals t x) (laneVals t y)

/-- The number of elements that `badd` and `bmac` read in a lane. -/
def elemsOf (t : Ty) : Nat := if Ty.isX2 t then 2 else 1

/-- `badd` (R159). -/
def execBadd (h : Ctl) (f : BAdd) (s : State) : Out :=
  issue h { a := regsOf f.a 1, d := regsOf f.d 24 } (fun c =>
    let a := c.single [] f.a
    .ok ((c.putBolt f.d (tagU [c.boltTag f.d, a.tag]) fun l =>
      addAll (c.bolt f.d l) (a.poi l) (baddAddends f.ty (a.val l).toNat)).meter
        [(10, elemsOf f.ty * c.lanes.length)])) s

/-- `bmac` (R159): a heavy operation (R399). -/
def execBmac (h : Ctl) (f : BMac) (s : State) : Out :=
  issue h { a := regsOf f.a 1, b := regsOf f.b 1, d := regsOf f.d 24 } (fun c =>
    let a := c.single [] f.a
    let b := c.single [f.a] f.b
    let n := elemsOf f.ty * c.lanes.length
    c.withLeave n fun c =>
      .ok ((c.putBolt f.d (tagU [c.boltTag f.d, a.tag, b.tag]) fun l =>
        addAll (c.bolt f.d l) (a.poi l || b.poi l) (bmacAddends f.ty (a.val l).toNat (b.val l).toNat)).meter
          [(10, n), (macCounter f.ty, n)])) s

/-- The addends of `bdot` in a lane (R159, R160); `e` is the lane of C under MX. -/
def bdotAddends (t : Ty) (mx : Bool) (x y e : Nat) : List Addend :=
  let sa := if mx then some (e % 256) else none
  let sb := if mx then some (e / 256 % 256) else none
  (List.range (dotN t)).map fun j => productOf (packedElem t x j sa) (packedElem t y j sb)

/-- `bdot` (R159, R160): a heavy operation (R399). -/
def execBdot (h : Ctl) (f : BDot) (s : State) : Out :=
  issue h { a := regsOf f.a 1, b := regsOf f.b 1, c := if f.mx then regsOf f.c 1 else [], d := regsOf f.d 24 } (fun c =>
    let a := c.single [] f.a
    let b := c.single [f.a] f.b
    let e := c.single [f.a, f.b] f.c
    let n := dotN f.ty * c.lanes.length
    c.withLeave n fun c =>
      .ok ((c.putBolt f.d (tagU ([c.boltTag f.d, a.tag, b.tag] ++ if f.mx then [e.tag] else [])) fun l =>
        addAll (c.bolt f.d l) (a.poi l || b.poi l || (f.mx && e.poi l))
          (bdotAddends f.ty f.mx (a.val l).toNat (b.val l).toNat (e.val l).toNat)).meter
            [(10, n), (macCounter f.ty, n)])) s

/-- `baddi` (R159): a × 2^(e + 300). -/
def execBaddi (h : Ctl) (f : BAddI) (s : State) : Out :=
  issue h { a := regsOf f.a (nRegs f.ty), d := regsOf f.d 24 } (fun c =>
    let a := c.opnd f.ty.is64 [] f.a
    .ok ((c.putBolt f.d (tagU [c.boltTag f.d, a.tag]) fun l =>
      boltAdd (c.bolt f.d l) (.fin (a.int f.ty l * (2 ^ (f.e.toInt + 300).toNat : Nat))) (a.poi l)).meter
        [(10, c.lanes.length)])) s

/-! ## Combining (R161) -/

/-- `bmerge` (R161). -/
def execBmerge (h : Ctl) (d a b : Opnd) (s : State) : Out :=
  issue h { a := regsOf a 24, b := regsOf b 24, d := regsOf d 24 } (fun c =>
    .ok ((c.putBolt d (tagU [c.boltTag a, c.boltTag b]) fun l => boltMerge (c.bolt a l) (c.bolt b l)).meter
      [(10, c.lanes.length)])) s

/-- `bneg` (R161). -/
def execBneg (h : Ctl) (d a : Opnd) (s : State) : Out :=
  issue h { a := regsOf a 24, d := regsOf d 24 } (fun c =>
    .ok (c.putBolt d (c.boltTag a) fun l => boltNeg (c.bolt a l))) s

/-- `bnorm` (R161). -/
def execBnorm (h : Ctl) (d a : Opnd) (s : State) : Out :=
  issue h { a := regsOf a 24, d := regsOf d 24 } (fun c =>
    .ok (c.putBolt d (c.boltTag a) fun l => boltNorm (c.bolt a l))) s

/-- The bolts of the active lanes merged in ascending order and normalised (R161). -/
def foldBolts (bs : List Bolt) : Bolt := boltNorm (bs.foldl boltMerge Bolt.zero)

/-- `bfold` (R161). -/
def execBfold (h : Ctl) (d a : Opnd) (s : State) : Out :=
  issue h { a := regsOf a 24, d := regsOf d 24 } (fun c =>
    let m := foldBolts (c.lanes.map (c.bolt a))
    .ok ((c.putBolt d .uniform fun _ => m).meter [(10, c.lanes.length)])) s

/-! ## Rounding and inspecting (R162, R163) -/

/-- `brnd` (R162). -/
def execBrnd (h : Ctl) (f : BRnd) (s : State) : Out :=
  issue h { a := regsOf f.a 24, d := regsOf f.d 1 } (fun c =>
    let m := Rm.num f.rm c.k.fpcsr
    let rs := c.lanes.map fun l => (l, boltRound f.ty m f.sat (c.bolt f.a l))
    let c' := c.putSingle f.d (c.boltTag f.a) (fun l => BitVec.ofNat 32 (laneRes rs l).1) fun l => (c.bolt f.a l).poison
    .ok ((c'.raise (flagsOver c.lanes fun l => (laneRes rs l).2)).meter [fltMeter f.ty c.lanes.length])) s

/-- `bstat` of a bolt (R163). -/
def statWord (b : Bolt) : Word :=
  let v := boltValue b
  BitVec.ofNat 32 (boltS b + (if v = 0 then 16 else 0) + if v < 0 then 32 else 0)

/-- `bstat` (R163). -/
def execBstat (h : Ctl) (d a : Opnd) (s : State) : Out :=
  issue h { a := regsOf a 24, d := regsOf d 1 } (fun c =>
    .ok (c.putSingle d (c.boltTag a) fun l => statWord (c.bolt a l))) s

/-- The comparison of two classes (R163). -/
def boltCond (cc : ICond) (x y : Val) : Bool :=
  match x, y with
  | .nan _, _ => cc == .ne
  | _, .nan _ => cc == .ne
  | _, _ => icond cc (cmpVal x y) 0

/-- `bcmp` (R163). -/
def execBcmp (h : Ctl) (f : BCmp) (s : State) : Out :=
  issue h { a := regsOf f.a 24, b := regsOf f.b 24 } (fun c =>
    match c.poisoned [(1, fun l => (c.bolt f.a l).poison), (2, fun l => (c.bolt f.b l).poison)] with
    | some t => .trap c.s t
    | none => .ok (c.putPred f.p fun l => boltCond f.cc (boltClass (c.bolt f.a l)) (boltClass (c.bolt f.b l)))) s

/-- `bexp` of a bolt (R163). -/
def expWord (b : Bolt) : Word :=
  match boltClass b with
  | .fin _ _ _ =>
    let v := boltValue b
    if v = 0 then 0x80000000 else BitVec.ofInt 32 ((bitLen v.natAbs : Int) - 1 - 300)
  | _ => 0x7FFFFFFF

/-- `bexp` (R163). -/
def execBexp (h : Ctl) (d a : Opnd) (s : State) : Out :=
  issue h { a := regsOf a 24, d := regsOf d 1 } (fun c =>
    .ok (c.putSingle d (c.boltTag a) (fun l => expWord (c.bolt a l)) fun l => (c.bolt a l).poison)) s

/-- `bfix` of a bolt scaled by 2^k (R163). Past 2,000 in either direction k no longer changes the result. -/
def fixInt (t : Ty) (mode : Nat) (b : Bolt) (k : Int) : Int × Fl :=
  match boltClass b with
  | .nan _ => (0, flNV)
  | .inf n => (if n then Ty.minV t else Ty.maxV t, flNV)
  | .fin n m e =>
    let r := roundInt mode n m (e + max (-2000) (min 2000 k))
    if Ty.maxV t < r.1 then (Ty.maxV t, flNV)
    else if r.1 < Ty.minV t then (Ty.minV t, flNV)
    else (r.1, if r.2 then flNX else 0)

/-- `bfix` (R163). -/
def execBfix (h : Ctl) (f : BFix) (s : State) : Out :=
  issue h { a := regsOf f.a 24, b := regsOf f.b 1, d := regsOf f.d (nRegs f.ty) } (fun c =>
    let k := c.single [] f.b
    match c.poisoned [(2, k.poi)] with
    | some t => .trap c.s t
    | none =>
      let m := Rm.num f.rm c.k.fpcsr
      let rs := c.lanes.map fun l =>
        let r := fixInt f.ty m (c.bolt f.a l) (k.int .i32 l)
        (l, ((r.1 % (2 ^ 64 : Nat)).toNat, r.2))
      let c' := c.put f.ty.is64 f.d (tagU [c.boltTag f.a, k.tag]) (fun l => BitVec.ofNat 64 (laneRes rs l).1)
        fun l => (c.bolt f.a l).poison
      .ok ((c'.raise (flagsOver c.lanes fun l => (laneRes rs l).2)).meter [(13, c.lanes.length)])) s

end Sys2Proof.Machine
end

