-- ==== Sys2Proof/Machine/Halls.lean ====
section
/-! DEFINITION. The halls of a block (spec 01 R44 to R47): ranges, bytes, poisoned words, hall C partitions, and the traps
of a hall access (spec 12 R314). -/

namespace Sys2Proof.Machine

/-- The allocation in bytes of hall A or hall W (R44). -/
def Iss.hallLen (c : Iss) (w : Bool) : Nat := 4096 * if w then c.g.desc.granW else c.g.desc.granA

/-- HALL_RANGE at an offset or partition number (R314): hall 0 A, 1 W, 2 C. -/
def rangeTrap (hall off : Nat) (lane : Option Nat) : Trap :=
  { code := 0x12, addr := BitVec.ofNat 64 off, info := BitVec.ofNat 64 hall, lane := lane }

/-- ALIGN at a value (R314). -/
def alignTrap (addr : DWord) (size : Nat) (lane : Option Nat) : Trap :=
  { code := 0x08, addr := addr, info := BitVec.ofNat 64 size, lane := lane }

/-- The first of several checks that finds a trap. -/
def firstTrap (ts : List (Option Trap)) : Option Trap := ts.findSome? id

/-- The bytes [off, off + n) pass the end of the hall: the first byte out of range (R314). -/
def Iss.outside (c : Iss) (w : Bool) (off n : Nat) (lane : Option Nat) : Option Trap :=
  if c.hallLen w < off + n then some (rangeTrap (if w then 1 else 0) (max off (c.hallLen w)) lane) else none

/-- An operand that only the lowest active lane reads. -/
def Iss.lowOnly (c : Iss) (o : Oper) : Nat → Bool := fun l => l == c.low && o.poi l

/-! ## Hall C (R46, R177) -/

/-- The partition of the core behind a partition number of the block's view. -/
def Iss.part (c : Iss) (p : Nat) : Option (Nat × Part) :=
  match c.b.hallc[p]? with
  | none => none
  | some i => (tget (c.s.core c.k.core).hallc i).map fun x => (i, x)

/-- A bolt of a partition. -/
def Part.bolt (p : Part) (i : Nat) : Bolt := (tget p.bolts i).getD Bolt.zero

/-- The number on the core of a partition of the block's view. -/
def Iss.partNum (c : Iss) (p : Nat) : Nat := (c.b.hallc[p]?).getD p

/-- A partition number at or above the `.hallc` count (R314). -/
def Iss.noPart (c : Iss) (p : Nat) : Option Trap :=
  if c.b.hallc.length ≤ p then some (rangeTrap 2 p (some c.low)) else none

/-- A table of 6,144 bolts without its zeros. -/
def boltTable (f : Nat → Bolt) : Tbl Bolt :=
  (List.range 6144).filterMap fun i => let b := f i; if b == Bolt.zero then none else some (i, b)

/-- The bolts of a partition replaced. -/
def Iss.setPart (c : Iss) (p : Nat) (bs : Tbl Bolt) : Iss :=
  match c.part p with
  | none => c
  | some (i, x) =>
    { c with s := c.s.modCore c.k.core fun k => { k with hallc := tput k.hallc i { x with bolts := bs } } }

end Sys2Proof.Machine
end

