-- ==== Sys2Proof/Machine/Lanes.lean ====
section
/-! DEFINITION. Group 1: moves, predicates, lane operations, shapes, packing and channel state (spec 04 R131 to
R136). -/

namespace Sys2Proof.Machine

/-- `mov` (R131): values, poison bits and tags are copied; no poison trap (R121). -/
def execMov (h : Ctl) (wide : Bool) (d a : Opnd) (s : State) : Out :=
  issue h { a := regsOf a (if wide then 2 else 1), d := regsOf d (if wide then 2 else 1), reads := chanOf a,
            push := pushOf d } (fun c =>
    if wide then
      let i := opIdx a
      let k := c.k.setReg (opIdx d) c.act (c.regTag i) (c.laneWord i) (c.lanePoison i)
      .ok (c.withSkein (k.setReg (opIdx d + 1) c.act (c.regTag (i + 1)) (c.laneWord (i + 1)) (c.lanePoison (i + 1))))
    else
      let x := c.single [] a
      .ok (c.putSingle d x.tag (fun l => (x.val l).setWidth 32) x.poi)) s

/-- `movi` (R131). -/
def execMovi (h : Ctl) (d : Opnd) (imm : Word) (s : State) : Out :=
  issue h { d := regsOf d 1 } (fun c => .ok (c.putSingle d .uniform (fun _ => imm))) s

/-- The operations of `pand` on one lane (R131). -/
def pandBit (op : POp) (a b : Bool) : Bool :=
  match op with
  | .and => a && b
  | .or => a || b
  | .xor => a != b
  | .andn => a && !b
  | .orn => a || !b

/-- `pand` (R131). -/
def execPand (h : Ctl) (op : POp) (d a b : Opnd) (s : State) : Out :=
  issue h {} (fun c => .ok (c.putPred d fun l => pandBit op (Mask.has (c.pred a) l) (Mask.has (c.pred b) l))) s

/-- `pmov pD, vA` (R131). -/
def execPmovToPred (h : Ctl) (d a : Opnd) (s : State) : Out :=
  issue h { a := regsOf a 1 } (fun c =>
    let x := c.single [] a
    match c.poisoned [(1, x.poi)] with
    | some t => .trap c.s t
    | none => .ok (c.putPred d fun l => x.val l != 0)) s

/-- `pmov vD, pA` (R131). -/
def execPmovToReg (h : Ctl) (d a : Opnd) (s : State) : Out :=
  issue h { d := regsOf d 1 } (fun c =>
    .ok (c.putSingle d .general fun l => if Mask.has (c.pred a) l then 1 else 0)) s

/-- `vote.all`, `.any` and `.eq` over the active lanes (R132). -/
def voteBit (op : VoteOp) (act p : Mask) : Bool :=
  match op with
  | .all => act &&& ~~~p == 0
  | .any => act &&& p != 0
  | .eq => act &&& ~~~p == 0 || act &&& p == 0

/-- `vote` (R132). -/
def execVote (h : Ctl) (op : VoteOp) (d a : Opnd) (s : State) : Out :=
  issue h {} (fun c => .ok (c.putPred d fun _ => voteBit op c.act (c.pred a))) s

/-- `vote.ballot` (R132). -/
def execVoteBallot (h : Ctl) (d a : Opnd) (s : State) : Out :=
  issue h { d := regsOf d 2 } (fun c => .ok (c.putPair d .uniform fun _ => c.act &&& c.pred a)) s

/-- The lane index of `lbcast` and `lrot`: B in the lowest active lane, or the immediate (R131). -/
def laneIdx (c : Iss) (a : Opnd) (b : SrcImm) : Nat := ((c.srcImm false false [a] b).val c.low).toNat

/-- The poison of operand B in the lowest active lane, which every active lane reads. -/
def lowPoison (c : Iss) (b : SrcImm) : Bool := (c.srcImm false false [] b).poi c.low

/-- `lbcast` (R131). -/
def execLbcast (h : Ctl) (d a : Opnd) (b : SrcImm) (s : State) : Out :=
  issue h { a := regsOf a 1, b := regsOfImm b 1, d := regsOf d 1 } (fun c =>
    let x := c.single [] a
    let k := laneIdx c a b % c.k.width
    match c.poisoned [(1, fun _ => x.poi k), (2, fun _ => lowPoison c b)] with
    | some t => .trap c.s t
    | none => .ok (c.putSingle d .uniform fun _ => (x.val k).setWidth 32)) s

/-- Uniform for a uniform A, else general (R131). -/
def tagMoved (a : Shape) : Shape := if a == .uniform then .uniform else .general

/-- `lshuf` (R131). -/
def execLshuf (h : Ctl) (d a b : Opnd) (s : State) : Out :=
  issue h { a := regsOf a 1, b := regsOf b 1, d := regsOf d 1 } (fun c =>
    let x := c.single [] a
    let y := c.single [a] b
    let from_ := fun l => (y.val l).toNat % c.k.width
    match c.poisoned [(1, fun l => x.poi (from_ l)), (2, y.poi)] with
    | some t => .trap c.s t
    | none => .ok (c.putSingle d (tagMoved x.tag) fun l => (x.val (from_ l)).setWidth 32)) s

/-- `lrot` (R131). -/
def execLrot (h : Ctl) (d a : Opnd) (b : SrcImm) (s : State) : Out :=
  issue h { a := regsOf a 1, b := regsOfImm b 1, d := regsOf d 1 } (fun c =>
    let x := c.single [] a
    let from_ := fun l => (l + laneIdx c a b) % c.k.width
    match c.poisoned [(1, fun l => x.poi (from_ l)), (2, fun _ => lowPoison c b)] with
    | some t => .trap c.s t
    | none => .ok (c.putSingle d (tagMoved x.tag) fun l => (x.val (from_ l)).setWidth 32)) s

/-- One combination of R133. -/
def scanOp (op : ScanOp) (t : Ty) (a b : Word) : Word :=
  match op with
  | .add => a + b
  | .min => if intOf t a.toNat ≤ intOf t b.toNat then a else b
  | .max => if intOf t a.toNat ≤ intOf t b.toNat then b else a
  | .and => a &&& b
  | .or => a ||| b
  | .xor => a ^^^ b

/-- The combination of the values of lanes in order. -/
def scanAll (op : ScanOp) (t : Ty) (val : Nat → Word) : List Nat → Word
  | [] => 0
  | l :: ls => ls.foldl (fun a j => scanOp op t a (val j)) (val l)

/-- `lscan` (R133). -/
def execLscan (h : Ctl) (f : Scan) (s : State) : Out :=
  issue h { a := regsOf f.a 1, d := regsOf f.d 1 } (fun c =>
    let x := c.single [] f.a
    match c.poisoned [(1, fun l => c.lanes.any fun j => decide (j ≤ l) && x.poi j)] with
    | some t => .trap c.s t
    | none => .ok (c.putSingle f.d .general fun l =>
        scanAll f.op f.ty (fun j => (x.val j).setWidth 32) (c.lanes.filter (· ≤ l)))) s

/-- `lreduce` (R133). -/
def execLreduce (h : Ctl) (f : Scan) (s : State) : Out :=
  issue h { a := regsOf f.a 1, d := regsOf f.d 1 } (fun c =>
    let x := c.single [] f.a
    match c.poisoned [(1, fun _ => c.lanes.any x.poi)] with
    | some t => .trap c.s t
    | none => .ok (c.putSingle f.d .uniform fun _ => scanAll f.op f.ty (fun j => (x.val j).setWidth 32) c.lanes)) s

/-- The number of a tag (R131, R330). -/
def Shape.num : Shape → Nat
  | .uniform => 0
  | .affine => 1
  | .general => 2

/-- `shape` (R131): it reads no lane, and latches no clock (R30). -/
def execShape (h : Ctl) (d a : Opnd) (s : State) : Out :=
  issue h { a := (regsOf a 1).filter (· < 640), d := regsOf d 1 } (fun c =>
    .ok (c.putSingle d .uniform fun _ => BitVec.ofNat 32 (Shape.num (c.regTag (opIdx a))))) s

/-- `unif` (R131). -/
def execUnif (h : Ctl) (d a : Opnd) (s : State) : Out :=
  issue h { a := regsOf a 1, d := regsOf d 1 } (fun c =>
    let x := c.single [] a
    match c.poisoned [(1, fun _ => x.poi c.low)] with
    | some t => .trap c.s t
    | none => .ok (c.putSingle d .uniform fun _ => (x.val c.low).setWidth 32)) s

/-- `affine` (R131). -/
def execAffine (h : Ctl) (d a : Opnd) (b : SrcImm) (s : State) : Out :=
  issue h { a := regsOf a 1, b := regsOfImm b 1, d := regsOf d 1 } (fun c =>
    let x := c.single [] a
    let y := c.srcImm false true [a] b
    match c.poisoned [(1, fun _ => x.poi c.low), (2, fun _ => y.poi c.low)] with
    | some t => .trap c.s t
    | none => .ok (c.putSingle d .affine fun l =>
        (x.val c.low).setWidth 32 + BitVec.ofNat 32 l * (y.val c.low).setWidth 32)) s

/-- An element narrowed by `pack` (R134), as a number below 2^w. -/
def packElem (t : Ty) (sat : Bool) (x : Word) : Nat :=
  let v : Int := if Ty.signed t then x.toInt else (x.toNat : Int)
  let v := if sat then min (max v (Ty.minV t)) (Ty.maxV t) else v
  (v % (2 ^ Ty.bits t : Nat)).toNat

/-- The word that `pack` writes over an old one (R134). -/
def packWord (t : Ty) (sat hi : Bool) (old a b : Word) : Word :=
  let x := packElem t sat a
  let y := packElem t sat b
  if Ty.bits t = 16 then BitVec.ofNat 32 (x + y * 2 ^ 16)
  else if hi then BitVec.ofNat 32 (old.toNat % 2 ^ 16 + x * 2 ^ 16 + y * 2 ^ 24)
  else BitVec.ofNat 32 (x + y * 2 ^ 8 + old.toNat / 2 ^ 16 * 2 ^ 16)

/-- `pack` (R134). -/
def execPack (h : Ctl) (f : Pack) (s : State) : Out :=
  issue h { a := regsOf f.a 1, b := regsOf f.b 1, d := regsOf f.d 1 } (fun c =>
    let a := c.single [] f.a
    let b := c.single [f.a] f.b
    let o := c.single [] f.d
    let merges := Ty.bits f.ty == 8
    match c.poisoned [(0, fun l => merges && o.poi l), (1, a.poi), (2, b.poi)] with
    | some t => .trap c.s t
    | none => .ok (c.putSingle f.d (tagU (if merges then [a.tag, b.tag, o.tag] else [a.tag, b.tag]))
        fun l => packWord f.ty f.sat f.hi ((o.val l).setWidth 32) ((a.val l).setWidth 32) ((b.val l).setWidth 32))) s

/-- The element that `unpack` extracts (R134). -/
def unpackWord (t : Ty) (j : Nat) (a : Word) : Word :=
  let w := Ty.bits t
  BitVec.ofInt 32 (intOf t (a.toNat / 2 ^ (w * j) % 2 ^ w))

/-- `unpack` (R134). -/
def execUnpack (h : Ctl) (ty : Ty) (j : BitVec 2) (d a : Opnd) (s : State) : Out :=
  issue h { a := regsOf a 1, d := regsOf d 1 } (fun c =>
    let x := c.single [] a
    match c.poisoned [(1, x.poi)] with
    | some t => .trap c.s t
    | none => .ok (c.putSingle d (tagU [x.tag]) fun l => unpackWord ty j.toNat ((x.val l).setWidth 32))) s

/-- Byte i of `perm` (R135). -/
def permByte (a b c : Word) (i : Nat) : Nat :=
  let n := c.toNat / 2 ^ (4 * i) % 16
  if n < 8 then (a.toNat + b.toNat * 2 ^ 32) / 2 ^ (8 * n) % 256 else 0

/-- `perm` (R135). -/
def permWord (a b c : Word) : Word :=
  BitVec.ofNat 32 (permByte a b c 0 + permByte a b c 1 * 2 ^ 8 + permByte a b c 2 * 2 ^ 16 + permByte a b c 3 * 2 ^ 24)

/-- `perm` (R135). -/
def execPerm (h : Ctl) (d a b e : Opnd) (s : State) : Out :=
  issue h { a := regsOf a 1, b := regsOf b 1, c := regsOf e 1, d := regsOf d 1 } (fun c =>
    let x := c.single [] a
    let y := c.single [a] b
    let z := c.single [a, b] e
    match c.poisoned [(1, x.poi), (2, y.poi), (3, z.poi)] with
    | some t => .trap c.s t
    | none => .ok (c.putSingle d (tagU [x.tag, y.tag, z.tag]) fun l =>
        permWord ((x.val l).setWidth 32) ((y.val l).setWidth 32) ((z.val l).setWidth 32))) s

/-- `chstat` (R136). -/
def execChstat (h : Ctl) (d a : Opnd) (s : State) : Out :=
  issue h { d := regsOf d 1, look := pushOf a } (fun c =>
    let x := (c.chan (opIdx a)).getD { off := 0, depth := 0 }
    .ok (c.putSingle d .uniform fun _ => BitVec.ofNat 32 (x.count % 2 ^ 16 + x.depth * 2 ^ 16))) s

end Sys2Proof.Machine
end

