-- ==== Sys2Proof/Machine/Matrix.lean ====
section
/-! DEFINITION. Group 4 without its memory forms: operand maps, the tile product, partitions, rounding into hall A and
quantisation (spec 06 R169 to R177, R180 to R182, R184 to R189). -/

namespace Sys2Proof.Machine

/-! ## Operand maps (R171, R172) -/

/-- The alignment that BASE and STRIDE of a format need (R171). -/
def mapAlign : Ty → Nat
  | .f32 => 4
  | .f16 | .bf16 => 2
  | _ => 1

/-- The bytes of a K block of a row (R172). -/
def blockBytes : Ty → Nat
  | .f32 => 128
  | .f16 | .bf16 => 64
  | .i8 => 32
  | t => mxBlock t

/-- A value of operand A, B or C in the lowest active lane, as n32. -/
def Iss.lowNat (c : Iss) (o : Opnd) (before : List Opnd := []) : Nat := ((c.single before o).val c.low).toNat % 2 ^ 32

/-- A checked value that is not aligned (R314). -/
def misaligned (v a : Nat) (lane : Nat) : Option Trap :=
  if v % a != 0 then some (alignTrap (BitVec.ofNat 64 v) a (some lane)) else none

/-- `mmap` (R171). -/
def execMmap (h : Ctl) (f : MMap) (s : State) : Out :=
  issue h { a := regsOf f.a 1, b := regsOf f.b 1, c := if f.idx then regsOf f.c 1 else [] } (fun c =>
    let base := c.lowNat f.a
    let stride := c.lowNat f.b [f.a]
    let list := c.lowNat f.c [f.a, f.b]
    let al := mapAlign f.ty
    match firstTrap [
        c.poisoned [(1, c.lowOnly (c.single [] f.a)), (2, c.lowOnly (c.single [] f.b)),
                    (3, fun l => f.idx && c.lowOnly (c.single [] f.c) l)],
        misaligned base al c.low, misaligned stride al c.low, if f.idx then misaligned list 4 c.low else none] with
    | some t => .trap c.s t
    | none =>
      let m : MapSlot := { ty := f.ty, hallW := f.w, base := BitVec.ofNat 32 base, stride := BitVec.ofNat 32 stride,
                           list := if f.idx then some (BitVec.ofNat 32 list) else none }
      .done (c.withSkein { c.k with maps := tput c.k.maps (opIdx f.m) m }) true) s

/-- Element k of the row at a byte offset (R172): value and poison. -/
def mapElem (b : Block) (m : MapSlot) (row k : Nat) : Val × Bool :=
  let o := m.base.toNat + row * m.stride.toNat
  match m.ty with
  | .f32 => (valOf .f32 (b.hallNat m.hallW (o + 4 * k) 4), b.hallBad m.hallW (o + 4 * k) 4)
  | .f16 | .bf16 => (valOf m.ty (b.hallNat m.hallW (o + 2 * k) 2), b.hallBad m.hallW (o + 2 * k) 2)
  | .i8 => (valOf .i8 (b.hallNat m.hallW (o + k) 1), b.hallBad m.hallW (o + k) 1)
  | t =>
    let bs := mxBlock t
    let blk := o + k / 32 * bs
    let j := k % 32
    let w := Ty.bits t
    let first := blk + j * w / 8
    let n := (j * w % 8 + w + 7) / 8
    (mxRead t (Mem.read (b.hall m.hallW) blk bs) j,
      b.hallBad m.hallW first n || b.hallBad m.hallW (blk + bs - 1) 1)

/-! ## The tile product (R173 to R175) -/

/-- The pair of formats is listed (R173). -/
def pairOk (a b : Ty) : Bool := (a.isMx && b.isMx) || a == b

/-- The bits of the mantissa field that decide the counter of an MX pair (R173). -/
def mantBits : Ty → Nat
  | .e4m3 | .e2m3 => 3
  | .e5m2 | .e3m2 => 2
  | _ => 1

/-- The counter of a pair: the wider mantissa's, ties to A (R173). -/
def pairCounter (a b : Ty) : Nat := macCounter (if a.isMx && mantBits a < mantBits b then b else a)

/-- A row of a map that passes the end of its hall (R175). -/
def Iss.rowOutside (c : Iss) (m : MapSlot) (kb row : Nat) : Option Trap :=
  c.outside m.hallW (m.base.toNat + row * m.stride.toNat) (kb * blockBytes m.ty) (some c.low)

/-- The rows of map A that a product reads, one for each row of the tile: none for a row without addends. -/
def Iss.tileRows (c : Iss) (m : MapSlot) (gather : Bool) : List (Option Nat) :=
  (List.range 64).map fun i =>
    if gather then
      let r := c.b.hallNat false ((m.list.getD 0).toNat + 2 * i) 2
      if r = 0xFFFF then none else some r
    else some i

/-- The checks of R175 in order. -/
def Iss.tileTrap (c : Iss) (f : Mma) (gather : Bool) : Except Trap (MapSlot × MapSlot) :=
  match tget c.k.maps (opIdx f.a), tget c.k.maps (opIdx f.b) with
  | some a, some b =>
    if gather && a.list.isNone then .error (encTrap 0x22)
    else if !pairOk a.ty b.ty then .error (encTrap 0x21)
    else
      let list := (a.list.getD 0).toNat
      let kb := f.kb.toNat
      let checks : List (Option Trap) :=
        [c.noPart f.p.toNat, if gather then c.outside false list 128 (some c.low) else none,
         if gather && c.b.hallBad false list 128 then
           some { code := 0x13, info := 2, lane := some c.low } else none]
        ++ (c.tileRows a gather).map (fun r => r.bind (c.rowOutside a kb))
        ++ (List.range 96).map (c.rowOutside b kb)
      match firstTrap checks with
      | some t => .error t
      | none => .ok (a, b)
  | _, _ => .error (encTrap 0x20)

/-- The K elements of a row. -/
def rowElems (b : Block) (m : MapSlot) (kb row : Nat) : List (Val × Bool) :=
  (List.range (32 * kb)).map (mapElem b m row)

/-- The products of two rows added to a bolt (R174). -/
def dotInto (z : Bolt) : List (Val × Bool) → List (Val × Bool) → Bolt
  | (x, px) :: xs, (y, py) :: ys => dotInto (boltAdd z (productOf x y) (px || py)) xs ys
  | _, _ => z

/-- The tile product added to a partition's bolts (R174). -/
def tileAdd (b : Block) (ma mb : MapSlot) (kb : Nat) (rows : List (Option Nat)) (p : Part) : Tbl Bolt :=
  let as := rows.map fun r => r.map (rowElems b ma kb)
  let bs := (List.range 96).map (rowElems b mb kb)
  boltTable fun i =>
    match (as[i / 96]?).join, bs[i % 96]? with
    | some x, some y => dotInto (p.bolt i) x y
    | _, _ => p.bolt i

/-! ## The loom (R180 to R182) -/

/-- A group 4 instruction that has issued takes its place in loom order: what it does, it does when it lands (R180). -/
def Iss.toLoom (c : Iss) (act : LoomAct) : Act :=
  let id := c.s.nextId
  let o : LoomOp := { id := id, sk := c.id, blk := c.k.blk, ctx := c.k.ctx, mark := c.b.past.length, act := act }
  let c := c.at ({ c.s with nextId := id + 1 }.modCore c.k.core fun k => { k with loom := k.loom ++ [o] })
  match act with
  | .mul _ _ _ _ _ => .loomed (c.withBlock { c.b with reading := c.b.reading + 1 }) id
  | _ => .loomed c id

/-- A hall word set, with its poison. -/
def Block.putWord (b : Block) (v : PastWord) : Block :=
  let put := fun ps : List Nat => ps.filter (· != v.word) ++ if v.bad then [v.word] else []
  if v.hallW then
    { b with hallW := Mem.write b.hallW (4 * v.word) (leBytes 4 v.val.toNat), poisonW := put b.poisonW }
  else { b with hallA := Mem.write b.hallA (4 * v.word) (leBytes 4 v.val.toNat), poisonA := put b.poisonA }

/-- The halls as a product reads them that issued when `mark` replaced words were listed (R182): each word as it stood at
some moment since, which one the machine leaves open. -/
def Block.asSeen (b : Block) (mark free : Nat) : Block :=
  let past := b.past.drop mark
  ((past.map fun p => (p.hallW, p.word)).eraseDups).foldl (fun x q =>
    let vs := (past.filter fun p => p.hallW == q.1 && p.word == q.2) ++ [b.wordNow q.1 q.2]
    match vs[Config.seenOf free (if q.1 then 1 else 0) q.2 vs.length % vs.length]? with
    | some v => x.putWord v
    | none => x) b

/-- A product of the block has landed; with the last one the replaced words are dropped. -/
def Block.endReading (b : Block) : Block :=
  { b with reading := b.reading - 1, past := if b.reading ≤ 1 then [] else b.past }

/-- A tile product: checks, leave, and its place in loom order (R174 to R176, R180, R189). -/
def tile (h : Ctl) (f : Mma) (gather : Bool) (s : State) : Out :=
  issue h { hall := true } (fun c =>
    match c.tileTrap f gather with
    | .error t => .trap c.s t
    | .ok (a, b) =>
      let n := 196608 * f.kb.toNat
      c.withLeave n fun c =>
        (c.meter [(pairCounter a.ty b.ty, n)]).toLoom
          (.mul a b f.kb.toNat (c.tileRows a gather) (c.partNum f.p.toNat))) s

/-- `mma` (R174). -/
def execMma (h : Ctl) (f : Mma) (s : State) : Out := tile h f false s

/-- `mmag` (R174): map A's rows by its index list. -/
def execMmag (h : Ctl) (f : Mma) (s : State) : Out := tile h f true s

/-! ## Partitions (R177) -/

/-- `mzero` (R177). -/
def execMzero (h : Ctl) (p : BitVec 2) (s : State) : Out :=
  issue h {} (fun c =>
    match c.noPart p.toNat with
    | some t => .trap c.s t
    | none => c.toLoom (.zero (c.partNum p.toNat))) s

/-- `mmerge` (R177). -/
def execMmerge (h : Ctl) (p q : BitVec 2) (s : State) : Out :=
  issue h {} (fun c =>
    match firstTrap [c.noPart p.toNat, c.noPart q.toNat] with
    | some t => .trap c.s t
    | none => (c.meter [(10, 6144)]).toLoom (.merge (c.partNum p.toNat) (c.partNum q.toNat))) s

/-- The bytes of a rounded element (R177). -/
def rndSize : Ty → Nat
  | .f32 => 4
  | .f16 | .bf16 => 2
  | _ => 1

/-- The hall A offset of element i of a rounded tile (R177). -/
def rndOff (a st size i : Nat) : Nat := a + i / 96 * st + i % 96 * size

/-- The elements of a partition rounded into hall A in row-major order, with the flags raised (R177). -/
def rndTile (x : Part) (t : Ty) (mode : Nat) (sat : Bool) (a st : Nat) : List Nat → Block × Fl → Block × Fl
  | [], r => r
  | i :: is, (b, fl) =>
    let size := rndSize t
    let off := rndOff a st size i
    let v := boltRound t mode sat (x.bolt i)
    let b := b.hallWrite false off (leBytes size v.1)
    rndTile x t mode sat a st is (if (x.bolt i).poison then b.hallSpoil false off size else b, fl ||| v.2)

/-- The words of hall A that a rounded tile writes. -/
def rndWords (t : Ty) (a st : Nat) : List Nat :=
  ((List.range 64).flatMap fun i => wordsAt (a + i * st) (96 * rndSize t)).eraseDups

/-- The words that a rounded tile writes and that `w` selects, written whole (R181). -/
def Block.roundInto (b : Block) (x : Part) (t : Ty) (mode : Nat) (sat : Bool) (a st : Nat) (w : Nat → Bool) : Block :=
  let r := (rndTile x t mode sat a st (List.range 6144) ({ b with reading := 0 }, 0)).1
  ((rndWords t a st).filter w).foldl (fun b i => (b.keepWords false (4 * i) 4).putWord (r.wordNow false i)) b

/-- The IEEE flags of a rounded tile. -/
def rndFlags (x : Part) (t : Ty) (mode : Nat) (sat : Bool) : Fl :=
  (List.range 6144).foldl (fun fl i => fl ||| (boltRound t mode sat (x.bolt i)).2) 0

/-- `mrnd` (R177). -/
def execMrnd (h : Ctl) (f : MRnd) (s : State) : Out :=
  issue h { a := regsOf f.a 1, b := regsOf f.b 1, hall := true } (fun c =>
    let a := c.lowNat f.a
    let st := c.lowNat f.b [f.a]
    let size := rndSize f.ty
    match firstTrap ([
        c.poisoned [(1, c.lowOnly (c.single [] f.a)), (2, c.lowOnly (c.single [] f.b))],
        c.noPart f.p.toNat, misaligned a size c.low, misaligned st size c.low]
        ++ (List.range 64).map fun i => c.outside false (a + i * st) (96 * size) (some c.low)) with
    | some t => .trap c.s t
    | none =>
      (c.meter [(if f.ty == .f32 then 8 else 9, 6144)]).toLoom
        (.round f.ty (Rm.num f.rm c.k.fpcsr) f.sat a st (c.partNum f.p.toNat) none)) s

/-! ## Landing (R180, R181, R189) -/

/-- The bolts of a partition of a core replaced. -/
def State.setBolts (s : State) (core p : Nat) (bs : Tbl Bolt) : State :=
  s.modCore core fun k => { k with hallc := tmod k.hallc p fun x => { x with bolts := bs } }

/-- The partition of a core behind a number. -/
def State.partAt (s : State) (core p : Nat) (c : Nat) : Part := (tget (s.core core).hallc p).getD { ctx := c }

/-- The first part of a rounding's words is written before it lands: which ones, the machine leaves open (R181). -/
def State.loomBegin (s : State) (core : Nat) (o : LoomOp) : State :=
  match o.act with
  | .round t mode sat a st p none =>
    let s := s.modCore core fun k => { k with loom := k.loom.map fun x =>
      if x.id == o.id then { x with act := .round t mode sat a st p (some s.free) } else x }
    (s.modBlock o.blk fun b =>
      b.roundInto (s.partAt core p o.ctx) t mode sat a st (Config.early s.free)).stir o.blk
  | _ => s

/-- The head of the loom's order is applied whole (R174, R177, R180). -/
def State.loomApply (s : State) (core : Nat) (o : LoomOp) : State :=
  match o.act with
  | .mul a b kb rows p =>
    match tget s.blocks o.blk with
    | none => s
    | some x =>
      (s.setBolts core p (tileAdd (x.asSeen o.mark s.free) a b kb rows (s.partAt core p o.ctx))).setBlock o.blk
        x.endReading
  | .zero p => s.setBolts core p []
  | .merge p q =>
    s.setBolts core p (boltTable fun i =>
      boltMerge ((s.partAt core p o.ctx).bolt i) ((s.partAt core q o.ctx).bolt i))
  | .round t mode sat a st p begun =>
    let x := s.partAt core p o.ctx
    let w := fun i => match begun with
      | some n => !(Config.early n i)
      | none => true
    let s := (s.modBlock o.blk fun b => b.roundInto x t mode sat a st w).stir o.blk
    s.modSkein o.sk fun k => { k with fpcsr := fpcsrOr k.fpcsr (rndFlags x t mode sat) }
  | .lines => s

/-- A group 4 instruction lands: it leaves the loom's order, and a block that waited for it to end does so (R189, R244). -/
def State.loomLand (s : State) (core : Nat) (o : LoomOp) : State :=
  let s := s.loomApply core o
  (s.modCore core fun k => { k with loom := k.loom.filter fun x => x.id != o.id }).endDying o.blk

/-- The core in whose loom order a group 4 instruction stands first, with that instruction. -/
def State.loomHead (s : State) (op : Nat) : Option (Nat × LoomOp) :=
  s.cores.findSome? fun p => match p.2.loom with
    | o :: _ => if o.id == op then some (p.1, o) else none
    | [] => none

/-- The group 4 instruction stands in the loom order of some core. -/
def State.inLoom (s : State) (op : Nat) : Bool := s.cores.any fun p => p.2.loom.any fun o => o.id == op

/-! ## Quantisation (R185 to R188) -/

/-- ILLEGAL_ENC for a skein of width 8 or 16 (R170, R185). -/
def narrowTrap (c : Iss) : Option Trap := if c.k.width < 32 then some (encTrap 0x23) else none

/-- The groups of 32 lanes that have an active lane. -/
def Iss.groups (c : Iss) : List Nat :=
  (List.range (c.k.width / 32)).filter fun g => c.lanes.any fun l => l / 32 == g

/-- The values of a group as f32, +0 in inactive lanes (R185). -/
def Iss.groupVals (c : Iss) (o : Oper) (g : Nat) : List Val :=
  (List.range 32).map fun j =>
    let l := 32 * g + j
    if Mask.has c.act l then valOf .f32 ((o.val l).toNat % 2 ^ 32) else .fin false 0 0

/-- The scale byte of a group (R186). -/
def scaleByte (t : Ty) (vs : List Val) : Nat :=
  match mxScale t vs with
  | none => 255
  | some x => (x + 127).toNat

/-- `qscale` (R186). -/
def execQscale (h : Ctl) (ty : Ty) (d a : Opnd) (s : State) : Out :=
  issue h { a := regsOf a 1, d := regsOf d 1 } (fun c =>
    let x := c.single [] a
    match firstTrap [narrowTrap c, c.poisoned [(1, x.poi)]] with
    | some t => .trap c.s t
    | none =>
      let ss := c.groups.map fun g => (g, scaleByte ty (c.groupVals x g))
      let tag := if c.k.width = 32 then Shape.uniform else .general
      .ok ((c.putSingle d tag fun l => BitVec.ofNat 32 ((tget ss (l / 32)).getD 0)).meter [(8, c.lanes.length)])) s

/-- The hall A offset of the block of a group (R185). -/
def blockOff (a : Nat) (t : Ty) (g : Nat) : Nat := a + g * mxBlock t

/-- The blocks of the groups lie within hall A (R185). -/
def Iss.blocksOutside (c : Iss) (a : Nat) (t : Ty) : Option Trap :=
  firstTrap (c.groups.map fun g => c.outside false (blockOff a t g) (mxBlock t)
    (c.lanes.find? fun l => l / 32 == g))

/-- The blocks of the groups written to hall A, with the flags raised (R187). -/
def qmxGroups (c : Iss) (t : Ty) (sat expl : Bool) (a : Nat) (v e : Oper) : List Nat → Block × Fl → Block × Fl
  | [], r => r
  | g :: gs, (b, fl) =>
    let low := (c.lanes.find? fun l => l / 32 == g).getD 0
    let q := mxQuantise t sat (if expl then some ((e.val low).toNat % 256) else none) (c.groupVals v g)
    qmxGroups c t sat expl a v e gs (b.hallWrite false (blockOff a t g) (mxBytes t q.1 q.2.1), fl ||| q.2.2)

/-- `qmx` (R187). -/
def execQmx (h : Ctl) (f : Qmx) (s : State) : Out :=
  issue h { a := regsOf f.a 1, b := regsOf f.b 1, c := if f.expl then regsOf f.c 1 else [], hall := true } (fun c =>
    let v := c.single [f.a] f.b
    let e := c.single [f.a, f.b] f.c
    let a := c.lowNat f.a
    let lowOf := fun l => c.lanes.find? (fun i => i / 32 == l / 32) == some l
    match firstTrap [
        narrowTrap c,
        c.poisoned [(1, c.lowOnly (c.single [] f.a)), (2, v.poi), (3, fun l => f.expl && lowOf l && e.poi l)],
        c.blocksOutside a f.ty] with
    | some t => .trap c.s t
    | none =>
      let r := qmxGroups c f.ty f.sat f.expl a v e c.groups (c.b, 0)
      .done (((c.withBlock r.1).raise r.2).stir.meter [(8, c.lanes.length)]) true) s

/-- `dqmx` (R188). -/
def execDqmx (h : Ctl) (ty : Ty) (d a : Opnd) (s : State) : Out :=
  issue h { a := regsOf a 1, d := regsOf d 1, hall := true } (fun c =>
    let off := c.lowNat a
    match firstTrap [narrowTrap c, c.poisoned [(1, c.lowOnly (c.single [] a))], c.blocksOutside off ty] with
    | some t => .trap c.s t
    | none =>
      let m : MapSlot := { ty := ty, hallW := false, base := 0, stride := 0, list := none }
      let rs := c.lanes.map fun l =>
        let e := mapElem c.b { m with base := BitVec.ofNat 32 (blockOff off ty (l / 32)) } 0 (l % 32)
        (l, (roundVal .f32 0 false e.1, e.2))
      let val := fun l => ((tget rs l).getD ((0, 0), false))
      let c' := c.putSingle d .general (fun l => BitVec.ofNat 32 (val l).1.1) fun l => (val l).2
      .ok ((c'.raise (flagsOver c.lanes fun l => (val l).1.2)).meter [(8, c.lanes.length)])) s

end Sys2Proof.Machine
end

