-- ==== Sys2Proof/Machine/Fetch.lean ====
section
/-! DEFINITION. Which skein issues (spec 01 R50, 11 R302), the word at its PC (spec 03 R86, R87), time passing in a step
(log 2), and the skein that a placed word runs in (log 3). -/

namespace Sys2Proof.Machine

/-! ## Time (log 2) -/

/-- The number of cores that hold something of a context. -/
def State.coresOf (s : State) (c : Nat) : Nat :=
  ((s.blocks.filterMap (fun b => if b.2.ctx == c then some b.2.core else none)
    ++ s.cores.filterMap fun p => if p.2.hallc.any (fun q => q.2.ctx == c) then some p.1 else none).dedup).length

/-- The clocks that pass before a step in which a core acts, or none does: an amount that nothing constrains, but at least one
when the core has acted at this clock. A core therefore acts once at a clock, so that no two accesses to its halls share one
(log 2). -/
def State.clocks (s : State) (core : Option Nat) : Nat :=
  let n := Config.clocksOf s.free
  if core.any fun c => (s.core c).actedAt == some s.clk then max 1 n else n

/-- The core acts at this clock. -/
def State.acting (s : State) (core : Option Nat) : State :=
  match core with
  | some c => s.modCore c fun k => { k with actedAt := some s.clk }
  | none => s

/-- The number of unplaced blocks of a share. -/
def Share.left (x : Share) : Nat := (x.hi - x.lo) + x.extra.length

/-- The context has work that is neither running nor complete. -/
def State.hasWaiting (s : State) (c : Nat) : Bool :=
  s.grids.any (fun g => g.2.ctx == c && g.2.shares.any fun x => Share.left x.2 != 0)
    || s.saved.any fun b => b.2.block.ctx == c

/-- No skein of the context is on a core. -/
def State.idleCtx (s : State) (c : Nat) : Bool := !(s.skeins.any fun k => k.2.ctx == c)

/-- A context qualifies for the guard: it has had no skein on a core for 4 ms (R52). -/
def State.starved (s : State) (c : Nat) : Bool :=
  let x := s.ctx c
  (x.state == .resident || x.state == .saved) && x.guardCore.isNone && s.hasWaiting c && s.idleCtx c
    && decide (x.lastRes + 4000000 ≤ s.gt)

/-- The global time at which a context qualified for the guard is kept while it does (R307). -/
def State.markStarved (s : State) : State :=
  { s with ctxs := s.ctxs.map fun p : Nat × Context =>
      (p.1, { p.2 with starvedAt := if s.starved p.1 then some (p.2.starvedAt.getD s.gt) else none }) }

/-- Clocks and global time pass; each core that holds something of a context adds the clocks to counter 23 (R402). The clock
count is that of R30, taken to start with the package reset: no step of R414 releases the dies (DESIGN CHOICE, log 2). -/
def State.tick (s : State) (core : Option Nat) : State :=
  let n := s.clocks core
  ({ s with
    clk := s.clk + n, gt := s.gt + Config.nsOf s.free, free := s.free + 1,
    ctxs := s.ctxs.map fun p : Nat × Context =>
      let m := s.coresOf p.1
      if m = 0 then p else (p.1, { p.2 with meter := tput p.2.meter 23 ((tget p.2.meter 23).getD 0 + m * n) })
    : State }.acting core).markStarved

/-! ## The word at a PC -/

/-- A reserved bit of the line's header is 1 (R87). -/
def headerBad (line : List Byte) : Bool := decide (2 ^ 21 ≤ fieldAt line 0 8)

/-- What stands at a skein's PC. -/
inductive Fetched where
  /-- The line has not been fetched. -/
  | missing
  /-- ILLEGAL_ENC of the line's header (R87). -/
  | header
  /-- The word was fetched poisoned twice (R326). -/
  | poisoned
  | illegalOp (op : BitVec 8)
  | illegalEnc
  | instr (i : Instr)

/-- The word at the skein's PC, in the order of causes of R107. -/
def Skein.fetched (k : Skein) : Fetched :=
  match k.line with
  | none => .missing
  | some line =>
    if headerBad line then .header
    else if k.badWords.contains (k.pc.toNat / 128, k.pc.toNat % 128) then .poisoned
    else
      let w := slotWord line (k.pc.toNat % 128)
      match decode w with
      | .ok i => .instr i
      | .error .illegalOp => .illegalOp (fieldsOf w).op
      | .error .illegalEnc => .illegalEnc

/-- The line at a skein's PC is to be fetched again, from its home. -/
def State.refetch (s : State) (sk : Nat) (k : Skein) : State :=
  let s := s.modSkein sk fun x => { x with lines := tdel x.lines (k.pc.toNat / 128) }
  match s.translate k.ctx k.core (BitVec.ofNat 64 (pcLine k.pc)) .fetch with
  | .ok p => s.modCore k.core fun c => { c with icache := c.icache.filter fun y => y.la != p.pa / 128 }
  | .error _ => s

/-- ILLEGAL_ENC of a header: the line is to be fetched again before it executes (R87). -/
def State.headerTrap (s : State) (sk : Nat) (k : Skein) : State :=
  (s.refetch sk k).takeTrap sk { code := 0x02, addr := BitVec.ofNat 64 (pcLine k.pc) } k.pc

/-- POISON of a fetched word: its line is to be fetched again (R326). -/
def State.poisonTrap (s : State) (sk : Nat) (k : Skein) : State := (s.refetch sk k).takeTrap sk { code := 0x13 } k.pc

/-! ## Which skein issues (R50, R302) -/

/-- Nothing but its next word keeps the skein from issuing: it is not parked, at a meeting, stalled, halted or waiting
for leave. -/
def State.free? (s : State) (k : Skein) : Bool :=
  k.park == .no && k.meeting == .no && k.stall == 0 && k.leave != .asked && !k.halted && !(s.ctx k.ctx).dbg.halt

/-- A boundary cause is due at the skein's next boundary (R317). -/
def Skein.due (k : Skein) : Bool := !k.hnd && (k.sfInd || !k.held.isEmpty)

/-- The skein is ready (R50), or has a boundary cause to take. -/
def State.ready (s : State) (k : Skein) : Bool := s.free? k && (k.due || k.wordReady)

/-- The priority of a skein (R302): its grid's, or 63 in a guard quantum. -/
def State.prioOf (s : State) (k : Skein) : Nat :=
  if k.guard then 63 else ((tget s.grids k.grid).getD {}).prio

/-- Skein a issues before skein b (R302): promotion, then priority, then age, then slot. -/
def State.before (s : State) (a b : Skein) : Bool :=
  match a.promoted, b.promoted with
  | some t, some u => decide (t < u) || (t == u && decide (a.slot < b.slot))
  | some _, none => true
  | none, some _ => false
  | none, none =>
    if s.prioOf a != s.prioOf b then decide (s.prioOf b < s.prioOf a)
    else if a.age != b.age then decide (a.age < b.age) else decide (a.slot < b.slot)

/-- The skein was its quadrant's last choice and asked it to prefer another (R101); a promoted skein is not passed over
(R51). -/
def State.yields (s : State) (sk : Nat) (k : Skein) : Bool :=
  k.yielded && k.promoted.isNone && tget (s.core k.core).lastIssue k.quad == some sk

/-- Skein i comes before skein j in the choice of their quadrant (R101, R302). -/
def State.ahead (s : State) (i : Nat) (a : Skein) (j : Nat) (b : Skein) : Bool :=
  if s.yields j b then i != j else !s.yields i a && s.before a b

/-- The skein is ready and no ready skein of its quadrant comes before it. -/
def State.wins (s : State) (sk : Nat) (k : Skein) : Bool :=
  s.ready k && !(s.skeins.any fun p => p.2.core == k.core && p.2.quad == k.quad && s.ready p.2 && s.ahead p.1 p.2 sk k)

/-- The quadrant of a skein has chosen it. -/
def State.chose (s : State) (sk : Nat) (k : Skein) : State :=
  s.modCore k.core fun c => { c with lastIssue := tput c.lastIssue k.quad sk }

/-- The skein that issues where nothing else is chosen: of the quadrants' choices, the one that has waited longest. -/
def State.pick (s : State) : Option Nat :=
  (s.skeins.foldl (fun best p =>
    if !s.wins p.1 p.2 then best
    else match best with
      | none => some (p.1, p.2.readyAt)
      | some (_, t) => if p.2.readyAt < t then some (p.1, p.2.readyAt) else best) none).map Prod.fst

/-! ## Steps that stand in the list of steps under way -/

/-- A word issued by a skein: no event of its own. -/
def Instr.issued (i : Instr) : Bool := (encode i).isSome

/-- The step under way that stands at a place of the list, or the first of its flow (R343, R354). -/
def State.underWay (s : State) (n : Nat) : Option Instr := (s.pending[n]?).map s.headOf

/-- The core whose halls or skeins a step acts on: a shuttle's row, or a group 4 instruction that lands. -/
def State.actorOf (s : State) : Instr → Option Nat
  | .copyRow p n => (s.record p n).map (·.core)
  | .resultLand _ ⟨_, some n⟩ => (s.loomHead n).map Prod.fst
  | _ => none

/-- The core that a move acts on. -/
def State.moverCore (s : State) : Move → Option Nat
  | .issue sk | .now sk => (tget s.skeins sk).map (·.core)
  | .pend n => (s.underWay n).bind s.actorOf
  | .ev i => s.actorOf i
  | .evict _ | .outside _ => none

/-- What moves where nothing is chosen: steps under way, each in its turn, and skeins. -/
def State.defaultMove (s : State) : Option Move :=
  match s.pending, s.pick with
  | [], none => none
  | is, none => some (.pend (s.free % is.length))
  | [], some sk => some (.issue sk)
  | is, some sk => if s.free % 2 = 0 then some (.pend (s.free / 2 % is.length)) else some (.issue sk)

/-- What moves next, and the machine with that choice taken out. -/
def State.nextMove (s : State) : Option Move × State :=
  match s.sched with
  | [] => (s.defaultMove, s)
  | m :: ms => (some m, { s with sched := ms })

/-- A step that meets a stair module out of service does not come about yet (R351, R356). -/
def State.gate (s : State) (o : Out) (delivery : Bool := false) : Out :=
  match o with
  | .next t => .next (s.through t delivery)
  | o => o

/-! ## A placed word (log 3) -/

/-- A code line with one word in slot 0 and zeros elsewhere. -/
def lineOfWord (w : Nat) : List Byte := List.replicate 8 0 ++ leBytes 12 w ++ List.replicate 108 0

/-- The skein of a placed word: width 32, 640 registers, at the start of a code line. -/
def loaderSkein (id w : Nat) : Skein :=
  { ctx := 0, grid := id, blk := id, core := 0, quad := 0, slot := 0, width := 32, num := 0, regCount := 640,
    tid := List.range 32, live := Mask.full 32, running := Mask.full 32, pc := 0, lines := [(0, lineOfWord w)] }

/-- The machine with a program loaded from outside: a context, grid and block with one skein whose line is fetched. -/
def State.loadWord (s : State) (w : Nat) : State :=
  let id := s.nextId
  { (((s.modCtx 0 fun x => { x with state := .resident, dbg := { x.dbg with halt := false } }).setGrid id
        { ctx := 0, num := id, bx := 32, placed := 1 }).setBlock id
        { ctx := 0, grid := id, skeins := [id], nskein := 1 }).setSkein id (loaderSkein id w) with
    nextId := id + 1, sched := .now id :: s.sched }

end Sys2Proof.Machine
end

