-- ==== Sys2Proof/Machine/Memory.lean ====
section
/-! DEFINITION. What the memory instructions share: addresses (spec 07 R190), translation of lanes (R216), store-fault
records (R217, R324), waits that order a skein's accesses (R195, R252, 10 R272), the store path (09 R252), digests
(15 R390, R391) and ordered entries (R394 to R397). -/

namespace Sys2Proof.Machine

/-! ## Addresses (R190) -/

/-- The offset of a lane, behind the operands of earlier fields. -/
def Iss.offset (c : Iss) (o : Offset) (l : Nat) (before : List Opnd := []) : DWord :=
  match o with
  | .vec r => (((c.single before r).val l).setWidth 32 : Word).signExtend 64
  | .imm v => v.signExtend 64

/-- The offset of a lane is poisoned. -/
def Iss.offPoison (c : Iss) (o : Offset) (l : Nat) : Bool :=
  match o with
  | .vec r => (c.single [] r).poi l
  | .imm _ => false

/-- The offset is uniform or immediate (R199). -/
def Iss.offUniform (c : Iss) (o : Offset) : Bool :=
  match o with
  | .vec r => (c.single [] r).tag == .uniform
  | .imm _ => true

/-- The effective address of a lane in global memory. -/
def Iss.ea (c : Iss) (a : Opnd) (o : Offset) (l : Nat) : DWord := (c.pair a).val l + c.offset o l

/-- The effective address of a lane in a hall. -/
def Iss.hallEa (c : Iss) (a : Opnd) (o : Offset) (l : Nat) : Nat :=
  (((c.single [] a).val l + c.offset o l [a]).setWidth 32 : Word).toNat

/-- The size of an access (R193). -/
def accBytes (t : Ty) : Nat := Ty.bits t / 8

/-- ALIGN at the lowest misaligned lane (R314). -/
def Iss.laneAlign (c : Iss) (n : Nat) (ea : Nat → Nat) : Option Trap :=
  (c.lanes.find? fun l => ea l % n != 0).map fun l => alignTrap (BitVec.ofNat 64 (ea l)) n (some l)

/-- HALL_RANGE at the lowest lane beyond the allocation (R197). -/
def Iss.laneOutside (c : Iss) (w : Bool) (n : Nat) (ea : Nat → Nat) : Option Trap :=
  firstTrap (c.lanes.map fun l => c.outside w (ea l) n (some l))

/-! ## Translation of lanes (R216, R338) -/

/-- The last n of a list. -/
def lastOf {α : Type} (n : Nat) (l : List α) : List α := l.drop (l.length - n)

/-- A walk caches a valid leaf in the micro-TLB of the core and in the TLB of its die (R338). -/
def State.fillTlb (s : State) (c core : Nat) (va : DWord) : State :=
  match s.tlbFind c core va.toNat, s.findLeaf c core va with
  | none, .ok (e, sz) =>
    let t : TlbEntry := { ctx := c, vbase := va.toNat / sz * sz, size := sz, entry := e }
    (s.modCore core fun k => { k with utlb := lastOf 512 (k.utlb ++ [t]) }).modDie (core / 48) fun d =>
      { d with tlb := lastOf 32768 (d.tlb ++ [t]) }
  | _, _ => s

/-- What the translation of a lane gives. -/
structure Reached where
  lane : Nat
  va : DWord
  phys : Except WalkFault Phys

/-- The translations of the active lanes. -/
def Iss.reach (c : Iss) (acc : Acc) (ea : Nat → DWord) : List Reached :=
  c.lanes.map fun l => ⟨l, ea l, c.s.translate c.k.ctx c.k.core (ea l) acc⟩

/-- The lanes that translate. -/
def reached (rs : List Reached) : List (Nat × Phys) :=
  rs.filterMap fun r => match r.phys with
    | .ok p => some (r.lane, p)
    | .error _ => none

/-- The first lane that does not translate. -/
def unreached (rs : List Reached) : Option (Nat × DWord) :=
  rs.findSome? fun r => match r.phys with
    | .ok _ => none
    | .error _ => some (r.lane, r.va)

/-- The leaves found are cached. -/
def Iss.fill (c : Iss) (rs : List Reached) : Iss :=
  { c with s := rs.foldl (fun s r => s.fillTlb c.k.ctx c.k.core r.va) c.s }

/-- The skein parks for a translation walk (R319). -/
def Iss.walk (c : Iss) (acc : Acc) (lane : Nat) (va : DWord) : Act :=
  .park (c.s.postOnce (.translationWalk c.id va acc)) (.walk va acc (some lane))

/-! ## Store-fault records (R216, R217, R324, R325) -/

/-- The page of an address, as its size and number: that of its leaf, or of 64 KiB where no leaf is found. -/
def Iss.pageOf (c : Iss) (va : DWord) : Nat × Nat :=
  match c.s.findLeaf c.k.ctx c.k.core va with
  | .ok (_, sz) => (sz, va.toNat / sz)
  | .error _ => (2 ^ 16, va.toNat / 2 ^ 16)

/-- The records of an instruction's faulting lanes, each with its cause: one per page, in ascending order of the pages'
lowest lanes. -/
def Iss.records (c : Iss) (size : Nat) (ea data : Nat → DWord) (poi : Nat → Bool) (bad : List (Nat × Nat)) : List StoreRec :=
  let page := fun l => c.pageOf (ea l)
  ((bad.map fun b => page b.1).eraseDups).map fun p =>
    let mine := bad.filter fun b => page b.1 == p
    { sk := c.id, pc := c.k.pc, mask := Mask.ofFn 64 fun l => mine.any fun b => b.1 == l,
      cause := (mine.head?.map Prod.snd).getD 0x11, size := size, slot := c.k.slot,
      lanes := mine.map fun b => { lane := b.1, ea := ea b.1, data := data b.1, poison := poi b.1 } }

/-- Records wait for room in the core's queue. -/
def Iss.record (c : Iss) (rs : List StoreRec) : Iss :=
  { c with s := rs.foldl (fun s r =>
      (s.modCore c.k.core fun k => { k with recWait := k.recWait ++ [r] }).post (.storeFaultRecord r)) c.s }

/-- The lanes that do not translate, with STORE_FAULT. -/
def faulted (rs : List Reached) : List (Nat × Nat) :=
  rs.filterMap fun r => match r.phys with
    | .ok _ => none
    | .error _ => some (r.lane, 0x11)

/-! ## What holds an access back (R195, R252, R272) -/

/-- An earlier load, acquire or ordered entry of the skein that the access must follow. -/
def Iss.behind (c : Iss) (las : List Nat) (strong : Bool) : Bool :=
  let dies := las.map c.s.homeDie
  (c.k.loads.any fun o => o.acq || o.lanes.any fun x =>
      las.contains (x.pa / 128) || (strong && o.strong && dies.contains (c.s.homeDie (x.pa / 128))))
    || (c.s.pending.any (isRetryOf c.id))
    || (c.s.slices.any fun n => n.2.ordered.any fun e => e.sk == c.id && las.contains (e.pa / 128))

/-- An earlier strong write of the skein to one of the dies is not acknowledged (R252). -/
def Iss.behindWrites (c : Iss) (las : List Nat) : Bool :=
  let dies := las.map c.s.homeDie
  (c.s.core c.k.core).scb.any fun e => e.strong && e.writers.contains c.id && dies.contains (c.s.homeDie e.la)

/-- The scope is narrower than the device (R280). -/
def Scope.narrow : Scope → Bool
  | .skein | .block | .die => true
  | .device | .system => false

/-- The order makes an access a release. -/
def Order.releases : Order → Bool
  | .rel | .acqRel | .sc => true
  | _ => false

/-- The order makes an access an acquire. -/
def Order.acquires : Order → Bool
  | .acq | .acqRel | .sc => true
  | _ => false

/-- Every earlier write of the skein is acknowledged or recorded, and a store fault is taken first (R218). -/
def Iss.drained (c : Iss) : Except State Iss :=
  let s := c.s.flush c.k.core c.id
  let c' := c.at s
  if !s.flushed c.k.core c.id || (c'.k.sfInd && !c'.k.hnd) then .error s else .ok c'

/-- A promoting acquire waits while the core of a narrow release drains (R280). -/
def Iss.promoted (c : Iss) (promote : Bool) (las : List Nat) : Option State :=
  let owed := if promote then las.filterMap fun la =>
      match (c.s.homeLine la).relCore with
      | some x => if x == c.k.core then none else some (x, la)
      | none => none
    else []
  if owed.isEmpty then none else some (owed.foldl (fun s q => s.postOnce (.promoteDrain q.1 q.2)) c.s)

/-! ## The store path (R252) -/

/-- Every write of a line that the core holds or has on its way is performed, behind the core's writes on their way
(R195). -/
def State.flushLine (s : State) (core la : Nat) : State :=
  if (s.core core).scb.any fun e => e.la == la then
    let s := s.landWrites core
    ((s.core core).scb.filter fun e => !e.sent && e.la == la).foldl (fun s e => s.landEntry core e) s
  else s

/-- Bytes written over bytes, each address once. -/
def mergeCells (old new : List (Nat × Byte)) : List (Nat × Byte) :=
  new.foldl (fun acc c => (acc.filter fun x => x.1 != c.1) ++ [c]) old

/-- What a store puts into the buffer: one line's bytes. -/
structure LineStore where
  la : Nat
  bytes : List (Nat × Byte)
  cached : Bool

/-- The lines that lanes write, in order of line: the highest lane of a location remains (R194). -/
def lineStores (size : Nat) (data : Nat → DWord) (ls : List (Nat × Phys)) : List LineStore :=
  let t : Tbl LineStore := ls.foldl (fun t x =>
    let la := x.2.pa / 128
    let cells := cellsAt x.2.pa (leBytes size (data x.1).toNat)
    match tget t la with
    | none => tput t la { la := la, bytes := cells, cached := x.2.cached }
    | some y => tput t la { y with bytes := mergeCells y.bytes cells }) []
  t.map Prod.snd

/-- A store of a line enters the buffer: it combines with an entry of its line, whichever skein made that, or takes a new
one (R252). -/
def State.combine (s : State) (c core sk : Nat) (op : Option (Nat × Nat × Nat)) (w : LineStore) : Option State :=
  let k := s.core core
  match k.scb.find? fun e => !e.sent && e.la == w.la with
  | some e =>
    some (s.setCore core { k with scb := k.scb.map fun x => if x == e then
      { e with bytes := mergeCells e.bytes w.bytes, ops := e.ops ++ op.toList,
               writers := if e.writers.contains sk then e.writers else e.writers ++ [sk] } else x })
  | none =>
    if 64 ≤ k.scb.length then none
    else
      let e : ScbEntry := { ctx := c, la := w.la, bytes := w.bytes, writers := [sk], cached := w.cached, sent := false,
                            ops := op.toList }
      some ((s.setCore core { k with scb := k.scb ++ [e] }).post (.scbDrain core w.la))

/-- A strong store of a line is sent on its own (R252). -/
def State.sendStrong (s : State) (c core sk : Nat) (narrow : Bool) (op : Option (Nat × Nat × Nat)) (w : LineStore) :
    Option State :=
  let s := s.flushLine core w.la
  let k := s.core core
  if 64 ≤ k.scb.length then none
  else
    let e : ScbEntry := { ctx := c, la := w.la, bytes := w.bytes, writers := [sk], cached := w.cached, sent := true,
                          strong := true, ops := op.toList }
    let r : WriteReq := { core := core, ctx := c, la := w.la, bytes := w.bytes, lclk := k.lclk, cached := w.cached,
                          writers := [sk], narrow := narrow }
    some ((s.setCore core { k with scb := k.scb ++ [e] }).post (.homeWrite r))

/-- The bytes that the buffer of a core holds for lines and has not sent (R252). -/
def State.overlay (s : State) (core : Nat) (las : List Nat) : List (Nat × Byte) :=
  (s.core core).scb.foldl (fun bs e => if !e.sent && las.contains e.la then mergeCells bs e.bytes else bs) []

/-- The core holds a write of the line that a load of n bytes in each lane cannot read as it stands: one on its way, one that
does not cover a lane whole, or, for a strong load or one of a BOLT page, any. That write is performed first, so that no skein
sees it before the others do and no value is torn (R194, R276, R284; log 7). -/
def State.unsettled (s : State) (core n : Nat) (strong : Bool) (ls : List (Nat × Phys)) (la : Nat) : Bool :=
  let es := (s.core core).scb.filter fun e => e.la == la
  let bytes := s.overlay core [la]
  let mine := ls.filter fun x => x.2.pa / 128 == la
  !es.isEmpty && (strong || es.any (·.sent) || mine.any fun x =>
    x.2.bolt || !((List.range n).all fun i => bytes.any fun q => q.1 == x.2.pa + i))

/-! ## Copies and write-backs (R251, R255) -/

/-- The copy of a line is present and its lease holds (R255). -/
def CoreSt.hit (k : CoreSt) (la : Nat) : Option L1Line :=
  match tget k.l1 la with
  | some x => if Stamp.le k.lclk x.rts then some x else none
  | none => none

/-- A full L1 of 4,096 lines gives up a leased copy (R251). -/
def CoreSt.makeRoom (k : CoreSt) : CoreSt :=
  if k.l1.length + k.merges.length < 4096 then k else { k with l1 := k.l1.tail }

/-- A copy installed; an L1 full of merge-state copies takes none (R251). -/
def CoreSt.install (k : CoreSt) (la : Nat) (x : L1Line) : CoreSt :=
  let k := if (tget k.l1 la).isSome then k else k.makeRoom
  if (tget k.l1 la).isSome || k.l1.length + k.merges.length < 4096 then { k with l1 := tput k.l1 la x } else k

/-- The poisoned units that meet a line, all of it where its home is lost. -/
def State.linePoison (s : State) (la : Nat) : List (Nat × Nat) :=
  if s.homeLost la then [(la * 128, 128)] else s.memPoison.filter (unitMeets (la * 128) 128)

/-! ## Digests (R390, R391) -/

/-- The contribution of a word at an address. -/
def contribution (a : DWord) (x : Nat) : DWord :=
  (a ^^^ (BitVec.ofNat 64 x).rotateLeft 17) * 0x9E3779B97F4A7C15

/-- The contributions of bytes stored at an address: words of four bytes, or one word of one or two. -/
def contributions (a : DWord) : Nat → List Byte → DWord
  | 0, _ => 0
  | fuel + 1, bs =>
    if bs.isEmpty then 0
    else contribution a (ofLeBytes (bs.take 4)) + contributions (a + 4) fuel (bs.drop 4)

/-- The contributions of a store's bytes. -/
def digestOf (a : DWord) (bs : List Byte) : DWord := contributions a (bs.length + 1) bs

/-- Committed words of a skein counted: to its open span, or to its block (R391). -/
def State.commit (s : State) (sk : Nat) (d : DWord) : State :=
  match tget s.skeins sk with
  | none => s
  | some k =>
    if k.task.isOpen then s.setSkein sk { k with task := { k.task with digest := k.task.digest + d } }
    else s.modBlock k.blk fun b => { b with digest := b.digest + d }

/-- Committed words of the instruction, at level 1 and 2. -/
def Iss.commit (c : Iss) (d : DWord) : Iss := if c.g.level = 0 then c else c.at (c.s.commit c.id d)

/-- The contributions of a multi-lane store: the lane whose value remains, for each location. -/
def storeDigest (size : Nat) (ea data : Nat → DWord) : List (Nat × Phys) → DWord
  | [] => 0
  | x :: xs =>
    (if xs.any fun y => y.2.pa == x.2.pa then 0 else digestOf (ea x.1) (leBytes size (data x.1).toNat))
      + storeDigest size ea data xs

/-! ## Atomics (R207) -/

/-- The new value of an atomic. -/
def atomicNew (op : AOp) (t : Ty) (old b e : Nat) : Nat :=
  let m := 2 ^ Ty.bits t
  match op with
  | .add => (old + b) % m
  | .min => if intOf t old ≤ intOf t b then old else b
  | .max => if intOf t b ≤ intOf t old then old else b
  | .and => old &&& b
  | .or => old ||| b
  | .xor => old ^^^ b
  | .exch => b
  | .cas => if old = e then b else old

/-- An atomic at a home (R207, R255): the state, the old and new values, and the old value's poison. -/
def State.atomicAt (s : State) (c core : Nat) (rel : Option Nat) (bolt : Bool) (pa : Nat) (op : AOp) (t : Ty)
    (b e : Nat) : State × Nat × Nat × Bool :=
  let n := accBytes t
  let m := 2 ^ Ty.bits t
  let (s, bs, bad) := s.agentRead c (dieOf core) bolt pa n
  let old := ofLeBytes bs
  let new := atomicNew op t old (b % m) (e % m)
  let s := s.coreStore c core (pa / 128) (cellsAt pa (leBytes n new)) rel
  (if bad then { s with memPoison := addUnit s.memPoison (pa, n) } else s, old, new, bad)

/-! ## Ordered entries (R394 to R397) -/

/-- Words of an ordered entry counted when it is applied: to its span while that very span is open, to its block while that
has not ended, else to the grid under the task's index (R248, R391, R392). -/
def State.commitEntry (s : State) (e : OrdEntry) (d : DWord) : State :=
  match e.span, tget s.skeins e.sk, tget s.blocks e.blk with
  | some (n, i), some k, _ =>
    if k.task.isOpen && k.task.name == n then s.commit e.sk d else s.modGrid e.grid fun g => g.addDigest d i
  | some (_, i), none, _ => s.modGrid e.grid fun g => g.addDigest d i
  | none, _, some b =>
    if b.allEnded then s.modGrid e.grid fun g => g.addDigest d b.idx
    else s.modBlock e.blk fun b => { b with digest := b.digest + d }
  | none, _, none => s.modGrid e.grid fun g => g.addDigest d (e.key.toNat / 2 ^ 32)

/-- An old value reaches the load that waits for it; the load lands with its last lane (R397). -/
def State.oldValue (s : State) (e : OrdEntry) (old : Nat) (bad : Bool) : State :=
  match e.op with
  | none => s
  | some o =>
    let s := s.modSkein e.sk fun k => { k with loads := k.loads.map fun x =>
      if x.id == o then { x with olds := x.olds ++ [(e.lane, BitVec.ofNat 64 old)],
                                 oldBad := if bad then x.oldBad ++ [e.lane] else x.oldBad } else x }
    match (tget s.skeins e.sk).bind fun k => k.loads.find? fun x => x.id == o with
    | some x => if x.olds.length = x.lanes.length then s.post (.loadDataLand e.sk o) else s
    | none => s

/-- An ordered entry applied at its home (R396). -/
def State.applyEntry (s : State) (e : OrdEntry) : State :=
  match e.act with
  | .store bytes =>
    let s := s.coreStore e.ctx e.core (e.pa / 128) bytes
    s.commitEntry e (digestOf (BitVec.ofNat 64 e.va) (bytes.map Prod.snd))
  | .amo op t b x =>
    let (s, old, new, bad) := s.atomicAt e.ctx e.core none e.bolt e.pa op t b.toNat x.toNat
    (s.commitEntry e (digestOf (BitVec.ofNat 64 e.va) (leBytes (accBytes t) new))).oldValue e old bad

/-- The first entry with the least key. -/
def leastEntry : List OrdEntry → Option OrdEntry
  | [] => none
  | e :: es =>
    match leastEntry es with
    | none => some e
    | some x => if x.key < e.key then some x else some e

/-- The frontier of a grid (R396); a grid that is gone has let every key pass. -/
def State.frontierOf (s : State) (g : Nat) : DWord := ((tget s.grids g).map (·.frontier)).getD (BitVec.allOnes 64)

/-- The held entries of a slice whose keys the frontier has reached are applied, in order of key and, within a key, of
arrival (R396). The first number bounds their number. -/
def State.applyHeld (s : State) (n : Nat) : Nat → State
  | 0 => s
  | fuel + 1 =>
    match leastEntry ((s.slice n).ordered.filter fun e => decide (e.key ≤ s.frontierOf e.grid)) with
    | none => s
    | some e => ((s.modSlice n fun x => { x with ordered := x.ordered.erase e }).applyEntry e).applyHeld n fuel

/-- An ordered entry at its home (R397): applied at once behind the held entries, held, or refused with RETRY. An address
without a home here has no buffer. -/
def State.offer (s : State) (e : OrdEntry) : State :=
  match s.homeDie (e.pa / 128) with
  | none => s.applyEntry e
  | some _ =>
    let n := s.homeSlice (e.pa / 128)
    if e.key ≤ s.frontierOf e.grid then (s.applyHeld n ((s.slice n).ordered.length)).applyEntry e
    else if (s.slice n).ordered.length < 255 then s.modSlice n fun x => { x with ordered := x.ordered ++ [e] }
    else s.post (.orderedRetry { e with backoff := if e.backoff = 0 then 64 else min 4096 (2 * e.backoff) })

/-- The ordered entry of a lane. -/
def Iss.entry (c : Iss) (l : Nat) (p : Phys) (va : DWord) (op : Option Nat) (act : OrdWrite) : OrdEntry :=
  { key := c.k.task.key c.b.idx, grid := c.k.grid, blk := c.k.blk, ctx := c.k.ctx, core := c.k.core, sk := c.id,
    span := if c.k.task.isOpen then some (c.k.task.name, c.k.task.index) else none, lane := l, pa := p.pa, va := va.toNat, op := op,
    bolt := p.bolt, act := act, backoff := 0 }

/-- Ordered entries go to their homes in order of lane. -/
def Iss.offerAll (c : Iss) (es : List OrdEntry) : Iss := c.at (es.foldl State.offer c.s)

end Sys2Proof.Machine
end

