-- ==== Sys2Proof/Machine/MemIsa.lean ====
section
/-! DEFINITION. Group 5: loads, stores, full/empty words, atomics and cache hints (spec 07 R190 to R210, R216, R219). -/

namespace Sys2Proof.Machine

/-! ## Loads from global memory (R192 to R196, R199) -/

/-- The line numbers of lanes, each once. -/
def linesOf (ls : List (Nat × Phys)) : List Nat := (ls.map fun x => x.2.pa / 128).eraseDups

/-- The attributes of a mapping that an access follows (R268): 1 for cacheable plus 2 for BOLT. -/
def Phys.att (p : Phys) : Nat := (if p.cached then 1 else 0) + if p.bolt then 2 else 0

/-- The lines of lanes with the attributes under which each is reached, each pair once (R268). -/
def reachesOf (ls : List (Nat × Phys)) : List (Nat × Nat) := (ls.map fun x => (x.2.pa / 128, x.2.att)).eraseDups

/-- The request for a line that a load sends to its home (R255), the n-th of its instruction (R359). -/
def Iss.request (c : Iss) (op : Nat) (strong : Bool) (q : Nat × Nat) (n : Nat) : LoadReq :=
  let k := c.s.core c.k.core
  { op := op, sk := c.id, core := c.k.core, ctx := c.k.ctx, la := q.1, cached := q.2 % 2 == 1, bolt := decide (2 ≤ q.2),
    strong := strong, lclk := k.lclk, lease := c.ctx.lease, tag := transTag c.k.core (k.seq + n) }

/-- The copy of a line that a load reads without a message (R251, R255). -/
def Iss.copyOf (c : Iss) (q : Nat × Nat) : Option GotLine :=
  if q.2 = 1 then ((c.s.core c.k.core).hit q.1).map fun x => { la := q.1, att := q.2, data := x.data, poison := x.poison }
  else none

/-- A message that is part of a core's outstanding requests (R3). -/
def isRequestOf (core : Nat) : Instr → Bool
  | .homeLoad r => r.core == core
  | .loadReply r => r.core == core
  | .homeWrite r => r.core == core
  | .writeAck r => r.core == core
  | _ => false

/-- The core has no place among its 4,096 outstanding requests for n more (R3). -/
def State.tooMany (s : State) (core n : Nat) : Bool := decide (4096 < (s.pending.filter (isRequestOf core)).length + n)

/-- A load put under way: lines with a valid copy are bound, the others are asked for (R255). -/
def Iss.putUnderWay (c : Iss) (o : LoadOp) (qs : List (Nat × Nat)) : Iss :=
  let missing := qs.filter fun q => (c.copyOf q).isNone
  let rs := (missing.zip (List.range missing.length)).map fun x => c.request c.s.nextId o.strong x.1 x.2
  let op := { o with id := c.s.nextId, got := qs.filterMap c.copyOf, asked := rs.map fun r => (r, c.s.gt) }
  let s := { c.s with nextId := op.id + 1 }.modCore c.k.core fun k => { k with seq := (k.seq + rs.length) % 2 ^ 20 }
  let s := s.modSkein c.id fun k =>
    let k := { k with loads := k.loads ++ [op] }
    match op.flag with
    | some g => k.flagUp g
    | none => k
  let s := rs.foldl (fun s r => s.post (.homeLoad r)) s
  c.at (if rs.isEmpty then s.post (.loadDataLand c.id op.id) else s)

/-- A load of n bytes in each lane whose waits are over: the core's writes that it cannot read as they stand are performed
first (R252). -/
def Iss.startLoad (c : Iss) (f : LdSt) (ls : List (Nat × Phys)) : Iss :=
  let las := linesOf ls
  let strong := f.ord != .weak
  let late := las.filter fun la => c.s.unsettled c.k.core (accBytes f.ty) strong ls la
  let c := c.at (late.foldl (fun s la => s.flushLine c.k.core la) c.s)
  c.putUnderWay { id := 0, dst := opIdx f.d, ty := f.ty, lanes := ls.map fun x => ⟨x.1, x.2.pa, x.2.att⟩, got := [],
                  overlay := c.s.overlay c.k.core las, flag := Ctl.flag c.h, strong := strong,
                  acq := Order.acquires f.ord,
                  uniform := c.allLanes && (c.pair f.a).tag == .uniform && c.offUniform f.off, olds := [] } (reachesOf ls)

/-- `ld` (R192 to R199, R216). -/
def execLd (h : Ctl) (f : LdSt) (s : State) : Out :=
  issue h { a := regsOf f.a 2, b := regsOfOff f.off, d := regsOf f.d (nRegs f.ty) } (fun c =>
    let ea := c.ea f.a f.off
    match firstTrap [c.poisoned [(1, (c.pair f.a).poi), (2, c.offPoison f.off)],
                     c.laneAlign (accBytes f.ty) fun l => (ea l).toNat] with
    | some t => .trap c.s t
    | none =>
      let rs := c.reach .load ea
      match unreached rs with
      | some (l, va) => c.walk .load l va
      | none =>
        let c := c.fill rs
        let ls := reached rs
        if c.behind (linesOf ls) (f.ord != .weak) || c.s.tooMany c.k.core (reachesOf ls).length then .hold c.s
        else match c.promoted f.promote (linesOf ls) with
          | some s => .hold s
          | none => .done (c.startLoad f ls) false) s

/-! ## Stores to global memory (R192 to R196, R199) -/

/-- The lanes whose value remains (R194). -/
def lastLanes : List (Nat × Phys) → List (Nat × Phys)
  | [] => []
  | x :: xs => if xs.any fun y => y.2.pa == x.2.pa then lastLanes xs else x :: lastLanes xs

/-- A line of host memory: a skein's writes to it are emitted in program order, as its strong writes are (R289). -/
def hostLine (la : Nat) : Bool := regionOf (la * 128) == .host

/-- The lines of a store sent on their way; none when the buffer has no room for all. -/
def Iss.send (c : Iss) (strong narrow : Bool) (op : Option (Nat × Nat × Nat)) (ws : List LineStore) : Option State :=
  ws.foldl (fun s w => s.bind fun s =>
    if strong || hostLine w.la then s.sendStrong c.k.ctx c.k.core c.id narrow op w
    else s.combine c.k.ctx c.k.core c.id op w) (some c.s)

/-- Weak lines of one instruction enter the buffer as one store; it lands with the last of them (R199, R252). None when the
buffer has no room for all. `late` says that the instruction lands by another way. -/
def Iss.sendAll (c : Iss) (strong narrow late : Bool) (ws : List LineStore) : Option Iss :=
  let name := c.s.nextId
  let op := match Ctl.flag c.h with
    | some g => if late then none else some (c.id, g, name)
    | none => none
  (c.send strong narrow op ws).map fun t =>
    let s := { t with nextId := name + 1 }
    c.at (match op with
      | some (_, g, _) => s.modSkein c.id fun k => k.flagUp g
      | none => s)

/-- A store whose checks have passed and whose waits are over. -/
def Iss.storeNow (c : Iss) (f : LdSt) (rs : List Reached) : Act :=
  let n := accBytes f.ty
  let d := c.opnd f.ty.is64 [] f.d
  let ea := c.ea f.a f.off
  let isOrd := fun x : Nat × Phys => c.g.level == 2 && x.2.ordered
  let ls := (reached rs).filter fun x => !isOrd x
  let os := lastLanes ((reached rs).filter isOrd)
  let bad := faulted rs
  let late := !os.isEmpty || !bad.isEmpty
  match c.sendAll (f.ord != .weak) (Order.releases f.ord && Scope.narrow f.scope) late (lineStores n d.val ls) with
  | none => .hold c.s
  | some c =>
    let c := c.commit (storeDigest n ea d.val ls)
    let c := c.offerAll (os.map fun x =>
      c.entry x.1 x.2 (ea x.1) none (.store (cellsAt x.2.pa (leBytes n (d.val x.1).toNat))))
    .done (c.record (c.records n ea d.val d.poi bad)) late

/-- `st` (R192 to R199, R216). -/
def execSt (h : Ctl) (f : LdSt) (s : State) : Out :=
  issue h { a := regsOf f.a 2, b := regsOfOff f.off, d := regsOf f.d (nRegs f.ty) } (fun c =>
    let ea := c.ea f.a f.off
    match firstTrap [c.poisoned [(1, (c.pair f.a).poi), (2, c.offPoison f.off), (0, (c.opnd f.ty.is64 [] f.d).poi)],
                     c.laneAlign (accBytes f.ty) fun l => (ea l).toNat] with
    | some t => .trap c.s t
    | none =>
      let rs := c.reach .store ea
      let c := c.fill rs
      let las := linesOf (reached rs)
      let strong := las.filter fun la => f.ord != .weak || hostLine la
      if c.behind las (f.ord != .weak) || c.behindWrites strong then .hold c.s
      else if Order.releases f.ord then
        match c.release with
        | .error s => .hold s
        | .ok c => c.storeNow f rs
      else c.storeNow f rs) s

/-! ## Halls (R197) -/

/-- A loaded value extended to its register (R193). -/
def extendTo (t : Ty) (x : Nat) : DWord :=
  match t with
  | .i8 => (BitVec.ofNat 8 x).signExtend 64
  | .i16 => (BitVec.ofNat 16 x).signExtend 64
  | _ => BitVec.ofNat 64 x

/-- The registers of a hall access. -/
def HallLS.uses (f : HallLS) : Uses :=
  { a := regsOf f.a 1, b := regsOfOff f.off, d := regsOf f.d (nRegs f.ty), hall := true }

/-- The checks of a hall access (R198). -/
def Iss.hallTrap (c : Iss) (w : Bool) (t : Ty) (a : Opnd) (off : Offset) (data : Nat → Bool) : Option Trap :=
  let ea := c.hallEa a off
  firstTrap [c.poisoned [(1, (c.single [] a).poi), (2, c.offPoison off), (0, data)],
             c.laneAlign (accBytes t) ea, c.laneOutside w (accBytes t) ea]

/-- The tag of a value loaded from a hall (R199). -/
def Iss.hallTag (c : Iss) (a : Opnd) (off : Offset) : Shape :=
  if c.allLanes && (c.single [] a).tag == .uniform && c.offUniform off then .uniform else .general

/-- `ldh` (R193, R197, R199). -/
def execLdh (h : Ctl) (f : HallLS) (s : State) : Out :=
  issue h (HallLS.uses f) (fun c =>
    match c.hallTrap f.w f.ty f.a f.off fun _ => false with
    | some t => .trap c.s t
    | none =>
      let n := accBytes f.ty
      let ea := c.hallEa f.a f.off
      .ok (c.put f.ty.is64 f.d (c.hallTag f.a f.off) (fun l => extendTo f.ty (c.b.hallNat f.w (ea l) n))
        fun l => c.b.hallBad f.w (ea l) n)) s

/-- Lanes' values written to a hall in ascending order (R194). -/
def hallStores (w : Bool) (n : Nat) (ea : Nat → Nat) (data : Nat → DWord) : List Nat → Block → Block
  | [], b => b
  | l :: ls, b => hallStores w n ea data ls (b.hallWrite w (ea l) (leBytes n (data l).toNat))

/-- `sth` (R193, R194, R197). -/
def execSth (h : Ctl) (f : HallLS) (s : State) : Out :=
  issue h (HallLS.uses f) (fun c =>
    let d := c.opnd f.ty.is64 [] f.d
    match c.hallTrap f.w f.ty f.a f.off d.poi with
    | some t => .trap c.s t
    | none =>
      .ok (c.withBlock (hallStores f.w (accBytes f.ty) (c.hallEa f.a f.off) d.val c.lanes c.b)).stir) s

/-! ## Full/empty words (R200 to R205) -/

/-- The registers of a full/empty access. -/
def FeLS.uses (f : FeLS) : Uses := { a := regsOf f.a 1, b := regsOfOff f.off, d := regsOf f.d 1, hall := true }

/-- The words that the active lanes name (R201). -/
def Iss.words (c : Iss) (f : FeLS) : List Nat := (c.lanes.map fun l => c.hallEa f.a f.off l / 4).eraseDups

/-- The word's bit is as wanted. -/
def Block.isFull (b : Block) (want : Bool) (w : Nat) : Bool := b.full.contains w == want

/-- Full/empty bits of words set. -/
def Block.setFull (b : Block) (full : Bool) (ws : List Nat) : Block :=
  let others := b.full.filter fun w => !(ws.contains w)
  { b with full := if full then others ++ ws else others }

/-- A full/empty operation: it performs when its condition holds for every word, and parks otherwise (R201). -/
def Iss.whenWords (c : Iss) (f : FeLS) (want : Bool) (act : Iss → Act) : Act :=
  if (c.words f).all (c.b.isFull want) then act c
  else .park c.s (.word c.since c.low (c.lanes.map fun l => c.hallEa f.a f.off l) want)

/-- The words loaded into the destination. -/
def Iss.loadWords (c : Iss) (f : FeLS) : Iss :=
  let ea := c.hallEa f.a f.off
  c.put false f.d (c.hallTag f.a f.off) (fun l => BitVec.ofNat 64 (c.b.hallNat false (ea l) 4))
    fun l => c.b.hallBad false (ea l) 4

/-- `ldf` (R201). -/
def execLdf (h : Ctl) (f : FeLS) (s : State) : Out :=
  issue h (FeLS.uses f) (fun c =>
    match c.hallTrap false f.ty f.a f.off fun _ => false with
    | some t => .trap c.s t
    | none => c.whenWords f true fun c =>
      let ws := c.words f
      let c := c.loadWords f
      .ok (c.withBlock (c.b.setFull false ws)).stir) s

/-- `ste` (R201, R204): a release at block scope. -/
def execSte (h : Ctl) (f : FeLS) (s : State) : Out :=
  issue h (FeLS.uses f) (fun c =>
    let d := c.single [] f.d
    match c.hallTrap false f.ty f.a f.off d.poi with
    | some t => .trap c.s t
    | none =>
      match c.release with
      | .error s => .hold s
      | .ok c => c.whenWords f false fun c =>
        let b := hallStores false 4 (c.hallEa f.a f.off) d.val c.lanes c.b
        .ok (c.withBlock (b.setFull true (c.words f))).stir) s

/-- `ldw` (R201). -/
def execLdw (h : Ctl) (f : FeLS) (s : State) : Out :=
  issue h (FeLS.uses f) (fun c =>
    match c.hallTrap false f.ty f.a f.off fun _ => false with
    | some t => .trap c.s t
    | none => c.whenWords f true fun c => .ok (c.loadWords f)) s

/-- Operand B of a skein-level form, from the lowest active lane. -/
def Iss.lowImm (c : Iss) (wide : Bool) (b : SrcImm) (before : List Opnd := []) : Nat :=
  ((c.srcImm wide false before b).val c.low).toNat % (if wide then 2 ^ 64 else 2 ^ 32)

/-- The poison of operand B of a skein-level form. -/
def Iss.lowImmPoison (c : Iss) (wide : Bool) (b : SrcImm) : Nat → Bool := c.lowOnly (c.srcImm wide false [] b)

/-- `fe` (R200, R202, R204): a release at block scope. An empty range has no byte beyond the allocation. -/
def execFe (h : Ctl) (full : Bool) (a : Opnd) (b : SrcImm) (s : State) : Out :=
  issue h { a := regsOf a 1, b := regsOfImm b 1, hall := true } (fun c =>
    let x := c.lowNat a
    let n := c.lowImm false b [a]
    match firstTrap [c.poisoned [(1, c.lowOnly (c.single [] a)), (2, c.lowImmPoison false b)],
                     misaligned x 4 c.low, misaligned n 4 c.low,
                     if n = 0 then none else c.outside false x n (some c.low)] with
    | some t => .trap c.s t
    | none =>
      match c.release with
      | .error s => .hold s
      | .ok c => .ok (c.withBlock (c.b.setFull full ((List.range (n / 4)).map fun i => x / 4 + i))).stir) s

/-! ## Atomics (R206 to R209) -/

/-- The registers of an atomic; `amoh` has one address register. -/
def Amo.uses (f : Amo) (n : Nat) : Uses :=
  { hall := n == 1, a := regsOf f.a n, b := regsOf f.b (nRegs f.ty), d := if f.ret then regsOf f.d (nRegs f.ty) else [] }

/-- Lanes applied to global memory in ascending order (R207): the state, and each lane's old value with its poison. -/
def amoLanes (c : Iss) (f : Amo) (b e : Nat → DWord) (va : Nat → DWord) :
    State → List (Nat × Phys) → State × Tbl (Nat × Bool)
  | s, [] => (s, [])
  | s, (l, p) :: ls =>
    let core := c.k.core
    let s := s.flushLine core (p.pa / 128)
    let rel := if Order.releases f.ord && Scope.narrow f.scope then some core else none
    let (s, old, new, bad) := s.atomicAt c.k.ctx core rel p.bolt p.pa f.op f.ty (b l).toNat (e l).toNat
    let s := if c.g.level = 0 then s else s.commit c.id (digestOf (va l) (leBytes (accBytes f.ty) new))
    let (s, t) := amoLanes c f b e va s ls
    (s, (l, (old, bad)) :: t)

/-- Under level 2 the atomic goes through the ordered buffer (R208). -/
def AOp.ordered : AOp → Bool
  | .add | .min | .max => false
  | _ => true

/-- Old values returned to the destination (R207). -/
def Iss.putOlds (c : Iss) (f : Amo) (t : Tbl (Nat × Bool)) : Iss :=
  if f.ret then
    c.put f.ty.is64 f.d .general (fun l => BitVec.ofNat 64 ((tget t l).getD (0, false)).1)
      fun l => ((tget t l).getD (0, false)).2
  else c

/-- The load that takes the old values of ordered lanes; without RET it has no destination, and holds back what must follow
the atomic's read (R208, R272). -/
def Iss.ordLoad (c : Iss) (f : Amo) (ls : List (Nat × Phys)) : Iss :=
  let op : LoadOp := { id := c.s.nextId, dst := opIdx f.d, ty := f.ty, lanes := ls.map fun x => ⟨x.1, x.2.pa, x.2.att⟩,
                       got := [], overlay := [], flag := if f.ret then Ctl.flag c.h else none, strong := true,
                       acq := Order.acquires f.ord, uniform := false, olds := [], noDst := !f.ret }
  c.at ({ c.s with nextId := c.s.nextId + 1 }.modSkein c.id fun k =>
    let k := { k with loads := k.loads ++ [op] }
    match op.flag with
    | some g => k.flagUp g
    | none => k)

/-- An atomic whose checks have passed and whose waits are over. -/
def Iss.amoNow (c : Iss) (f : Amo) (rs : List Reached) : Act :=
  let ea := (c.pair f.a).val
  let b := c.opnd f.ty.is64 [] f.b
  let e := c.opnd f.ty.is64 [] f.d
  let ls := reached rs
  let bad := faulted rs
  let recs := c.records (accBytes f.ty) ea b.val b.poi bad
  if c.g.level == 2 && AOp.ordered f.op then
    let id := c.s.nextId
    let c := if ls.isEmpty then c else c.ordLoad f ls
    let c := c.at ((linesOf ls).foldl (fun s la => s.flushLine c.k.core la) c.s)
    let c := c.offerAll (ls.map fun x =>
      c.entry x.1 x.2 (ea x.1) (some id) (.amo f.op f.ty (b.val x.1) (e.val x.1)))
    .done ((c.record recs).meter [(13, ls.length)]) (!f.ret)
  else
    let (s, t) := amoLanes c f b.val e.val ea c.s ls
    .done ((((c.at s).putOlds f t).record recs).meter [(13, ls.length)]) (!bad.isEmpty)

/-- `amo` (R206 to R208, R216). -/
def execAmo (h : Ctl) (f : Amo) (s : State) : Out :=
  issue h (Amo.uses f 2) (fun c =>
    let ea := (c.pair f.a).val
    let b := c.opnd f.ty.is64 [] f.b
    let e := c.opnd f.ty.is64 [] f.d
    match firstTrap [c.poisoned [(1, (c.pair f.a).poi), (2, b.poi), (0, fun l => f.op == .cas && e.poi l)],
                     c.laneAlign (accBytes f.ty) fun l => (ea l).toNat] with
    | some t => .trap c.s t
    | none =>
      let rs := c.reach .atomic ea
      match if f.ret then unreached rs else none with
      | some (l, va) => c.walk .atomic l va
      | none =>
        let c := c.fill rs
        let las := linesOf (reached rs)
        if c.behind las true || c.behindWrites las then .hold c.s
        else match c.promoted f.promote las with
          | some s => .hold s
          | none =>
            if Order.releases f.ord then
              match c.release with
              | .error s => .hold s
              | .ok c => c.amoNow f rs
            else c.amoNow f rs) s

/-- Lanes applied to hall A in ascending order (R207, R209). -/
def amohLanes (f : Amo) (ea : Nat → Nat) (b e : Nat → DWord) : Block → List Nat → Block × Tbl (Nat × Bool)
  | x, [] => (x, [])
  | x, l :: ls =>
    let n := accBytes f.ty
    let m := 2 ^ Ty.bits f.ty
    let old := x.hallNat false (ea l) n
    let bad := x.hallBad false (ea l) n
    let y := x.hallWrite false (ea l) (leBytes n (atomicNew f.op f.ty old ((b l).toNat % m) ((e l).toNat % m)))
    let (y, t) := amohLanes f ea b e (if bad then y.hallSpoil false (ea l) n else y) ls
    (y, (l, (old, bad)) :: t)

/-- `amoh` (R206, R207, R209). -/
def execAmoh (h : Ctl) (f : Amo) (s : State) : Out :=
  issue h (Amo.uses f 1) (fun c =>
    let b := c.opnd f.ty.is64 [f.a] f.b
    let e := c.opnd f.ty.is64 [] f.d
    let ea := c.hallEa f.a (.imm 0)
    match firstTrap [c.poisoned [(1, (c.single [] f.a).poi), (2, b.poi), (0, fun l => f.op == .cas && e.poi l)],
                     c.laneAlign (accBytes f.ty) ea, c.laneOutside false (accBytes f.ty) ea] with
    | some t => .trap c.s t
    | none =>
      let act := fun c : Iss =>
        let (x, t) := amohLanes f ea b.val e.val c.b c.lanes
        Act.ok (((c.withBlock x).putOlds f t).stir.meter [(13, c.lanes.length)])
      if Order.releases f.ord then
        match c.release with
        | .error s => .hold s
        | .ok c => act c
      else act c) s

/-! ## Hints (R210) -/

/-- The lanes of a hint that translate and are not poisoned, with their pages. A hint has no access size, so that no address
is unaligned for it (DESIGN CHOICE, log 69). -/
def Iss.hinted (c : Iss) (a : Opnd) (off : Offset) : List Phys :=
  c.lanes.filterMap fun l =>
    if (c.pair a).poi l || c.offPoison off l then none
    else match c.s.translate c.k.ctx c.k.core (c.ea a off l) .load with
      | .ok p => some p
      | .error _ => none

/-- A line brought towards the core: into L1 as a leased copy, or into its home slice. -/
def State.prefetch (s : State) (c core : Nat) (l2 : Bool) (p : Phys) : State :=
  let la := p.pa / 128
  match s.homeDie la with
  | none => s
  | some d =>
    if (s.die d).lost || ((s.core core).hit la).isSome then s
    else if l2 || !p.cached || p.bolt then s.touch c la
    else
      let lclk := (s.core core).lclk
      let (s, bs, _) := s.agentRead c (dieOf core) false (la * 128) 128
      let (s, w, r) := s.lease (s.ctx c).lease core la lclk
      let bad := s.linePoison la
      s.modCore core fun k => (k.raise w).install la { data := bs, rts := r, poison := bad }

/-- `pref` (R210): it follows the skein's earlier accesses to the line (R195). -/
def execPref (h : Ctl) (l2 : Bool) (a : Opnd) (off : Offset) (s : State) : Out :=
  issue h { a := regsOf a 2, b := regsOfOff off } (fun c =>
    let ps := c.hinted a off
    if c.behind (ps.map fun p => p.pa / 128) false then .hold c.s
    else .ok (c.at (ps.foldl (fun s p => s.prefetch c.k.ctx c.k.core l2 p) c.s))) s

/-- A line leaves the core's L1, and under device or system scope its home writes it to HBM. -/
def State.flushCopy (s : State) (core : Nat) (wide : Bool) (la : Nat) : State :=
  let s := s.flushLine core la
  let s := s.modCore core fun k => { k with l1 := tdel k.l1 la }
  let s := if (tget (s.core core).merges la).isSome then s.returnCopy la core else s
  if wide then s.writeBack la else s

/-- `cflush` (R210): it follows the skein's earlier accesses to the line (R195). -/
def execCflush (h : Ctl) (scope : Scope) (a : Opnd) (off : Offset) (s : State) : Out :=
  issue h { a := regsOf a 2, b := regsOfOff off } (fun c =>
    let ps := c.hinted a off
    if c.behind (ps.map fun p => p.pa / 128) false then .hold c.s
    else .ok (c.at (ps.foldl (fun s p => s.flushCopy c.k.core (!Scope.narrow scope) (p.pa / 128)) c.s))) s

end Sys2Proof.Machine
end

