-- ==== Sys2Proof/Machine/IssueSteps.lean ====
section
/-! DEFINITION. Steps around the issue of a skein: fetch, stalls, promotion, landing, store faults and boundary causes,
wakes, the watchdog, sleep and leave (spec 03 R86 to R90, R99, R100; 07 R199, R203, R205, R217; 11 R302; 12 R317;
15 R399). A step that is a message under way acts only while it is in the list of steps under way. -/

namespace Sys2Proof.Machine

/-- A step under way is over. -/
def State.finished (s : State) (i : Instr) : State := { s with pending := s.pending.erase i }

/-- A message acts, or nothing happens when it is not under way. -/
def message (i : Instr) (s : State) (f : State → State) : Out :=
  match s.take? i with
  | none => .next s
  | some t => .next (f t)

/-- A step acts when its condition holds. -/
def when (b : Bool) (s : State) (f : State → State) : Out := if b then .next (f s) else .next s

/-! ## Words that trap and lines (R86, R87, R90, R102, R106) -/

/-- ILLEGAL_OP of the word at the PC of the issuing skein (R102, R106). -/
def execIllegalOp (op : BitVec 8) (s : State) : Out :=
  match tget s.skeins s.cur with
  | none => .fault (.noSkein s.cur)
  | some k =>
    match k.fetched with
    | .illegalOp o =>
      when (o == op) s fun s => s.takeTrap s.cur { code := 0x01, info := op.setWidth 64 } k.pc
    | _ => .next s

/-- The slots of a line that a poisoned unit meets; the header counts for every slot (R326). -/
def badSlots (us : List (Nat × Nat)) (pa : Nat) : List Nat :=
  (List.range 10).filter fun i => poisonedAt us (pa + 8 + 12 * i) 12 || poisonedAt us pa 8

/-- The line of a core's instruction cache that a skein may use (R215, R251). -/
def CoreSt.codeLine (k : CoreSt) (la fenced : Nat) : Option CodeLine :=
  k.icache.find? fun x => x.la == la && decide (fenced ≤ x.taken)

/-- A code line taken in by an instruction cache of 128 KiB: the oldest of 1,024 lines makes room (R251). -/
def CoreSt.takeCode (k : CoreSt) (x : CodeLine) : CoreSt :=
  { k with icache := lastOf 1024 (k.icache.filter (fun y => y.la != x.la) ++ [x]) }

/-- A code line for a skein: from the core's instruction cache, else from its home, and then the cache takes it in unless it is
poisoned (R251, R326). -/
def State.codeAt (s : State) (k : Skein) (p : Phys) : State × List Byte × List (Nat × Nat) :=
  let la := p.pa / 128
  match (s.core k.core).codeLine la k.fenced with
  | some x => (s, x.bytes, [])
  | none =>
    let (s, bs, _) := s.agentRead k.ctx (dieOf k.core) p.bolt p.pa 128
    let us := s.linePoison la
    let s := if us.isEmpty then s.modCore k.core fun c => c.takeCode { la := la, bytes := bs, taken := s.nextId } else s
    ({ s with nextId := s.nextId + 1 }, bs, us)

/-- A line fetched for a skein, or the fault put to the host (R90, R319). -/
def execLineFetch (sk line : Nat) (s : State) : Out :=
  match tget s.skeins sk with
  | none => .next s
  | some k =>
    if k.pc.toNat / 128 != line || k.park != .no then .next s
    else
      let va := BitVec.ofNat 64 (line * 128)
      match s.translate k.ctx k.core va .fetch with
      | .error _ =>
        .next ((s.modSkein sk fun x => { x with park := .walk va .fetch none }).postOnce (.translationWalk sk va .fetch))
      | .ok p =>
        let s := s.fillTlb k.ctx k.core va
        let (s, bs, us) := s.codeAt k p
        let bad := (badSlots us p.pa).map fun i => (line, i)
        .next (s.modSkein sk fun x => { x with lines := [(line, bs)], badWords := bad })

/-! ## Stalls, promotion, landing (R99, R100, R199, R302) -/

/-- A STALL whose clocks have passed (R100). -/
def execStallElapse (sk : Nat) (s : State) : Out :=
  match tget s.skeins sk with
  | none => .next (s.finished (.stallElapse sk))
  | some k =>
    when (decide (k.readyAt + k.stall ≤ s.clk)) s fun s =>
      (s.setSkein sk { k with stall := 0, readyAt := if k.stall = 0 then k.readyAt else s.clk }).finished
        (.stallElapse sk)

/-- A ready skein that has waited 3,072 clocks is promoted (R302). -/
def execIssuePromotion (sk : Nat) (s : State) : Out :=
  match tget s.skeins sk with
  | none => .next s
  | some k =>
    when (s.ready k && k.promoted.isNone && decide (k.readyAt + 3072 ≤ s.clk)) s fun s =>
      s.setSkein sk { k with promoted := some s.clk }

/-- A flag that an instruction of a skein held comes down; a flag number from 12 on names none. -/
def State.landFlag (s : State) (sk : Nat) (flag : Option Nat) : State :=
  match flag with
  | some f => s.modSkein sk fun k => k.landFlag s.clk f
  | none => s

/-- What the head of a loom's order waits for: a rounding writes in two parts, a transfer waits for its lines (R181, R189). -/
def State.loomStep (s : State) (core : Nat) (o : LoomOp) : Option State :=
  match o.act with
  | .round _ _ _ _ _ _ none => some (s.loomBegin core o)
  | .lines => if s.flushed core o.sk then none else some s
  | _ => none

/-- A result lands: its stores are acknowledged or recorded, or its group 4 instruction is applied in loom order, and its flag
comes down (R99, R180, R189, R199). -/
def execResultLand (sk : Nat) (r : Landing) (s : State) : Out :=
  match r.op with
  | none =>
    match tget s.skeins sk with
    | none => .next (s.finished (.resultLand sk r))
    | some k =>
      if s.flushed k.core sk then message (.resultLand sk r) s fun s => s.landFlag sk r.flag else .next s
  | some n =>
    match s.loomHead n with
    | none => .next (if s.inLoom n then s else s.finished (.resultLand sk r))
    | some (core, o) =>
      match s.loomStep core o with
      | some s => .next s
      | none => message (.resultLand sk r) s fun s => (s.loomLand core o).landFlag sk r.flag

/-- The line that a lane of a load has bound, under the attributes of its mapping (R268). -/
def LoadOp.lineOf (o : LoadOp) (x : LoadLane) (a : Nat) : Option GotLine :=
  o.got.find? fun g => g.la == a / 128 && g.att == x.att

/-- The byte at an address that a lane of a load has bound: a store byte of its own core, or a byte of the line (R252). -/
def LoadOp.byte (o : LoadOp) (x : LoadLane) (a : Nat) : Byte :=
  match o.overlay.find? fun c => c.1 == a with
  | some c => c.2
  | none => ((o.lineOf x a).map fun g => g.data.getD (a % 128) 0).getD 0

/-- The byte was bound poisoned. -/
def LoadOp.byteBad (o : LoadOp) (x : LoadLane) (a : Nat) : Bool :=
  !(o.overlay.any fun c => c.1 == a) && ((o.lineOf x a).map fun g => poisonedAt g.poison a 1).getD false

/-- The bolt of a lane of a `bld`, and whether its line is poisoned (R164, R266). -/
def LoadOp.boltOf (o : LoadOp) (x : LoadLane) : Bolt × Bool :=
  match o.lineOf x x.pa with
  | some g => (boltOfLine g.data, poisonedAt g.poison x.pa 128)
  | none => (Bolt.zero, false)

/-- The value and poison of a lane of a load (R193, R199, R397). -/
def LoadOp.value (o : LoadOp) (x : LoadLane) : DWord × Bool :=
  match tget o.olds x.lane with
  | some v => (v, o.oldBad.contains x.lane)
  | none =>
    let as := (List.range (accBytes o.ty)).map (x.pa + ·)
    (extendTo o.ty (ofLeBytes (as.map (LoadOp.byte o x))), as.any (LoadOp.byteBad o x))

/-- Every lane's value is bound. -/
def LoadOp.bound (o : LoadOp) : Bool :=
  o.lanes.all fun x => (tget o.olds x.lane).isSome || (o.lineOf x x.pa).isSome

/-- The destination registers of a load written (R157, R164, R199). -/
def Skein.bind (k : Skein) (o : LoadOp) : Skein :=
  let act := Mask.ofFn 64 fun l => o.lanes.any fun x => x.lane == l
  if o.noDst then k
  else if o.bolt then
    let bs := o.lanes.map fun x => (x.lane, LoadOp.boltOf o x)
    k.setBolt o.dst act .general (fun l => ((tget bs l).getD (Bolt.zero, false)).1)
      (fun l => ((tget bs l).getD (Bolt.zero, false)).2) 24
  else
    let vs := o.lanes.map fun x => (x.lane, LoadOp.value o x)
    let val := fun l => ((tget vs l).getD (0, false)).1
    let bad := fun l => ((tget vs l).getD (0, false)).2
    let tag := if o.uniform then Shape.uniform else .general
    if o.ty.is64 then k.setPair o.dst act tag val bad else k.setReg o.dst act tag (fun l => (val l).setWidth 32) bad

/-- A load lands: its destination is written, and its flag comes down (R199). -/
def Skein.land (k : Skein) (clk : Nat) (o : LoadOp) : Skein :=
  let k := { (k.bind o) with loads := k.loads.filter fun x => x.id != o.id }
  match o.flag with
  | some f => k.landFlag clk f
  | none => k

/-- A load's data lands in its destination (R199). -/
def execLoadDataLand (sk op : Nat) (s : State) : Out :=
  message (.loadDataLand sk op) s fun s =>
    s.modSkein sk fun k =>
      match k.loads.find? fun o => o.id == op && LoadOp.bound o with
      | some o => k.land s.clk o
      | none => k

/-! ## Store faults and boundary causes (R217, R317) -/

/-- A record that waits enters the queue when it has room (R217, R324). -/
def execStoreFaultRecord (r : StoreRec) (s : State) : Out :=
  match tget s.skeins r.sk with
  | none => .next (s.finished (.storeFaultRecord r))
  | some k =>
    if !((s.core k.core).recWait.contains r) then .next (s.finished (.storeFaultRecord r))
    else .next (s.enterRecords k.core r.sk)

/-- STORE_FAULT, or BOLT_PAGE, of a skein's records (R314): the cause and the lowest lane of the oldest, and their number. -/
def State.storeTrap (s : State) (core sk : Nat) : Trap :=
  let rs := (s.core core).recQ.filter fun r => r.sk == sk
  let low := (rs.head?.bind fun r => r.lanes.head?).map (·.ea)
  { code := (rs.head?.map (·.cause)).getD 0x11, addr := low.getD 0, info := BitVec.ofNat 64 rs.length }

/-- The STALL of the word at the PC, while its line is held. -/
def Skein.ownStall (k : Skein) : Nat :=
  match k.line with
  | some line => (ctlOf (slotWord line (k.pc.toNat % 128))).stall.toNat
  | none => 0

/-- A `sleep` completes (R245). -/
def State.sleepDone (s : State) (sk : Nat) (k : Skein) : State :=
  let n := k.ownStall
  let s := s.setSkein sk { (k.issued s.clk) with park := .no, pc := pcNext k.pc, stall := n }
  let s := s.meterAdd k.ctx 24 1
  if n = 0 then s else s.post (.stallElapse sk)

/-- The skein stands at a boundary where a cause can be taken. -/
def State.atBoundary (s : State) (k : Skein) : Bool :=
  !k.hnd && k.meeting == .no && !k.halted && !(s.ctx k.ctx).dbg.halt

/-- STORE_FAULT is taken: the indicator clears; a parked skein takes it at its parked instruction, and a `sleep` ends first
(R217, R245). -/
def execStoreFault (sk : Nat) (s : State) : Out :=
  match tget s.skeins sk with
  | none => .next (s.finished (.storeFault sk))
  | some k =>
    if !k.sfInd then .next (s.finished (.storeFault sk))
    else if !s.atBoundary k then .next s
    else
      let s := s.finished (.storeFault sk)
      let s := match k.park with
        | .sleep _ _ => s.sleepDone sk k
        | _ => s
      let pc := ((tget s.skeins sk).getD k).pc
      let t := s.storeTrap k.core sk
      .next ((s.modSkein sk fun x => { x with sfInd := false }).takeTrap sk t pc)

/-- A held boundary cause is taken, the oldest first, behind STORE_FAULT (R317). -/
def execBoundaryCause (sk : Nat) (s : State) : Out :=
  match tget s.skeins sk with
  | none => .next (s.finished (.boundaryCause sk))
  | some k =>
    match k.held with
    | [] => .next (s.finished (.boundaryCause sk))
    | c :: cs =>
      if s.atBoundary k && k.park == .no && !k.sfInd then
        let s := if cs.isEmpty then s.finished (.boundaryCause sk) else s
        .next ((s.setSkein sk { k with held := cs }).takeTrap sk { code := c.code, addr := c.addr, info := c.info } k.pc)
      else .next s

/-! ## Wakes (R94, R201, R203, R205, R214) -/

/-- The condition of a parked skein holds as its block stands; a channel wait is looked at again. -/
def parkHolds (b : Block) : Park → Bool
  | .word _ _ offs full => offs.all fun o => b.isFull full (o / 4)
  | .countHall _ _ off n => decide (n.toNat ≤ b.hallNat false off 8)
  | .chan _ _ _ => true
  | _ => false

/-- A skein of the block whose condition holds too parked before, or at the same clock with a lower number (R203). -/
def State.parkedBefore (s : State) (b : Block) (k : Skein) : Bool :=
  b.skeins.any fun i => match tget s.skeins i with
    | none => false
    | some x =>
      match x.park, Park.since x.park, Park.since k.park with
      | .word _ _ _ _, some t, some u => parkHolds b x.park && (decide (t < u) || (t == u && decide (x.num < k.num)))
      | .countHall _ _ _ _, some t, some u =>
        (x.met || parkHolds b x.park) && (decide (t < u) || (t == u && decide (x.num < k.num)))
      | _, _, _ => false

/-- The skein performs at once what it waited for. -/
def State.perform (s : State) (sk : Nat) : State :=
  let s := s.wake sk
  { s with sched := .now sk :: s.sched }

/-- A skein parked on full/empty words, on a count word in hall A, or on a channel is woken (R203). -/
def execSkeinWake (sk : Nat) (s : State) : Out :=
  match tget s.skeins sk with
  | none => .next (s.finished (.skeinWake sk))
  | some k =>
    let b := (tget s.blocks k.blk).getD {}
    if s.haltedAt k then .next s
    else if !(k.met || parkHolds b k.park) then .next (s.finished (.skeinWake sk))
    else
      match k.park with
      | .chan _ _ _ => .next ((s.finished (.skeinWake sk)).perform sk)
      | _ => if s.parkedBefore b k then .next s else .next ((s.finished (.skeinWake sk)).perform sk)

/-- What WAIT_WATCHDOG reports of a wait (R314). -/
def watchdogTrap : Park → Option Trap
  | .word _ lane offs _ => some { code := 0x14, addr := BitVec.ofNat 64 (offs.headD 0), lane := some lane }
  | .count _ lane _ va _ => some { code := 0x14, addr := va, lane := some lane }
  | .countHall _ lane off _ => some { code := 0x14, addr := BitVec.ofNat 64 off, lane := some lane }
  | .chan _ lane c => some { code := 0x14, addr := BitVec.ofNat 64 c, lane := some lane }
  | _ => none

/-- A skein parked for 2^32 clocks traps at its parked instruction (R205). -/
def execWaitWatchdog (sk : Nat) (s : State) : Out :=
  match tget s.skeins sk with
  | none => .next s
  | some k =>
    match watchdogTrap k.park, Park.since k.park with
    | some t, some u => when (decide (u + 2 ^ 32 ≤ s.clk) && !s.haltedAt k) s fun s => s.takeTrap sk t k.pc
    | _, _ => .next s

/-- A `sleep` whose clocks have passed completes (R245). -/
def execSleepExpire (sk : Nat) (s : State) : Out :=
  match tget s.skeins sk with
  | none => .next (s.finished (.sleepExpire sk))
  | some k =>
    match k.park with
    | .sleep t n => when (decide (t + n ≤ s.clk) && !s.haltedAt k) s fun s => (s.sleepDone sk k).finished (.sleepExpire sk)
    | _ => .next (s.finished (.sleepExpire sk))

/-! ## Leave (R399) -/

/-- Leave granted to an asker: a skein goes on, a copy record starts. -/
def State.grantLeave (s : State) : Asker → State
  | .skein i => s.modSkein i fun k => { k with leave := .granted, readyAt := s.clk }
  | .record p n =>
    match s.record p n with
    | some r => s.setRecord p { r with leave := .granted }
    | none => s

/-- The oldest ask of a core is granted when the allowance holds enough (R399). -/
def execLeaveGrant (core : Nat) (s : State) : Out :=
  let k := s.core core
  match k.asks with
  | [] => .next (s.finished (.leaveGrant core))
  | (a, n) :: asks =>
    when (k.grants n) s fun s =>
      let s := if asks.isEmpty then s.finished (.leaveGrant core) else s
      (s.setCore core { (k.deduct n) with asks := asks }).grantLeave a

/-- The allowance gains REFILL units for each microsecond that has passed, up to 4 × REFILL (R399). -/
def execAllowanceRefill (core : Nat) (s : State) : Out :=
  let k := s.core core
  let q := (s.gt - k.refillAt) / 1000
  .next (s.setCore core { k with
    refillAt := k.refillAt + 1000 * q, allow := min (4 * k.refill : Nat) (k.allow + (q * k.refill : Nat)) })

end Sys2Proof.Machine
end

