-- ==== Sys2Proof/Machine/MemBolt.lean ====
section
/-! DEFINITION. Bolts in memory: `bld`, `bst`, `bamo` (spec 05 R164 to R168) with merge state (09 R258, R259), and the
tile transfers `msave` and `mload` (06 R178, R179, R183, R189). -/

namespace Sys2Proof.Machine

/-! ## Lanes and pages (R164, R166) -/

/-- The page holds bolts: attribute BOLT, on an address that has a home here (R265). -/
def Phys.boltPage (p : Phys) : Bool := p.bolt && regionOf p.pa == .localHbm

/-- A lane that cannot act: BOLT_PAGE where it translates, else STORE_FAULT. -/
def boltCause (r : Reached) : Option Nat :=
  match r.phys with
  | .error _ => some 0x11
  | .ok p => if p.boltPage then none else some 0x15

/-- The lanes that act. -/
def boltReached (rs : List Reached) : List (Nat × Phys) :=
  (reached rs).filter fun x => x.2.boltPage

/-- The lanes that cannot act, with their causes. -/
def boltFaulted (rs : List Reached) : List (Nat × Nat) :=
  rs.filterMap fun r => (boltCause r).map fun c => (r.lane, c)

/-- BOLT_PAGE taken precisely (R314). -/
def boltPageTrap (va : DWord) : Trap := { code := 0x15, addr := va }

/-- What stops a form whose faults are precise: the lowest lane that cannot act (R166; DESIGN CHOICE, log 71). -/
def Iss.boltStop (c : Iss) (acc : Acc) (rs : List Reached) : Option Act :=
  (rs.find? fun r => (boltCause r).isSome).map fun r =>
    if boltCause r == some 0x15 then .trap c.s (boltPageTrap r.va) else c.walk acc r.lane r.va

/-- The checks on a line address of each lane (R164, R166): POISON before ALIGN, as for loads and stores (R198;
DESIGN CHOICE, log 71). -/
def Iss.lineTrap (c : Iss) (a : Opnd) : Option Trap :=
  firstTrap [c.poisoned [(1, (c.pair a).poi)], c.laneAlign 128 fun l => ((c.pair a).val l).toNat]

/-! ## `bld` and `bst` (R164) -/

/-- A line read at its home after the recall (R85, R260): its bolt, and whether the line is poisoned. -/
def State.readBolt (s : State) (c core la : Nat) : State × Bolt × Bool :=
  let (s, bs, bad) := s.coreRead c core true (la * 128) 128
  (s, boltOfLine bs, bad)

/-- A `bld` put under way: each line is read at its home and its bolt lands later (R164). -/
def Iss.startBld (c : Iss) (d : Opnd) (ls : List (Nat × Phys)) : Iss :=
  let c := c.at (ls.foldl (fun s x => s.flushLine c.k.core (x.2.pa / 128)) c.s)
  c.putUnderWay { id := 0, dst := opIdx d, ty := .n32, lanes := ls.map fun x => ⟨x.1, x.2.pa, 2⟩, got := [], overlay := [],
                  flag := Ctl.flag c.h, strong := false, acq := false, uniform := false, olds := [], bolt := true }
    ((ls.map fun x => (x.2.pa / 128, 2)).eraseDups)

/-- Bolts written to a destination group, lanes of poisoned lines poisoned (R157, R266). -/
def Iss.putBolts (c : Iss) (d : Opnd) (t : Tbl (Bolt × Bool)) : Iss :=
  c.putBolt d .general (fun l => ((tget t l).getD (Bolt.zero, false)).1) fun l => ((tget t l).getD (Bolt.zero, false)).2

/-- `bld` (R164, R166). -/
def execBld (h : Ctl) (d a : Opnd) (s : State) : Out :=
  issue h { a := regsOf a 2, d := regsOf d 24 } (fun c =>
    match c.lineTrap a with
    | some t => .trap c.s t
    | none =>
      let rs := c.reach .load (c.pair a).val
      match c.boltStop .load rs with
      | some r => r
      | none =>
        let c := c.fill rs
        let ls := boltReached rs
        if c.behind (ls.map fun x => x.2.pa / 128) false || c.s.tooMany c.k.core ls.length then .hold c.s
        else .done (c.startBld d ls) false) s

/-- The line that a bolt is stored as: normal form, count 0 (R164). -/
def storedLine (b : Bolt) : List Byte := boltLine (boltNorm b) 0

/-- The lines that lanes' bolts write, in order of line: the highest lane of a line remains (R164). -/
def boltStores (b : Nat → Bolt) (ls : List (Nat × Phys)) : List LineStore :=
  let t : Tbl LineStore := ls.foldl (fun t x =>
    tput t (x.2.pa / 128) { la := x.2.pa / 128, bytes := cellsAt x.2.pa (storedLine (b x.1)), cached := false }) []
  t.map Prod.snd

/-- The contributions of stored lines: the lane whose value remains (R390, R391). -/
def bstDigest (b : Nat → Bolt) (va : Nat → DWord) : List (Nat × Phys) → DWord
  | [] => 0
  | x :: xs => (if xs.any fun y => y.2.pa == x.2.pa then 0 else digestOf (va x.1) (storedLine (b x.1)))
      + bstDigest b va xs

/-- `bst` (R164, R166): its lines enter the store-combining buffer, whole (R252). Records of bolt lines carry no data
(R243). -/
def execBst (h : Ctl) (a b : Opnd) (s : State) : Out :=
  issue h { a := regsOf a 2, b := regsOf b 24 } (fun c =>
    match c.lineTrap a with
    | some t => .trap c.s t
    | none =>
      let va := (c.pair a).val
      let rs := c.reach .store va
      let c := c.fill rs
      let ls := boltReached rs
      let bad := boltFaulted rs
      if c.behind (ls.map fun x => x.2.pa / 128) false then .hold c.s
      else
        let x := c.bolt b
        let recs := c.records 15 va (fun _ => 0) (fun _ => false) bad
        match c.sendAll false false (!bad.isEmpty) (boltStores x ls) with
        | none => .hold c.s
        | some c => .done ((c.commit (bstDigest x va ls)).record recs) (!bad.isEmpty)) s

/-! ## `bamo` (R165, R258, R259) -/

/-- The slice's merge directory has room for a holder of the line (R259). -/
def State.dirRoom (s : State) (la : Nat) : Bool :=
  (tget s.mergeDir la).isSome
    || decide ((s.mergeDir.filter fun p => s.homeSlice p.1 == s.homeSlice la).length < 4096)

/-- Merge state granted to a core: a partial of zero and a count of 0 (R258). A full L1 gives up a copy for it, a leased one
where it has one, else its first partial (R261). -/
def State.grant (s : State) (c core la : Nat) : State :=
  if !s.dirRoom la then s
  else
    let s := s.modCore core fun k => { k with l1 := tdel k.l1 la }
    let k := s.core core
    let s := if k.l1.length + k.merges.length < 4096 then s
      else match k.l1, k.merges with
        | [], q :: _ => s.returnCopy q.1 core
        | _, _ => s.modCore core CoreSt.makeRoom
    { (s.modCore core fun k => { k with merges := tput k.merges la { ctx := c, bolt := Bolt.zero, count := 0 } }) with
      mergeDir := tput s.mergeDir la ((tget s.mergeDir la).getD [] ++ [core]) }

/-- An addition made at the line's home by an agent at a place, with its logical time (R165, R255): stamps, bolt and count.
A lost home discards it (R358). Answers the wts of the acknowledgement. -/
def State.homeAddBy (s : State) (c : Nat) (src : Option Nat) (la : Nat) (l : Stamp) (f : Bolt → Bolt) : State × Stamp :=
  match s.homeDie la with
  | none => (s, l)
  | some d =>
    if (s.die d).lost then ((s.carry c src none 128).discardAt la, l)
    else
      let s := (s.touch c la).carry c src (some d) 128 (flowNum (placeNum src) (s.placeOf la) 0)
      let h := s.homeLine la
      let w := Stamp.max l (h.rts + 1)
      let s := s.setLine la { h with wts := w, rts := w, dirty := some c, relCore := none }
      let s := s.putBolt la (f (s.lineBolt la)) (satAdd64 (countOfLine (s.lineBytes la)) 1)
      (s.wakeLine la, w)

/-- An addition made at the line's home by a core. -/
def State.homeAdd (s : State) (c core la : Nat) (f : Bolt → Bolt) : State :=
  let (s, w) := s.homeAddBy c (dieOf core) la (s.core core).lclk f
  s.modCore core fun k => k.raise w

/-- An addition without RET: in the core's partial, or at the home, which may grant merge state (R258). -/
def State.boltAdd (s : State) (c core : Nat) (p : Phys) (f : Bolt → Bolt) : State :=
  let la := p.pa / 128
  match tget (s.core core).merges la with
  | some m =>
    if p.cached then s.modCore core fun k => { k with
      merges := tput k.merges la { m with bolt := f m.bolt, count := satAdd64 m.count 1 } }
    else s.homeAdd c core la f
  | none =>
    let s := s.homeAdd c core la f
    if p.cached && !s.homeLost la then s.grant c core la else s

/-- What a lane adds (R159, R165). -/
def Iss.boltAddition (c : Iss) (f : BAmo) (l : Nat) : Bolt → Bolt :=
  let b := c.single [] f.b
  let e := c.single [f.b] f.c
  match f.form with
  | .value => fun z => addAll z (b.poi l) (baddAddends f.ty (b.val l).toNat)
  | .mul => fun z => addAll z (b.poi l || e.poi l) (bmacAddends f.ty (b.val l).toNat (e.val l).toNat)
  | .bolt => let x := c.bolt f.b l; fun z => boltMerge z x

/-- Lanes' additions in ascending order; with RET, each lane's line as its addition left it. -/
def bamoLanes (c : Iss) (f : BAmo) : State → List (Nat × Phys) → State × Tbl (Bolt × Bool)
  | s, [] => (s, [])
  | s, (l, p) :: ls =>
    let core := c.k.core
    let la := p.pa / 128
    let s := s.flushLine core la
    let add := c.boltAddition f l
    if f.ret then
      let s := (s.recallNow la).homeAdd c.k.ctx core la add
      let r := (boltNorm (s.lineBolt la), s.homeLost la)
      let (s, t) := bamoLanes c f s ls
      (s, (l, r) :: t)
    else bamoLanes c f (s.boltAdd c.k.ctx core p add) ls

/-- The registers of `bamo`. -/
def BAmo.uses (f : BAmo) : Uses :=
  { a := regsOf f.a 2, b := regsOf f.b (if f.form == .bolt then 24 else 1),
    c := if f.form == .mul then regsOf f.c 1 else [], d := if f.ret then regsOf f.d 24 else [] }

/-- The meter of n committed lanes of `bamo` (R168). -/
def bamoMeter (f : BAmo) (n : Nat) : List (Nat × Nat) :=
  (11, n) :: if f.form == .mul then [(macCounter f.ty, elemsOf f.ty * n)] else []

/-- `bamo` (R165, R166). -/
def execBamo (h : Ctl) (f : BAmo) (s : State) : Out :=
  issue h (BAmo.uses f) (fun c =>
    match c.lineTrap f.a with
    | some t => .trap c.s t
    | none =>
      let va := (c.pair f.a).val
      let rs := c.reach .boltAtomic va
      match if f.ret then c.boltStop .boltAtomic rs else none with
      | some r => r
      | none =>
        let c := c.fill rs
        let ls := boltReached rs
        let bad := boltFaulted rs
        let las := ls.map fun x => x.2.pa / 128
        if c.behind las true || c.behindWrites las then .hold c.s
        else
          let b := c.single [] f.b
          let recs := if f.form == .bolt then c.records 15 va (fun _ => 0) (fun _ => false) bad
            else c.records 15 va b.val b.poi bad
          let (s, t) := bamoLanes c f c.s ls
          let c := c.at s
          let c := if f.ret then c.putBolts f.d t else c
          .done ((c.record recs).meter (bamoMeter f ls.length)) (!bad.isEmpty)) s

/-! ## Tiles (R178, R179) -/

/-- The virtual address of line i of a tile in row-major order (R178). -/
def tileVa (a st i : Nat) : DWord := BitVec.ofNat 64 (a + i / 96 * st + i % 96 * 128)

/-- The lines of a tile, each reached or not. -/
def Iss.tileReach (c : Iss) (acc : Acc) (a st : Nat) : List Reached :=
  (List.range 6144).map fun i => ⟨i, tileVa a st i, c.s.translate c.k.ctx c.k.core (tileVa a st i) acc⟩

/-- What stops a tile transfer at its pages, in the order of the table of R179: a page without translation or that may not be
written, then a page without BOLT. -/
def Iss.tileStop (c : Iss) (acc : Acc) (rs : List Reached) : Option Act :=
  match rs.find? fun r => boltCause r == some 0x11 with
  | some r => some (.park (c.s.postOnce (.translationWalk c.id r.va acc)) (.walk r.va acc none))
  | none => (rs.find? fun r => (boltCause r).isSome).map fun r => .trap c.s (boltPageTrap r.va)

/-- The checks of a tile transfer before its pages (R179). -/
def Iss.tilePre (c : Iss) (f : MTile) : Option Trap :=
  firstTrap [
    c.poisoned [(1, c.lowOnly (c.pair f.a)), (2, c.lowOnly (c.single [] f.b))],
    misaligned ((c.pair f.a).val c.low).toNat 128 c.low, misaligned (c.lowNat f.b) 128 c.low, c.noPart f.p.toNat]

/-- A weak line enters the buffer, or goes to its home at once where the buffer is full (R183, R252). -/
def State.bufferLine (s : State) (c core sk : Nat) (w : LineStore) : State :=
  match s.combine c core sk none w with
  | some s => s
  | none => (s.flushLine core w.la).coreStore c core w.la w.bytes

/-- Lines of a tile written or merged in row-major order (R178). -/
def saveLines (c : Iss) (merge : Bool) (x : Part) : State → List (Nat × Phys) → State
  | s, [] => s
  | s, (i, p) :: ls =>
    let core := c.k.core
    let b := x.bolt i
    saveLines c merge x
      (if merge then (s.flushLine core (p.pa / 128)).boltAdd c.k.ctx core p fun z => boltMerge z b
       else s.bufferLine c.k.ctx core c.id
        { la := p.pa / 128, bytes := cellsAt p.pa (storedLine b), cached := false }) ls

/-- A tile transfer acts once every earlier instruction of the loom's order has landed (R180). -/
def Iss.loomBusy (c : Iss) : Bool := !(c.s.core c.k.core).loom.isEmpty

/-- `msave` (R178, R179, R183): hall C is read when it issues, and it lands once its lines are acknowledged (R189). -/
def execMsave (h : Ctl) (f : MTile) (s : State) : Out :=
  issue h { a := regsOf f.a 2, b := regsOf f.b 1 } (fun c =>
    match c.tilePre f with
    | some t => .trap c.s t
    | none =>
      let a := ((c.pair f.a).val c.low).toNat
      let st := c.lowNat f.b
      let rs := c.tileReach .tileStore a st
      match c.tileStop .tileStore rs with
      | some r => r
      | none =>
        let c := c.fill rs
        let ls := reached rs
        let las := ls.map fun x => x.2.pa / 128
        if c.loomBusy || c.behind las f.merge || (f.merge && c.behindWrites las) then .hold c.s
        else
          let x := ((c.part f.p.toNat).map Prod.snd).getD { ctx := c.k.ctx }
          let c := c.at (saveLines c f.merge x c.s ls)
          if f.merge then (c.meter [(11, 6144)]).toLoom .lines
          else (c.commit (bstDigest x.bolt (tileVa a st) ls)).toLoom .lines) s

/-- Lines of a tile read in row-major order (R178): a poisoned line gives S.POISON. -/
def loadLines (c : Iss) : State → List (Nat × Phys) → State × List Bolt
  | s, [] => (s, [])
  | s, (_, p) :: ls =>
    let core := c.k.core
    let (s, b, bad) := (s.flushLine core (p.pa / 128)).readBolt c.k.ctx core (p.pa / 128)
    let (s, bs) := loadLines c s ls
    (s, (if bad then { b with poison := true } else b) :: bs)

/-- `mload` (R178, R179, R183): hall C is written when it issues, and no later loom instruction acts before it has landed. -/
def execMload (h : Ctl) (f : MTile) (s : State) : Out :=
  issue h { a := regsOf f.a 2, b := regsOf f.b 1 } (fun c =>
    match c.tilePre f with
    | some t => .trap c.s t
    | none =>
      let rs := c.tileReach .tile ((c.pair f.a).val c.low).toNat (c.lowNat f.b)
      match c.tileStop .tile rs with
      | some r => r
      | none =>
        let c := c.fill rs
        let ls := reached rs
        if c.loomBusy || c.behind (ls.map fun x => x.2.pa / 128) false then .hold c.s
        else
          let (s, bs) := loadLines c c.s ls
          ((c.at s).setPart f.p.toNat (boltTable fun i => bs.getD i Bolt.zero)).toLoom .lines) s

end Sys2Proof.Machine
end

