-- ==== Sys2Proof/Machine/Caches.lean ====
section
/-! DEFINITION. Steps of the caches and homes: the store path, leases, clocks, merge state, wakes, promotion, translation
walks and ordered entries (spec 09 R251 to R261, 13 R359, 10 R280, 12 R319, R321, R335 to R338, 15 R394 to R397). -/

namespace Sys2Proof.Machine

/-! ## The store path (R252, R255) -/

/-- The oldest entry of a line that is still in the buffer is sent to its home, one at a time for a line (R195, R252). -/
def execScbDrain (core la : Nat) (s : State) : Out :=
  if !(s.pending.contains (.scbDrain core la)) || (s.sentEntry core la).isSome then .next s
  else
    let s := s.finished (.scbDrain core la)
    let k := s.core core
    match k.scb.find? fun e => !e.sent && e.la == la with
    | none => .next s
    | some e =>
      let r : WriteReq := { core := core, ctx := e.ctx, la := la, bytes := e.bytes, lclk := k.lclk, cached := e.cached,
                            writers := e.writers, narrow := false }
      .next ((s.setCore core { k with scb := k.scb.map fun x => if x == e then { x with sent := true } else x }).post
        (.homeWrite r))

/-- A write reaches its home, which places it after every lease, and acknowledges it (R255); units that a replay spoiled are
poisoned (R354). -/
def State.homeTakes (s : State) (r : WriteReq) : State :=
  let (s, w) := s.homeStore r.ctx (dieOf r.core) r.la r.lclk r.bytes (if r.narrow then some r.core else none)
  let a : WriteAck := { core := r.core, ctx := r.ctx, la := r.la, bytes := r.bytes, wts := w, cached := r.cached,
                        writers := r.writers }
  (s.spoilUnits r.la r.bad).post (.writeAck a)

/-- A write reaches its home (R255). -/
def execHomeWrite (r : WriteReq) (s : State) : Out := message (.homeWrite r) s fun s => s.homeTakes r

/-- An acknowledgement reaches the writing core (R255). -/
def execWriteAck (r : WriteAck) (s : State) : Out :=
  message (.writeAck r) s fun s => (s.ackStore r.core r.la r.bytes r.wts).dropSent r.core r.la

/-! ## Loads (R255) -/

/-- The bytes that a load takes from a line. -/
def State.wanted (s : State) (r : LoadReq) : Nat :=
  match (tget s.skeins r.sk).bind fun k => k.loads.find? fun o => o.id == r.op with
  | none => 0
  | some o => if o.bolt then 128
    else accBytes o.ty * (((o.lanes.map (·.pa)).filter fun p => p / 128 == r.la).eraseDups).length

/-- The home has served the request before: this is a duplicate (R359). -/
def State.servedBefore (s : State) (r : LoadReq) : Bool :=
  (s.homeDie r.la).isSome && (s.slice (s.homeSlice r.la)).knows r.tag

/-- The lease that a request gets: a duplicate is not applied again (R255, R359). -/
def State.leaseFor (s : State) (r : LoadReq) : State × Stamp × Stamp :=
  if s.servedBefore r then (s, (s.homeLine r.la).wts, (s.homeLine r.la).rts)
  else
    let (s, w, t) := s.lease r.lease r.core r.la r.lclk
    (if (s.homeDie r.la).isSome then s.completeTag r.la r.tag else s, w, t)

/-- A load request reaches its home: the recall, the lease, the reply (R255, R260); a duplicate's reply is sent again
(R359). -/
def execHomeLoad (r : LoadReq) (s : State) : Out :=
  message (.homeLoad r) s fun s =>
    let n := if r.cached then 128 else s.wanted r
    let (s, _, _) := s.agentRead r.ctx (dieOf r.core) r.bolt (r.la * 128) n
    let (s, w, t) := s.leaseFor r
    let a : LoadRep := { op := r.op, sk := r.sk, core := r.core, ctx := r.ctx, la := r.la, cached := r.cached && !r.bolt,
                         att := (if r.cached then 1 else 0) + if r.bolt then 2 else 0,
                         data := s.lineView r.bolt r.la, poison := s.linePoison r.la, wts := w, rts := t, tag := r.tag }
    s.post (.loadReply a)

/-- A load still waits for the reply (R359). -/
def State.awaits (s : State) (r : LoadRep) : Bool :=
  match tget s.skeins r.sk with
  | some k => k.loads.any fun o => o.id == r.op && o.asked.any fun q => q.1.tag == r.tag
  | none => false

/-- A line bound by a load that asked for it. -/
def LoadOp.took (o : LoadOp) (r : LoadRep) : LoadOp :=
  { o with got := o.got ++ [{ la := r.la, att := r.att, data := r.data, poison := r.poison }],
           asked := o.asked.filter fun q => q.1.tag != r.tag }

/-- A reply reaches the core: LCLK, the copy, and the load that asked; with its last line the load's data lands (R255). The
reply to a duplicate that nobody waits for changes nothing (R359). -/
def execLoadReply (r : LoadRep) (s : State) : Out :=
  message (.loadReply r) s fun s =>
    if !s.awaits r then s else
    let s := s.modCore r.core fun k =>
      let k := k.raise r.wts
      if r.cached && (tget k.merges r.la).isNone then
        k.install r.la { data := r.data, rts := r.rts, poison := r.poison }
      else k
    let s := s.modSkein r.sk fun k => { k with loads := k.loads.map fun o => if o.id == r.op then LoadOp.took o r else o }
    match (tget s.skeins r.sk).bind fun k => k.loads.find? fun o => o.id == r.op with
    | some o => if LoadOp.bound o then s.post (.loadDataLand r.sk r.op) else s
    | none => s

/-! ## Logical clocks (R37, R255, R257) -/

/-- The clocks of a logical tick of a core (R37). -/
def State.tickClocks (s : State) (core : Nat) : Nat :=
  (((s.onCore core).map fun c => (s.ctx c).ltick).min?).getD 256

/-- LCLK advances by one when its tick is due, with the sweep of R257; the next tick is due m clocks later, so that a change of
m acts from that tick on (R37, R255). -/
def execLclkTick (core : Nat) (s : State) : Out :=
  let k := s.core core
  when (decide (k.tickAt ≤ s.clk)) s fun s =>
    s.setCore core { (k.raise (k.lclk + 1)) with tickAt := k.tickAt + s.tickClocks core }

/-- The L2 sweep: old stamps of the homes and of the slices rise (R257). -/
def State.sweepL2 (s : State) (p : Stamp) : State :=
  let low := p - BitVec.ofNat 16 (2 ^ 14)
  let sweep := fun l : Nat × HomeLine =>
    if Stamp.behind l.2.rts p (2 ^ 14) then (l.1, { l.2 with wts := low, rts := low }) else l
  let s := { s with lines := s.lines.map sweep }
  (List.range 64).foldl (fun s n =>
    if Stamp.behind (s.slice n).mts p (2 ^ 14) then
      s.modSlice n fun x => { x with mts := Stamp.floor x.mts p (2 ^ 14) }
    else s) s

/-- The logical times that the device keeps of completed writes, brought up with the homes (R257; log 68). -/
def State.sweepKept (s : State) (p : Stamp) : State :=
  let up := fun t : Stamp => Stamp.floor t p (2 ^ 14)
  { s with
    ports := s.ports.map fun x : PortSt => { x with
      seen := up x.seen, recs := x.recs.map fun r => { r with seen := up r.seen } }
    grids := s.grids.map fun g : Nat × Grid => (g.1, { g.2 with lclk := up g.2.lclk })
    saved := s.saved.map fun b : Nat × Saved => (b.1, { b.2 with lclk := up b.2.lclk }) }

/-- Every core samples and follows the package floor (R257). -/
def State.floorCores (s : State) (p : Stamp) : State :=
  (List.range 192).foldl (fun s i =>
    if Stamp.behind (s.core i).lclk p (2 ^ 12) then s.modCore i fun k => k.raise (p - BitVec.ofNat 16 (2 ^ 12))
    else s) s

/-- The largest LCLK of the cores. -/
def State.topClock (s : State) : Stamp := (List.range 192).foldl (fun m i => Stamp.max m (s.core i).lclk) s.pkg.pclk

/-- The host port's LCLK goes on by one every 256 clocks (R428). -/
def State.hostClock (s : State) : State :=
  let q := (s.clk - s.pkg.hostTickAt) / 256
  { s with pkg := { s.pkg with hostLclk := s.pkg.hostLclk + BitVec.ofNat 16 q, hostTickAt := s.pkg.hostTickAt + 256 * q } }

/-- PCLK is sampled once a microsecond and broadcast; the host port's LCLK, with the ticks that are due, follows the floor as a
core's does (R257, R428). -/
def execPclkBroadcast (s : State) : Out :=
  let q := (s.gt - s.pkg.sampledAt) / 1000
  when (decide (0 < q)) s fun s =>
    let p := s.topClock
    let old := s.pkg.pclk
    let s := s.hostClock.floorCores p
    let s := (List.range 4).foldl (fun s d => s.modDie d fun x => { x with pclk := p }) s
    let s := { s with pkg := { s.pkg with
      pclk := p, sampledAt := s.pkg.sampledAt + 1000 * q, hostLclk := Stamp.floor s.pkg.hostLclk p (2 ^ 12) } }
    if p.toNat / 2 ^ 13 != old.toNat / 2 ^ 13 then (s.sweepL2 p).sweepKept p else s

/-! ## Evictions that no instruction asks for (log 41) -/

/-- A cache gives up a leased copy (R255), a code line (R215) or a TLB entry (R338); no message is sent. -/
def State.evict (s : State) : Evicted → State
  | .copy core la => { s with cores := tmod s.cores core fun k => { k with l1 := tdel k.l1 la } }
  | .code sk la => s.modSkein sk fun k => { k with lines := tdel k.lines la }
  | .icode core n => { s with cores := tmod s.cores core fun k => { k with icache := k.icache.eraseIdx n } }
  | .microTlb core n => { s with cores := tmod s.cores core fun k => { k with utlb := k.utlb.eraseIdx n } }
  | .dieTlb die n => { s with dies := tmod s.dies die fun x => { x with tlb := x.tlb.eraseIdx n } }

/-! ## Promotion and eviction (R280, R255) -/

/-- The releases of a core behind a line are performed at the wider scope (R280). -/
def State.widen (s : State) (core la : Nat) : State :=
  let s := s.drainCore core
  match tget s.lines la with
  | some h => if h.relCore == some core then s.setLine la { h with relCore := none } else s
  | none => s

/-- A promoting acquire makes the releasing core drain (R280). -/
def execPromoteDrain (core la : Nat) (s : State) : Out :=
  message (.promoteDrain core la) s fun s => s.widen core la

/-- A home line is evicted: mts rises, dirty data goes to HBM (R255). A narrow release that the line records is performed
first. -/
def execL2Evict (la : Nat) (s : State) : Out :=
  match tget s.lines la with
  | none => .next s
  | some h =>
    let s := match h.relCore with
      | some x => s.widen x la
      | none => s
    .next (s.evictLine la)

/-! ## Wakes of count waits (R256, R214) -/

/-- A wake reaches a parked count wait whose threshold a change of its word met (R214). -/
def execCountWake (sk : Nat) (s : State) : Out :=
  if ((tget s.skeins sk).map s.haltedAt).getD false then .next s
  else message (.countWake sk) s fun s =>
    match tget s.skeins sk with
    | none => s
    | some k =>
      match k.park with
      | .count _ _ _ _ _ => if k.met then s.perform sk else s
      | _ => s

/-! ## Merge state (R259 to R261, R359) -/

/-- The next sequence number of a core whose tag neither waits for a reply nor stands in the home's window. -/
def CoreSt.nextSeq (k : CoreSt) (core : Nat) (x : Slice) : Nat :=
  let n := x.tags.length + k.acks.length + 1
  (((List.range n).map fun i => (k.seq + i) % 2 ^ 20).find? fun i =>
    !(x.knows (transTag core i)) && !(k.acks.any fun a => a.1.tag == transTag core i)).getD k.seq

/-- A holder answers a recall: its partial is on its way under a tag of its own, and kept until the reply; a lost holder
poisons the line. -/
def State.answer (s : State) (la core : Nat) : State :=
  match tget (s.core core).merges la with
  | some m =>
    if (s.die (core / 48)).lost then s.returnCopy la core
    else
      let n := (s.core core).nextSeq core (s.slice (s.homeSlice la))
      let r : RecallAck := { core := core, la := la, tag := transTag core n, bolt := m.bolt, count := m.count }
      ((s.dropCopy core la).modCore core fun k => { k with
        seq := (n + 1) % 2 ^ 20, acks := k.acks ++ [(r, s.gt)] }).post (.recallAck r)
  | none => s.returnCopy la core

/-- A recall reaches every holder of a line (R260). -/
def execRecall (la : Nat) (s : State) : Out :=
  .next (((tget s.mergeDir la).getD []).foldl (fun s k => s.answer la k) s)

/-- A returned partial is merged into its line, once for its tag (R260, R359). -/
def execRecallAck (r : RecallAck) (s : State) : Out :=
  message (.recallAck r) s fun s => s.mergeAck r

/-- A holder returns its partial when the copy is evicted or must go (R261). -/
def execPartialReturn (core la : Nat) (s : State) : Out :=
  when (tget (s.core core).merges la).isSome s fun s => s.returnCopy la core

/-- A message without a reply for 8 µs (R359). -/
def State.overdue (s : State) (sent : Nat) : Bool := decide (sent + 8000 ≤ s.gt)

/-- A returned partial is sent again, with its tag. -/
def State.resendAck (s : State) (r : RecallAck) : State :=
  (s.modCore r.core fun k => { k with acks := k.acks.map fun a => if a.1 == r then (a.1, s.gt) else a }).post (.recallAck r)

/-- A partial of a core that has been without a reply for 8 µs. -/
def State.lateAck (s : State) (core : Nat) (f : RecallAck → Bool) : Option RecallAck :=
  ((s.core core).acks.find? fun a => f a.1 && s.overdue a.2).map Prod.fst

/-- A control message without a reply for 8 µs is sent again with the same tag (R359). A holder that has given up its copy
answers a recall sent again with the tag of its original answer. -/
def execControlReissue (m : CtlMsg) (s : State) : Out :=
  match m with
  | .ack r => .next (match s.lateAck r.core fun a => a == r with
    | some r => s.resendAck r
    | none => s)
  | .recall core la => .next (match s.lateAck core fun a => a.la == la with
    | some r => s.resendAck r
    | none => s)
  | .renewal r =>
    match (tget s.skeins r.sk).bind fun k => k.loads.find? fun o => o.asked.any fun q => q.1 == r && s.overdue q.2 with
    | none => .next s
    | some _ =>
      .next ((s.modSkein r.sk fun k => { k with loads := k.loads.map fun o => { o with
        asked := o.asked.map fun q => if q.1 == r then (q.1, s.gt) else q } }).post (.homeLoad r))

/-- The message carries the tag. -/
def carriesTag (tag : Nat) : Instr → Bool
  | .recallAck r => r.tag == tag
  | .homeLoad r => r.tag == tag
  | _ => false

/-- A tag leaves the dedup window of a home after 64 µs (R359); no duplicate of it is still under way. -/
def execTagExpire (slice tag : Nat) (s : State) : Out :=
  when (!(s.pending.any (carriesTag tag))) s fun s =>
    s.modSlice slice fun x => { x with tags := x.tags.filter fun t => t.1 != tag || decide (s.gt < t.2 + 64000) }

/-! ## Translation walks and page faults (R319 to R322, R338) -/

/-- Byte 17 of a PAGE_FAULT entry (R322). -/
def accCode : Acc → Nat
  | .load => 0
  | .store => 1
  | .atomic | .boltAtomic => 2
  | .fetch => 3
  | .tile | .tileStore => 4

/-- Bytes 17 to 31 of a PAGE_FAULT entry (R322). -/
def pageFaultBytes (acc : Acc) (core : Nat) (f : WalkFault) (va : DWord) : List Byte :=
  leBytes 1 (accCode acc) ++ leBytes 2 core ++ leBytes 1 f.level ++ leBytes 1 f.fcode ++ [0, 0] ++ leBytes 8 va.toNat

/-- The skein waits on the outstanding fault of its page, or on a new one that is put to the host (R319, R321). -/
def State.pageFault (s : State) (sk : Nat) (k : Skein) (va : DWord) (acc : Acc) (lane : Option Nat) (f : WalkFault) :
    State :=
  let x := s.ctx k.ctx
  let die := k.core / 48
  let page := va.toNat / 2 ^ 16
  match x.faults.find? fun p => p.die == die && p.page == page with
  | some p =>
    let fs := x.faults.map fun q => if q.id == p.id then { q with waiters := q.waiters ++ [sk] } else q
    (s.setCtx k.ctx { x with faults := fs }).setSkein sk { k with park := .fault p.id va acc f.fcode lane }
  | none =>
    let id := x.nextFault
    let p : PFault := { id := id, die := die, page := page, waiters := [sk] }
    let s := (s.setCtx k.ctx { x with faults := x.faults ++ [p], nextFault := id + 1 }).setSkein sk
      { k with park := .fault id va acc f.fcode lane }
    s.event k.ctx (x.relDie k.core) id 0x10 (pageFaultBytes acc (x.relCore k.core) f va)

/-- A walk completes with a leaf, and the instruction is executed afresh, or with a failure (R319, R335). -/
def execTranslationWalk (sk : Nat) (va : DWord) (acc : Acc) (s : State) : Out :=
  message (.translationWalk sk va acc) s fun s =>
    match tget s.skeins sk with
    | none => s
    | some k =>
      match k.park with
      | .walk v a lane =>
        if v != va || a != acc then s
        else match s.translate k.ctx k.core va acc with
          | .ok _ => (s.fillTlb k.ctx k.core va).wake sk
          | .error f => s.pageFault sk k va acc lane f
      | _ => s

/-! ## Ordered entries (R396, R397) -/

/-- The least held entry of a slice that the frontier has reached is applied (R396). -/
def execOrderedEntryApply (slice : Nat) (s : State) : Out :=
  let s := s.finished (.orderedEntryApply slice)
  let more := ((s.slice slice).ordered.filter fun e => decide (e.key ≤ s.frontierOf e.grid)).length
  .next (if 1 < more then (s.applyHeld slice 1).post (.orderedEntryApply slice) else s.applyHeld slice 1)

/-- The refused entries of one instruction's lanes that name one location: the one that this entry stands for is the lowest of
them, since lanes act in ascending order (R207). -/
def State.firstRetry (s : State) (e : OrdEntry) : OrdEntry :=
  s.pending.foldl (fun m i => match i with
    | .orderedRetry x => if x.sk == m.sk && x.pa == m.pa && x.lane < m.lane then x else m
    | _ => m) e

/-- A refused entry is sent again (R397); a block that waited for it to end does so (R244). -/
def execOrderedRetry (e : OrdEntry) (s : State) : Out :=
  let e := s.firstRetry e
  message (.orderedRetry e) s fun s => (s.offer e).endDying e.blk

/-- The blocks of a grid that a steal has on its way. -/
def stolenBlocks (g : Nat) : Instr → List Nat
  | .stealReply h _ bs => if g == h then bs else []
  | _ => []

/-- The keys that bound the frontier of a grid: those of blocks not yet placed, of live skeins, and of saved ones
(R396). -/
def State.floors (s : State) (id : Nat) (g : Grid) : List DWord :=
  let nd := (s.ctx g.ctx).nDies
  let unplaced := (g.shares.flatMap fun p =>
    (if p.2.lo < p.2.hi then [g.blockAt nd p.2 p.2.lo] else []) ++ p.2.extra) ++ s.pending.flatMap (stolenBlocks id)
  let placed := (s.blocks.filter fun b => b.2.grid == id && !b.2.allEnded).flatMap fun b =>
    b.2.skeins.filterMap fun i => (tget s.skeins i).map fun k => k.task.key b.2.idx
  let saved := (s.saved.filter fun p => p.2.block.grid == id).flatMap fun p =>
    p.2.skeins.map fun k => k.2.task.key p.2.block.idx
  unplaced.map (fun i => BitVec.ofNat 64 (i * 2 ^ 32)) ++ placed ++ saved

/-- The least of keys; past every key when there is none. -/
def leastKey (ks : List DWord) : DWord := ks.foldl (fun m k => if k < m then k else m) (BitVec.allOnes 64)

/-- The frontier of a grid is computed afresh and reaches the home slices (R396). -/
def execFrontierUpdate (grid : Nat) (s : State) : Out :=
  let s := s.finished (.frontierUpdate grid)
  match tget s.grids grid with
  | none => .next s
  | some g =>
    let f := leastKey (s.floors grid g)
    let s := s.setGrid grid { g with frontier := f }
    let ready := s.slices.filter fun p => p.2.ordered.any fun e => e.grid == grid && decide (e.key ≤ f)
    .next (ready.foldl (fun s p => s.postOnce (.orderedEntryApply p.1)) s)

end Sys2Proof.Machine
end

