-- ==== Sys2Proof/Machine/Meet.lean ====
section
/-! DEFINITION. The end of a skein (spec 04 R140), the meetings of a block (R142) and the repack of `regroup` (R144). -/

namespace Sys2Proof.Machine

/-! ## Meetings -/

/-- The skeins of a block that have not ended, in order of `%skein`. -/
def State.skeinsOf (s : State) (b : Nat) : List (Nat × Skein) :=
  let l := match tget s.blocks b with
    | none => []
    | some x => x.skeins.filterMap fun i => (tget s.skeins i).map fun k => (i, k)
  (List.range 16).flatMap fun n => l.filter fun p => p.2.num == n

/-- A waiting skein goes on behind its meeting instruction. -/
def State.leaveMeeting (s : State) (i : Nat) (k : Skein) (stall : Nat) : State :=
  let s := (s.setSkein i { (k.issued s.clk) with meeting := .no, pc := pcNext k.pc, stall := stall }).meterAdd k.ctx 24 1
  if stall = 0 then s else s.post (.stallElapse i)

/-- A `regroup` skein traps REGROUP_STATE at its `regroup` (R142). -/
def State.regroupTrap (s : State) (i : Nat) (info : Nat) : State :=
  match tget s.skeins i with
  | none => s
  | some k =>
    (s.setSkein i { k with meeting := .no }).takeTrap i { code := 0x06, info := BitVec.ofNat 64 info } k.pc

/-- The threads of a skein: its live lanes whose predicate has the given value (R144). -/
def threadsOf (p : Nat) (v : Bool) (k : Skein) : List (Skein × Nat) :=
  ((Mask.lanes k.live k.width).filter fun l => Mask.has (k.pred p) l == v).map fun l => (k, l)

/-- A register of the new skein: the words and poison of its threads; uniform when it was uniform with one value in
every arriving skein. -/
def repackReg (ks : List Skein) (ts : List (Skein × Nat)) (w r : Nat) (idle : Nat → Word) : VReg :=
  let v0 := (ks.head?.map fun k => (k.reg r).lane 0).getD 0
  if ks.all fun k => (k.reg r).tag == .uniform && (k.reg r).lane 0 == v0 then
    { tag := .uniform, lanes := List.replicate w v0, poison := 0 }
  else
    { tag := .general,
      lanes := (List.range w).map fun l => match ts[l]? with
        | some (k, o) => (k.reg r).lane o
        | none => idle l,
      poison := Mask.ofFn w fun l => match ts[l]? with
        | some (k, o) => Mask.has (k.reg r).poison o
        | none => false }

/-- The new skein of a list of threads, in the place of an arriving skein (R144, steps 2 to 6), whose place it also keeps in
what the manual does not name: FPCSR, the trap CSRs, held causes, and the predicates and `%tid` of lanes without a thread
(DESIGN CHOICE, log 19). -/
def repackSkein (ks : List Skein) (k : Skein) (n : Nat) (ts : List (Skein × Nat)) (free : Nat) : Skein :=
  let m := Mask.full ts.length
  { k with
    num := n, live := m, running := m,
    tid := (List.range k.width).map fun l => match ts[l]? with
      | some (q, o) => q.tid.getD o 0
      | none => k.tid.getD l 0,
    regs := (List.range k.regCount).map fun r =>
      (r, repackReg ks ts k.width r fun l => Config.idleLane free (n * 640 + r) l),
    preds := (List.range 15).map fun p => (p, Mask.ofFn k.width fun l => match ts[l]? with
      | some (q, o) => Mask.has (q.pred p) o
      | none => Mask.has (k.pred p) l),
    maps := [], clockh := 0, sheds := [], regrouped := true }

/-- The numbers of the new skeins with the arriving skeins that carry them on: those of the same number, and for a number
whose skein had ended before, one of the others in order (DESIGN CHOICE, log 19). -/
def carriers (ks : List (Nat × Skein)) (n : Nat) : List (Nat × Nat × Skein) :=
  let kept := (List.range n).filter fun j => ks.any fun p => p.2.num == j
  let free := (List.range n).filter fun j => !(kept.contains j)
  let spare := ks.filter fun p => decide (n ≤ p.2.num)
  (ks.filter fun p => p.2.num < n).map (fun p => (p.2.num, p)) ++ free.zip spare

/-! ## The end of a skein -/

/-- A skein leaves: its task's span is closed, its causes and records are discarded (R140, R317). -/
def State.dropSkein (s : State) (i : Nat) : State :=
  match tget s.skeins i with
  | none => s
  | some k =>
    let s := s.closeSpan i
    let s := s.modCore k.core fun x => { x with
      recQ := x.recQ.filter (·.sk != i), recWait := x.recWait.filter (·.sk != i),
      asks := x.asks.filter fun a => a.1 != .skein i }
    let s := { s with skeins := tdel s.skeins i }
    s.modBlock k.blk fun b => { b with skeins := b.skeins.filter (· != i) }

/-- The block repacks (R144); a skein that ends by it has completed its `regroup` too, which takes an issue slot (R122,
R402). -/
def State.repack (s : State) (b p : Nat) : State :=
  let ks := s.skeinsOf b
  let qs := ks.map Prod.snd
  let ts := qs.flatMap (threadsOf p true) ++ qs.flatMap (threadsOf p false)
  let w := (qs.head?.map (·.width)).getD 8
  let n := (ts.length + w - 1) / w
  let cs := carriers ks n
  let free := s.free
  let s := ks.foldl (fun s q => if cs.any (fun c => c.2.1 == q.1) then s else (s.dropSkein q.1).meterAdd q.2.ctx 24 1) s
  let s := cs.foldl (fun s c =>
    s.leaveMeeting c.2.1 (repackSkein qs c.2.2 c.1 ((ts.drop (c.1 * w)).take w) free) 0) s
  s.modBlock b fun x => { x with nskein := n }

/-- A meeting completes when every live skein of the block has arrived (R142). -/
def State.meetCheck (s : State) (b : Nat) : State :=
  let ks := s.skeinsOf b
  if ks.isEmpty || ks.any (fun p => p.2.meeting == .no) then s
  else
    let regs := ks.filterMap fun p => match p.2.meeting with
      | .regroup q => some (p.1, p.2.pc, q)
      | _ => none
    let s := ks.foldl (fun s p => match p.2.meeting with
      | .meet st => s.leaveMeeting p.1 p.2 st
      | _ => s) s
    match regs with
    | [] => s
    | (_, pc, q) :: _ =>
      if regs.length < ks.length then regs.foldl (fun s r => s.regroupTrap r.1 0x100) s
      else if regs.any (fun r => r.2.1 != pc) then regs.foldl (fun s r => s.regroupTrap r.1 0x101) s
      else s.repack b q

/-- A skein ends (R140): with the last skein its block ends, and a meeting may now be complete. -/
def State.endSkein (s : State) (i : Nat) : State :=
  match tget s.skeins i with
  | none => s
  | some k =>
    let s := s.dropSkein i
    match tget s.blocks k.blk with
    | none => s
    | some b => if b.skeins.isEmpty then s.blockEnds k.blk none else s.meetCheck k.blk

/-- What a skein waits for before it ends, or arrives at `regroup`: its earlier writes acknowledged or recorded, its
earlier results landed, its store fault taken (R140, R180, R218). The state has the writes performed as far as they can
be. -/
def State.wound (s : State) (core i : Nat) : Except State State :=
  let s := s.flush core i
  match tget s.skeins i with
  | none => .error s
  | some k => if !s.flushed core i || !k.loads.isEmpty || s.looming core i || (k.sfInd && !k.hnd) then .error s else .ok s

end Sys2Proof.Machine
end

