-- ==== Sys2Proof/Machine/Control.lean ====
section
/-! DEFINITION. Control flow and meetings (spec 04 R137 to R144). The head of a shed stack is its top. -/

namespace Sys2Proof.Machine

/-! ## The shed stack (R138) -/

/-- Arrive(X) and the Drains that follow it: the stack, running set and next PC. An empty stack stays as it is. -/
def arrive : List Shed → Mask → Pc → List Shed × Mask × Pc
  | [], x, pc => ([], x, pc)
  | e :: es, x, _ =>
    let parked := e.parked ||| x
    if !e.inElse && e.deferred != 0 then
      ({ e with parked := parked, deferred := 0, inElse := true } :: es, e.deferred, e.elsePc)
    else if parked == 0 then arrive es 0 (pcNext e.closePc)
    else (es, parked, pcNext e.closePc)

/-- The skein after Arrive(X). -/
def Skein.arrive (k : Skein) (x : Mask) : Skein :=
  let r := Machine.arrive k.sheds x k.pc
  { k with sheds := r.1, running := r.2.1, pc := r.2.2 }

/-- The instruction completes with the skein as given, its STALL and YLD applied (R100, R101). -/
def Iss.go (c : Iss) (k : Skein) : Act :=
  let s := c.s.modBlock c.k.blk fun b => { b with stalled := false }
  .went ((s.setSkein c.id { (k.issued s.clk c.h.yld) with stall := c.h.stall.toNat }).postStall c.id c.h)

/-- A trap SHED_DEPTH (R138). -/
def depthTrap (c : Iss) : Act := .trap c.s { code := 0x05, info := BitVec.ofNat 64 c.k.sheds.length }

/-- The lanes of G that share the target of the lowest (R139). -/
def Iss.together (c : Iss) (t : Nat → Nat) : Mask := Mask.ofFn c.k.width fun l => Mask.has c.act l && t l == t c.low

/-- A transfer of the lanes `tk` to a PC (R139); `k` is the skein with what the instruction writes. -/
def Iss.transfer (c : Iss) (k : Skein) (tk : Mask) (pc : Pc) : Act :=
  let n := c.k.running &&& ~~~tk
  if n == 0 then c.go { k with pc := pc }
  else match k.sheds with
    | [] => depthTrap c
    | e :: es => c.go { k with sheds := { e with parked := e.parked ||| n } :: es, running := tk, pc := pc }

/-- The target of an offset (R97). -/
def Skein.target (k : Skein) (off : BitVec 24) : Pc := pcOfNum ((pcNum k.pc : Int) + off.toInt)

/-- `bra` (R137, R139). -/
def execBra (h : Ctl) (off : BitVec 24) (s : State) : Out :=
  issue h {} (fun c => c.transfer c.k c.act (c.k.target off)) s

/-- A transfer to the PCs in a pair (R139). -/
def branchTo (h : Ctl) (a : Opnd) (s : State) : Out :=
  issue h { a := regsOf a 2 } (fun c =>
    let x := c.pair a
    match c.poisoned [(1, x.poi)] with
    | some t => .trap c.s t
    | none =>
      match c.lanes.find? fun l => decide (2 ^ 55 ≤ (x.val l).toNat) || !slotOk (x.val l).toNat with
      | some l => .trap c.s { code := 0x09, addr := x.val l }
      | none => c.transfer c.k (c.together fun l => (x.val l).toNat) ((x.val c.low).setWidth 55)) s

/-- `brx` (R137, R139). -/
def execBrx (h : Ctl) (a : Opnd) (s : State) : Out := branchTo h a s

/-- `ret` has exactly the effect of `brx` (R139). -/
def execRet (h : Ctl) (a : Opnd) (s : State) : Out := branchTo h a s

/-- `call` (R137, R139): the link in the lanes that transfer; its tag is not stated (log 18). -/
def execCall (h : Ctl) (d : Opnd) (off : BitVec 24) (s : State) : Out :=
  issue h { d := regsOf d 2 } (fun c =>
    let k := c.k.setPair (opIdx d) c.act (openTag 0xC2) (fun _ => (pcNext c.k.pc).setWidth 64) (fun _ => false)
    c.transfer k c.act (c.k.target off)) s

/-- The PC of the instruction n places on. -/
def Skein.ahead (k : Skein) (n : Nat) : Pc := pcOfNum ((pcNum k.pc : Int) + n)

/-- `shed` (R137, R138). -/
def execShed (h : Ctl) (neg : Bool) (a : Opnd) (e cl : BitVec 12) (s : State) : Out :=
  issue h {} (fun c =>
    if 16 ≤ c.k.sheds.length then depthTrap c
    else
      let q := if neg then ~~~(c.pred a) else c.pred a
      let x : Shed := { deferred := c.k.running &&& ~~~q, parked := 0, elsePc := c.k.ahead e.toNat,
                        closePc := c.k.ahead cl.toNat, inElse := false }
      let k := { c.k with sheds := x :: c.k.sheds, running := c.k.running &&& q, pc := pcNext c.k.pc }
      c.go (if k.running == 0 then k.arrive 0 else k)) s

/-- `close` (R138). -/
def execClose (h : Ctl) (s : State) : Out :=
  issue h {} (fun c =>
    match c.k.sheds with
    | [] => depthTrap c
    | e :: _ => if e.closePc != c.k.pc then depthTrap c else c.go (c.k.arrive c.k.running)) s

/-- What a skein waits for before it arrives at a meeting: its earlier accesses are performed or recorded, as before a release
at block scope (R143, R272, R274); the state with its writes performed. -/
def Iss.arrival (c : Iss) : Except State State := (c.release).map (·.s)

/-- `regroup` (R142, R144). -/
def execRegroup (h : Ctl) (a : Opnd) (s : State) : Out :=
  issue h {} (fun c =>
    if !c.k.sheds.isEmpty then .trap c.s { code := 0x06, info := BitVec.ofNat 64 c.k.sheds.length }
    else if c.k.task.isOpen then .trap c.s { code := 0x06, info := 0x102 }
    else if (List.range 12).any fun f => c.k.flag f != 0 then .hold c.s
    else match c.arrival with
      | .error s => .hold s
      | .ok s => match s.wound c.k.core c.id with
        | .error s => .hold s
        | .ok s => .hold ((s.modSkein c.id fun k => { k with meeting := .regroup (opIdx a) }).meetCheck c.k.blk)) s

/-- Lanes taken out of a shed stack (R316). -/
def shedsWithout (m : Mask) (es : List Shed) : List Shed :=
  es.map fun e => { e with deferred := e.deferred &&& ~~~m, parked := e.parked &&& ~~~m }

/-- The skein without the lanes that exit, in its own masks and in the entry save (R138, R316). -/
def Skein.without (k : Skein) (m : Mask) : Skein :=
  { k with
    live := k.live &&& ~~~m, running := k.running &&& ~~~m,
    entry := k.entry.map fun e => { e with
      running := e.running &&& ~~~m, live := e.live &&& ~~~m, sheds := shedsWithout m e.sheds } }

/-- Lanes of the handler that are not only in the entry save. -/
def handlerLanes (k : Skein) : Mask := k.sheds.foldl (fun m e => m ||| e.deferred ||| e.parked) k.running

/-- The skein has no lane left in its handler, and leaves it (R316). -/
def Skein.leavesHandler (k : Skein) : Bool := k.running == 0 && k.hnd && handlerLanes k == 0

/-- The skein out of its handler, as `eret` leaves it (R242). -/
def Skein.returned (k : Skein) : Skein := if k.restore.running == 0 then k.restore.arrive 0 else k.restore

/-- Where the skein stands after some of its lanes exit: on, drained, or out of its handler (R138, R316). -/
def Skein.afterExit (k : Skein) : Skein :=
  if k.running != 0 then { k with pc := pcNext k.pc }
  else if k.leavesHandler then k.returned
  else k.arrive 0

/-- ILLEGAL_PC of a return to a TRAPPC whose slot is above 9 (R89, R242). -/
def Skein.returnTrap (k : Skein) : Option Trap :=
  if slotOk k.trap.pc.toNat then none else some { code := 0x09, addr := k.trap.pc }

/-- `exit` (R138, R140, R316). Leaving a handler by it is checked as `eret` is (R89). -/
def execExit (h : Ctl) (s : State) : Out :=
  issue h {} (fun c =>
    let k := c.k.without c.act
    if k.live != 0 then
      match (if k.leavesHandler then k.returnTrap else none) with
      | some t => .trap c.s t
      | none => c.go k.afterExit
    else match c.s.wound c.k.core c.id with
      | .error s => .hold s
      | .ok s => .went (s.endSkein c.id)) s

/-- `yield` (R141): the skein becomes the youngest of its quadrant. -/
def execYield (h : Ctl) (s : State) : Out :=
  issue h {} (fun c => .ok (c.withSkein { c.k with age := c.s.clk })) s

/-- `meet` (R142, R143). -/
def execMeet (h : Ctl) (s : State) : Out :=
  issue h {} (fun c =>
    match c.arrival with
    | .error s => .hold s
    | .ok s => .hold ((s.modSkein c.id fun k => { k with meeting := .meet c.h.stall.toNat }).meetCheck c.k.blk)) s

end Sys2Proof.Machine
end

