-- ==== Sys2Proof/Machine/Sync.lean ====
section
/-! DEFINITION. Fences, count words, new code, drains and task spans (spec 07 R211 to R219, 08 R238). -/

namespace Sys2Proof.Machine

/-! ## Fences (R211, R212, R281, R282) -/

/-- Lines last written by a narrow release of another core: a promoting fence waits until those cores drain (R280). -/
def Iss.narrowLines (c : Iss) : List Nat :=
  (c.s.lines.filter fun p => match p.2.relCore with
    | some x => x != c.k.core
    | none => false).map Prod.fst

/-- `fence`: earlier reads have completed, and under acquire orders the core's buffer has drained, so that what they read
there is performed (R284); under release orders, earlier accesses are performed or recorded; `sc` also gives up the core's
leased copies. -/
def execFence (h : Ctl) (ord : Order) (scope : Scope) (promote : Bool) (s : State) : Out :=
  issue h {} (fun c =>
    let wide := fun c : Iss =>
      match c.promoted (promote && !Scope.narrow scope) c.narrowLines with
      | some s => Act.hold s
      | none => .ok (if ord == .sc then { c with s := c.s.modCore c.k.core fun k => { k with l1 := [] } } else c)
    if !c.k.loads.isEmpty then .hold c.s
    else
      let c := if Order.acquires ord then c.at (c.s.drainCore c.k.core) else c
      if Order.releases ord then
        match c.release with
        | .error s => .hold s
        | .ok c => wide c
      else wide c) s

/-! ## Count words (R213, R214) -/

/-- The address of a count word in the lowest active lane. -/
def Iss.cntAddr (c : Iss) (hall : Bool) (a : Opnd) : DWord :=
  if hall then BitVec.ofNat 64 (c.lowNat a) else (c.pair a).val c.low

/-- The checks of a count word: poison, ALIGN, and HALL_RANGE under HALL. -/
def Iss.cntTrap (c : Iss) (hall : Bool) (a : Opnd) (value : Nat → Bool) : Option Trap :=
  let v := (c.cntAddr hall a).toNat
  firstTrap [c.poisoned [(1, c.lowOnly (c.opnd (!hall) [] a)), (2, value)], misaligned v 8 c.low,
             if hall then c.outside false v 8 (some c.low) else none]

/-- The registers of a count-word address. -/
def cntRegs (hall : Bool) (a : Opnd) : List Nat := regsOf a (if hall then 1 else 2)

/-- What `cntsig` and `cntwait` name. -/
def cntUses (f : Cnt) : Uses := { a := cntRegs f.hall f.a, b := regsOfImm f.b 2, hall := f.hall }

/-- A sum that stays at 2^64 − 1 (R48). -/
def cntSum (w inc : Nat) : Nat := min (w + inc) (2 ^ 64 - 1)

/-- The addition of `cntsig` at the word's home. A poisoned word stays poisoned, whereas the addition in hall A writes its words
whole (DESIGN CHOICE, log 77). -/
def State.cntAdd (s : State) (c core : Nat) (rel : Option Nat) (p : Phys) (inc : Nat) : State :=
  let s := s.flushLine core (p.pa / 128)
  let (s, bs, bad) := s.agentRead c (dieOf core) p.bolt p.pa 8
  let s := s.coreStore c core (p.pa / 128) (cellsAt p.pa (leBytes 8 (cntSum (ofLeBytes bs) inc))) rel
  if bad then { s with memPoison := addUnit s.memPoison (p.pa, 8) } else s

/-- `cntsig`: a release, then the addition; a fault is recorded (R214, R216). -/
def execCntsig (h : Ctl) (f : Cnt) (s : State) : Out :=
  issue h (cntUses f) (fun c =>
    match c.cntTrap f.hall f.a (c.lowImmPoison true f.b) with
    | some t => .trap c.s t
    | none =>
      let inc := c.lowImm true f.b
      let va := c.cntAddr f.hall f.a
      match c.release with
      | .error s => .hold s
      | .ok c =>
        if f.hall then
          let w := c.b.hallNat false va.toNat 8
          .ok (c.withBlock (c.b.hallWrite false va.toNat (leBytes 8 (cntSum w inc)))).stir
        else
          let rel := if Scope.narrow f.scope then some c.k.core else none
          match c.s.translate c.k.ctx c.k.core va .store with
          | .error _ =>
            .done (c.record (c.records 8 (fun _ => va) (fun _ => BitVec.ofNat 64 inc) (fun _ => false)
              [(c.low, 0x11)])) true
          | .ok p =>
            let s := c.s.fillTlb c.k.ctx c.k.core va
            .ok (c.at (s.cntAdd c.k.ctx c.k.core rel p inc))) s

/-- A count word read: under HALL from hall A, else at its home as visible at the scope (R214, R256); or what keeps the
read from being made. A poisoned word is compared as its bytes stand (DESIGN CHOICE, log 77). -/
def Iss.cntLook (c : Iss) (hall promote : Bool) (a : Opnd) : Except Act (Iss × Nat × Bool × Nat) :=
  let va := c.cntAddr hall a
  if hall then .ok (c, c.b.hallNat false va.toNat 8, c.b.hallBad false va.toNat 8, 0)
  else match c.s.translate c.k.ctx c.k.core va .load with
    | .error _ => .error (c.walk .load c.low va)
    | .ok p =>
      let la := p.pa / 128
      if c.behind [la] true then .error (.hold c.s)
      else match c.promoted promote [la] with
        | some s => .error (.hold s)
        | none =>
          let s := (c.s.fillTlb c.k.ctx c.k.core va).flushLine c.k.core la
          let (s, bs, bad) := s.coreRead c.k.ctx c.k.core p.bolt p.pa 8
          .ok (c.at s, ofLeBytes bs, bad, p.pa)

/-- `cntwait` (R213, R214, R216): it completes when the word meets the threshold, or when a change of it did while the skein
was parked (log 70). -/
def execCntwait (h : Ctl) (f : Cnt) (s : State) : Out :=
  issue h (cntUses f) (fun c =>
    match c.cntTrap f.hall f.a (c.lowImmPoison true f.b) with
    | some t => .trap c.s t
    | none =>
      let n := c.lowImm true f.b
      let va := c.cntAddr f.hall f.a
      match c.cntLook f.hall f.promote f.a with
      | .error r => r
      | .ok (c, w, _, pa) =>
        if n ≤ w || c.k.met then .ok c
        else if f.hall then .park c.s (.countHall c.since c.low va.toNat (BitVec.ofNat 64 n))
        else .park c.s (.count c.since c.low pa va (BitVec.ofNat 64 n))) s

/-- `cntrd` (R213, R214, R216). -/
def execCntrd (h : Ctl) (f : CntRd) (s : State) : Out :=
  issue h { a := cntRegs f.hall f.a, d := regsOf f.d 2, hall := f.hall } (fun c =>
    match c.cntTrap f.hall f.a fun _ => false with
    | some t => .trap c.s t
    | none =>
      match c.cntLook f.hall f.promote f.a with
      | .error r => r
      | .ok (c, w, bad, _) => .ok (c.putPair f.d .uniform (fun _ => BitVec.ofNat 64 w) fun _ => bad)) s

/-! ## New code and drains (R215, R218) -/

/-- `ifence`: the skein's fetched lines are discarded, and those that its core's instruction cache has taken in so far are not
for it; its own stores to code have reached their homes (R215). -/
def execIfence (h : Ctl) (s : State) : Out :=
  issue h {} (fun c =>
    let c := c.at (c.s.flush c.k.core c.id)
    let c := c.at { c.s with nextId := c.s.nextId + 1 }
    .ok (c.withSkein { c.k with lines := [], badWords := [], fenced := c.s.nextId })) s

/-- `drains` (R218). -/
def execDrains (h : Ctl) (s : State) : Out :=
  issue h {} (fun c =>
    match c.drained with
    | .error s => .hold s
    | .ok c => .ok c) s

/-! ## Task spans (R238) -/

/-- The frontier of a grid is to be computed afresh (R396). -/
def Iss.moved (c : Iss) : Iss := { c with s := c.s.postOnce (.frontierUpdate c.k.grid) }

/-- `tbeg` (R238). -/
def execTbeg (h : Ctl) (a b : Opnd) (s : State) : Out :=
  issue h { a := regsOf a 2, b := regsOf b 1 } (fun c =>
    let ts := (c.pair a).val c.low
    let i := c.lowNat b
    match firstTrap [
        c.poisoned [(1, c.lowOnly (c.pair a)), (2, c.lowOnly (c.single [] b))],
        if c.k.task.isOpen then some (encTrap 0x42) else none,
        if 2 ^ 31 ≤ i then some (encTrap 0x44) else none] with
    | some t => .trap c.s t
    | none =>
      match c.drained with
      | .error s => .hold s
      | .ok c =>
        let n := c.s.nextId
        let c := c.at { c.s with nextId := n + 1 }
        let t : Task := { isOpen := true, ts := ts, digest := 0, index := 2 ^ 31 + i, lastKey := c.k.task.lastKey, name := n }
        .ok (c.withSkein { c.k with task := t }).moved) s

/-- `tend` (R238). -/
def execTend (h : Ctl) (s : State) : Out :=
  issue h {} (fun c =>
    if !c.k.task.isOpen then .trap c.s (encTrap 0x43)
    else match c.drained with
      | .error s => .hold s
      | .ok c => .ok (c.at (c.s.closeSpan c.id))) s

end Sys2Proof.Machine
end

