-- ==== Sys2Proof/Machine/System.lean ====
section
/-! DEFINITION. System instructions: CSRs (spec 01 R31 to R43, 08 R240), traps, returns, records, clocks, meter and
digests (08 R239 to R248). -/

namespace Sys2Proof.Machine

/-! ## CSRs (R31 to R43, R240) -/

/-- The CSR numbers of R31. -/
def csrPresent (n : Nat) : Bool :=
  decide (n ≤ 5) || (decide (0x10 ≤ n) && decide (n ≤ 0x14)) || n == 0x20 || n == 0x21 || n == 0x30
    || (decide (0x40 ≤ n) && decide (n ≤ 0x61))

/-- The CSRs that a program may write. -/
def csrWritable (n : Nat) : Bool := n == 1 || n == 3 || n == 0x10 || n == 0x12 || n == 0x21 || n == 0x30

/-- PRIV at a CSR number (R314). -/
def privTrap (n : Nat) : Trap := { code := 0x07, info := BitVec.ofNat 64 n }

/-- What stops a `csrr` before it issues (R31). -/
def csrrStop (n : Nat) (k : Skein) : Option Trap :=
  if 0x100 ≤ n then (if k.firmware then none else some (privTrap n))
  else if csrPresent n then none else some (encTrap 0)

/-- What stops a `csrw` before it issues (R31, R43, R240). -/
def csrwStop (n : Nat) (k : Skein) : Option Trap :=
  if 0x100 ≤ n then (if k.firmware then none else some (privTrap n))
  else if n == 0x61 then (if k.firmware then none else some (privTrap n))
  else if !csrWritable n then some (encTrap 0)
  else if n == 3 && !k.hnd then some (encTrap 0)
  else none

/-- A Bool as a bit. -/
def bit (b : Bool) (i : Nat) : Nat := if b then 2 ^ i else 0

/-- STATUS (R32). -/
def Iss.status (c : Iss) : Nat :=
  bit c.k.bclost 14 + c.s.prioOf c.k * 2 ^ 8 + c.ctx.mode * 2 ^ 4 + bit c.g.filler 3 + bit c.g.serial 2
    + bit c.g.desc.midpre 1 + bit c.k.hnd 0

/-- The value of a CSR. FLAGS shows the reading instruction's own SETF flag as busy: its issue has raised it (R23, R99). -/
def Iss.csr (c : Iss) (n : Nat) : DWord :=
  match n with
  | 0x00 => BitVec.ofNat 64 c.status
  | 0x01 => c.g.trapvec
  | 0x02 => c.k.trap.cause.setWidth 64
  | 0x03 => c.k.trap.pc
  | 0x04 => c.k.trap.addr
  | 0x05 => c.k.trap.info
  | 0x10 => BitVec.ofNat 64 c.ctx.lease
  | 0x11 => (c.s.core c.k.core).lclk.setWidth 64
  | 0x12 => BitVec.ofNat 64 c.ctx.ltick
  | 0x13 => BitVec.ofNat 64 c.g.level
  | 0x14 => if c.k.task.isOpen then c.k.task.ts else 0
  | 0x20 => (match Ctl.flag c.h with | some f => c.k.flagUp f | none => c.k).flagsWord.setWidth 64
  | 0x21 => c.k.fpcsr.setWidth 64
  | 0x30 => c.ctx.linkwatch.setWidth 64
  | 0x60 => BitVec.ofNat 64 c.ctx.metersat
  | 0x61 => BitVec.ofNat 64 c.ctx.quantum
  | _ => if 0x100 ≤ n then Config.firmwareCsr c.s.free n else BitVec.ofNat 64 (c.ctx.counter (n - 0x40))

/-- `csrr` (R239, R240); of FPCSR, it waits for the skein's earlier instructions (R33). -/
def execCsrr (h : Ctl) (d : Opnd) (csr : BitVec 24) (s : State) : Out :=
  let n := csr.toNat
  issue h { d := regsOf d (if csrIs64 n then 2 else 1) } (fun c =>
    let v := c.csr n
    if n == 0x21 && c.s.looming c.k.core c.id then .hold c.s else .ok (c.put (csrIs64 n) d .uniform fun _ => v)) s (csrrStop n)

/-- A value within bounds. -/
def clampNat (lo hi v : Nat) : Nat := max lo (min v hi)

/-- The effect of a write of a CSR (R33, R35 to R43). -/
def Iss.setCsr (c : Iss) (n : Nat) (v : DWord) : Iss :=
  let ctx := fun f => { c with s := c.s.modCtx c.k.ctx f }
  match n with
  | 0x01 => { c with s := c.s.modGrid c.k.grid fun g => { g with trapvec := (v.setWidth 55).setWidth 64 } }
  | 0x03 => c.withSkein { c.k with trap := { c.k.trap with pc := (v.setWidth 55).setWidth 64 } }
  | 0x10 => ctx fun x => { x with lease := max 1 (v.toNat % 2 ^ 8) }
  | 0x12 => ctx fun x => { x with ltick := max 16 (v.toNat % 2 ^ 16) }
  | 0x21 => c.withSkein { c.k with fpcsr := fpcsrWrite c.k.fpcsr (v.setWidth 32) }
  | 0x30 => ctx fun x => { x with linkwatch := v.setWidth 2 }
  | 0x61 => ctx fun x => { x with quantum := clampNat 100 100000 (v.toNat % 2 ^ 32) }
  | _ => c

/-- `csrw` (R239, R240, R35). -/
def execCsrw (h : Ctl) (a : Opnd) (csr : BitVec 24) (s : State) : Out :=
  let n := csr.toNat
  issue h { a := regsOf a (if csrIs64 n then 2 else 1) } (fun c =>
    let x := c.opnd (csrIs64 n) [] a
    let v := x.val c.low
    match firstTrap [c.poisoned [(1, c.lowOnly x)],
                     if n == 1 && !slotOk v.toNat then some { code := 0x09, addr := v } else none] with
    | some t => .trap c.s t
    | none => .ok (c.setCsr n v)) s (csrwStop n)

/-! ## Traps and handlers (R241 to R244) -/

/-- `trap`: it completes, and SW_TRAP is taken at the next instruction (R241). -/
def execTrap (h : Ctl) (imm : BitVec 24) (s : State) : Out :=
  issue h {} (fun c => .after c { code := 0x32, info := imm.setWidth 64 }) s

/-- `brk`: under BRKEN the skein stops and HALT is set (R334); otherwise BREAK (R241). -/
def execBrk (h : Ctl) (imm : BitVec 24) (s : State) : Out :=
  issue h {} (fun c =>
    if c.ctx.dbg.brken then
      let c := c.withSkein { c.k with halted := true }
      .ok { c with s := c.s.modCtx c.k.ctx fun x => { x with dbg := { x.dbg with halt := true } } }
    else .after c { code := 0x33, info := imm.setWidth 64 }) s

/-- `eret` (R242). -/
def execEret (h : Ctl) (s : State) : Out :=
  issue h {} (fun c =>
    if !c.k.hnd then .trap c.s (encTrap 0x40)
    else match c.k.returnTrap with
      | some t => .trap c.s t
      | none => c.go c.k.returned) s

/-- The information word of a record (R243). -/
def StoreRec.word (r : StoreRec) : Word := BitVec.ofNat 32 (2 ^ 31 + r.slot * 2 ^ 16 + r.size * 2 ^ 12 + r.cause)

/-- Lane l of a record. -/
def StoreRec.lane (r : StoreRec) (l : Nat) : Option FaultLane := r.lanes.find? fun x => x.lane == l

/-- The nine registers of a record written from register n on (R243). -/
def Iss.putRecord (c : Iss) (n : Nat) (r : StoreRec) : Iss :=
  let ea := fun l => ((StoreRec.lane r l).map (·.ea)).getD 0
  let data := fun l => ((StoreRec.lane r l).map (·.data)).getD 0
  let bad := fun l => ((StoreRec.lane r l).map (·.poison)).getD false
  let ok := fun _ : Nat => false
  let k := c.k.setPair n c.act .general ea ok
  let k := k.setPair (n + 2) c.act .general data bad
  let k := k.setPair (n + 4) c.act .uniform (fun _ => r.mask) ok
  let k := k.setPair (n + 6) c.act .uniform (fun _ => r.pc.setWidth 64) ok
  c.withSkein (k.setReg (n + 8) c.act .uniform (fun _ => StoreRec.word r) ok)

/-- Zeros in the nine registers. -/
def Iss.putNoRecord (c : Iss) (n : Nat) : Iss :=
  c.withSkein ((List.range 9).foldl (fun k i => k.setReg (n + i) c.act .uniform (fun _ => 0) fun _ => false) c.k)

/-- `sfrq` (R243). -/
def execSfrq (h : Ctl) (d : Opnd) (s : State) : Out :=
  issue h { d := regsOf d 9 } (fun c =>
    let core := c.s.core c.k.core
    match core.recQ.find? fun r => r.sk == c.id with
    | none => .ok (c.putNoRecord (opIdx d))
    | some r =>
      let c := { c with s := c.s.setCore c.k.core { core with recQ := core.recQ.erase r } }
      .ok (c.putRecord (opIdx d) r)) s

/-- `kill` (R244). -/
def execKill (h : Ctl) (s : State) : Out :=
  issue h {} (fun c =>
    if !c.k.hnd then .trap c.s (encTrap 0x41)
    else .went (c.s.killBlock c.k.blk (c.k.trap.cause.toNat % 2 ^ 8))) s

/-! ## Sleep, clocks, meter, digests (R245 to R248) -/

/-- The operand of `sleep` and `meter`, from the lowest active lane or the immediate. -/
def lowOrImm (c : Iss) (a : SrcImm) : Nat := c.lowImm false a

/-- `sleep` (R245): the skein parks; `sleepExpire` completes it. -/
def execSleep (h : Ctl) (a : SrcImm) (s : State) : Out :=
  let u : Uses := { a := regsOfImm a 1 }
  issue h u (fun c =>
    match c.poisoned [(1, c.lowImmPoison false a)] with
    | some t => .trap c.s t
    | none =>
      let n := lowOrImm c a
      if n = 0 then .ok c
      else
        let c := if u.readsClock then c.latch else c
        .park (c.s.postOnce (.sleepExpire c.id)) (.sleep c.s.clk n)) s

/-- `clock.gt` (R246). -/
def execClockGt (h : Ctl) (d : Opnd) (s : State) : Out :=
  issue h { d := regsOf d 2 } (fun c => .ok (c.putPair d .uniform fun _ => BitVec.ofNat 64 c.s.gt)) s

/-- `clock.ac` (R246). -/
def execClockAc (h : Ctl) (d : Opnd) (s : State) : Out :=
  issue h { d := regsOf d 2 } (fun c => .ok (c.putPair d .uniform fun _ => BitVec.ofNat 64 c.s.clk)) s

/-- `meter` (R247). -/
def execMeter (h : Ctl) (d : Opnd) (a : SrcImm) (s : State) : Out :=
  issue h { a := regsOfImm a 1, d := regsOf d 2 } (fun c =>
    let i := lowOrImm c a
    match firstTrap [c.poisoned [(1, c.lowImmPoison false a)], if 32 < i then some (encTrap 0x45) else none] with
    | some t => .trap c.s t
    | none =>
      let v := if i = 32 then c.ctx.metersat else c.ctx.counter i
      .ok (c.putPair d .uniform fun _ => BitVec.ofNat 64 v)) s

/-- `dgrd.task` (R248). -/
def execDgrdTask (h : Ctl) (d : Opnd) (s : State) : Out :=
  issue h { d := regsOf d 2 } (fun c =>
    match c.drained with
    | .error s => .hold s
    | .ok c =>
      let v := if c.g.level = 0 then 0 else if c.k.task.isOpen then c.k.task.digest else c.b.digest
      .ok (c.putPair d .uniform fun _ => v)) s

/-- `dgrd.exp` (R248). -/
def execDgrdExp (h : Ctl) (d : Opnd) (s : State) : Out :=
  issue h { d := regsOf d 2 } (fun c =>
    let v := if c.g.level = 0 then 0 else c.g.expect.getD 0
    .ok (c.putPair d .uniform fun _ => v)) s

end Sys2Proof.Machine
end

