-- ==== Sys2Proof/Machine/Records.lean ====
section
/-! DEFINITION. Records of the engines: ports, headers, the checks before a status, numbering, and `submit` (spec 08 R220
to R231, R235, R236, 03 R114 to R116, 11 R293, R294, 14 R365, R366, R368, R373, 15 R388, R389). -/

namespace Sys2Proof.Machine

/-! ## Statuses and ports (R221, R222, R291) -/

/-- The statuses of R221. -/
inductive Status where
  | accepted | full | malformed | denied | depth | badRegs
  deriving DecidableEq, Repr

/-- The code of a status. -/
def Status.num : Status → Nat
  | .accepted => 0 | .full => 1 | .malformed => 2 | .denied => 3 | .depth => 4 | .badRegs => 5

/-- What a port feeds. -/
inductive Engine where
  | shuttle | reed | heddle | launch | queue
  deriving DecidableEq, Repr

/-- The port that an aperture selects (R222). -/
def portOf (c core ap : Nat) : Option Port :=
  if ap < 16 then some ⟨c, .shuttle core ap⟩
  else if ap = 0x20 then some ⟨c, .reed (core / 48)⟩
  else if ap = 0x30 then some ⟨c, .heddle (core / 48)⟩
  else if ap = 0x40 then some ⟨c, .launch core⟩
  else none

/-- A ring of a context. -/
def State.ring (s : State) (c n : Nat) : Option Ring := tget (s.ctx c).rings n

/-- The engine of a port; a ring feeds that of its class (R291). -/
def State.engineOf (s : State) (p : Port) : Engine :=
  match p.kind with
  | .shuttle _ _ => .shuttle
  | .reed _ => .reed
  | .heddle _ => .heddle
  | .launch _ => .launch
  | .ring n =>
    match (s.ring p.ctx n).map (·.cls) with
    | some 1 => .reed
    | some 2 => .heddle
    | _ => .queue

/-- The logical die of a port's engine. -/
def State.portDie (s : State) (p : Port) : Nat :=
  match p.kind with
  | .shuttle core _ => core / 48
  | .reed d => d
  | .heddle d => d
  | .launch core => core / 48
  | .ring n => (s.ctx p.ctx).firstDie + ((s.ring p.ctx n).map (·.die)).getD 0

/-- The die of a port's engine within the context's device. -/
def State.portRelDie (s : State) (p : Port) : Nat := s.portDie p - (s.ctx p.ctx).firstDie

/-- The core whose translations an engine uses. -/
def State.engCore (s : State) (p : Port) : Nat :=
  match p.kind with
  | .shuttle core _ => core
  | .launch core => core
  | _ => s.portDie p * 48

/-- Where an engine stands (log 20): shuttles and launch ports at their core, reeds at their die, heddles and rings at the
gallery. -/
def State.engPlace (s : State) (p : Port) : Option Nat :=
  match s.engineOf p with
  | .shuttle | .launch | .reed => some (s.portDie p)
  | .heddle | .queue => none

/-- The logical time that an engine's writes carry (R428). -/
def State.engTime (s : State) (p : Port) : Stamp :=
  match p.kind with
  | .shuttle core _ => (s.core core).lclk
  | .reed d => (s.die d).pclk
  | .heddle d => (s.die d).pclk
  | .launch core => (s.die (core / 48)).pclk
  | .ring n =>
    match (s.ring p.ctx n).map (·.cls) with
    | some 1 | some 2 => (s.die (s.portDie p)).pclk
    | _ => s.pkg.pclk

/-- The aperture of a port, as reports give it (R229, R322); a ring of class 0 has none (log 21). -/
def State.aperture (s : State) (p : Port) : Nat :=
  match p.kind, s.engineOf p with
  | .shuttle _ ch, _ => ch
  | _, .reed => 0x20
  | _, .heddle => 0x30
  | .ring n, _ => Config.openField 0 n
  | _, _ => 0x40

/-- `%core` of a port's engine, as reports give it; the reed, the heddle and a ring have no core (log 21). -/
def State.apertureCore (s : State) (p : Port) : Nat :=
  match p.kind with
  | .shuttle core _ => (s.ctx p.ctx).relCore core
  | .launch core => (s.ctx p.ctx).relCore core
  | _ => Config.openField 1 (s.portDie p)

/-- The queue id of a port (R293); the reed and the heddle ports have none (log 21). -/
def State.queueOf (s : State) (p : Port) : Nat :=
  match p.kind with
  | .ring n => n
  | .launch core => 64 + (s.ctx p.ctx).relCore core
  | _ => Config.openField 2 (s.portDie p)

/-- The kinds that an engine accepts (R222, R291). -/
def Engine.accepts : Engine → Nat → Bool
  | .shuttle, k => k == 1 || k == 2 || k == 3 || k == 0x40
  | .reed, k => k == 0x20 || k == 0x40
  | .heddle, k => k == 0x30 || k == 0x31 || k == 0x32 || k == 0x40
  | .launch, k => k == 0x10 || k == 0x40
  | .queue, k => k == 0x10 || k == 0x40 || k == 0x50

/-- The queue depth of a port (R222); a ring of class 0 has none. -/
def Engine.depth : Engine → Option Nat
  | .shuttle => some 64
  | .reed => some 256
  | .heddle => some 256
  | .launch => some 32
  | .queue => none

/-- Two ports put records into one queue: the same physical port, or rings and ports that feed one engine of a die. -/
def State.sameQueue (s : State) (p q : Port) : Bool :=
  match s.engineOf p with
  | .reed | .heddle => s.engineOf p == s.engineOf q && s.portDie p == s.portDie q
  | _ => p.kind == q.kind

/-- The queue of a port has no room. -/
def State.queueFull (s : State) (p : Port) : Bool :=
  match Engine.depth (s.engineOf p) with
  | none => false
  | some n => decide (n ≤ (s.ports.filter fun q => s.sameQueue p q.port).foldl (fun a q => a + q.recs.length) 0)

/-! ## Headers and bodies (R227, R230, R235, R236, R389) -/

/-- The header of a record. -/
structure Header where
  kind : Nat
  flag : Nat
  trap : Bool
  tag : Nat
  deriving DecidableEq, Repr

/-- The header of R227, where no reserved bit is set and FLAG is 0 to 11 or 15; a ring's record has FLAG 15 and TRAP 0. -/
def headerOf (ring : Bool) (bs : List Byte) : Option Header :=
  let h := fieldAt bs 0 8
  let x : Header := { kind := h % 256, flag := h / 2 ^ 8 % 16, trap := h / 2 ^ 13 % 2 == 1, tag := h / 2 ^ 16 % 2 ^ 16 }
  if h / 2 ^ 32 != 0 || h / 2 ^ 14 % 4 != 0 || h / 2 ^ 12 % 2 != 0 then none
  else if 12 ≤ x.flag && x.flag ≤ 14 then none
  else if ring && (x.flag != 15 || x.trap) then none
  else some x

/-- The offsets of a record's address fields (R230, R235, R236). -/
def addressFields : Nat → List Nat
  | 0x01 => [8, 16]
  | 0x02 => [8, 16, 32]
  | 0x03 => [8, 16, 32, 48]
  | 0x10 => [8]
  | 0x20 => [8, 16, 24]
  | 0x30 => [8, 24]
  | 0x31 => [16]
  | 0x40 => [8]
  | _ => []

/-- An address field has a bit of [63:55] set (R221). -/
def wideAddress (bs : List Byte) : Bool :=
  (addressFields (fieldAt bs 0 1)).any fun o => fieldAt bs o 8 / 2 ^ 55 != 0

/-- A 64-bit field. -/
def dwordAt (bs : List Byte) (o : Nat) : DWord := BitVec.ofNat 64 (fieldAt bs o 8)

/-- A signed 64-bit field. -/
def signedAt (bs : List Byte) (o : Nat) : Int := (dwordAt bs o).toInt

/-- A type code (R103). -/
def tyAt (bs : List Byte) (o : Nat) : Option Ty :=
  if 32 ≤ fieldAt bs o 1 then none else Ty.ofCode (BitVec.ofNat 5 (fieldAt bs o 1))

/-- The conversion of a template names formats that it may (R231). -/
def convOk (conv : Nat) (sat : Bool) (src dst : Ty) (rowlen : Nat) : Bool :=
  match conv with
  | 0 => !sat
  | 1 => src.cvtPair dst && (!sat || dst.isMx)
  | 2 => src == .f32 && dst.isMx && rowlen % 32 == 0
  | _ => src.isMx && dst == .f32 && rowlen % 32 == 0 && !sat

/-- A copy template (R231). -/
def templateOf (t : List Byte) : Option Template :=
  match tyAt t 40, tyAt t 41 with
  | some src, some dst =>
    let rowlen := fieldAt t 0 4
    let planes := fieldAt t 4 4
    let b := fieldAt t 42 1
    let sat := b / 4 % 2 == 1
    if rowlen = 0 || 2 ^ 20 < rowlen || planes = 0 || 2 ^ 16 < planes || 8 ≤ b || anySet t 43 21
        || !convOk (b % 4) sat src dst rowlen then none
    else some { rowlen := rowlen, planes := planes, sstride := signedAt t 8, dstride := signedAt t 16,
                spstride := signedAt t 24, dpstride := signedAt t 32, sfmt := src, dfmt := dst, conv := b % 4, sat := sat }
  | _, _ => none

/-- The kind of a copy record. -/
def copyKind : Nat → CopyKind
  | 1 => .copy
  | 2 => .gather
  | _ => .shard

/-- The body of a copy record with its template (R230); from a ring it has no block, and its spaces are global. -/
def copyOf (bs : List Byte) (t : Template) : Option CopyRec :=
  let k := fieldAt bs 0 1
  let rows := fieldAt bs 24 4
  let sp := fieldAt bs 30 1
  let ss := sp % 16
  let ds := sp / 16
  let bad := match k with
    | 1 => anySet bs 32 32
    | 2 => fieldAt bs 32 8 % 4 != 0 || anySet bs 40 24
    | _ => fieldAt bs 32 8 % 8 != 0 || fieldAt bs 48 8 % 16 != 0 || anySet bs 56 8
  if bad || rows = 0 || 2 ^ 24 < rows || 255 < fieldAt bs 28 2 || 1 < ss || 2 < ds || anySet bs 31 1
      || (ss != 0 && fieldAt bs 12 4 != 0) || (ds != 0 && fieldAt bs 20 4 != 0) then none
  else some { kind := copyKind k, src := dwordAt bs 8, dst := dwordAt bs 16, rows := rows, tmpl := t, sspace := ss,
              dspace := ds, index := dwordAt bs 32, version := dwordAt bs 32, expect := dwordAt bs 40,
              stat := dwordAt bs 48 }

/-- The body of a LAUNCH (R235), without the rules that its descriptor bears on. -/
def launchOf (bs : List Byte) : Option LaunchRec :=
  let gx := fieldAt bs 16 4
  let gy := fieldAt bs 20 2
  let gz := fieldAt bs 22 2
  let prio := fieldAt bs 30 1
  let fl := fieldAt bs 31 1
  let bx := fieldAt bs 24 2
  let bY := fieldAt bs 26 2
  let bz := fieldAt bs 28 2
  if fieldAt bs 8 8 % 128 != 0 || gx = 0 || 2 ^ 31 ≤ gx || gy = 0 || gz = 0 || 2 ^ 31 < gx * gy * gz
      || bY = 0 || 1024 < bY || bz = 0 || 1024 < bz || (64 ≤ prio && prio != 255) || 4 ≤ fl
      || (fl / 2 = 0 && anySet bs 40 8) || anySet bs 48 16 then none
  else some { desc := dwordAt bs 8, gx := gx, gy := gy, gz := gz, bx := bx, bY := bY, bz := bz, prio := prio,
              filler := fl % 2 == 1, expd := fl / 2 == 1, ltag := dwordAt bs 32, expdig := dwordAt bs 40 }

/-- The size of an element of a collective (R236). -/
def elemBytes (t : Ty) : Nat := Ty.bits t / 8

/-- What a COLL and a collective binding share (R236, R373). -/
def collRec (plan src dst : DWord) (elems : Nat) (fmt : Option Ty) (op rm : Nat) (step : DWord) : Option CollRec :=
  match fmt with
  | none => none
  | some t =>
    if !t.isS || plan.toNat % 64 != 0 || src.toNat % elemBytes t != 0 || dst.toNat % 128 != 0 || elems = 0 || 4 < op
        || 3 < rm then none
    else some { plan := plan, src := src, dst := dst, elems := elems, fmt := t, op := op, rm := rm, step := step }

/-- The body of a COLL (R236). -/
def collOf (bs : List Byte) : Option CollRec :=
  if anySet bs 39 1 || anySet bs 48 16 then none
  else collRec (dwordAt bs 8) (dwordAt bs 16) (dwordAt bs 24) (fieldAt bs 32 4) (tyAt bs 36) (fieldAt bs 37 1)
    (fieldAt bs 38 1) (dwordAt bs 40)

/-- A collective binding (R373) with its TAG. -/
def bindingOf (bs : List Byte) : Option (CollRec × Nat) :=
  let op := fieldAt bs 29 1
  if anySet bs 31 1 || anySet bs 42 22 || !(op == 0 || op == 1 || op == 4) then none
  else (collRec (dwordAt bs 0) (dwordAt bs 8) (dwordAt bs 16) (fieldAt bs 24 4) (tyAt bs 28) op (fieldAt bs 30 1)
    (dwordAt bs 32)).map fun r => (r, fieldAt bs 40 2)

/-- The body of a record that needs no read (R236, R389); a CXCH's header is checked apart. -/
def plainBody (bs : List Byte) : Option Rec :=
  match fieldAt bs 0 1 with
  | 0x30 =>
    let n := fieldAt bs 16 4
    if fieldAt bs 8 8 % 64 != 0 || n = 0 || 65535 < n || anySet bs 20 4 || fieldAt bs 24 8 % 32 != 0 || anySet bs 32 32 then
      none
    else some (.cxch (dwordAt bs 8) n (dwordAt bs 24))
  | 0x31 =>
    if fieldAt bs 16 8 % 4096 != 0 || anySet bs 24 40 then none else some (.side (dwordAt bs 8) (dwordAt bs 16))
  | 0x32 => if anySet bs 16 48 then none else some (.srel (dwordAt bs 8))
  | 0x40 =>
    let sc := fieldAt bs 24 1
    if fieldAt bs 8 8 % 8 != 0 || sc < 2 || 4 < sc || anySet bs 25 39 then none
    else some (.mark (dwordAt bs 8) (dwordAt bs 16) sc)
  | 0x50 =>
    let op := fieldAt bs 8 1
    let lv := fieldAt bs 9 1
    if 2 < op || (op = 0 && 2 < lv) || (op != 0 && lv != 0) || (op != 1 && anySet bs 16 8) || anySet bs 10 6
        || anySet bs 24 40 then none
    else some (.qctl op lv (dwordAt bs 16))
  | _ => none

/-! ## Reads before a status (R221) -/

/-- What a check comes to: the state after the reads it made, and a result or a status. -/
abbrev Checked (α : Type) := State × Except Status α

/-- One check after another. -/
def Checked.andThen {α β : Type} (r : Checked α) (f : State → α → Checked β) : Checked β :=
  match r.2 with
  | .error e => (r.1, .error e)
  | .ok x => f r.1 x

/-- A read of the port; without a usable translation it is DENIED. -/
def State.portRead (s : State) (p : Port) (va : DWord) (n : Nat) : Checked (List Byte) :=
  match s.engRead p.ctx (s.engCore p) (s.engPlace p) va.toNat n with
  | .error _ => (s, .error .denied)
  | .ok (s, bs, _) => (s, .ok bs)

/-- MALFORMED where a rule is broken. -/
def orMalformed {α : Type} (s : State) : Option α → Checked α
  | none => (s, .error .malformed)
  | some x => (s, .ok x)

/-! ## Kernel descriptors (R114, R115) -/

/-- The width of a width code. -/
def widthOf (code : Nat) : Nat := 8 * 2 ^ code

/-- The entry of a channel: nothing for depth 0, or a breach of R115. -/
def chanOfEntry (w len e : Nat) : Option (Option Chan) :=
  let off := e % 2 ^ 32
  let depth := e / 2 ^ 32 % 2 ^ 16
  if e / 2 ^ 48 != 0 || 1024 < depth then none
  else if depth = 0 then some none
  else if off % 4 != 0 || len < off + depth * w * 4 then none
  else some (some { off := off, depth := depth })

/-- The channel table from entry i on. -/
def chansOf (w len : Nat) (bs : List Byte) (i : Nat) : Nat → Option (Tbl Chan)
  | 0 => some []
  | n + 1 =>
    match chanOfEntry w len (fieldAt bs (8 * i) 8), chansOf w len bs (i + 1) n with
    | some (some x), some t => some ((i, x) :: t)
    | some none, some t => some t
    | _, _ => none

/-- The descriptor of a kernel, with the channel table's bytes (R114, R115). -/
def descOf (va : DWord) (bs table : List Byte) : Option Desc :=
  let code := fieldAt bs 0 8
  let w := fieldAt bs 10 1
  let sk := fieldAt bs 11 1
  let ga := fieldAt bs 12 2
  let gw := fieldAt bs 14 2
  let n := fieldAt bs 17 1
  let fl := fieldAt bs 20 4
  let tp := fieldAt bs 24 8
  let tr := fieldAt bs 32 8
  let cb := fieldAt bs 40 8
  if code % 128 != 0 || 2 ^ 55 ≤ code || 3 < w || sk = 0 || 16 < sk || 256 < ga || 192 < gw || 4 < fieldAt bs 16 1
      || 32 < n || 63 < fieldAt bs 18 1 || 2 < fieldAt bs 19 1 || 4 ≤ fl || tp % 8 != 0 || (tp = 0 && n != 0)
      || 2 ^ 55 ≤ tr || !slotOk tr || cb % 64 != 0 || anySet bs 48 80 then none
  else
    match chansOf (widthOf w) (4096 * ga) table 0 n with
    | none => none
    | some cs =>
      some { va := va, code := BitVec.ofNat 55 code, regs := fieldAt bs 8 2, widthCode := w, skeins := sk, granA := ga,
             granW := gw, hallc := fieldAt bs 16 1, chans := cs, prio := fieldAt bs 18 1, level := fieldAt bs 19 1,
             midpre := fl % 2 == 1, serial := fl / 2 % 2 == 1, trapPc := BitVec.ofNat 64 tr,
             collVa := BitVec.ofNat 64 cb }

/-! ## Collective plans (R365, R366, R368) -/

/-- The header of a collective plan. -/
structure PlanHdr where
  planid : DWord
  ranks : Nat
  self : Nat
  root : Nat
  chunk : Nat
  out : DWord
  stat : DWord
  lead : Nat
  deriving DecidableEq, Repr

/-- The context declares an identifier for a use (R364). -/
def Context.declares (x : Context) (id : DWord) (heddle : Bool) : Bool :=
  x.ids.any fun i => i.id == id && i.heddle == heddle

/-- The owner of a chunk (R367). -/
def ownerOf (op ranks root c : Nat) : Nat := if op = 4 then root else c % ranks

/-- The number of chunks. -/
def chunksOf (elems chunk : Nat) : Nat := (elems + chunk - 1) / chunk

/-- The chunks of a rank. -/
def ownedChunks (op ranks root self elems chunk : Nat) : List Nat :=
  (List.range (chunksOf elems chunk)).filter fun c => ownerOf op ranks root c == self

/-- A plan header (R365) for a body. -/
def planOf (x : Context) (b : CollRec) (bs : List Byte) : Option PlanHdr :=
  let ranks := fieldAt bs 8 2
  let h : PlanHdr := { planid := dwordAt bs 0, ranks := ranks, self := fieldAt bs 10 2, root := fieldAt bs 12 2,
                       chunk := fieldAt bs 16 4, out := dwordAt bs 24, stat := dwordAt bs 32, lead := 0 }
  if !x.declares h.planid false || ranks = 0 || ranks ≤ h.self || ranks ≤ h.root || anySet bs 14 2 || h.chunk % 32 != 0
      || h.chunk < 32 || 65536 < h.chunk || anySet bs 20 4 || h.out.toNat % elemBytes b.fmt != 0 || h.stat.toNat % 32 != 0
      || anySet bs 40 24 then none
  else some h

/-- A rank-table entry of ROUTE 0 (R366): its lead die. -/
def selfEntry (e : Nat) : Option Nat := if e / 2 ^ 12 != 0 || e % 2 ^ 10 != 0 then none else some (e / 2 ^ 10 % 4)

/-- The checks of R368 but for the lead die. -/
def collFits (b : CollRec) (h : PlanHdr) : Bool :=
  (b.dst != 0) == (b.op == 0 || b.op == 1 || b.op == 4)
    && decide ((ownedChunks b.op h.ranks h.root h.self b.elems h.chunk).length ≤ 4096)

/-- A plan checked for a body (R368): its header, with SELF's lead die. -/
def planFits (x : Context) (b : CollRec) (header entry : List Byte) : Option PlanHdr :=
  match planOf x b header, selfEntry (ofLeBytes entry) with
  | some h, some lead => if collFits b h then some { h with lead := lead } else none
  | _, _ => none

/-- The header of a plan and its SELF entry, read whatever they hold (R221). -/
def State.readPlan (s : State) (p : Port) (va : DWord) : Checked (List Byte × List Byte) :=
  Checked.andThen (s.portRead p va 64) fun s h =>
    Checked.andThen (s.portRead p (va + BitVec.ofNat 64 (64 + 8 * fieldAt h 10 2)) 8) fun s e => (s, .ok (h, e))

/-- The collective binding of a LAUNCH with its plan, read whatever they hold (R221). -/
def State.readBinding (s : State) (p : Port) (va : DWord) : Checked (Option (List Byte × List Byte × List Byte)) :=
  if va == 0 then (s, .ok none)
  else
    Checked.andThen (s.portRead p va 64) fun s b =>
      Checked.andThen (s.readPlan p (dwordAt b 0)) fun s x => (s, .ok (some (b, x)))

/-! ## Acceptance -/

/-- Who places a record, and where. -/
structure Ask where
  port : Port
  raw : List Byte
  isRing : Bool
  sk : Option Nat := none
  blk : Option Nat := none
  grid : Option Nat := none
  core : Nat := 0

/-- A record that its checks let through: its body, and what they read of a launch or a plan. -/
structure Passed where
  body : Rec
  desc : Option Desc := none
  plan : Option PlanHdr := none
  bind : Option (CollRec × Nat) := none
  xid : DWord := 0

/-- A collective binding of a launch (R373): its plan is checked under R368. -/
def bindingFits (x : Context) (blocks : Nat) :
    Option (List Byte × List Byte × List Byte) → Option (Option (CollRec × Nat) × Option PlanHdr)
  | none => some (none, none)
  | some (bs, header, entry) =>
    match bindingOf bs with
    | none => none
    | some b =>
      match planFits x b.1 header entry with
      | none => none
      | some h =>
        if chunksOf b.1.elems h.chunk != blocks || x.nDies ≤ h.lead then none else some (some b, some h)

/-- The number of incomplete grids on a die of a context's device (R294). -/
def State.gridsOn (s : State) (d : Nat) : Nat := (s.grids.filter fun g => (s.ctx g.2.ctx).hasDie d).length

/-- The event backlog of a die of a context is full (R311); the 256 entries are each context's own (DESIGN CHOICE, log 78). -/
def State.backlogFull (s : State) (c d : Nat) : Bool :=
  decide (256 ≤ (((tget (s.ctx c).events d).map (·.backlog)).getD []).length)

/-- A LAUNCH finds no room: 512 grids of a die of the device are incomplete (R294). -/
def State.launchFull (s : State) (p : Port) : Bool :=
  let x := s.ctx p.ctx
  (List.range x.nDies).any fun d => decide (512 ≤ s.gridsOn (x.firstDie + d))

/-- The port takes no record now: its queue is full (R222), or it is a launch port on a die whose event backlog is full
(R311). -/
def State.portFull (s : State) (p : Port) : Bool :=
  s.queueFull p || match p.kind with
    | .launch _ => s.backlogFull p.ctx (s.portRelDie p)
    | _ => false

/-- The grid that a record comes from has depth 9 (R13). -/
def State.tooDeep (s : State) (a : Ask) : Bool :=
  match a.grid.bind (tget s.grids) with
  | some g => decide (9 ≤ g.depth)
  | none => false

/-- A LAUNCH checked (R235, R114, R13), after everything that is read of it (R221). -/
def State.checkLaunch (s : State) (a : Ask) : Checked Passed :=
  let p := a.port
  Checked.andThen (s.portRead p (dwordAt a.raw 8) 128) fun s bs =>
    let n := fieldAt bs 17 1
    Checked.andThen (if n = 0 then (s, .ok []) else s.portRead p (dwordAt bs 24) (8 * n)) fun s tb =>
      Checked.andThen (s.readBinding p (dwordAt bs 40)) fun s bb =>
        match launchOf a.raw, descOf (dwordAt a.raw 8) bs tb with
        | some r, some d =>
          match bindingFits (s.ctx p.ctx) (r.gx * r.gy * r.gz) bb with
          | none => (s, .error .malformed)
          | some b =>
            if r.bx * r.bY * r.bz != d.skeins * widthOf d.widthCode then (s, .error .malformed)
            else if s.tooDeep a then (s, .error .depth)
            else if 640 < d.regs then (s, .error .badRegs)
            else if s.launchFull p then (s, .error .full)
            else (s, .ok { body := .launch r, desc := some d, plan := b.2, bind := b.1 })
        | _, _ => (s, .error .malformed)

/-- A COLL checked (R236, R368), after its plan is read (R221). -/
def State.checkColl (s : State) (a : Ask) : Checked Passed :=
  let p := a.port
  Checked.andThen (s.readPlan p (dwordAt a.raw 8)) fun s x =>
    match collOf a.raw with
    | none => (s, .error .malformed)
    | some b =>
      match planFits (s.ctx p.ctx) b x.1 x.2 with
      | none => (s, .error .malformed)
      | some h =>
        if (s.ctx p.ctx).firstDie + h.lead != s.portDie p then (s, .error .malformed)
        else (s, .ok { body := .coll b, plan := some h })

/-- The checks of a kind, up to FULL (R221). -/
def State.checkBody (s : State) (a : Ask) (kind : Nat) : Checked Passed :=
  let p := a.port
  match kind with
  | 0x01 | 0x02 | 0x03 =>
    let base := (s.ctx p.ctx).areas.tmplVa
    let n := fieldAt a.raw 28 2
    Checked.andThen (if 255 < n then (s, .error .malformed) else s.portRead p (base + BitVec.ofNat 64 (64 * n)) 64)
      fun s t =>
        match (templateOf t).bind (copyOf a.raw) with
        | none => (s, .error .malformed)
        | some r => (s, .ok { body := .copy r })
  | 0x10 => s.checkLaunch a
  | 0x20 => s.checkColl a
  | 0x30 =>
    Checked.andThen (s.portRead p (dwordAt a.raw 8) 64) fun s h =>
      match plainBody a.raw with
      | none => (s, .error .malformed)
      | some b =>
        if anySet h 8 56 || !((s.ctx p.ctx).declares (dwordAt h 0) true) then (s, .error .malformed)
        else (s, .ok { body := b, xid := dwordAt h 0 })
  | _ => Checked.andThen (orMalformed s (plainBody a.raw)) fun s b => (s, .ok { body := b })

/-- The checks of a record in their order (R221): DENIED, MALFORMED, DEPTH, BAD_REGS, FULL. A port reads nothing for a kind that
it does not accept (log 42). -/
def State.check (s : State) (a : Ask) : Checked (Header × Passed) :=
  let p := a.port
  let denied := match p.kind with
    | .launch _ => !(s.ctx p.ctx).launchPorts
    | _ => false
  if denied then (s, .error .denied)
  else if wideAddress a.raw then (s, .error .denied)
  else if !Engine.accepts (s.engineOf p) (fieldAt a.raw 0 1) then (s, .error .malformed)
  else
    let r := s.checkBody a (fieldAt a.raw 0 1)
    match r.2, headerOf a.isRing a.raw with
    | .error .denied, _ => (r.1, .error .denied)
    | _, none => (r.1, .error .malformed)
    | .error e, _ => (r.1, .error e)
    | .ok b, some h => if r.1.portFull p then (r.1, .error .full) else (r.1, .ok (h, b))

/-- The row that starts a record. -/
def startRow (p : Port) (n : Nat) : Rec → Instr
  | .copy r => match r.kind with
    | .copy => .copy p n
    | .gather => .copyGather p n
    | .shard => .gatherShard p n
  | .launch _ => .launch p n
  | .coll _ => .coll p n
  | .cxch _ _ _ => .cxch p n
  | .side _ _ => .side p n
  | .srel _ => .srel p n
  | .mark _ _ _ => .mark p n
  | .qctl op _ _ => if op = 0 then .setlevel p n else if op = 1 then .expect p n else .reexec p n

/-- A record numbered and queued at its port (R225). -/
def State.enqueue (s : State) (p : Port) (r : RecSt) : State × Nat :=
  let x := s.port p
  let n := x.accepted + 1
  let s := s.setPort { x with accepted := n, recs := x.recs ++ [{ r with num := n, seen := s.pkg.pclk }] }
  (s.post (startRow p n r.body), n)

/-- The collective of a record (R368, R374). -/
def State.makeColl (s : State) (p : Port) (n : Nat) (b : CollRec) (h : PlanHdr) (level queue tag : Nat)
    (grid : Option Nat) : State × Nat :=
  let id := s.nextId
  let out := if h.out == 0 then b.src else h.out
  let k : Coll := { ctx := p.ctx, die := s.portDie p, port := p, num := n, planid := h.planid, ranks := h.ranks,
                    self := h.self, root := h.root, chunk := h.chunk, planVa := b.plan, outVa := out, statVa := h.stat,
                    body := b, level := level, queue := queue, tag := tag, grid := grid }
  ({ s with colls := tput s.colls id k, nextId := id + 1 }, id)

/-- The level of the queue that a LAUNCH or COLL comes from (R388, R375). -/
def State.sourceLevel (s : State) (a : Ask) : Nat :=
  match a.port.kind with
  | .ring n => ((s.ctx a.port.ctx).queue n).level
  | _ => ((a.grid.bind (tget s.grids)).map (·.level)).getD 0

/-- The implicit COLL of a launch, numbered at the reed of SELF's lead die (R374). -/
def State.bindColl (s : State) (a : Ask) (g level : Nat) (b : CollRec × Nat) (h : PlanHdr) : State :=
  let p : Port := ⟨a.port.ctx, .reed ((s.ctx a.port.ctx).firstDie + h.lead)⟩
  let r : RecSt := { num := 0, tag := b.2, trap := false, flag := none, sk := none, blk := none, core := a.core,
                     body := .coll b.1 }
  let q := s.queueOf a.port
  let (s, n) := s.enqueue p r
  let (s, id) := s.makeColl p n b.1 h level q b.2 (some g)
  s.modGrid g fun x => { x with coll := some id }

/-- The grid of an accepted LAUNCH (R35, R235, R294, R388, R389). A ring disarms EXPECT and REEXEC. -/
def State.makeGrid (s : State) (a : Ask) (n : Nat) (r : LaunchRec) (d : Desc) (x : Passed) : State :=
  let p := a.port
  let q := s.queueOf p
  let qs : QueueSt := match p.kind with
    | .ring i => (s.ctx p.ctx).queue i
    | _ => {}
  let level := if qs.reexec then 2 else max d.level (s.sourceLevel a)
  let id := s.nextId
  let g : Grid :=
    { ctx := p.ctx, queue := q, num := n, port := p, die := s.portRelDie p, desc := d, gx := r.gx, gy := r.gy, gz := r.gz,
      bx := r.bx, bY := r.bY, bz := r.bz, prio := if r.prio = 255 then d.prio else r.prio, filler := r.filler,
      serial := d.serial || qs.reexec, level := level,
      depth := match a.grid.bind (tget s.grids) with
        | some y => y.depth + 1
        | none => 0,
      trapvec := d.trapPc, ltag := r.ltag, expect := if r.expd then some r.expdig else qs.expect, reexec := qs.reexec,
      submitter := a.sk, parent := a.blk,
      lclk := match p.kind with
        | .launch core => (s.core core).lclk
        | _ => Stamp.max s.pkg.pclk s.pkg.hostLclk }
  let s := match p.kind with
    | .ring i => s.modCtx p.ctx fun c => { c with queues := tput c.queues i { qs with expect := none, reexec := false } }
    | _ => s
  let s := { s with grids := tput s.grids id g, nextId := id + 1 }
  let s := match a.blk with
    | some b => s.modBlock b fun y => { y with launches := y.launches + 1 }
    | none => s
  match x.bind, x.plan with
  | some b, some h => s.bindColl a id level b h
  | _, _ => s

/-- A record accepted: numbered, queued, its flag raised (R23, R225), its grid or collective made. -/
def State.accept (s : State) (a : Ask) (h : Header) (x : Passed) : State × Nat :=
  let p := a.port
  let r : RecSt := { num := 0, tag := h.tag, trap := h.trap, flag := if h.flag < 12 then some h.flag else none, sk := a.sk,
                     blk := a.blk, core := a.core, body := x.body, xid := x.xid, raw := a.raw }
  let (s, n) := s.enqueue p r
  let s := match a.sk, r.flag with
    | some i, some f => s.modSkein i fun k => k.flagUp f
    | _, _ => s
  match x.body, x.desc, x.plan with
  | .launch l, some d, _ => (s.makeGrid a n l d x, n)
  | .coll b, _, some pl => ((s.makeColl p n b pl (s.sourceLevel a) (s.queueOf p) h.tag none).1, n)
  | _, _, _ => (s, n)

/-- A record put to a port: the status, and its number when accepted. -/
def State.place (s : State) (a : Ask) : State × Status × Nat :=
  let r := s.check a
  match r.2 with
  | .error e => (r.1, e, 0)
  | .ok (h, x) =>
    let (s, n) := r.1.accept a h x
    (s, .accepted, n)

/-! ## `submit` (R220 to R224) -/

/-- The 64 bytes of the record in sixteen registers from n on. -/
def Iss.recordBytes (c : Iss) (n : Nat) : List Byte :=
  ((List.range 16).map fun i => leBytes 4 (c.laneWord (n + i) c.low).toNat).flatten

/-- The flag that the record would raise stands at 63 (R23): `submit` waits before any check is made, also where the record
would be refused and raise no flag (DESIGN CHOICE, log 42). -/
def Iss.flagHigh (c : Iss) (bs : List Byte) : Bool :=
  let f := fieldAt bs 1 1 % 16
  f < 12 && c.k.flag f == 63

/-- `submit` (R221): the record of the lowest active lane goes to the port; an accepted one is a release (R223). -/
def execSubmit (h : Ctl) (d a b : Opnd) (s : State) : Out :=
  issue h { a := regsOf a 1, b := regsOf b 16, d := regsOf d 2 } (fun c =>
    let x := c.single [] a
    let i := opIdx b
    let bad := fun l => l == c.low && (List.range 16).any fun j => c.lanePoison (i + j) l
    match c.poisoned [(1, c.lowOnly x), (2, bad)] with
    | some t => .trap c.s t
    | none =>
      let bs := c.recordBytes i
      let ap := ((x.val c.low).setWidth 32 : Word).toNat
      if c.flagHigh bs then .hold c.s
      else match c.release with
        | .error s => .hold s
        | .ok c =>
          match portOf c.k.ctx c.k.core ap with
          | none => .ok (c.putPair d .uniform fun _ => BitVec.ofNat 64 (Status.num .malformed))
          | some p =>
            let (s, st, n) := c.s.place { port := p, raw := bs, isRing := false, sk := some c.id, blk := some c.k.blk,
                                          grid := some c.k.grid, core := c.k.core }
            .ok ((c.at s).putPair d .uniform fun _ => BitVec.ofNat 64 (Status.num st + 256 * n))) s

end Sys2Proof.Machine
end

