-- ==== Sys2Proof/Machine/Engines.lean ====
section
/-! DEFINITION. The rows of engine records other than those of the reed and the heddle: engine faults (spec 08 R429, 12
R322), regulators (14 R377), copies (08 R230 to R234), completion (08 R228), MARK (08 R237), LAUNCH (11 R294), queue control
(15 R389) and the user rings (11 R291, R292). A row whose condition does not hold changes nothing. -/

namespace Sys2Proof.Machine

/-! ## Where a record is worked on -/

/-- The core of a record's engine: a copy restored elsewhere runs on its new core (R331). -/
def State.recCore (s : State) (p : Port) (r : RecSt) : Nat :=
  match p.kind with
  | .shuttle _ _ => r.core
  | _ => s.engCore p

/-- Where the accesses of a record come from. -/
def State.recPlace (s : State) (p : Port) (r : RecSt) : Option Nat :=
  match p.kind with
  | .shuttle _ _ => dieOf r.core
  | _ => s.engPlace p

/-- The logical time of a record's writes (R428). -/
def State.recTime (s : State) (p : Port) (r : RecSt) : Stamp :=
  match p.kind with
  | .shuttle _ _ => (s.core r.core).lclk
  | _ => s.engTime p

/-- The die of a record's engine within the device. -/
def State.recDie (s : State) (p : Port) (r : RecSt) : Nat :=
  match p.kind with
  | .shuttle _ _ => (s.ctx p.ctx).relDie r.core
  | _ => s.portRelDie p

/-- `%core` in the reports of a record. -/
def State.recRelCore (s : State) (p : Port) (r : RecSt) : Nat :=
  match p.kind with
  | .shuttle _ _ => (s.ctx p.ctx).relCore r.core
  | _ => s.apertureCore p

/-- Bytes written for a record; their acknowledgement counts for what its completion makes visible (R223). -/
def State.recWrite (s : State) (p : Port) (r : RecSt) (va : Nat) (bs : List Byte) : Except EngFault State :=
  match s.engStore p.ctx (s.recCore p r) (s.recPlace p r) (s.recTime p r) va bs with
  | .error f => .error f
  | .ok (s, w) => .ok (s.sawWrite p r.num w)

/-- A row acts on its record, and is over when the record is gone. -/
def withRec (i : Instr) (p : Port) (n : Nat) (s : State) (f : RecSt → State) : Out :=
  match s.record p n with
  | none => .next (s.finished i)
  | some r =>
    if r.paused then .next s
    else
      let t := f r
      .next (if (t.record p n).isNone then t.finished i else t)

/-! ## Reports (R229, R322, R429, R431) -/

/-- TRAPINFO of a record's trap (R229). -/
def State.reportInfo (s : State) (p : Port) (r : RecSt) : DWord :=
  BitVec.ofNat 64 (r.tag + s.aperture p % 256 * 2 ^ 16 + r.num % 2 ^ 40 * 2 ^ 24)

/-- Bytes 0 to 7 of a record's entry (R322, R431). -/
def RecSt.entryTag (r : RecSt) : Nat := r.tag + r.num % 2 ^ 48 * 2 ^ 16

/-- A boundary cause for the skein that submitted a record (R229). -/
def State.tell (s : State) (p : Port) (r : RecSt) (code : Nat) (addr : DWord) : State :=
  match r.sk with
  | none => s
  | some i => s.deliver i { code := code, addr := addr, info := s.reportInfo p r }

/-- A record pauses at a faulting access and posts ENGINE_FAULT; its trap is delivered once (R233, R323, R429). -/
def State.pause (s : State) (p : Port) (r : RecSt) (f : EngFault) (plane : Nat := 0) (row : Nat := 0) : State :=
  let s := s.setRecord p { r with paused := true, trapped := r.trapped || r.trap }
  let bs := leBytes 1 (s.aperture p) ++ leBytes 2 (s.recRelCore p r) ++ leBytes 1 f.fcode ++ leBytes 1 plane
    ++ leBytes 2 row ++ leBytes 8 f.va.toNat
  let s := s.event p.ctx (s.recDie p r) r.entryTag 0x11 bs
  if r.trap && !r.trapped then s.tell p r 0x20 f.va else s

/-- An engine access made for a record: it goes on, or the record pauses. -/
def State.orPause (s : State) (p : Port) (r : RecSt) (x : Except EngFault State) : State :=
  match x with
  | .ok s => s
  | .error f => s.pause p r f

/-- A report with a trap: the entry of R431 and the trap of R229. -/
def State.report (s : State) (p : Port) (r : RecSt) (kind code reason : Nat) (addr : DWord) : State :=
  let x := s.ctx p.ctx
  let bs := leBytes 1 (s.aperture p) ++ leBytes 2 (x.relCore r.core) ++ leBytes 1 reason ++ [0, 0, 0]
    ++ leBytes 8 addr.toNat
  (s.event p.ctx (x.relDie r.core) r.entryTag kind bs).tell p r code addr

/-! ## Regulators (R377) -/

/-- The regulator of an engine on a die: the reed and heddle's, or the shuttles'. -/
def bucketKey (relDie : Nat) (shuttles : Bool) : Nat := 2 * relDie + (if shuttles then 1 else 0)

/-- Transfers of at most 4,096 bytes each take their bytes from the bucket, as many as it holds: what is left of n bytes. The
first number bounds their number. -/
def Bucket.pay (b : Bucket) : Nat → Nat → Bucket × Nat
  | 0, n => (b, n)
  | fuel + 1, n =>
    let m := min n 4096
    if n = 0 || b.level < m then (b, n) else Bucket.pay { b with level := b.level - m } fuel (n - m)

/-- A bucket gains RATE bytes for each microsecond that has passed, up to DEPTH; a change that was written takes effect at the
first of them (R377). -/
def Bucket.refill (b : Bucket) (gt : Nat) : Bucket :=
  let q := (gt - b.refillAt) / 1000
  let b := { b with refillAt := b.refillAt + 1000 * q }
  match q, b.next with
  | 0, _ => b
  | _ + 1, none => { b with level := min b.depth (b.level + q * b.rate) }
  | n + 1, some (rate, depth) =>
    let first := min depth (min b.depth (b.level + b.rate))
    { b with rate := rate, depth := depth, next := none, level := min depth (first + n * rate) }

/-- What a context's regulator lets through of n bytes: the machine, and the bytes that still wait. -/
def State.payFor (s : State) (c key n : Nat) : State × Nat :=
  let x := s.ctx c
  let b := ((tget x.buckets key).getD {}).refill s.gt
  let (b, left) := if b.rate = 0 then (b, 0) else b.pay (n / 4096 + 1) n
  (s.setCtx c { x with buckets := tput x.buckets key b }, left)

/-- Transfers of n bytes for a record ask its regulator. They are made once all of them are let through; until then the record
keeps what it has been let through. -/
def State.afford (s : State) (p : Port) (r : RecSt) (key n : Nat) : State × Option RecSt :=
  let (s, left) := s.payFor p.ctx key (n - r.paid)
  let got := max n r.paid - left
  if left = 0 then
    let r := { r with paid := got - n }
    (s.setRecord p r, some r)
  else (s.setRecord p { r with paid := got }, none)

/-! ## Bytes with their poison -/

/-- A read of n bytes by virtual address, each with its poison; the first number bounds the lines. -/
def State.poisonRead (s : State) (c core : Nat) (src : Option Nat) (va : Nat) :
    Nat → Nat → Except EngFault (State × List (Byte × Bool))
  | 0, _ => .ok (s, [])
  | fuel + 1, n =>
    if n = 0 then .ok (s, [])
    else match s.translate c core (BitVec.ofNat 64 va) .load with
      | .error f => .error ⟨BitVec.ofNat 64 va, f.fcode⟩
      | .ok q =>
        let m := min n (128 - va % 128)
        let (s, bs, _) := s.agentRead c src q.bolt q.pa m
        let all := s.homeLost (q.pa / 128)
        let mine := (List.range m).map fun i => (bs.getD i 0, all || poisonedAt s.memPoison (q.pa + i) 1)
        match s.poisonRead c core src (va + m) fuel (n - m) with
        | .error f => .error f
        | .ok (s, rest) => .ok (s, mine ++ rest)

/-- A write of bytes by virtual address with their poison, and the wts that acknowledges it. Every line is translated before
any byte is written. -/
def State.poisonWrite (s : State) (c core : Nat) (src : Option Nat) (l : Stamp) (va : Nat) (bs : List (Byte × Bool)) :
    Except EngFault (State × Stamp) :=
  match s.cellsVa c core va (bs.length / 128 + 2) (bs.map Prod.fst) with
  | .error f => .error f
  | .ok cells =>
    let (s, w) := s.agentStore c src l cells
    .ok ({ s with memPoison := (poisonRuns (cells.zip (bs.map Prod.snd))).foldl addUnit s.memPoison }, w)

/-! ## Copy rows (R232, R233) -/

/-- The bytes of a source row (R232). -/
def Template.srcLen (t : Template) : Nat :=
  match t.conv with
  | 0 => t.rowlen
  | 1 => (t.rowlen * Ty.bits t.sfmt + 7) / 8
  | 2 => t.rowlen * 4
  | _ => t.rowlen / 32 * mxBlock t.sfmt

/-- The bytes of a destination row (R232). -/
def Template.dstLen (t : Template) : Nat :=
  match t.conv with
  | 0 => t.rowlen
  | 1 => (t.rowlen * Ty.bits t.dfmt + 7) / 8
  | 2 => t.rowlen / 32 * mxBlock t.dfmt
  | _ => t.rowlen * 4

/-- Bits [i × w, i × w + w) meet byte b of a string. -/
def bitsMeet (w i b : Nat) : Bool := decide (i * w < 8 * b + 8) && decide (8 * b < i * w + w)

/-- An element of a bit string is poisoned. -/
def elemBad (bad : List Bool) (w i : Nat) : Bool :=
  (List.range ((i * w + w + 7) / 8 - i * w / 8)).any fun j => bad.getD (i * w / 8 + j) false

/-- CONV 1: the elements of a row converted (R232), in RNE, with their poison. -/
def convertRow (t : Template) (src : List (Byte × Bool)) : List (Byte × Bool) :=
  let ws := Ty.bits t.sfmt
  let wd := Ty.bits t.dfmt
  let x := ofLeBytes (src.map Prod.fst)
  let bad := src.map Prod.snd
  let es := (List.range t.rowlen).map fun i => (fCvt t.dfmt 0 t.sat t.sfmt (x / 2 ^ (ws * i) % 2 ^ ws)).1
  let spoiled := (List.range t.rowlen).filter (elemBad bad ws)
  let out := leBytes (Template.dstLen t) (packElems wd es)
  (List.range (Template.dstLen t)).map fun b => (out.getD b 0, spoiled.any fun i => bitsMeet wd i b)

/-- CONV 2: one block of 32 f32 elements quantised (R71, R72, R232). -/
def quantBlock (t : Template) (src : List (Byte × Bool)) : List (Byte × Bool) :=
  let vs := (List.range 32).map fun i => valOf .f32 (fieldAt (src.map Prod.fst) (4 * i) 4)
  let (sc, es, _) := mxQuantise t.dfmt t.sat none vs
  let bad := src.any Prod.snd
  (mxBytes t.dfmt sc es).map fun b => (b, bad)

/-- CONV 3: one block read as f32 values (R188, R232). -/
def dequantBlock (t : Template) (src : List (Byte × Bool)) : List (Byte × Bool) :=
  let bs := src.map Prod.fst
  let bad := src.map Prod.snd
  let scale := bad.getD (mxBlock t.sfmt - 1) false
  (List.range 32).flatMap fun j =>
    (leBytes 4 (roundVal .f32 0 false (mxRead t.sfmt bs j)).1).map fun b => (b, scale || elemBad bad (Ty.bits t.sfmt) j)

/-- The destination row of a source row (R232). -/
def Template.row (t : Template) (src : List (Byte × Bool)) : List (Byte × Bool) :=
  match t.conv with
  | 0 => src
  | 1 => convertRow t src
  | 2 => (List.range (t.rowlen / 32)).flatMap fun i => quantBlock t ((src.drop (128 * i)).take 128)
  | _ => (List.range (t.rowlen / 32)).flatMap fun i => dequantBlock t ((src.drop (mxBlock t.sfmt * i)).take (mxBlock t.sfmt))

/-- The bytes of a hall of a block (R44). -/
def State.hallSize (s : State) (b : Nat) (w : Bool) : Nat :=
  match tget s.blocks b with
  | none => 0
  | some x => 4096 * if w then x.granW else x.granA

/-- The access of a copy to a space faults beyond the hall's end (R44). -/
def State.hallFault (s : State) (b : Nat) (w : Bool) (off n : Nat) : Option EngFault :=
  let len := s.hallSize b w
  if n != 0 && decide (len < off + n) then some ⟨BitVec.ofNat 64 (max off len), 8⟩ else none

/-- A source row read from a space. -/
def State.copyRead (s : State) (p : Port) (r : RecSt) (space addr n : Nat) : Except EngFault (State × List (Byte × Bool)) :=
  if space = 0 then s.poisonRead p.ctx (s.recCore p r) (s.recPlace p r) addr (n / 128 + 2) n
  else
    let b := r.blk.getD 0
    match s.hallFault b false addr n with
    | some f => .error f
    | none =>
      let x := (tget s.blocks b).getD {}
      .ok (s, (List.range n).map fun i => (Mem.get x.hallA (addr + i), x.poisonA.contains ((addr + i) / 4)))

/-- Poisoned bytes of a row make their hall words poisoned. -/
def spoilWords (x : Block) (w : Bool) (off : Nat) (bs : List (Byte × Bool)) : Block :=
  (List.range bs.length).foldl (fun x i => if (bs.getD i (0, false)).2 then x.hallSpoil w (off + i) 1 else x) x

/-- A destination row written to a space; a copy changes no full/empty bit (R232). -/
def State.copyWrite (s : State) (p : Port) (r : RecSt) (space addr : Nat) (bs : List (Byte × Bool)) : Except EngFault State :=
  if space = 0 then
    match s.poisonWrite p.ctx (s.recCore p r) (s.recPlace p r) (s.recTime p r) addr bs with
    | .error f => .error f
    | .ok (s, w) => .ok (s.sawWrite p r.num w)
  else
    let b := r.blk.getD 0
    let w := space == 2
    match s.hallFault b w addr bs.length with
    | some f => .error f
    | none => .ok ((s.modBlock b fun x => spoilWords (x.hallWrite w addr (bs.map Prod.fst)) w addr bs).stir b)

/-- An address moved by a signed distance, modulo 2^64. -/
def moveAddr (a : DWord) (d : Int) : Nat := (((a.toNat : Int) + d) % (2 ^ 64 : Nat)).toNat

/-- The rows of a copy record. -/
def CopyRec.total (c : CopyRec) : Nat := c.tmpl.planes * c.rows

/-- Row i of a record moved: its source row, or none for an index of 0xFFFF_FFFF (R232). -/
def State.sourceRow (s : State) (p : Port) (r : RecSt) (c : CopyRec) (row : Nat) : Except EngFault (State × Option Nat) :=
  match c.kind with
  | .gather =>
    match s.engRead p.ctx (s.recCore p r) (s.recPlace p r) (c.index.toNat + 4 * row) 4 with
    | .error f => .error f
    | .ok (s, bs, _) => .ok (s, if ofLeBytes bs = 0xFFFFFFFF then none else some (ofLeBytes bs))
  | _ => .ok (s, some row)

/-- The destination of row i. -/
def CopyRec.rowAt (c : CopyRec) (i : Nat) : Nat :=
  moveAddr c.dst (((i / c.rows : Nat) : Int) * c.tmpl.dpstride + ((i % c.rows : Nat) : Int) * c.tmpl.dstride)

/-- A destination row from row i on, of at most n more, has a byte in the aligned 4-byte word of an address. -/
def CopyRec.wordLater (c : CopyRec) (a : Nat) : Nat → Nat → Bool
  | 0, _ => false
  | n + 1, i =>
    (decide (CopyRec.rowAt c i < a / 4 * 4 + 4) && decide (a / 4 * 4 < CopyRec.rowAt c i + Template.dstLen c.tmpl)) || CopyRec.wordLater c a n (i + 1)

/-- Bytes by address. -/
abbrev Marked := List (Nat × Byte × Bool)

/-- Bytes laid over bytes. -/
def layOver (old new : Marked) : Marked := (old.filter fun x => !(new.any fun y => y.1 == x.1)) ++ new

/-- Bytes as runs of consecutive addresses. -/
def runsOf : Marked → List (Nat × List (Byte × Bool))
  | [] => []
  | x :: xs =>
    match runsOf xs with
    | (a, bs) :: rs => if a == x.1 + 1 then (x.1, x.2 :: bs) :: rs else (x.1, [x.2]) :: (a, bs) :: rs
    | [] => [(x.1, [x.2])]

/-- Runs of bytes written to a space. -/
def State.writeRuns (s : State) (p : Port) (r : RecSt) (space : Nat) : List (Nat × List (Byte × Bool)) → Except EngFault State
  | [] => .ok s
  | x :: xs =>
    match s.copyWrite p r space x.1 x.2 with
    | .error f => .error f
    | .ok s => s.writeRuns p r space xs

/-- A destination row can be written whole (R233). -/
def State.rowFault (s : State) (p : Port) (r : RecSt) (space addr : Nat) (bs : List (Byte × Bool)) : Option EngFault :=
  if space = 0 then
    match s.cellsVa p.ctx (s.recCore p r) addr (bs.length / 128 + 2) (bs.map Prod.fst) with
    | .error f => some f
    | .ok _ => none
  else s.hallFault (r.blk.getD 0) (space == 2) addr bs.length

/-- The bytes that row r.rows brings: each aligned 4-byte word is written once, by the last row that has a byte in it, with the
bytes of the rows before; until then they are owed (R232). -/
def State.putRow (s : State) (p : Port) (r : RecSt) (c : CopyRec) (bs : List (Byte × Bool)) : Except EngFault (State × Marked) :=
  let a := CopyRec.rowAt c r.rows
  match s.rowFault p r c.dspace a bs with
  | some f => .error f
  | none =>
    let all := layOver r.owed ((List.range bs.length).zip bs |>.map fun x => (a + x.1, x.2))
    let (keep, now) := all.partition fun x => CopyRec.wordLater c x.1 (CopyRec.total c - (r.rows + 1)) (r.rows + 1)
    match s.writeRuns p r c.dspace (runsOf now) with
    | .error f => .error f
    | .ok s => .ok (s, keep)

/-- One row moved and counted (R232, R402 counter 22), with what is owed behind it. -/
def State.moveRow (s : State) (p : Port) (r : RecSt) (c : CopyRec) : Except EngFault (State × Marked) :=
  let plane := r.rows / c.rows
  let t := c.tmpl
  match s.sourceRow p r c (r.rows % c.rows) with
  | .error f => .error f
  | .ok (s, none) => s.putRow p r c []
  | .ok (s, some q) =>
    match s.copyRead p r c.sspace (moveAddr c.src (plane * t.spstride + q * t.sstride)) (Template.srcLen t) with
    | .error f => .error f
    | .ok (s, src) =>
      match s.putRow p r c (Template.row t src) with
      | .error f => .error f
      | .ok (s, owed) => .ok (s.meterAdd p.ctx 22 (Template.dstLen t), owed)

/-- The global bytes that a row moves, as its regulator counts them. -/
def CopyRec.traffic (c : CopyRec) : Nat :=
  (if c.sspace = 0 then Template.srcLen c.tmpl else 0) + (if c.dspace = 0 then Template.dstLen c.tmpl else 0)
    + (match c.kind with
      | .gather => 4
      | _ => 0)

/-- The shuttle moves the next row of a copy record (R232, R233). -/
def execCopyRow (p : Port) (n : Nat) (s : State) : Out :=
  let i := Instr.copyRow p n
  withRec i p n s fun r =>
    match r.body with
    | .copy c =>
      if !r.started then s
      else if (CopyRec.total c) ≤ r.rows then (s.finished i).postOnce (.recordComplete p n)
      else match s.afford p r (bucketKey (s.recDie p r) true) (CopyRec.traffic c) with
        | (s, none) => s
        | (s, some r) =>
          match s.moveRow p r c with
          | .error f => s.pause p r f (r.rows / c.rows) (r.rows % c.rows)
          | .ok (s, owed) =>
            let s := s.setRecord p { r with rows := r.rows + 1, owed := owed }
            if r.rows + 1 < (CopyRec.total c) then s else (s.finished i).postOnce (.recordComplete p n)
    | _ => s.finished i

/-! ## The start of a copy record (R225, R233, R234, R399) -/

/-- Two ports of a context work on the same channel number of the cores that their records run on (R331). -/
def Port.sameChannel (p q : Port) : Bool :=
  p.ctx == q.ctx && match p.kind, q.kind with
    | .shuttle _ a, .shuttle _ b => a == b
    | _, _ => false

/-- A shuttle channel of a core works in number order (R225): no earlier record of the port is on it, and none of another port
that a restore brought to it, which comes before those that have not begun (R331). -/
def State.isHead (s : State) (p : Port) (r : RecSt) : Bool :=
  !((s.port p).recs.any fun q => q.core == r.core && decide (q.num < r.num))
    && !(s.ports.any fun x => x.port != p && Port.sameChannel x.port p && x.recs.any fun q =>
      q.core == r.core && (q.started || (q.resumed && !r.resumed)))

/-- A copy of 64 KiB or more asks for leave (R233). -/
def CopyRec.heavy (c : CopyRec) : Bool := decide (65536 ≤ (CopyRec.total c) * Template.dstLen c.tmpl)

/-- The ask of a copy (R399). -/
def CopyRec.ask (c : CopyRec) : Nat := ((CopyRec.total c) * Template.dstLen c.tmpl + 3) / 4

/-- A copy record begins: its rows are to move. -/
def State.beginCopy (s : State) (i : Instr) (p : Port) (r : RecSt) : State :=
  ((s.finished i).setRecord p { r with started := true, resumed := false }).postOnce (.copyRow p r.num)

/-- A copy record at the head of its channel begins, or asks for leave first. -/
def State.startCopy (s : State) (i : Instr) (p : Port) (r : RecSt) (c : CopyRec) (go : State → State) : State :=
  if r.started then s.finished i
  else if !s.isHead p r then s
  else if (CopyRec.heavy c) && r.leave == .no then
    ((s.setRecord p { r with leave := .asked }).modCore r.core fun k => { k with
      asks := k.asks ++ [(.record p r.num, (CopyRec.ask c))] }).postOnce (.leaveGrant r.core)
  else if r.leave == .asked then s
  else go s

/-- COPY (R232): its rows begin. -/
def execCopy (p : Port) (n : Nat) (s : State) : Out :=
  let i := Instr.copy p n
  withRec i p n s fun r =>
    match r.body with
    | .copy c => s.startCopy i p r c fun s => s.beginCopy i p r
    | _ => s.finished i

/-- COPY.GATHER (R232): its rows begin. -/
def execCopyGather (p : Port) (n : Nat) (s : State) : Out :=
  let i := Instr.copyGather p n
  withRec i p n s fun r =>
    match r.body with
    | .copy c => s.startCopy i p r c fun s => s.beginCopy i p r
    | _ => s.finished i

/-- GATHER_SHARD (R234): the version is read; where it is not the expected one, no row is written. -/
def execGatherShard (p : Port) (n : Nat) (s : State) : Out :=
  let i := Instr.gatherShard p n
  withRec i p n s fun r =>
    match r.body with
    | .copy c => s.startCopy i p r c fun s =>
        if r.resumed then s.beginCopy i p r
        else match s.engWord p.ctx (s.recCore p r) (s.recPlace p r) c.version.toNat with
        | .error f => s.pause p r f
        | .ok (s, v) =>
          let bad := c.expect != 0 && c.expect != BitVec.ofNat 64 v
          s.beginCopy i p { r with version := some (BitVec.ofNat 64 v), stale := bad, reread := bad,
                                   rows := if bad then (CopyRec.total c) else r.rows }
    | _ => s.finished i

/-! ## Completion (R228) -/

/-- A record completes, and a block may give up its halls (R299). -/
def State.completeRec (s : State) (p : Port) (r : RecSt) : State :=
  let s := s.complete p r.num
  match r.blk with
  | some b => s.releaseBlock b
  | none => s

/-- A GATHER_SHARD ends: the second read, the status block, the report (R234, R431). -/
def State.endShard (s : State) (p : Port) (r : RecSt) (c : CopyRec) : State :=
  let core := s.recCore p r
  let place := s.recPlace p r
  let again : Except EngFault (State × RecSt) :=
    if r.reread then .ok (s, r)
    else match s.engWord p.ctx core place c.version.toNat with
      | .error f => .error f
      | .ok (s, v) => .ok (s, { r with reread := true, stale := r.version != some (BitVec.ofNat 64 v) })
  match again with
  | .error f => s.pause p r f
  | .ok (s, r) =>
    let st := leBytes 8 (r.version.getD 0).toNat ++ leBytes 4 (if r.stale then 0x22 else 0) ++ leBytes 4 0
    match s.recWrite p r c.stat.toNat st with
    | .error f => (s.setRecord p r).pause p r f
    | .ok s => (if r.stale && r.trap then s.report p r 0x13 0x22 0 c.version else s).completeRec p r

/-- Every component of a CXCH has its STATUS (R386). -/
def RecSt.exchanged (r : RecSt) (npkt : Nat) : Bool := decide (npkt ≤ r.rows) && r.stats.all fun x => x.2 != 0 && decide (x.2 < 6)

/-- A CXCH ends: its counters are written (R386). -/
def State.endExchange (s : State) (p : Port) (r : RecSt) (ctrs : DWord) : State :=
  let bs := leBytes 8 r.coded ++ leBytes 8 r.decodes ++ leBytes 8 r.faults ++ leBytes 8 r.fallbacks
  match s.recWrite p r ctrs.toNat bs with
  | .error f => s.pause p r f
  | .ok s => (s.meterAdd p.ctx 20 r.coded).completeRec p r

/-- The grid of a LAUNCH record. -/
def State.gridOf (s : State) (p : Port) (n : Nat) : Option (Nat × Grid) :=
  s.grids.find? fun g => g.2.port == p && g.2.num == n

/-- A record completes at the moment that its kind fixes (R228): a copy with its rows written, a CXCH with every STATUS
written, a LAUNCH with its grid complete. The other kinds complete in their own rows. -/
def execRecordComplete (p : Port) (n : Nat) (s : State) : Out :=
  let i := Instr.recordComplete p n
  withRec i p n s fun r =>
    match r.body with
    | .copy c =>
      if !r.started || r.rows < (CopyRec.total c) then s
      else
        match c.kind with
        | .shard => s.endShard p r c
        | _ => s.completeRec p r
    | .cxch _ npkt ctrs => if r.exchanged npkt then s.endExchange p r ctrs else s
    | .launch _ => if (s.gridOf p n).isNone then s.completeRec p r else s
    | _ => s.finished i

/-! ## MARK, LAUNCH and queue control -/

/-- An earlier record of the port is incomplete. -/
def State.hasEarlier (s : State) (p : Port) (n : Nat) : Bool := (s.port p).recs.any fun q => decide (q.num < n)

/-- MARK (R237): behind every earlier record of its port it adds INC to TARGET, no earlier than what those wrote (R285), and
completes. -/
def execMark (p : Port) (n : Nat) (s : State) : Out :=
  let i := Instr.mark p n
  withRec i p n s fun r =>
    match r.body with
    | .mark target inc _ =>
      if s.hasEarlier p n then s
      else if target == 0 then s.completeRec p r
      else match s.countAdd p.ctx (s.recCore p r) (s.recPlace p r) (Stamp.max (s.recTime p r) (s.port p).seen) target.toNat
          inc.toNat with
        | .error f => s.pause p r f
        | .ok s => s.completeRec p r
    | _ => s.finished i

/-- The number of blocks of a grid. -/
def Grid.blocks (g : Grid) : Nat := g.gx * g.gy * g.gz

/-- The shares of a grid over n dies (R294); a SERIAL grid is placed by die 0 alone (R296). -/
def Grid.shareOut (g : Grid) (n : Nat) : Tbl Share :=
  if g.serial then [(0, { die := 0, lo := 0, hi := g.blocks })]
  else (List.range n).map fun d => (d, { die := d, lo := 0, hi := (g.blocks + n - 1 - d) / n })

/-- An earlier LAUNCH of the port has not entered arbitration (R293). -/
def State.earlierLaunch (s : State) (p : Port) (n : Nat) : Bool :=
  (s.port p).recs.any fun q => decide (q.num < n) && !q.started && match q.body with
    | .launch _ => true
    | _ => false

/-- LAUNCH (R294): every die of the device receives its share of the grid, behind the earlier LAUNCHes of its queue (R293). -/
def execLaunch (p : Port) (n : Nat) (s : State) : Out :=
  let i := Instr.launch p n
  withRec i p n s fun r =>
    match s.gridOf p n with
    | none => s.finished i
    | some (id, g) =>
      if r.started then s.finished i
      else if s.earlierLaunch p n then s
      else
        let x := s.ctx p.ctx
        let s := (s.finished i).setRecord p { r with started := true }
        let s := s.setGrid id { g with shares := g.shareOut x.nDies }
        let s := (List.range x.nDies).foldl (fun s d => s.postOnce (.blockPlace (x.firstDie + d))) s
        s.postOnce (.frontierUpdate id)

/-- The ring of a queue control record. -/
def ringOf (p : Port) : Nat :=
  match p.kind with
  | .ring n => n
  | _ => 0

/-- A queue's state changed. -/
def State.modQueue (s : State) (p : Port) (f : QueueSt → QueueSt) : State :=
  s.modCtx p.ctx fun x => { x with queues := tput x.queues (ringOf p) (f (x.queue (ringOf p))) }

/-- SETLEVEL (R389): the level changes once every earlier LAUNCH of the queue is complete. -/
def execSetlevel (p : Port) (n : Nat) (s : State) : Out :=
  let i := Instr.setlevel p n
  withRec i p n s fun r =>
    match r.body with
    | .qctl 0 level _ =>
      if (s.port p).recs.any fun q => decide (q.num < n) && (match q.body with
          | .launch _ => true
          | _ => false) then s
      else (s.modQueue p fun q => { q with level := level }).completeRec p r
    | _ => s.finished i

/-- EXPECT (R389): the queue's expected digest is armed. -/
def execExpect (p : Port) (n : Nat) (s : State) : Out :=
  let i := Instr.expect p n
  withRec i p n s fun r =>
    match r.body with
    | .qctl 1 _ d => (s.modQueue p fun q => { q with expect := some d }).completeRec p r
    | _ => s.finished i

/-- REEXEC (R389): the queue's next LAUNCH is a serial re-execution. -/
def execReexec (p : Port) (n : Nat) (s : State) : Out :=
  let i := Instr.reexec p n
  withRec i p n s fun r =>
    match r.body with
    | .qctl 2 _ _ => (s.modQueue p fun q => { q with reexec := true }).completeRec p r
    | _ => s.finished i

/-! ## User rings (R290 to R293) -/

/-- A ring's descriptor in the device's copy changed. -/
def State.modRing (s : State) (c n : Nat) (f : Ring → Ring) : State :=
  s.modCtx c fun x => { x with rings := tmod x.rings n f }

/-- A queue control record under way keeps the ring's later records back (R389). -/
def State.ringHeld (s : State) (p : Port) : Bool :=
  (s.port p).recs.any fun r => match r.body with
    | .qctl _ _ _ => true
    | _ => false

/-- A refused record completes at once and is reported (R291, R312). -/
def State.refuseRecord (s : State) (p : Port) (ring : Nat) (r : Ring) (bs : List Byte) (st : Status) : State :=
  let x := s.port p
  let n := x.accepted + 1
  let bare : RecSt := { num := n, tag := fieldAt bs 2 2, trap := false, flag := none, sk := none, blk := none, core := 0,
                        body := .mark 0 0 2, raw := bs }
  let s := (s.setPort { x with accepted := n, recs := x.recs ++ [bare] }).complete p n
  s.event p.ctx r.die (fieldAt bs 2 2) 0x02 (leBytes 1 (Status.num st) ++ leBytes 2 ring ++ [0, 0] ++ leBytes 1 (fieldAt bs 0 1)
    ++ [0] ++ leBytes 4 n)

/-- Records taken in one visit, at most n more, of which the host has placed those up to `head`. -/
def State.takeRecords (s : State) (c ring head : Nat) : Nat → State
  | 0 => s
  | fuel + 1 =>
    let p : Port := ⟨c, .ring ring⟩
    match s.ring c ring with
    | none => s
    | some r =>
      if head ≤ r.taken || s.ringHeld p || s.backlogFull c r.die then s
      else
        match s.bookRead c (r.base + BitVec.ofNat 64 (64 * (r.taken % 2 ^ r.log2n))) 64 with
        | none => s.lose c 5
        | some (s, bs) =>
          let (s, st, _) := s.place { port := p, raw := bs, isRing := true, core := s.engCore p }
          if st == .full then s
          else
            let s := if st == .accepted then s else s.refuseRecord p ring r bs st
            let s := s.modRing c ring fun q => { q with taken := r.taken + 1 }
            (s.bookWrite c r.tailVa (leBytes 8 (r.taken + 1))).takeRecords c ring head fuel

/-- The head word is inconsistent: the device clears its copy of the ring's enable (R292). -/
def State.overrun (s : State) (c ring : Nat) (r : Ring) : State :=
  (s.modRing c ring fun q => { q with enabled := false }).event c r.die (Config.openField 3 ring) 0x04
    ([0] ++ leBytes 2 ring)

/-- The rings that the gallery visits, as context × 64 + ring (R291). -/
def State.visited (s : State) : List Nat :=
  s.ctxs.flatMap fun c : Nat × Context =>
    if c.2.state == .free || c.2.state == .lost then []
    else (c.2.rings.filter fun r => r.2.enabled).map fun r => c.1 * 64 + r.1

/-- The ring that the round-robin comes to next: the least behind the last one visited, or the least of all (R291). -/
def State.nextRing (s : State) : Option Nat :=
  match s.pkg.ringLast with
  | none => s.visited.min?
  | some n =>
    match (s.visited.filter fun m => decide (n < m)).min? with
    | some m => some m
    | none => s.visited.min?

/-- The gallery visits a ring in its turn (R291, R292). -/
def execRingPoll (ctx ring : Nat) (s : State) : Out :=
  match s.ring ctx ring with
  | none => .next (s.finished (.ringPoll ctx ring))
  | some r =>
    let st := (s.ctx ctx).state
    if st == .free || st == .lost || !r.enabled then .next (s.finished (.ringPoll ctx ring))
    else if s.nextRing != some (ctx * 64 + ring) then .next s
    else
      let s := { s with pkg := { s.pkg with ringLast := some (ctx * 64 + ring) } }
      match s.bookRead ctx r.headVa 8, (if r.fresh then s.bookRead ctx r.tailVa 8 else some (s, leBytes 8 r.taken)) with
      | some (s, hb), some (_, tb) =>
        let s := s.modRing ctx ring fun q => { q with taken := ofLeBytes tb, fresh := false }
        let head := ofLeBytes hb
        if head < ofLeBytes tb || ofLeBytes tb + 2 ^ r.log2n < head then .next (s.overrun ctx ring r)
        else .next (s.takeRecords ctx ring head 16)
      | _, _ => .next (s.lose ctx 5)

end Sys2Proof.Machine
end

