-- ==== Sys2Proof/Machine/SaveImage.lean ====
section
/-! DEFINITION. Save images as bytes, written and read (spec 12 R327 to R332). What an image does not list is kept by the
device (log 22). -/

namespace Sys2Proof.Machine

/-- Bytes with poison. -/
abbrev PBytes := List (Byte × Bool)

/-- Clean bytes. -/
def clean (bs : List Byte) : PBytes := bs.map fun b => (b, false)

/-- Bytes filled up with zeros to a multiple of n. -/
def padTo (n : Nat) (bs : PBytes) : PBytes := bs ++ List.replicate ((n - bs.length % n) % n) (0, false)

/-- Bytes cut or filled up to a length. -/
def sized (n : Nat) (bs : List Byte) : List Byte := (bs ++ List.replicate n 0).take n

/-- The value of a bit as a number. -/
def bitNat (b : Bool) : Nat := if b then 1 else 0

/-! ## The control block (R329) -/

/-- A shed entry's 32 bytes. -/
def Shed.bytes (e : Shed) : List Byte :=
  leBytes 8 e.deferred.toNat ++ leBytes 8 e.parked.toNat ++ leBytes 8 (e.elsePc.toNat + bitNat e.inElse * 2 ^ 63)
    ++ leBytes 8 e.closePc.toNat

/-- A shed entry of 32 bytes. -/
def shedOf (bs : List Byte) : Shed :=
  { deferred := BitVec.ofNat 64 (fieldAt bs 0 8), parked := BitVec.ofNat 64 (fieldAt bs 8 8),
    elsePc := BitVec.ofNat 55 (fieldAt bs 16 8), closePc := BitVec.ofNat 55 (fieldAt bs 24 8),
    inElse := 2 ^ 63 ≤ fieldAt bs 16 8 }

/-- Bytes 0 to 671, which a control block and a handler-entry save share; the bottom shed entry stands first. -/
def contextBytes (e : EntrySave) (status : Nat) : List Byte :=
  let ps := (List.range 15).flatMap fun p => leBytes 8 ((tget e.preds p).getD 0).toNat
  let fs := (List.range 12).flatMap fun f => leBytes 1 ((tget e.flags f).getD 0)
  leBytes 8 e.pc.toNat ++ leBytes 8 e.running.toNat ++ leBytes 8 e.live.toNat ++ ps ++ fs ++ leBytes 1 e.sheds.length
    ++ leBytes 1 e.stall ++ leBytes 1 status ++ [0] ++ sized 512 (e.sheds.reverse.flatMap Shed.bytes)

/-- What bytes 0 to 671 hold. -/
def contextOf (bs : List Byte) : EntrySave :=
  let flags := (List.range 12).filterMap fun f =>
    if fieldAt bs (144 + f) 1 = 0 then none else some (f, fieldAt bs (144 + f) 1)
  { pc := BitVec.ofNat 55 (fieldAt bs 0 8), running := BitVec.ofNat 64 (fieldAt bs 8 8),
    live := BitVec.ofNat 64 (fieldAt bs 16 8),
    preds := (List.range 15).map fun p => (p, BitVec.ofNat 64 (fieldAt bs (24 + 8 * p) 8)), flags := flags,
    sheds := ((List.range (min 16 (fieldAt bs 156 1))).map fun i => shedOf ((bs.drop (160 + 32 * i)).take 32)).reverse,
    stall := fieldAt bs 157 1, spanOpen := fieldAt bs 158 1 / 8 % 2 == 1 }

/-- A map slot's 16 bytes. -/
def mapBytes (m : Option MapSlot) : List Byte :=
  match m with
  | none => List.replicate 16 0
  | some x =>
    [BitVec.ofNat 8 (Ty.code x.ty).toNat, BitVec.ofNat 8 (bitNat x.hallW), BitVec.ofNat 8 (bitNat x.list.isSome), 1]
      ++ leBytes 4 x.base.toNat ++ leBytes 4 x.stride.toNat ++ leBytes 4 (x.list.getD 0).toNat

/-- A map slot of 16 bytes. -/
def mapOf (bs : List Byte) : Option MapSlot :=
  match fieldAt bs 3 1, tyAt bs 0 with
  | 0, _ => none
  | _, none => none
  | _, some t =>
    some { ty := t, hallW := fieldAt bs 1 1 != 0, base := BitVec.ofNat 32 (fieldAt bs 4 4),
           stride := BitVec.ofNat 32 (fieldAt bs 8 4),
           list := if fieldAt bs 2 1 != 0 then some (BitVec.ofNat 32 (fieldAt bs 12 4)) else none }

/-- A held cause's 24 bytes. -/
def heldBytes (c : Held) : List Byte :=
  leBytes 8 c.code ++ leBytes 8 c.addr.toNat ++ leBytes 8 c.info.toNat

/-- A held cause of 24 bytes. -/
def heldOf (bs : List Byte) : Held :=
  { code := fieldAt bs 0 1, addr := BitVec.ofNat 64 (fieldAt bs 8 8), info := BitVec.ofNat 64 (fieldAt bs 16 8) }

/-- The clocks that a `sleep` still has to run. -/
def sleepLeft (clk : Nat) : Park → Nat
  | .sleep t n => t + n - clk
  | _ => 0

/-- The STALL that remains (R100). -/
def stallLeft (clk : Nat) (k : Skein) : Nat := k.readyAt + k.stall - clk

/-- Bits [3:0] of byte 158. -/
def statusBits (k : Skein) : Nat :=
  bitNat k.hnd + 2 * bitNat k.sfInd + 4 * bitNat (k.park != .no) + 8 * bitNat k.task.isOpen

/-- Byte 1000. -/
def meetingByte : Meeting → Nat
  | .no => 0
  | .meet _ => 1
  | .regroup _ => 2

/-- The control block of a skein (R329). -/
def controlBytes (clk : Nat) (k : Skein) : List Byte :=
  let stall := if k.stall = 0 then 0 else min 15 (stallLeft clk k)
  let now : EntrySave := { k.entryOf k.pc with stall := stall }
  let entry := match k.entry with
    | some e => contextBytes e (8 * bitNat e.spanOpen)
    | none => List.replicate 672 0
  contextBytes now (statusBits k) ++ ((List.range 16).flatMap fun i => mapBytes (tget k.maps i))
    ++ leBytes 4 k.clockh.toNat ++ leBytes 4 (sleepLeft clk k.park) ++ leBytes 4 k.fpcsr.toNat ++ leBytes 4 0
    ++ leBytes 8 (if k.task.isOpen then k.task.ts.toNat else 0) ++ leBytes 8 k.task.digest.toNat ++ leBytes 8 k.task.index
    ++ leBytes 8 k.trap.cause.toNat ++ leBytes 8 k.trap.pc.toNat ++ leBytes 8 k.trap.addr.toNat
    ++ leBytes 8 k.trap.info.toNat ++ leBytes 1 (meetingByte k.meeting)
    ++ leBytes 1 (k.held.length % 16 + 128 * bitNat k.bclost) ++ List.replicate 22 0 ++ entry
    ++ sized 352 (k.held.flatMap heldBytes)

/-- A park whose clock of parking is moved by a function: to the clocks parked so far, and back (R205). -/
def Park.shift (f : Nat → Nat) : Park → Park
  | .word t l o u => .word (f t) l o u
  | .count t l p v n => .count (f t) l p v n
  | .countHall t l o n => .countHall (f t) l o n
  | .chan t l c => .chan (f t) l c
  | .sleep t n => .sleep (f t) n
  | p => p

/-- A skein read back from its control block; `k` is what the device keeps of it, with the causes owed since (R318) and the
clocks for which it stood parked, on which its wait goes on (R205). -/
def controlOf (clk : Nat) (bs : List Byte) (k : Skein) : Skein :=
  let e := contextOf bs
  let st := fieldAt bs 158 1
  let owed := k.held
  let held := (List.range (min 14 (fieldAt bs 1001 1 % 16))).map fun i => heldOf ((bs.drop (1696 + 24 * i)).take 24)
  let park := match k.park with
    | .sleep _ _ => Park.sleep clk (fieldAt bs 932 4)
    | p => p.shift fun t => clk - t
  { k with
    pc := e.pc, running := e.running, live := e.live, preds := e.preds, flags := e.flags, sheds := e.sheds,
    stall := e.stall, hnd := st % 2 == 1, sfInd := st / 2 % 2 == 1,
    maps := (List.range 16).filterMap fun i => (mapOf ((bs.drop (672 + 16 * i)).take 16)).map fun m => (i, m),
    clockh := BitVec.ofNat 32 (fieldAt bs 928 4), fpcsr := BitVec.ofNat 32 (fieldAt bs 936 4),
    task := { k.task with isOpen := st / 8 % 2 == 1, ts := BitVec.ofNat 64 (fieldAt bs 944 8),
                          digest := BitVec.ofNat 64 (fieldAt bs 952 8), index := fieldAt bs 960 8 },
    trap := { cause := BitVec.ofNat 32 (fieldAt bs 968 8), pc := BitVec.ofNat 64 (fieldAt bs 976 8),
              addr := BitVec.ofNat 64 (fieldAt bs 984 8), info := BitVec.ofNat 64 (fieldAt bs 992 8) },
    entry := if st % 2 == 1 then some (contextOf ((bs.drop 1024).take 672)) else none,
    held := (held ++ owed).take 14, bclost := fieldAt bs 1001 1 / 128 == 1 || decide (14 < held.length + owed.length),
    park := park, waited := k.waited.map fun t => clk - t, readyAt := clk, age := clk, promoted := none, leave := .no, guard := false,
    lines := [], badWords := [] }

/-! ## The register area (R330) -/

/-- The tag byte of a register. -/
def Shape.tagByte : Shape → Byte
  | .uniform => 0
  | .affine => 1
  | .general => 2

/-- The data of a register. -/
def regData (w : Nat) (r : VReg) : List Byte :=
  match r.tag with
  | .uniform => leBytes 4 (r.lane 0).toNat
  | .affine => leBytes 4 (r.lane 0).toNat ++ leBytes 4 (r.lane 1 - r.lane 0).toNat
  | .general => (List.range w).flatMap fun l => leBytes 4 (r.lane l).toNat

/-- The register area of a skein. -/
def registerBytes (k : Skein) : List Byte :=
  let rs := (List.range k.regCount).map k.reg
  (padTo 64 (clean (rs.map fun r => Shape.tagByte r.tag))).map Prod.fst ++ rs.flatMap (regData k.width)
    ++ rs.flatMap fun r => if r.tag == .general then leBytes 8 r.poison.toNat else []

/-- The length of the data of a register with a tag byte. -/
def regLen (w : Nat) (tag : Byte) : Nat := if tag = 0 then 4 else if tag = 1 then 8 else 4 * w

/-- Some byte of [o, o + n) is poisoned. -/
def anyBad (bs : PBytes) (o n : Nat) : Bool := ((bs.drop o).take n).any Prod.snd

/-- A register read back: its data at `o`, its poison mask at `m`; units that were met poisoned poison their lanes
(R332). -/
def regOf (w : Nat) (tag : Byte) (bs : PBytes) (o m : Nat) : VReg :=
  let raw := bs.map Prod.fst
  let word := fun i => BitVec.ofNat 32 (fieldAt raw (o + 4 * i) 4)
  if tag = 0 || tag = 1 then
    let step : Word := if tag = 0 then 0 else word 1
    let lanes := (List.range w).map fun l => word 0 + BitVec.ofNat 32 l * step
    if anyBad bs o (regLen w tag) then { tag := .general, lanes := lanes, poison := Mask.full w }
    else { tag := if tag = 0 then .uniform else .affine, lanes := lanes, poison := 0 }
  else
    let all := anyBad bs m 8
    let mask := BitVec.ofNat 64 (fieldAt raw m 8)
    { tag := .general, lanes := (List.range w).map word,
      poison := Mask.ofFn w fun l => Mask.has mask l || all || anyBad bs (o + 4 * l) 4 }

/-- A register whose tag was met poisoned: every lane of it is. -/
def VReg.spoilt (w : Nat) (r : VReg) (bad : Bool) : VReg :=
  if bad then { tag := .general, lanes := (List.range w).map r.lane, poison := Mask.full w } else r

/-- Registers read back from register i on. -/
def regsFrom (w : Nat) (tags bs : PBytes) (i o m : Nat) : Nat → Tbl VReg
  | 0 => []
  | n + 1 =>
    let (t, bad) := tags.getD i (0, false)
    (i, VReg.spoilt w (regOf w t bs o m) bad)
      :: regsFrom w tags bs (i + 1) (o + regLen w t) (if 2 ≤ t.toNat then m + 8 else m) n

/-- The registers of a register area (R330, R332). -/
def registersOf (w count : Nat) (bs : PBytes) : Tbl VReg :=
  let tags := bs.take count
  let start := (count + 63) / 64 * 64
  let data := (tags.map fun t => regLen w t.1).sum
  regsFrom w tags bs 0 start (start + data) count

/-! ## Halls, channels, records -/

/-- The bytes of a hall, each poisoned with its word. -/
def hallBytes (m : Memory) (bad : List Nat) (len : Nat) : PBytes :=
  (List.range len).map fun i => (Mem.get m i, bad.contains (i / 4))

/-- The words of bytes that are poisoned. -/
def badWordsOf (bs : PBytes) : List Nat := (List.range (bs.length / 4)).filter fun i => anyBad bs (4 * i) 4

/-- The full/empty bits of hall A, word 0 in bit 0 of byte 0. -/
def fullBytes (full : List Nat) (words : Nat) : List Byte :=
  (List.range (words / 8)).map fun b =>
    BitVec.ofNat 8 ((List.range 8).foldl (fun a i => if full.contains (8 * b + i) then a + 2 ^ i else a) 0)

/-- The full words of a bit string. -/
def fullOf (bs : List Byte) : List Nat :=
  (List.range (8 * bs.length)).filter fun i => (bs.getD (i / 8) 0).getLsbD (i % 8)

/-- The channels: head, tail, count, depth of each. -/
def chanBytes (cs : Tbl Chan) : List Byte :=
  (List.range 32).flatMap fun i =>
    match tget cs i with
    | none => List.replicate 16 0
    | some x => leBytes 4 x.head ++ leBytes 4 x.tail ++ leBytes 4 x.count ++ leBytes 4 x.depth

/-- The channels read back over those that the descriptor binds. -/
def chansFrom (bs : List Byte) (cs : Tbl Chan) : Tbl Chan :=
  cs.map fun c => (c.1, { c.2 with
    head := fieldAt bs (16 * c.1) 4, tail := fieldAt bs (16 * c.1 + 4) 4, count := fieldAt bs (16 * c.1 + 8) 4 })

/-- A recorded copy record of 96 bytes (R328). -/
def State.copyBytes (s : State) (p : Port) (r : RecSt) : List Byte :=
  sized 64 r.raw ++ leBytes 4 (s.aperture p) ++ leBytes 4 (s.recRelCore p r) ++ leBytes 8 r.rows ++ List.replicate 16 0

/-- A store-fault record of segment 21 (R328). -/
def recordBytes (w : Nat) (r : StoreRec) : PBytes :=
  clean (leBytes 8 r.pc.toNat ++ leBytes 8 r.mask.toNat ++ leBytes 4 (StoreRec.word r).toNat ++ List.replicate 12 0)
    ++ (List.range w).flatMap fun l =>
        match StoreRec.lane r l with
        | none => List.replicate 16 (0, false)
        | some x => clean (leBytes 8 x.ea.toNat) ++ (leBytes 8 x.data.toNat).map fun b => (b, x.poison)

/-- A recorded copy read back: it goes on from its rows written (R331). -/
def copyBack (bs : List Byte) (r : Port × RecSt) : Port × RecSt := (r.1, { r.2 with rows := fieldAt bs 72 8 })

/-- A store-fault record read back from its head and lanes; the device keeps which skein it is of. -/
def recordBack (w : Nat) (bs : PBytes) (r : StoreRec) : StoreRec :=
  let raw := bs.map Prod.fst
  let mask := BitVec.ofNat 64 (fieldAt raw 8 8)
  let word := fieldAt raw 16 4
  { sk := r.sk, pc := BitVec.ofNat 55 (fieldAt raw 0 8), mask := mask, cause := word % 256, size := word / 2 ^ 12 % 16,
    slot := word / 2 ^ 16 % 16,
    lanes := ((List.range w).filter (Mask.has mask)).map fun l =>
      { lane := l, ea := BitVec.ofNat 64 (fieldAt raw (32 + 16 * l) 8), data := BitVec.ofNat 64 (fieldAt raw (40 + 16 * l) 8),
        poison := anyBad bs (40 + 16 * l) 8 } }

/-- A list read back from entries of n bytes each. -/
def eachOf {α : Type} (n : Nat) (f : PBytes → α → α) (bs : PBytes) : List α → List α
  | [] => []
  | x :: xs => f (bs.take n) x :: eachOf n f (bs.drop n) xs

/-- A partition as its 589,824 bytes (R177). -/
def partBytes (p : Part) : List Byte :=
  (List.range 6144).flatMap fun i => (List.range 24).flatMap fun k => leBytes 4 (boltWord (p.bolt i) k).toNat

/-- The bolts of a partition's bytes; poisoned bytes give S.POISON (R332). -/
def partOf (bs : PBytes) : Tbl Bolt :=
  let raw := bs.map Prod.fst
  boltTable fun i =>
    let b := boltOfWords fun k => BitVec.ofNat 32 (fieldAt raw (96 * i + 4 * k) 4)
    if anyBad bs (96 * i) 96 then { b with poison := true } else b

/-! ## Segments and headers (R328) -/

/-- An image about to be written: its header fields and its segments. -/
structure Image where
  desc : DWord
  block : Nat
  queue : Nat
  skeins : Nat
  width : Nat
  hallc : Nat
  kind : Nat
  segs : Tbl PBytes

/-- The segments' places: index, offset from the header's start, length. -/
def placesOf (o : Nat) : Tbl PBytes → List (Nat × Nat × Nat)
  | [] => []
  | (i, bs) :: ss => (i, o, bs.length) :: placesOf (o + (bs.length + 127) / 128 * 128) ss

/-- The places of an image's segments: 128-byte alignment behind the header of 1 KiB. -/
def Image.places (m : Image) : List (Nat × Nat × Nat) := placesOf 1024 m.segs

/-- The header (R328). -/
def Image.header (m : Image) : List Byte :=
  let bad := m.segs.foldl (fun a g => if g.2.any Prod.snd then a + 2 ^ g.1 else a) 0
  let seg := fun i => match m.places.find? (·.1 == i) with
    | some (_, o, n) => if n = 0 then List.replicate 16 0 else leBytes 8 o ++ leBytes 8 n
    | none => List.replicate 16 0
  sized 1024 (leBytes 8 m.desc.toNat ++ leBytes 4 m.block ++ leBytes 2 m.queue ++ leBytes 1 m.skeins ++ leBytes 1 m.width
    ++ leBytes 1 m.hallc ++ leBytes 1 m.kind ++ List.replicate 6 0 ++ leBytes 8 bad ++ (List.range 32).flatMap seg)

/-- The whole image. -/
def Image.bytes (m : Image) : PBytes := clean m.header ++ m.segs.flatMap fun g => padTo 128 g.2

/-- A segment of a header: offset and length. -/
def segOf (hdr : List Byte) (i : Nat) : Nat × Nat := (fieldAt hdr (32 + 16 * i) 8, fieldAt hdr (40 + 16 * i) 8)

/-- A segment read back from an image. -/
def State.readSeg (s : State) (c core va : Nat) (hdr : List Byte) (i : Nat) : Except EngFault (State × PBytes) :=
  let (o, n) := segOf hdr i
  s.poisonRead c core (dieOf core) (va + o) (n / 128 + 2) n

/-- Segments read back from an image. -/
def State.readSegs (s : State) (c core va : Nat) (hdr : List Byte) : List Nat → Except EngFault (State × List PBytes)
  | [] => .ok (s, [])
  | i :: is =>
    match s.readSeg c core va hdr i with
    | .error f => .error f
    | .ok (s, bs) =>
      match s.readSegs c core va hdr is with
      | .error f => .error f
      | .ok (s, rest) => .ok (s, bs :: rest)

/-- The image of a block: skein s in segment s (R328, R331). -/
def State.blockImage (s : State) (b : Block) (g : Grid) (ks : List (Nat × Skein)) (copies : List (Port × RecSt))
    (recs : List StoreRec) : Image :=
  let w := widthOf g.desc.widthCode
  let skeins : Tbl PBytes := (List.range 16).filterMap fun i =>
    (ks.find? fun k => k.2.num == i).map fun k => (i, clean (controlBytes s.clk k.2 ++ registerBytes k.2))
  { desc := g.desc.va, block := b.idx, queue := g.queue, skeins := b.nskein, width := g.desc.widthCode,
    hallc := b.hallc.length, kind := 0,
    segs := skeins ++
      [(16, hallBytes b.hallA b.poisonA (4096 * b.granA)), (17, clean (fullBytes b.full (1024 * b.granA))),
       (18, hallBytes b.hallW b.poisonW (4096 * b.granW)), (19, clean (chanBytes b.chans)),
       (20, clean (copies.flatMap fun c => s.copyBytes c.1 c.2)), (21, recs.flatMap (recordBytes w))] }

/-- The image of a context's partitions on a core. -/
def hallcImage (parts : List Part) : Image :=
  { desc := 0, block := 0, queue := 0, skeins := 0, width := 0, hallc := parts.length, kind := 1,
    segs := (List.range parts.length).filterMap fun i => parts[i]?.map fun p => (22 + i, clean (partBytes p)) }

/-! ## Granules of the save area (R327) -/

/-- The granules of an image. -/
def granulesOf (bytes : Nat) : Nat := (bytes + 65535) / 65536

/-- A run of n granules from i on is free. -/
def runFree (used : List (Nat × Nat)) (i n : Nat) : Bool := used.all fun u => decide (i + n ≤ u.1) || decide (u.1 + u.2 ≤ i)

/-- The first free run of n granules in a save area. -/
def Context.findRun (x : Context) (n : Nat) : Option Nat :=
  let total := x.areas.saveLen.toNat / 65536
  (0 :: x.granules.map fun u => u.1 + u.2).filter (fun i => decide (i + n ≤ total) && runFree x.granules i n) |>.min?

/-- An image written to the save area: its address, with the granules taken; the context is LOST where a page of the area
has no valid translation (R332). Nothing where the free granules cannot hold it. -/
def State.writeImage (s : State) (c core : Nat) (m : Image) : Option (State × Option Nat) :=
  let bs := m.bytes
  let n := granulesOf bs.length
  match (s.ctx c).findRun n with
  | none => none
  | some i =>
    let va := (s.ctx c).areas.saveVa.toNat + 65536 * i
    match s.poisonWrite c core (dieOf core) (s.core core).lclk va bs with
    | .error _ => some (s.lose c 1, none)
    | .ok (s, _) => some (s.modCtx c fun x => { x with granules := x.granules ++ [(i, n)] }, some va)

/-- A restored image frees its granules. -/
def State.freeImage (s : State) (c va : Nat) : State :=
  s.modCtx c fun x => { x with granules := x.granules.filter fun u => x.areas.saveVa.toNat + 65536 * u.1 != va }

/-- An uncorrectable error met by a save: a unit of 32 bytes of a segment stands poisoned in the image, and the segment's
POISONSEG bit is set (R332). -/
def State.spoilImage (s : State) (c core va seg off : Nat) : State :=
  match s.poisonRead c core (dieOf core) va 10 1024 with
  | .error _ => s
  | .ok (s, h) =>
    let hdr := h.map Prod.fst
    let (o, n) := segOf hdr seg
    let u := off / 32 * 32
    if n ≤ u || 26 ≤ seg then s
    else match s.poisonRead c core (dieOf core) (va + o + u) 2 32 with
      | .error _ => s
      | .ok (s, bs) =>
        let bits := fieldAt hdr 24 8
        let mask := if bits.testBit seg then bits else bits + 2 ^ seg
        match s.poisonWrite c core (dieOf core) (s.core core).lclk (va + o + u) (bs.map fun b => (b.1, true)) with
        | .error _ => s
        | .ok (s, _) =>
          match s.poisonWrite c core (dieOf core) (s.core core).lclk (va + 24) (clean (leBytes 8 mask)) with
          | .error _ => s
          | .ok (s, _) => s

/-! ## A block read back -/

/-- The skeins of a block read back: the state, the skeins, and whether poison was met. -/
def State.readSkeins (s : State) (c core va : Nat) (hdr : List Byte) :
    List (Nat × Skein) → Except EngFault (State × List (Nat × Skein) × Bool)
  | [] => .ok (s, [], false)
  | (id, k) :: ks =>
    match s.readSeg c core va hdr k.num with
    | .error f => .error f
    | .ok (s, bs) =>
      let k' := controlOf s.clk ((bs.take 2048).map Prod.fst) k
      let k' := { k' with regs := registersOf k.width k.regCount (bs.drop 2048) }
      match s.readSkeins c core va hdr ks with
      | .error f => .error f
      | .ok (s, rest, bad) => .ok (s, (id, k') :: rest, bad || bs.any Prod.snd)

/-- A block read back: its skeins, halls, channels, recorded copies and store-fault records, and whether poison was met. -/
def State.readBlock (s : State) (core : Nat) (sv : Saved) : Except EngFault (State × Saved × Bool) :=
  let x := sv.block
  match s.poisonRead x.ctx core (dieOf core) sv.va 10 1024 with
  | .error f => .error f
  | .ok (s, h) =>
    let hdr := h.map Prod.fst
    let w := widthOf (fieldAt hdr 15 1)
    match s.readSkeins x.ctx core sv.va hdr sv.skeins with
    | .error f => .error f
    | .ok (s, ks, bad) =>
      match s.readSegs x.ctx core sv.va hdr [16, 17, 18, 19, 20, 21] with
      | .error f => .error f
      | .ok (s, segs) =>
        let seg := fun i => segs.getD i []
        let raw := fun i => (seg i).map Prod.fst
        let b := { x with
          hallA := Mem.write [] 0 (raw 0), poisonA := badWordsOf (seg 0), full := fullOf (raw 1),
          hallW := Mem.write [] 0 (raw 2), poisonW := badWordsOf (seg 2), chans := chansFrom (raw 3) x.chans }
        let sv := { sv with
          block := b, skeins := ks, copies := eachOf 96 (fun bs => copyBack (bs.map Prod.fst)) (seg 4) sv.copies,
          recs := eachOf (32 + 16 * w) (recordBack w) (seg 5) sv.recs }
        .ok (s, sv, bad || h.any Prod.snd || segs.any fun g => g.any Prod.snd)

/-- The partitions of a hall C image read back, from segment i on. -/
def State.readParts (s : State) (c core va : Nat) (hdr : List Byte) (i : Nat) :
    Nat → Except EngFault (State × List (Tbl Bolt) × Bool)
  | 0 => .ok (s, [], false)
  | n + 1 =>
    match s.readSeg c core va hdr (22 + i) with
    | .error f => .error f
    | .ok (s, bs) =>
      match s.readParts c core va hdr (i + 1) n with
      | .error f => .error f
      | .ok (s, rest, bad) => .ok (s, partOf bs :: rest, bad || bs.any Prod.snd)

end Sys2Proof.Machine
end

