-- ==== Sys2Proof/Machine/Place.lean ====
section
/-! DEFINITION. Arbitration, room, placement and stealing (spec 11 R294 to R301, R307, 01 R14, R45, R46). Dies of shares
and steals are numbered within the device. -/

namespace Sys2Proof.Machine

/-! ## Room on a core (R298) -/

/-- What a block needs of a core: its context, width, skeins, register bytes, granules, partitions, and the store-fault
records that its restore brings with it. -/
structure Need where
  ctx : Nat
  width : Nat
  skeins : Nat
  regBytes : Nat
  granA : Nat
  granW : Nat
  hallc : Nat
  records : Nat := 0
  deriving DecidableEq, Repr

/-- The register file bytes of a skein (R19). -/
def regBytesOf (count width : Nat) : Nat := (count + 15) / 16 * 16 * width * 4

/-- What a block of a grid needs. -/
def Grid.need (g : Grid) : Need :=
  let w := widthOf g.desc.widthCode
  { ctx := g.ctx, width := w, skeins := g.desc.skeins, regBytes := g.desc.skeins * regBytesOf g.desc.regs w,
    granA := g.desc.granA, granW := g.desc.granW, hallc := g.desc.hallc }

/-- What a saved block needs: its skeins that have ended need nothing. -/
def Saved.need (x : Saved) : Need :=
  { ctx := x.block.ctx, width := 0, skeins := x.skeins.length,
    regBytes := (x.skeins.map fun k => regBytesOf k.2.regCount k.2.width).sum,
    granA := x.block.granA, granW := x.block.granW, hallc := 0, records := x.recs.length }

/-- The skeins of a core. -/
def State.skeinsOn (s : State) (core : Nat) : List Skein := (s.skeins.filter fun k => k.2.core == core).map Prod.snd

/-- The blocks of a core, with its parent records. -/
def State.blocksOn (s : State) (core : Nat) : List (Nat × Block) := s.blocks.filter fun b => b.2.core == core

/-- The block holds one of the 16 block slots of its core (R299). -/
def Block.hasSlot (x : Block) : Bool := !x.allEnded || x.waitsForEntry

/-- Partitions of a context on a core that no block holds and none reserves, ascending. -/
def CoreSt.ownParts (k : CoreSt) (c : Nat) : List Nat :=
  (k.hallc.filter fun p => p.2.ctx == c && p.2.blk.isNone && p.2.reserved.isNone).map Prod.fst

/-- Partitions of a core granted to no context. -/
def CoreSt.freeParts (k : CoreSt) : List Nat := (List.range 4).filter fun i => (tget k.hallc i).isNone

/-- A context's hall C images (R46). -/
def State.imagesC (s : State) (c : Nat) : Tbl SavedHallC := s.savedC.filter fun x => x.2.ctx == c

/-- The image that comes back when a context returns to a core: the one that holds the partitions of a saved block, or
else the first; none for a context that is on the core (R46, R305). -/
def State.imageFor (s : State) (c core : Nat) (owner : Option Nat) : Option (Nat × SavedHallC) :=
  let mine := match owner with
    | some b => (s.imagesC c).find? fun x => x.2.owners.contains (some b)
    | none => none
  match mine with
  | some x => some x
  | none => if s.holds core c then none else
      (s.imagesC c).find? fun x => decide (x.2.parts ≤ (s.core core).freeParts.length)

/-- The partitions that an image brings back to a core, and those of them that no block reserves. -/
def imageParts (x : Option (Nat × SavedHallC)) : Nat × Nat :=
  match x with
  | none => (0, 0)
  | some (_, h) => (h.parts, (h.owners.filter Option.isNone).length)

/-- The room that a core has, less what a list of its blocks would free. -/
structure Room where
  slots : Nat
  skeins : Nat
  regBytes : Nat
  granA : Nat
  granW : Nat
  ctxs : List Nat
  deriving DecidableEq, Repr

/-- What a core holds without some of its blocks. -/
def State.usage (s : State) (core : Nat) (gone : List Nat) : Room :=
  let bs := (s.blocksOn core).filter fun b => !(gone.contains b.1)
  let ks := (s.skeinsOn core).filter fun k => !(gone.contains k.blk)
  { slots := (bs.filter fun b => b.2.hasSlot).length, skeins := ks.length,
    regBytes := (ks.map fun k => regBytesOf k.regCount k.width).sum,
    granA := (bs.map fun b => b.2.granA).sum, granW := (bs.map fun b => b.2.granW).sum,
    ctxs := (bs.map (fun b => b.2.ctx) ++ (s.core core).hallc.map fun p => p.2.ctx).eraseDups }

/-- The partitions of a core suffice for a block (R46, R298). -/
def State.partsFit (s : State) (n : Need) (core : Nat) (owner : Option Nat) : Bool :=
  let k := s.core core
  let (all, unheld) := imageParts (s.imageFor n.ctx core owner)
  decide (all ≤ k.freeParts.length)
    && decide (n.hallc ≤ (k.ownParts n.ctx).length + unheld + (k.freeParts.length - all))

/-- A core has room for a block once some of its blocks have left (R298, R19, R324). -/
def State.roomWithout (s : State) (n : Need) (core : Nat) (owner : Option Nat) (gone : List Nat) : Bool :=
  let u := s.usage core gone
  decide (u.slots < 16) && decide (u.skeins + n.skeins ≤ 64) && decide (u.regBytes + n.regBytes ≤ 1536 * 1024)
    && decide (u.granA + n.granA ≤ 256) && decide (u.granW + n.granW ≤ 192)
    && (u.ctxs.contains n.ctx || decide (u.ctxs.length < 4))
    && decide ((s.core core).recQ.length + n.records ≤ 32)
    && s.partsFit n core owner

/-! ## What waits (R295 to R297, R305, R307) -/

/-- A block that waits: the next unplaced block of a grid on a die, or a saved block. -/
structure Waiting where
  grid : Nat
  ctx : Nat
  queue : Nat
  num : Nat
  prio : Nat
  filler : Bool
  saved : Option Nat
  need : Need
  /-- A reduce block, which the reed supplies and runs (R370). -/
  reduce : Bool := false
  deriving DecidableEq, Repr

/-- The least unplaced index of a share (R295). -/
def Grid.nextOf (g : Grid) (nd : Nat) (x : Share) : Option Nat :=
  let own := if x.lo < x.hi then [g.blockAt nd x x.lo] else []
  (own ++ x.extra).min?

/-- The guard core of a context lies on a die (R307). -/
def State.guardsOn (s : State) (c die : Nat) : Bool := (s.ctx c).guardCore.any fun k => k / 48 == die

/-- The priority of a grid's blocks on a die (R297, R307). -/
def State.prioOn (s : State) (g : Grid) (die : Nat) : Nat := if s.guardsOn g.ctx die then 63 else g.prio

/-- A grid's blocks wait as filler on a die (R301); in a guard quantum the context runs whatever its priority (R52). -/
def State.fillsOn (s : State) (g : Grid) (die : Nat) : Bool := g.filler && !s.guardsOn g.ctx die

/-- The grid of a context has a next block on a die: its context is not LOST, and a SERIAL grid's earlier blocks have
ended (R296). -/
def State.nextBlock (s : State) (g : Grid) (die : Nat) : Option Nat :=
  let x := s.ctx g.ctx
  if !(x.hasDie die) || !(x.state == .resident || x.state == .saved) then none
  else if g.serial && g.placed != g.blocksEnded then none
  else (tget g.shares (die - x.firstDie)).bind fun h => g.nextOf x.nDies h

/-- The unplaced blocks that wait on a die, one of each grid. -/
def State.waitingNew (s : State) (die : Nat) : List Waiting :=
  s.grids.filterMap fun g =>
    (s.nextBlock g.2 die).map fun _ =>
      { grid := g.1, ctx := g.2.ctx, queue := g.2.queue, num := g.2.num, prio := s.prioOn g.2 die,
        filler := s.fillsOn g.2 die, saved := none, need := g.2.need }

/-- The saved blocks that wait on a die. -/
def State.waitingSaved (s : State) (die : Nat) : List Waiting :=
  s.saved.filterMap fun x =>
    let b := x.2.block
    let g := (tget s.grids b.grid).getD {}
    if (s.ctx b.ctx).hasDie die then
      some { grid := b.grid, ctx := b.ctx, queue := g.queue, num := g.num, prio := s.prioOn g die,
             filler := s.fillsOn g die, saved := some x.1, need := x.2.need }
    else none

/-- What a reduce block needs of a core (R370). -/
def reduceNeed (c : Nat) : Need :=
  { ctx := c, width := 64, skeins := 1, regBytes := regBytesOf 64 64, granA := 0, granW := 0, hallc := 0 }

/-- The reduce blocks that wait on a die (R370). -/
def State.waitingReduce (s : State) (die : Nat) : List Waiting :=
  s.pending.filterMap fun i => match i with
    | .reduceBlock p n _ =>
      (s.colls.find? fun k => k.2.port == p && k.2.num == n && k.2.die == die).map fun k =>
        { grid := 0, ctx := p.ctx, queue := k.2.queue, num := n, prio := 63, filler := false, saved := none,
          need := reduceNeed p.ctx, reduce := true }
    | _ => none

/-- What waits on a die. -/
def State.waiting (s : State) (die : Nat) : List Waiting := s.waitingSaved die ++ s.waitingReduce die ++ s.waitingNew die

/-- The turn of a queue. -/
def Waiting.turn (w : Waiting) : Nat := w.ctx * 256 + w.queue

/-- The round of turns that a waiting block takes part in: its priority's, filler for itself (R297, R301). -/
def Waiting.round (w : Waiting) : Nat := w.prio + if w.filler then 64 else 0

/-- w comes before v on a die with the queues that had the last turns (R297): non-filler first, then priority, turn, number; a
saved block before the unplaced ones of its grid. -/
def Waiting.before (turns : Tbl Nat) (w v : Waiting) : Bool :=
  if w.filler != v.filler then !w.filler
  else if w.prio != v.prio then decide (v.prio < w.prio)
  else if w.turn != v.turn then
    let late := fun x : Waiting => (tget turns w.round).any fun t => decide (x.turn ≤ t)
    if late w != late v then !late w else decide (w.turn < v.turn)
  else if w.num != v.num then decide (w.num < v.num)
  else w.saved.isSome && v.saved.isNone

/-- A list in the order of a comparison; equal elements keep their places. -/
def insertBy {α : Type} (lt : α → α → Bool) (x : α) : List α → List α
  | [] => [x]
  | y :: ys => if lt y x || !(lt x y) then y :: insertBy lt x ys else x :: y :: ys

/-- A list sorted by a comparison. -/
def sortBy {α : Type} (lt : α → α → Bool) (xs : List α) : List α := xs.foldl (fun a x => insertBy lt x a) []

/-- What waits on a die in the order of arbitration (R297). -/
def State.queueOn (s : State) (die : Nat) : List Waiting := sortBy (Waiting.before (s.die die).turns) (s.waiting die)

/-- The queue of a waiting block has had its turn on a die (R297). -/
def State.turned (s : State) (die : Nat) (w : Waiting) : State :=
  s.modDie die fun d => { d with turns := tput d.turns w.round w.turn }

/-! ## Which core (R298, R301, R304, R305, R307) -/

/-- The core where partitions of a saved block lie (R305). -/
def State.homeOf (s : State) (b : Nat) : Option Nat :=
  (s.cores.find? fun k => k.2.hallc.any fun p => p.2.reserved == some b).map Prod.fst

/-- The core that a waiting block is bound to: where its partitions lie, or the guard core of its context on the die. -/
def State.boundTo (s : State) (w : Waiting) (die : Nat) : Option Nat :=
  match w.saved.bind s.homeOf, (if w.reduce then none else (s.ctx w.ctx).guardCore) with
  | some c, _ => some c
  | none, some c => if c / 48 = die then some c else none
  | none, none => none

/-- The block may be put on a core once some of its blocks have left. -/
def State.mayLie (s : State) (w : Waiting) (core : Nat) (gone : List Nat) : Bool :=
  ((s.boundTo w (core / 48)).isNone || s.boundTo w (core / 48) == some core)
    && s.roomWithout w.need core w.saved gone

/-- A resident block's kernel carries MIDPRE, and its priority on its core. -/
def State.blockMidpre (s : State) (b : Block) : Bool := ((tget s.grids b.grid).getD {}).desc.midpre

/-- The priority of a resident block: 63 on the guard core of its context (R307). -/
def State.blockPrio (s : State) (b : Block) : Nat :=
  if (s.ctx b.ctx).guardCore == some b.core then 63 else ((tget s.grids b.grid).getD {}).prio

/-- The block's grid is FILLER. -/
def State.blockFiller (s : State) (b : Block) : Bool := ((tget s.grids b.grid).getD {}).filler

/-- The blocks of a core that have not ended and answer to a property. -/
def State.standing (s : State) (core : Nat) (p : Block → Bool) : List Nat :=
  ((s.blocksOn core).filter fun b => !b.2.allEnded && p b.2).map Prod.fst

/-- A waiting block keeps a core from taking another of lower priority (R304): it could be placed there once the blocks of
lower priority have left. Filler keeps back only filler (R301). -/
def State.heldFor (s : State) (v w : Waiting) (core : Nat) : Bool :=
  decide (w.prio < v.prio) && (!v.filler || w.filler)
    && s.mayLie v core (s.standing core fun b => decide (s.blockPrio b < v.prio))

/-- A block of a FILLER grid may go to a core (R301): no non-filler block is there, and none waits that could be placed there
once filler has left. -/
def State.fillerMay (s : State) (ws : List Waiting) (core : Nat) : Bool :=
  (s.standing core fun b => !s.blockFiller b).isEmpty
    && !(ws.any fun v => !v.filler && s.mayLie v core (s.standing core s.blockFiller))

/-- A core of the die may take a waiting block now, among all that wait. -/
def State.mayTake (s : State) (ws : List Waiting) (w : Waiting) (core : Nat) : Bool :=
  s.mayLie w core [] && (!w.filler || s.fillerMay ws core) && !(ws.any fun v => s.heldFor v w core)

/-- A core is preferred to another (R298): it holds the context, then it has fewer skeins, then it is lower. -/
def State.prefers (s : State) (c : Nat) (a b : Nat) : Bool :=
  if s.holds a c != s.holds b c then s.holds a c
  else if (s.skeinsOn a).length != (s.skeinsOn b).length then
    decide ((s.skeinsOn a).length < (s.skeinsOn b).length)
  else decide (a < b)

/-- A core is preferred for a reduce block (R370): an idle one first. -/
def State.prefersIdle (s : State) (c : Nat) (a b : Nat) : Bool :=
  if (s.skeinsOn a).isEmpty != (s.skeinsOn b).isEmpty then (s.skeinsOn a).isEmpty else s.prefers c a b

/-- The core that takes a waiting block (R298). -/
def State.coreFor (s : State) (ws : List Waiting) (w : Waiting) (die : Nat) : Option Nat :=
  (sortBy (if w.reduce then s.prefersIdle w.ctx else s.prefers w.ctx) (((List.range 48).map (48 * die + ·)).filter (s.mayTake ws w))).head?

/-! ## Placement -/

/-- The number of skeins of a core on a quadrant. -/
def State.onQuad (s : State) (core q : Nat) : List Skein := (s.skeinsOn core).filter fun k => k.quad == q

/-- The quadrant with the fewest skeins, and its lowest free slot (R298). -/
def State.seatOf (s : State) (core : Nat) : Nat × Nat :=
  let n := fun q => (s.onQuad core q).length
  let q := (List.range 4).foldl (fun best q => if n q < n best then q else best) 0
  (q, ((List.range 16).find? fun i => !((s.onQuad core q).any fun k => k.slot == i)).getD 16)

/-- A skein seated on a core, at its place in the issue order (R298, R302). -/
def State.seat (s : State) (id : Nat) (k : Skein) (core : Nat) : State :=
  let (q, slot) := s.seatOf core
  s.setSkein id { k with core := core, quad := q, slot := slot, age := s.clk, readyAt := s.clk,
                         guard := (s.ctx k.ctx).guardCore == some core }

/-- Skein i of a block at its start (R14, R18, R22 to R24, R28). -/
def freshSkein (g : Grid) (gid blk core i : Nat) : Skein :=
  let w := widthOf g.desc.widthCode
  { ctx := g.ctx, grid := gid, blk := blk, core := core, quad := 0, slot := 0, width := w, num := i,
    regCount := g.desc.regs, tid := (List.range w).map fun l => i * w + l, live := Mask.full w, running := Mask.full w,
    pc := g.desc.code }

/-- Partitions of an image granted on a core, from its free ones in order (R46). -/
def grantParts (c : Nat) (k : CoreSt) : List (Option Nat) → List (Tbl Bolt) → List Nat → CoreSt
  | o :: os, t :: ts, i :: is => grantParts c { k with hallc := tput k.hallc i { ctx := c, reserved := o, bolts := t } } os ts is
  | _, _, _ => k

/-- A hall C image restored on a core: its poison makes a context created with ABORT_ON_POISON LOST (R332). -/
def State.restoreC (s : State) (id : Nat) (h : SavedHallC) (core : Nat) : State :=
  match s.poisonRead h.ctx core (dieOf core) h.va 10 1024 with
  | .error _ => s.lose h.ctx 1
  | .ok (s, hdr) =>
    match s.readParts h.ctx core h.va (hdr.map Prod.fst) 0 h.parts with
    | .error _ => s.lose h.ctx 1
    | .ok (s, ts, bad) =>
      let s := s.modCore core fun k => grantParts h.ctx k h.owners ts k.freeParts
      let s := { s with savedC := tdel s.savedC id }
      let s := s.freeImage h.ctx h.va
      if (bad || hdr.any Prod.snd) && (s.ctx h.ctx).abortOnPoison then s.lose h.ctx 3 else s

/-- The image that comes back with a context is restored (R46). -/
def State.bringC (s : State) (c core : Nat) (owner : Option Nat) : State :=
  match s.imageFor c core owner with
  | some (id, h) => s.restoreC id h core
  | none => s

/-- The partitions given to a new block: unheld ones of its context, then newly granted ones, which hold zeros (R46). -/
def CoreSt.partsFor (k : CoreSt) (c n : Nat) : List Nat :=
  let own := (k.ownParts c).take n
  sortBy (fun a b => decide (a < b)) (own ++ k.freeParts.take (n - own.length))

/-- Partitions held by a block. -/
def CoreSt.takeParts (k : CoreSt) (c b : Nat) (ps : List Nat) : CoreSt :=
  { k with hallc := ps.foldl (fun t i =>
      tput t i { ((tget t i).getD { ctx := c }) with blk := some b, reserved := none }) k.hallc }

/-- The guard quantum of a context runs from the time its first block stands on the guard core (R307). -/
def State.startGuard (s : State) (c core : Nat) : State :=
  s.modCtx c fun x =>
    if x.guardCore == some core && x.guardEnd = 0 then { x with guardEnd := s.gt + 1000 * x.quantum } else x

/-- A block put on a core: partitions, block, skeins (R298, R45, R46); what its launch makes visible is (R271). -/
def State.putBlock (s : State) (gid : Nat) (g : Grid) (idx core : Nat) : State :=
  let s := (s.bringC g.ctx core none).modCore core fun k => { k with lclk := Stamp.max k.lclk g.lclk }
  let b := s.nextId
  let n := g.desc.skeins
  let ps := (s.core core).partsFor g.ctx g.desc.hallc
  let s := s.modCore core fun k => k.takeParts g.ctx b ps
  let ids := (List.range n).map fun i => b + 1 + i
  let x : Block := { ctx := g.ctx, grid := gid, idx := idx, core := core, skeins := ids, nskein := n, granA := g.desc.granA,
                     granW := g.desc.granW, hallc := ps, chans := g.desc.chans, placedAt := s.clk }
  let s := { (s.setBlock b x) with nextId := b + 1 + n }
  let s := (List.range n).foldl (fun s i => s.seat (b + 1 + i) (freshSkein g gid b core i) core) s
  (s.startGuard g.ctx core).settle g.ctx

/-- A share without its least block (R295). -/
def Grid.shareLess (g : Grid) (nd : Nat) (x : Share) (idx : Nat) : Share :=
  if x.lo < x.hi && g.blockAt nd x x.lo == idx then { x with lo := x.lo + 1 } else { x with extra := x.extra.erase idx }

/-- The next block of a grid placed on a core of a die (R294 to R298). -/
def State.placeNext (s : State) (w : Waiting) (die core : Nat) : State :=
  match tget s.grids w.grid with
  | none => s
  | some g =>
    let x := s.ctx g.ctx
    match s.nextBlock g die with
    | none => s
    | some idx =>
      let shares := tmod g.shares (die - x.firstDie) fun h => g.shareLess x.nDies h idx
      let s := s.setGrid w.grid { g with shares := shares, placed := g.placed + 1 }
      let s := s.turned die w
      ((s.putBlock w.grid g idx core).post (.blockPlace die)).postOnce (.frontierUpdate w.grid)

/-! ## Steals (R295) -/

/-- A steal of a grid by a die is on its way. -/
def stealOf (g thief : Nat) : Instr → Bool
  | .stealRequest h _ t => h == g && t == thief
  | .stealReply h t _ => h == g && t == thief
  | _ => false

/-- The die that holds the most unplaced blocks of a grid; the lower one on a tie. -/
def Grid.richest (g : Grid) (but : Nat) : Option Nat :=
  ((g.shares.filter fun x => x.1 != but && Share.left x.2 != 0).foldl (fun best x =>
    match best with
    | some (d, n) => if n < Share.left x.2 then some (x.1, Share.left x.2) else some (d, n)
    | none => some (x.1, Share.left x.2)) none).map Prod.fst

/-- A die that holds no unplaced block of a grid, and has a core with room, asks for some (R295). -/
def State.askFor (s : State) (id : Nat) (g : Grid) (die : Nat) : State :=
  let x := s.ctx g.ctx
  let d := die - x.firstDie
  match tget g.shares d with
  | none => s
  | some h =>
    if !(x.hasDie die) || g.serial || Share.left h != 0 || !h.mayAsk || s.pending.any (stealOf id d)
        || !((List.range 48).any fun k => s.roomWithout g.need (48 * die + k) none []) then s
    else match g.richest d with
      | some v => s.post (.stealRequest id v d)
      | none => s

/-- The distributor of a die places the next block that a core has room for, has a saved block restored that comes before
it, or asks for blocks; a block that finds no core makes a pre-emption point (R295, R297, R304). -/
def execBlockPlace (die : Nat) (s : State) : Out :=
  let s := s.finished (.blockPlace die)
  let ws := s.queueOn die
  match ws.findSome? fun w => if w.reduce then none else (s.coreFor ws w die).map fun c => (w, c) with
  | some (w, c) =>
    match w.saved with
    | some b => .next (s.postOnce (.blockRestore b c))
    | none => .next (s.placeNext w die c)
  | none =>
    let s := if ws.isEmpty then s else s.postOnce (.preemptionPoint die)
    .next (s.grids.foldl (fun s g => s.askFor g.1 g.2 die) s)

/-- The victim of a steal answers: its 8 highest-indexed unplaced blocks, or none (R295). -/
def execStealRequest (grid victim thief : Nat) (s : State) : Out :=
  message (.stealRequest grid victim thief) s fun s =>
    match tget s.grids grid with
    | none => s
    | some g =>
      let nd := (s.ctx g.ctx).nDies
      match tget g.shares victim with
      | none => s.post (.stealReply grid thief [])
      | some x =>
        if g.serial || Share.left x < 16 then s.post (.stealReply grid thief [])
        else
          let own := (List.range (min 8 (x.hi - x.lo))).map fun i => g.blockAt nd x (x.hi - 1 - i)
          let top := (sortBy (fun a b => decide (b < a)) (own ++ x.extra)).take 8
          let n := (own.filter top.contains).length
          let y := { x with hi := x.hi - n, extra := x.extra.filter fun i => !(top.contains i) }
          (s.setGrid grid { g with shares := tput g.shares victim y }).post (.stealReply grid thief top.reverse)

/-- The blocks reach the requester, which places them; after none it asks no more until one of its blocks ends (R295). -/
def execStealReply (grid thief : Nat) (blocks : List Nat) (s : State) : Out :=
  message (.stealReply grid thief blocks) s fun s =>
    match tget s.grids grid with
    | none => s
    | some g =>
      let shares := tmod g.shares thief fun x =>
        { x with extra := sortBy (fun a b => decide (a < b)) (x.extra ++ blocks), mayAsk := !blocks.isEmpty }
      (s.setGrid grid { g with shares := shares }).postOnce (.blockPlace ((s.ctx g.ctx).firstDie + thief))

end Sys2Proof.Machine
end

