-- ==== Sys2Proof/Machine/Preempt.lean ====
section
/-! DEFINITION. Pre-emption, saves and restores, and the starvation guard (spec 11 R304 to R308, 12 R318, R320, R327 to
R332, 01 R46, R52). -/

namespace Sys2Proof.Machine

/-! ## Victims (R301, R304) -/

/-- A save of the block is on its way. -/
def State.beingSaved (s : State) (b : Nat) : Bool := s.pending.contains (.blockSave b)

/-- The block makes way for a waiting one (R301, R304): its kernel carries MIDPRE, and its priority is lower or it is filler
before a block that is not. Filler makes only filler give way. -/
def State.isVictim (s : State) (w : Waiting) (b : Block) : Bool :=
  !b.allEnded && s.blockMidpre b
    && if w.filler then s.blockFiller b && decide (s.blockPrio b < w.prio)
       else s.blockFiller b || decide (s.blockPrio b < w.prio)

/-- Victim a is taken before victim b (R301, R304): filler, which makes way at once, before the rest (DESIGN CHOICE, log 76);
then the lower priority, then the later placement. -/
def State.victimBefore (s : State) (a b : Nat × Block) : Bool :=
  if s.blockFiller a.2 != s.blockFiller b.2 then s.blockFiller a.2
  else if s.blockPrio a.2 != s.blockPrio b.2 then decide (s.blockPrio a.2 < s.blockPrio b.2)
  else decide (b.2.placedAt < a.2.placedAt)

/-- The victims of a waiting block on a die, in order; a block that is bound to a core has none elsewhere. -/
def State.victims (s : State) (w : Waiting) (die : Nat) : List (Nat × Block) :=
  let bound := s.boundTo w die
  sortBy s.victimBefore (s.blocks.filter fun b => b.2.core / 48 == die && (bound.isNone || bound == some b.2.core)
    && !s.beingSaved b.1 && s.isVictim w b.2)

/-- Some core of the die takes a waiting block once some blocks have left. -/
def State.someCore (s : State) (w : Waiting) (die : Nat) (gone : List Nat) : Bool :=
  (List.range 48).any fun k => s.mayLie w (48 * die + k) gone

/-- The victims that are taken: until the waiting block has room; `gone` are those that leave already (R304). -/
def State.chosen (s : State) (w : Waiting) (die : Nat) (gone : List Nat) : List (Nat × Block) → List (Nat × Block)
  | [] => []
  | v :: vs => if s.someCore w die gone then [] else v :: s.chosen w die (v.1 :: gone) vs

/-- The bytes of a segment with its filling. -/
def segBytes (n : Nat) : Nat := (n + 127) / 128 * 128

/-- The bytes of a skein's segment as it stands (R329, R330). -/
def Skein.imageBytes (k : Skein) : Nat :=
  let rs := (List.range k.regCount).map k.reg
  2048 + (k.regCount + 63) / 64 * 64
    + (rs.map fun r => regLen k.width (Shape.tagByte r.tag) + if r.tag == .general then 8 else 0).sum

/-- The bytes of a block's image as it stands (R328). -/
def State.imageBytes (s : State) (b : Nat) (x : Block) : Nat :=
  let ks := s.skeins.filter fun k => k.2.blk == b
  let recs := (s.core x.core).recQ.filter fun r => ks.any fun k => k.1 == r.sk
  let w := widthOf ((tget s.grids x.grid).getD {}).desc.widthCode
  let copies := (s.ports.map fun p : PortSt => (p.recs.filter fun r => r.blk == some b && r.paused).length).sum
  1024 + (ks.map fun k => segBytes (Skein.imageBytes k.2)).sum + 4096 * x.granA + segBytes (128 * x.granA)
    + 4096 * x.granW + 512 + segBytes (96 * copies) + segBytes (recs.length * (32 + 16 * w))

/-- The save areas hold the images of blocks, one after another (R327). -/
def State.savesFit (s : State) : List (Nat × Block) → Bool
  | [] => true
  | (b, x) :: bs =>
    let n := granulesOf (s.imageBytes b x)
    match (s.ctx x.ctx).findRun n with
    | none => false
    | some i => (s.modCtx x.ctx fun c => { c with granules := c.granules ++ [(i, n)] }).savesFit bs

/-- Saves of blocks begin, together with those on their way; none does where the free granules cannot hold them all (R327). -/
def State.saveAll (s : State) (bs : List (Nat × Block)) : State :=
  let ahead := s.blocks.filter fun b => s.beingSaved b.1
  if s.savesFit (ahead ++ bs) then bs.foldl (fun s b => s.post (.blockSave b.1)) s else s

/-- The first block that waits on a die and finds no core makes the victims' saves begin (R304). -/
def execPreemptionPoint (die : Nat) (s : State) : Out :=
  let s := s.finished (.preemptionPoint die)
  let ws := s.queueOn die
  match ws.find? fun w => (s.coreFor ws w die).isNone with
  | none => .next s
  | some w =>
    let gone := (s.blocks.filter fun b => s.beingSaved b.1).map Prod.fst
    .next (s.saveAll (s.chosen w die gone (s.victims w die)))

/-- The host asks for a context's save (R304): its blocks whose kernels carry MIDPRE are saved. -/
def State.saveContext (s : State) (c : Nat) : State :=
  s.saveAll (s.blocks.filter fun b => b.2.ctx == c && !b.2.allEnded && s.blockMidpre b.2 && !s.beingSaved b.1)

/-! ## Saving a block (R331) -/

/-- The results of a skein's stores land (R331 step 1): each outstanding one lowers its flag. -/
def State.landResults (s : State) (sk : Nat) : State :=
  let fs := s.pending.filterMap fun i => match i with
    | .resultLand k ⟨f, none⟩ => if k = sk then some f else none
    | _ => none
  let s := { s with pending := s.pending.filter fun i => match i with
    | .resultLand k ⟨_, none⟩ => k != sk
    | _ => true }
  fs.foldl (fun s f => s.landFlag sk f) s

/-- The record moves bytes of a hall of the block. -/
def RecSt.touchesHall (r : RecSt) (b : Nat) : Bool :=
  r.blk == some b && match r.body with
    | .copy c => c.sspace != 0 || c.dspace != 0
    | _ => false

/-- The hall copies of a block, by port. -/
def State.copiesOf (s : State) (b : Nat) : List (Port × RecSt) :=
  s.ports.flatMap fun x : PortSt => (x.recs.filter fun r => r.touchesHall b).map fun r => (x.port, r)

/-- Records taken away from their ports. -/
def State.dropRecs (s : State) (rs : List (Port × RecSt)) : State :=
  rs.foldl (fun s r => let x := s.port r.1; s.setPort { x with recs := x.recs.filter (·.num != r.2.num) }) s

/-- What the device keeps of a saved skein beside its control block and registers: a walk is made afresh after restore, and
the clocks that a wait has lasted count on (R205). -/
def Skein.kept (clk : Nat) (k : Skein) : Skein :=
  { k with held := [], regs := [], sheds := [], maps := [], entry := none, lines := [], badWords := [], leave := .no,
           waited := k.waited.map fun t => clk - t,
           park := match k.park with
             | .walk _ _ _ => .no
             | p => p.shift fun t => clk - t }

/-- The skeins of a block. -/
def State.skeinsIn (s : State) (b : Nat) : List (Nat × Skein) := s.skeins.filter fun k => k.2.blk == b

/-- The merge-state copies that a context made on a core return (R261). -/
def State.returnAll (s : State) (c core : Nat) : State :=
  ((s.core core).merges.filter fun m => m.2.ctx == c).foldl (fun s m => s.returnCopy m.1 core) s

/-- A context without a block on a core returns the copies that it made there (R261). -/
def State.leaving (s : State) (c core : Nat) : State :=
  if (s.blocksOn core).any fun b => b.2.ctx == c then s else s.returnAll c core

/-- The block leaves its core for its image, which stands at an address (R331). -/
def State.leaveFor (s : State) (b : Nat) (x : Block) (ks : List (Nat × Skein)) (copies : List (Port × RecSt))
    (m : Image) (va : Nat) : State :=
  let ids := ks.map Prod.fst
  let mine := (s.core x.core).recQ.filter fun r => ids.contains r.sk
  let ctl := m.places.filterMap fun p => (ks.find? fun k => k.2.num == p.1).map fun k => (k.1, va + p.2.1)
  let kept : Block := { x with hallA := [], hallW := [], full := [], poisonA := [], poisonW := [] }
  let sv : Saved := { block := kept, skeins := ks.map fun k => (k.1, Skein.kept s.clk k.2), va := va,
                      bytes := m.bytes.length, copies := copies, recs := mine, controls := ctl,
                      lclk := (s.core x.core).lclk, savedAt := s.clk }
  let s := s.dropRecs copies
  let s := s.modCore x.core fun k => { k with
    recQ := k.recQ.filter fun r => !(ids.contains r.sk)
    asks := k.asks.filter fun a => match a.1 with
      | .skein i => !(ids.contains i)
      | .record _ _ => true
    hallc := k.hallc.map fun p => if p.2.blk == some b then (p.1, { p.2 with blk := none, reserved := some b }) else p }
  let s := { s with blocks := tdel s.blocks b, skeins := s.skeins.filter fun k => k.2.blk != b, saved := tput s.saved b sv }
  let s := s.modCtx x.ctx fun c => { c with lastRes := s.gt }
  ((s.leaving x.ctx x.core).settle x.ctx).postOnce (.blockPlace (x.core / 48))

/-- A block is written into its image (R304, R331): its instructions land, its writes are acknowledged or recorded, and its
hall copies complete or pause, before it leaves. Where the free granules cannot hold the image it runs on (R327). -/
def execBlockSave (blk : Nat) (s : State) : Out :=
  let i := Instr.blockSave blk
  match tget s.blocks blk with
  | none => .next (s.finished i)
  | some x =>
    if x.allEnded || !s.blockMidpre x then .next (s.finished i)
    else if (s.skeinsIn blk).any (fun k => !k.2.loads.isEmpty) || (s.core x.core).loom.any (fun o => o.blk == blk) then .next s
    else
      let s := x.skeins.foldl (fun s k => s.flush x.core k) s
      let copies := s.copiesOf blk
      if !(x.skeins.all (s.flushed x.core)) || copies.any (fun r => !r.2.paused) then .next s
      else
        let s := x.skeins.foldl State.landResults s
        let ks := s.skeinsIn blk
        let g := (tget s.grids x.grid).getD {}
        let recs := (s.core x.core).recQ.filter fun r => ks.any fun k => k.1 == r.sk
        let m := s.blockImage x g ks copies recs
        match s.writeImage x.ctx x.core m with
        | none => .next (s.finished i)
        | some (s, none) => .next (s.finished i)
        | some (s, some va) => .next ((s.leaveFor blk x ks copies m va).finished i)

/-! ## Hall C (R46) -/

/-- A context that holds nothing but partitions on a core leaves it: they are saved (R46). -/
def execHallcSave (ctx core : Nat) (s : State) : Out :=
  let i := Instr.hallcSave ctx core
  let mine := (s.core core).hallc.filter fun p => p.2.ctx == ctx
  if mine.isEmpty || s.blocks.any (fun b => b.2.core == core && b.2.ctx == ctx) then .next (s.finished i)
  else if (s.core core).loom.any fun o => o.ctx == ctx then .next s
  else
    let s := s.returnAll ctx core
    let m := hallcImage (mine.map Prod.snd)
    match s.writeImage ctx core m with
    | none => .next (s.finished i)
    | some (s, none) => .next (s.finished i)
    | some (s, some va) =>
      let h : SavedHallC := { ctx := ctx, parts := mine.length, owners := mine.map fun p => p.2.reserved, va := va,
                              bytes := m.bytes.length, savedAt := s.clk }
      let s := { s with savedC := tput s.savedC s.nextId h, nextId := s.nextId + 1 }
      let s := s.modCore core fun k => { k with hallc := k.hallc.filter fun p => p.2.ctx != ctx }
      .next (((s.settle ctx).postOnce (.blockPlace (core / 48))).finished i)

/-! ## Restoring a block (R305, R318, R320, R331, R332) -/

/-- The trap of a refused page fault (R320): STORE_FAULT for `msave`, and for `amo` with RET to a read-only page (R216), else
LOAD_FAULT. Without a record of the skein the manual states no TRAPADDR of a STORE_FAULT (log 21). -/
def State.refusal (s : State) (sk : Nat) (k : Skein) (va : DWord) (acc : Acc) (fcode : Nat) (lane : Option Nat) : Trap :=
  if acc == .tileStore || (acc == .atomic && fcode == 2) then
    let t := { s.storeTrap k.core sk with code := 0x11 }
    if t.info == 0 then { t with addr := BitVec.ofNat 64 (Config.openField 4 s.free) } else t
  else { code := 0x10, addr := va, info := BitVec.ofNat 64 fcode, lane := lane }

/-- A skein takes the trap of its refused page fault at its parked instruction. -/
def State.refuse (s : State) (sk : Nat) (va : DWord) (acc : Acc) (fcode : Nat) (lane : Option Nat) : State :=
  match tget s.skeins sk with
  | none => s
  | some k => (s.setSkein sk { k with park := .no }).takeTrap sk (s.refusal sk k va acc fcode lane) k.pc

/-- The steps that a restored skein has ahead of it: what remains of a STALL or a `sleep`, held causes, conditions that are
looked at again (R205, R317), and the trap of a refusal. -/
def State.resume (s : State) (sk : Nat) : State :=
  match tget s.skeins sk with
  | none => s
  | some k =>
    let s := if k.stall = 0 then s else s.post (.stallElapse sk)
    let s := if k.held.isEmpty then s else s.postOnce (.boundaryCause sk)
    let s := if k.sfInd then s.postOnce (.storeFault sk) else s
    match k.park with
    | .sleep _ _ => s.post (.sleepExpire sk)
    | .word _ _ _ _ | .countHall _ _ _ _ | .chan _ _ _ => s.postOnce (.skeinWake sk)
    | .count _ _ _ _ _ => s.postOnce (.countWake sk)
    | .refused va acc f lane => s.refuse sk va acc f lane
    | _ => s

/-- A copy recorded in an image goes on at its channel number on the new core, from its rows written (R331); one that a
QUIESCE listed waits until HALT clears (R334). -/
def State.reenter (s : State) (core : Nat) (r : Port × RecSt) : State :=
  let x := s.port r.1
  let held := (s.ctx r.1.ctx).dbg.listed.any fun l => l.1 == r.1 && l.2.num == r.2.num
  let q := { r.2 with core := core, paused := held, started := false, resumed := true }
  let s := s.setPort { x with recs := x.recs ++ [q] }
  s.postOnce (startRow r.1 q.num q.body)

/-- The block stands on its new core as it was read back; the core's logical time does not fall behind what the block has
seen (R271, R272). -/
def State.settleIn (s : State) (b core : Nat) (sv : Saved) : State :=
  let x := sv.block
  let ks := sv.skeins
  let ps := ((s.core core).hallc.filter fun p => p.2.reserved == some b).map Prod.fst
  let s := s.modCore core fun k =>
    let k := k.takeParts x.ctx b ps
    { k with recQ := k.recQ ++ sv.recs, lclk := Stamp.max k.lclk sv.lclk }
  let s := { s with saved := tdel s.saved b }
  let s := s.setBlock b { x with core := core, hallc := ps, placedAt := s.clk }
  let s := ks.foldl (fun s k => s.seat k.1 k.2 core) s
  let s := sv.copies.foldl (fun s r => s.reenter core r) s
  let s := ((s.freeImage x.ctx sv.va).startGuard x.ctx core).settle x.ctx
  ks.foldl (fun s k => s.resume k.1) s

/-- A saved block is restored on a core that may take it, when nothing of higher priority waits that the core could take
(R297, R305, R331). An image that cannot be read makes the context LOST; so does poison under ABORT_ON_POISON (R332,
R430). -/
def execBlockRestore (blk core : Nat) (s : State) : Out :=
  let s := s.finished (.blockRestore blk core)
  let ws := s.queueOn (core / 48)
  match tget s.saved blk, ws.find? fun w => w.saved == some blk with
  | some sv, some w =>
    if !s.mayTake ws w core || ws.any (fun v => decide (w.prio < v.prio) && s.mayTake ws v core) then .next s
    else
      let s := s.bringC w.ctx core (some blk)
      if (s.ctx w.ctx).state == .lost then .next s
      else match s.readBlock core sv with
        | .error _ => .next (s.lose w.ctx 1)
        | .ok (s, sv, bad) =>
          if bad && (s.ctx w.ctx).abortOnPoison then .next (s.lose w.ctx 3)
          else
            let s := s.turned (core / 48) w
            .next ((s.settleIn blk core sv).postOnce (.blockPlace (core / 48)))
  | _, _ => .next s

/-! ## The starvation guard (R52, R307) -/

/-- Two contexts share a die. -/
def Context.meets (a b : Context) : Bool := (List.range 4).any fun d => a.hasDie d && b.hasDie d

/-- Context a qualified before context b; of two at once, the lower (R307). -/
def State.qualifiedBefore (s : State) (a b : Nat) : Bool :=
  let at' := fun c => (s.ctx c).starvedAt.getD s.gt
  decide (at' a < at' b) || (at' a == at' b && decide (a < b))

/-- A context of the device is served now, or qualified earlier (R307). -/
def State.guardTaken (s : State) (c : Nat) : Bool :=
  s.ctxs.any fun p => p.1 != c && p.2.meets (s.ctx c)
    && (p.2.guardCore.isSome || (s.starved p.1 && s.qualifiedBefore p.1 c))

/-- The blocks of a context that wait on a die. -/
def State.waitingOf (s : State) (c die : Nat) : List Waiting := (s.waiting die).filter fun w => w.ctx == c

/-- A core with room for a block of a context. -/
def State.guardRoom (s : State) (c core : Nat) : Bool := (s.waitingOf c (core / 48)).any fun w => s.mayLie w core []

/-- A core whose lowest-priority blocks carry MIDPRE. -/
def State.guardMidpre (s : State) (core : Nat) : Bool :=
  let bs := ((s.blocksOn core).filter fun b => !b.2.allEnded).map Prod.snd
  match (bs.map s.blockPrio).min? with
  | none => false
  | some p => bs.all fun b => s.blockPrio b != p || s.blockMidpre b

/-- The cores of a context's device. -/
def Context.cores (x : Context) : List Nat := (List.range (48 * x.nDies)).map (48 * x.firstDie + ·)

/-- A block of a context could be put on a core once the blocks that carry MIDPRE have left it. -/
def State.guardClears (s : State) (c core : Nat) : Bool :=
  let gone := s.standing core fun b => s.blockMidpre b && decide (s.blockPrio b < 63)
  (s.waitingOf c (core / 48)).any fun w => s.mayLie w core gone

/-- The core of a guard quantum (R307): the lowest with room, or else the first whose lowest-priority blocks carry MIDPRE. -/
def State.guardChoice (s : State) (c : Nat) : Option Nat :=
  let ks := (s.ctx c).cores
  match ks.find? (s.guardRoom c) with
  | some k => some k
  | none => ks.find? fun k => s.guardMidpre k && s.guardClears c k

/-- A starved context is given a core for a guard quantum (R52, R307). -/
def execStarvationGuard (ctx : Nat) (s : State) : Out :=
  if !s.starved ctx || s.guardTaken ctx then .next s
  else match s.guardChoice ctx with
    | none => .next s
    | some k =>
      .next ((s.modCtx ctx fun x => { x with guardCore := some k, guardEnd := 0 }).postOnce (.blockPlace (k / 48)))

/-- A guard quantum ends: its time is over, or nothing of the context waits or runs; the skeins return to their
priorities, and the 4 ms start again (R52, R307). -/
def execGuardQuantumEnd (ctx : Nat) (s : State) : Out :=
  let x := s.ctx ctx
  let ends := (x.guardEnd != 0 && decide (x.guardEnd ≤ s.gt)) || (!s.hasWaiting ctx && s.idleCtx ctx)
  match x.guardCore with
  | none => .next s
  | some k =>
    when ends s fun s =>
      let s := s.modCtx ctx fun x => { x with guardCore := none, guardEnd := 0, lastRes := s.gt }
      let s := { s with skeins := s.skeins.map fun p : Nat × Skein =>
        if p.2.ctx == ctx then (p.1, { p.2 with guard := false }) else p }
      s.postOnce (.blockPlace (k / 48))

end Sys2Proof.Machine
end

