-- ==== Sys2Proof/Machine/Events.lean ====
section
/-! DEFINITION. The end of a grid, channel stalls, event rings and their interrupts (spec 11 R299, R309 to R313, 15 R392,
R393). -/

namespace Sys2Proof.Machine

/-! ## Grids (R299, R312, R392) -/

/-- The entry is an ordered one of a grid that its home has refused so far. -/
def isRetryFor (g : Nat) : Instr → Bool
  | .orderedRetry e => e.grid == g
  | _ => false

/-- Every ordered entry of a grid has been applied. -/
def State.orderedDone (s : State) (g : Nat) : Bool :=
  !(s.slices.any fun x => x.2.ordered.any fun e => e.grid == g) && !(s.pending.any (isRetryFor g))

/-- A grid is complete (R299, R312, R374): every block has ended, its children and its copies are complete, its writes are
performed, and its bound collective is over. -/
def State.gridDone (s : State) (id : Nat) (g : Grid) : Bool :=
  g.blocksEnded == g.blocks
    && !(s.blocks.any fun b => b.2.grid == id && (!b.2.allEnded || b.2.launches != 0 || s.hallCopies b.1))
    && s.orderedDone id && (g.coll.bind (tget s.colls)).isNone

/-- MATCH of a DIGEST entry (R392). -/
def Grid.digestMatch (g : Grid) : Nat :=
  match g.expect with
  | none => 0
  | some e => if e == g.dsum then 1 else 2

/-- Bytes 17 to 31 of a DIGEST entry (R392). -/
def Grid.digestBytes (g : Grid) : List Byte :=
  leBytes 1 g.digestMatch ++ leBytes 2 g.queue ++ leBytes 1 g.level ++ leBytes 1 (bitNat g.reexec) ++ [0, 0]
    ++ leBytes 8 g.dsum.toNat

/-- The DIGEST entry of a grid above level 0, and DIGEST_MISMATCH to a resident submitter (R392). -/
def State.postDigest (s : State) (g : Grid) : State :=
  if g.level = 0 then s
  else
    let s := s.event g.ctx g.die g.ltag.toNat 0x12 g.digestBytes
    match g.submitter with
    | none => s
    | some i =>
      if g.digestMatch = 2 && (tget s.skeins i).isSome then
        s.deliver i { code := 0x30, addr := g.expect.getD 0, info := g.dsum }
      else s

/-- Bytes 17 to 31 of a LAUNCH_DONE entry (R312). -/
def Grid.doneBytes (g : Grid) (lost : Bool) : List Byte :=
  leBytes 1 (if lost then 6 else if g.badCount = 0 then 0 else 1) ++ leBytes 2 g.queue
    ++ leBytes 2 ((g.desc.regs + 15) / 16 * 16) ++ leBytes 1 g.cause ++ [0] ++ leBytes 4 (min g.badCount (2 ^ 32 - 1))
    ++ leBytes 4 (g.lowest.getD (2 ^ 32 - 1))

/-- A child of a block is complete, wherever the block is (R299). -/
def State.childDone (s : State) (b : Nat) : State :=
  let s := s.modBlock b fun x => { x with launches := x.launches - 1 }
  let s := { s with saved := tmod s.saved b fun x =>
    { x with block := { x.block with launches := x.block.launches - 1 } } }
  s.releaseBlock b

/-- The grid is over: its entry is posted, its record completes, its parent is told. -/
def State.closeGrid (s : State) (id : Nat) (g : Grid) (lost : Bool) : State :=
  let s := s.event g.ctx g.die g.ltag.toNat 0x01 (g.doneBytes lost)
  let s := { s with grids := tdel s.grids id }
  let s := (s.sawWrite g.port g.num g.lclk).postOnce (.recordComplete g.port g.num)
  match g.parent with
  | none => s
  | some b => s.childDone b

/-- A grid completes, or is given up with its context (R312, R392, R393, R430). -/
def execGridComplete (grid : Nat) (s : State) : Out :=
  let s := s.finished (.gridComplete grid)
  match tget s.grids grid with
  | none => .next s
  | some g =>
    if (s.ctx g.ctx).state == .lost then .next (s.closeGrid grid g true)
    else when (s.gridDone grid g) s fun s =>
      let s := s.postDigest g
      let s := if g.reexec then s.meterAdd g.ctx 25 1 else s
      s.closeGrid grid g false

/-! ## Channel stalls (R313) -/

/-- The skein has stayed parked on a channel for 1 ms of arithmetic clocks, which whole-package bubbles do not count. -/
def Skein.longOnChannel (clk : Nat) (k : Skein) : Bool :=
  match k.park with
  | .chan t _ _ => decide (t + 1200000 ≤ clk)
  | _ => false

/-- Bytes 17 to 31 of a CHANNEL_STALL entry (R312). -/
def stallBytes (g : Grid) (b : Block) : List Byte :=
  [0] ++ leBytes 2 g.queue ++ [0, 0, 0, 0] ++ leBytes 4 b.idx ++ [0, 0, 0, 0]

/-- A block whose live skeins have all stayed parked on channels posts one CHANNEL_STALL entry (R313). -/
def execChannelStall (blk : Nat) (s : State) : Out :=
  match tget s.blocks blk with
  | none => .next s
  | some b =>
    let ks := b.skeins.filterMap (tget s.skeins)
    when (!b.stalled && !ks.isEmpty && ks.all (Skein.longOnChannel s.clk)) s fun s =>
      let g := (tget s.grids b.grid).getD {}
      (s.setBlock blk { b with stalled := true }).event b.ctx ((s.ctx b.ctx).relDie b.core) g.ltag.toNat 0x03
        (stallBytes g b)

/-! ## Event rings (R309 to R311) -/

/-- An event ring changed. -/
def State.modEvents (s : State) (c d : Nat) (f : EvRing → EvRing) : State :=
  s.modCtx c fun x => { x with events := tput x.events d (f ((tget x.events d).getD {})) }

/-- The first entry of a backlog is written, and then the head word (R311). -/
def State.postEntry (s : State) (c d : Nat) (e : EvRing) (b : List Byte) : State :=
  let va := e.base + BitVec.ofNat 64 (32 * (e.posted % 2 ^ e.log2n))
  let s := s.modEvents c d fun x => { x with backlog := x.backlog.drop 1, posted := x.posted + 1, since := x.since + 1,
                                             oldest := some (x.oldest.getD s.gt) }
  ((s.bookWrite c va b).bookWrite c e.headVa (leBytes 8 (e.posted + 1))).postOnce (.eventInterrupt c d)

/-- A waiting entry is posted once its ring has room (R311). -/
def execEventBacklogPost (ctx die : Nat) (s : State) : Out :=
  let e := (tget (s.ctx ctx).events die).getD {}
  match e.backlog with
  | [] => .next (s.finished (.eventBacklogPost ctx die))
  | b :: _ =>
    match s.bookRead ctx e.tailVa 8 with
    | none => .next ((s.finished (.eventBacklogPost ctx die)).lose ctx 5)
    | some (s, t) =>
      when (decide (e.posted < ofLeBytes t + 2 ^ e.log2n)) s fun s =>
        (s.finished (.eventBacklogPost ctx die)).postEntry ctx die e b

/-- The ring's interrupt condition (R310). -/
def EvRing.rings (e : EvRing) (gt : Nat) : Bool :=
  e.en && e.since != 0 && (decide (e.ecount ≤ e.since) || match e.oldest with
    | some t => decide (t + 1000 * e.etime ≤ gt)
    | none => false)

/-- The ring raises its vector when its condition holds, and both counts start again (R310). -/
def execEventInterrupt (ctx die : Nat) (s : State) : Out :=
  let x := s.ctx ctx
  let e := (tget x.events die).getD {}
  if !e.en || e.since = 0 then .next (s.finished (.eventInterrupt ctx die))
  else when (e.rings s.gt) s fun s =>
    ((s.modEvents ctx die fun y => { y with since := 0, oldest := none }).emit
      (.interrupt x.func e.vector)).finished (.eventInterrupt ctx die)

end Sys2Proof.Machine
end

