-- ==== Sys2Proof/Machine/Reed.lean ====
section
/-! DEFINITION. The reed: collectives from acceptance to their status block, and the digest exchange (spec 14 R365 to R376).
The memory transfers of chunks, lines and results ask the regulator of R377 (log 2). -/

namespace Sys2Proof.Machine

/-! ## Shape of a collective (R367) -/

/-- The collective of a record. -/
def State.collFor (s : State) (p : Port) (n : Nat) : Option (Nat × Coll) :=
  s.colls.find? fun k => k.2.port == p && k.2.num == n

/-- The OP reduces with bolts: 0, 1 or 4. -/
def Coll.reduces (k : Coll) : Bool := k.body.op == 0 || k.body.op == 1 || k.body.op == 4

/-- The number of chunks. -/
def Coll.chunks (k : Coll) : Nat := chunksOf k.body.elems k.chunk

/-- The owner of a chunk. -/
def Coll.owner (k : Coll) (c : Nat) : Nat := ownerOf k.body.op k.ranks k.root c

/-- The chunks that the rank owns. -/
def Coll.owned (k : Coll) : List Nat := ownedChunks k.body.op k.ranks k.root k.self k.body.elems k.chunk

/-- The first element of a chunk, and their number. -/
def Coll.span (k : Coll) (c : Nat) : Nat × Nat :=
  (c * k.chunk, min ((c + 1) * k.chunk) k.body.elems - c * k.chunk)

/-- The ranks that a chunk of the rank's SRC is sent to (R367). -/
def Coll.dests (k : Coll) (c : Nat) : List Nat :=
  match k.body.op with
  | 2 => if k.owner c = k.self then List.range k.ranks else []
  | 3 => if k.root = k.self then List.range k.ranks else []
  | _ => [k.owner c]

/-- The chunks that the rank sends. -/
def Coll.toSend (k : Coll) : List Nat := (List.range k.chunks).filter fun c => !(k.dests c).isEmpty

/-- The chunks of the rank's OUT that are written. -/
def Coll.toWrite (k : Coll) : List Nat :=
  match k.body.op with
  | 0 | 2 | 3 => List.range k.chunks
  | _ => k.owned

/-- The bytes of an element. -/
def Coll.size (k : Coll) : Nat := elemBytes k.body.fmt

/-- The virtual address of the bolt line of an element. -/
def Coll.lineVa (k : Coll) (e : Nat) : Nat := k.body.dst.toNat + 128 * e

/-- A collective changed. -/
def State.modColl (s : State) (id : Nat) (f : Coll → Coll) : State := { s with colls := tmod s.colls id f }

/-! ## Ranks (R366) -/

/-- Where a rank is reached. -/
inductive Route where
  | self
  | pod (n lead : Nat)
  | bridge (pa lead : Nat)
  deriving DecidableEq, Repr

/-- A rank-table entry (R366). -/
def routeOf (e : Nat) (isSelf : Bool) : Option Route :=
  let lead := e / 2 ^ 10 % 4
  match e / 2 ^ 62 with
  | 0 => if isSelf then (selfEntry e).map fun _ => .self else none
  | 1 => if e / 2 ^ 12 % 2 ^ 50 != 0 then none else some (.pod (e % 2 ^ 10) lead)
  | 2 => if e / 2 ^ 52 % 2 ^ 10 != 0 || e % 2 ^ 10 != 0 then none else some (.bridge (e / 2 ^ 12 % 2 ^ 40 * 2 ^ 12) lead)
  | _ => none

/-- The lead die of a route. -/
def Route.lead : Route → Nat
  | .self => 0
  | .pod _ l => l
  | .bridge _ l => l

/-- A rank can be reached now: a pod peer needs an active port (R362). -/
def State.reaches (s : State) : Route → Bool
  | .pod n _ => n == s.pkg.podnum || (s.ualPin n).isSome
  | _ => true

/-- Bytes on their way to a rank outside the package (R363, R366, R402). -/
def State.routeBytes (s : State) (k : Coll) (r : Route) (n : Nat) : State :=
  match r with
  | .self => s
  | .pod m _ => if m == s.pkg.podnum then s else (s.carry k.ctx (some k.die) none n).ualMove k.ctx m n 0
  | .bridge _ _ => (s.carry k.ctx (some k.die) none n).meterAdd k.ctx 19 n

/-- The context that declares an identifier for a use (R364). -/
def State.declarer (s : State) (id : DWord) (heddle : Bool) : Option Nat :=
  (s.ctxs.find? fun c : Nat × Context => c.2.state != .free && c.2.state != .lost && c.2.declares id heddle).map Prod.fst

/-- The chunk is for the collective. -/
def Coll.takes (k : Coll) (c : Chunk) : Bool := c.planid == k.planid && c.step == k.body.step && c.dest == k.self

/-- The lead die that a chunk names, of the device of a context. -/
def State.leadDie (s : State) (x : Nat) (c : Chunk) : Nat := (s.ctx x).firstDie + c.lead % (s.ctx x).nDies

/-- The die of this package that a chunk goes to. -/
def State.chunkDie (s : State) (c : Chunk) : Option Nat :=
  match s.colls.find? fun k => k.2.takes c with
  | some k => some k.2.die
  | none => (s.declarer c.planid false).map fun x => s.leadDie x c

/-- A chunk on its way within the package. -/
def State.shipHere (s : State) (k : Coll) (c : Chunk) : State :=
  let c := { c with src := .here }
  (match s.chunkDie c with
    | some d => s.carry k.ctx (some k.die) (some d) c.bytes
    | none => s).post (.chunkArrival c)

/-- A chunk on its way to another device leaves the package. -/
def State.shipOut (s : State) (k : Coll) (r : Route) (c : Chunk) : State :=
  let s := s.routeBytes k r c.bytes
  match r with
  | .self => s
  | .pod m _ => s.emit (.chunk m c)
  | .bridge pa _ => s.emit (.chunk (s.canon pa) c)

/-- The same chunk, by what names it. -/
def Chunk.same (a b : Chunk) : Bool :=
  a.planid == b.planid && a.step == b.step && a.chunk == b.chunk && a.rank == b.rank && a.dest == b.dest

/-- A chunk put on its way; one to another device is owed until that has acknowledged it (R371). -/
def State.ship (s : State) (id : Nat) (k : Coll) (r : Route) (c : Chunk) : State :=
  let out := fun c : Chunk => (s.shipOut k r c).modColl id fun x => { x with
    owed := (x.owed.filter fun y => !(Chunk.same y c)) ++ [c] }
  match r with
  | .self => s.shipHere k c
  | .pod m _ => if m == s.pkg.podnum then s.shipHere k c else out { c with src := .pod s.pkg.podnum }
  | .bridge _ _ => out { c with src := .bridge }

/-- The routes of ranks, read from the plan; none for a bad entry. -/
def State.routes (s : State) (p : Port) (r : RecSt) (k : Coll) : List Nat → Except EngFault (State × Option (List Route))
  | [] => .ok (s, some [])
  | d :: ds =>
    match s.engWord p.ctx (s.recCore p r) (s.recPlace p r) (k.planVa.toNat + 64 + 8 * d) with
    | .error f => .error f
    | .ok (s, e) =>
      match routeOf e (d == k.self) with
      | none => .ok (s, none)
      | some x =>
        match s.routes p r k ds with
        | .error f => .error f
        | .ok (s, xs) => .ok (s, xs.map (x :: ·))

/-- A collective ends with STATE 3 (R372). -/
def State.failColl (s : State) (id : Nat) (k : Coll) : State :=
  (s.modColl id fun x => { x with failed := true }).postOnce (.collComplete k.port k.num)

/-! ## Elements -/

/-- The elements of bytes from element e on. -/
def chunkElems (size e n : Nat) (bs : List (Byte × Bool)) : List ChunkElem :=
  (List.range n).map fun i =>
    let x := (bs.drop (i * size)).take size
    { e := e + i, x := BitVec.ofNat 64 (ofLeBytes (x.map Prod.fst)), bad := x.any Prod.snd }

/-- The bytes of elements. -/
def elemsBytes (size : Nat) (es : List ChunkElem) : List (Byte × Bool) :=
  es.flatMap fun x => (leBytes size x.x.toNat).map fun b => (b, x.bad)

/-- A chunk of SRC read (R367). -/
def State.readChunk (s : State) (p : Port) (r : RecSt) (k : Coll) (c : Nat) : Except EngFault (State × List ChunkElem) :=
  let (e, n) := k.span c
  let len := n * k.size
  match s.poisonRead p.ctx (s.recCore p r) (s.recPlace p r) (k.body.src.toNat + e * k.size) (len / 128 + 2) len with
  | .error f => .error f
  | .ok (s, bs) => .ok (s, chunkElems k.size e n bs)

/-- Elements written to the rank's OUT (R367, R370), with the logical time of the writer (R428). -/
def State.writeOut (s : State) (p : Port) (r : RecSt) (l : Stamp) (k : Coll) (es : List ChunkElem) :
    Except EngFault State :=
  let e := (es.head?.map (·.e)).getD 0
  match s.poisonWrite p.ctx (s.recCore p r) (s.recPlace p r) l (k.outVa.toNat + e * k.size) (elemsBytes k.size es) with
  | .error f => .error f
  | .ok (s, w) => .ok (s.sawWrite p r.num w)

/-- Transfers of n bytes ask the regulator of the reed on the record's die (R377). -/
def State.reedSpend (s : State) (p : Port) (r : RecSt) (n : Nat) : State × Option RecSt :=
  s.afford p r (bucketKey (s.recDie p r) false) n

/-- The way to ranks, and what it comes to. -/
inductive Way where
  /-- A bad entry of a rank ends the collective (R368). -/
  | bad
  /-- A rank cannot be reached now. -/
  | shut
  | to (rs : List Route)

/-- The way to ranks, as the plan gives it now. -/
def State.wayTo (s : State) (p : Port) (r : RecSt) (k : Coll) (ds : List Nat) : Except EngFault (State × Way) :=
  match s.routes p r k ds with
  | .error f => .error f
  | .ok (s, none) => .ok (s, .bad)
  | .ok (s, some rs) => .ok (s, if rs.all s.reaches then .to rs else .shut)

/-- Elements of a chunk sent to ranks. -/
def State.shipAll (s : State) (id : Nat) (k : Coll) (c : Nat) (es : List ChunkElem) (ds : List Nat) (rs : List Route) : State :=
  (ds.zip rs).foldl (fun s x =>
    s.ship id k x.2 { src := .here, planid := k.planid, step := k.body.step, chunk := c, rank := k.self, dest := x.1,
                      lead := x.2.lead, bytes := es.length * k.size, elems := es }) s

/-- A chunk of SRC sent to where it goes (R367); `bad` makes every element poisoned (R374). Answers whether that is over: it
waits while a rank cannot be reached, and for the regulator. -/
def State.sendChunk (s : State) (p : Port) (r : RecSt) (id : Nat) (k : Coll) (c : Nat) (bad : Bool) :
    Except EngFault (State × Bool) :=
  match s.wayTo p r k (k.dests c) with
  | .error f => .error f
  | .ok (s, .bad) => .ok (s.failColl id k, true)
  | .ok (s, .shut) => .ok (s, false)
  | .ok (s, .to rs) =>
    match s.reedSpend p r ((k.span c).2 * k.size) with
    | (s, none) => .ok (s, false)
    | (s, some r) =>
      match s.readChunk p r k c with
      | .error f => .error f
      | .ok (s, es) =>
        let es := if bad then es.map fun x => { x with bad := true } else es
        .ok ((s.shipAll id k c es (k.dests c) rs).modColl id fun x => { x with sent := x.sent ++ [c] }, true)

/-! ## Acceptance (R368) -/

/-- The owned bolt lines written as zero lines, with S = 0 and count 0. -/
def State.zeroLines (s : State) (p : Port) (r : RecSt) (k : Coll) : List Nat → Except EngFault State
  | [] => .ok s
  | e :: es =>
    match s.recWrite p r (k.lineVa e) (boltLine Bolt.zero 0) with
    | .error f => .error f
    | .ok s => s.zeroLines p r k es

/-- The elements of chunks. -/
def Coll.elemsIn (k : Coll) (cs : List Nat) : List Nat :=
  cs.flatMap fun c => let (e, n) := k.span c; (List.range n).map (e + ·)

/-- A collective takes its launch counters and zeroes its lines, or waits for counters. -/
def State.acceptColl (s : State) (p : Port) (r : RecSt) (id : Nat) (k : Coll) : State :=
  let cs := if k.reduces then k.owned else []
  let es := k.elemsIn cs
  if 4096 < (s.die k.die).counters + cs.length then s
  else match s.reedSpend p r (128 * es.length) with
  | (s, none) => s
  | (s, some r) =>
    match s.zeroLines p r k es with
    | .error f => s.pause p r f
    | .ok s =>
      (s.modDie k.die fun d => { d with counters := d.counters + cs.length }).modColl id fun x =>
        { x with accepted := true, counters := cs.map fun c => (c, k.ranks) }

/-- Chunks held for a collective arrive again. -/
def State.takeHeld (s : State) (k : Coll) : State :=
  let held := s.dies.flatMap fun d : Nat × Die => d.2.intake.filter k.takes
  let s := { s with dies := s.dies.map fun d : Nat × Die =>
    (d.1, { d.2 with intake := d.2.intake.filter fun c => !(k.takes c) }) }
  held.foldl (fun s c => s.post (.chunkArrival c)) s

/-- COLL (R368, R371): accepted, then its chunks are sent one after another; those of a bound collective go as its blocks
end (R374). -/
def execColl (p : Port) (n : Nat) (s : State) : Out :=
  let i := Instr.coll p n
  withRec i p n s fun r =>
    match s.collFor p n with
    | none => s.finished i
    | some (id, k) =>
      if k.failed then (s.finished i).postOnce (.collComplete p n)
      else if !k.accepted then s.acceptColl p r id k
      else
        let s := s.takeHeld k
        let rest := if k.grid.isSome then [] else k.toSend.filter fun c => !(k.sent.contains c)
        match rest with
        | [] => (s.finished i).postOnce (.collComplete p n)
        | c :: _ =>
          match s.sendChunk p r id k c false with
          | .error f => s.pause p r f
          | .ok (s, _) => s

/-- A bound block has ended: the reed reads its chunk and sends it (R374). -/
def execCollChunkFire (grid idx : Nat) (bad : Bool) (s : State) : Out :=
  let i := Instr.collChunkFire grid idx bad
  if !(s.pending.contains i) then .next s
  else match s.colls.find? fun k => k.2.grid == some grid with
    | none => .next (s.finished i)
    | some (id, k) =>
      match s.record k.port k.num with
      | none => .next (s.finished i)
      | some r =>
        if r.paused then .next s
        else if k.failed || k.chunks ≤ idx then .next (s.finished i)
        else match s.sendChunk k.port r id k idx bad with
          | .error f => .next (s.pause k.port r f)
          | .ok (s, false) => .next s
          | .ok (s, true) => .next ((s.finished i).postOnce (.collComplete k.port k.num))

/-! ## Arrivals (R369) -/

/-- The bytes held in a die's intake buffer. -/
def Die.held (d : Die) : Nat := (d.intake.map (·.bytes)).sum

/-- The sender of a chunk learns what became of it, where it is another device (R369, R371). -/
def State.answerChunk (s : State) (c : Chunk) (a : Answer) : State :=
  if c.src == .here then s else s.emit (.answer c.src c.planid c.step c.chunk c.rank c.dest a)

/-- A chunk held in the intake buffer of a die, or refused while that is full: the sender sends it again after 16 µs. -/
def State.holdChunk (s : State) (die : Nat) (c : Chunk) : State :=
  if (s.die die).held + c.bytes ≤ 8 * 2 ^ 20 then s.modDie die fun d => { d with intake := d.intake ++ [c] }
  else if c.src == .here then s.post (.chunkResend ⟨c, s.gt + 16000⟩)
  else s.answerChunk c .full

/-- The lines of elements, each with the element, where every one of them translates. R236 wants DST on BOLT pages and states
nothing for a page that is not one: its lines are merged all the same (DESIGN CHOICE, log 75). -/
def State.linesOf (s : State) (p : Port) (r : RecSt) (k : Coll) : List ChunkElem → Except EngFault (List (Nat × ChunkElem))
  | [] => .ok []
  | x :: xs =>
    match s.translate p.ctx (s.recCore p r) (BitVec.ofNat 64 (k.lineVa x.e)) .atomic with
    | .error f => .error ⟨BitVec.ofNat 64 (k.lineVa x.e), f.fcode⟩
    | .ok q =>
      match s.linesOf p r k xs with
      | .error f => .error f
      | .ok ls => .ok ((q.pa / 128, x) :: ls)

/-- A contribution merged: every line gains its element, and the launch counter falls by one (R369, R376). -/
def State.mergeChunk (s : State) (p : Port) (r : RecSt) (id : Nat) (k : Coll) (c : Chunk) : Except EngFault State :=
  match s.linesOf p r k c.elems with
  | .error f => .error f
  | .ok ls =>
    let l := s.recTime p r
    let place := s.recPlace p r
    let s := ls.foldl (fun s x =>
      let (s, w) := s.homeAddBy p.ctx place x.1 l fun b =>
        Sys2Proof.Machine.boltAdd b (addendOf (valOf k.body.fmt x.2.x.toNat)) x.2.bad
      s.sawWrite p r.num w) s
    let left := (tget k.counters c.chunk).getD 0 - 1
    let s := s.modColl id fun x => { x with seen := x.seen ++ [(c.chunk, c.rank)], counters := tput x.counters c.chunk left }
    let s := s.meterAdd p.ctx 11 c.elems.length
    .ok (if left = 0 then s.postOnce (.reduceBlock p k.num c.chunk) else s)

/-- A result written to the rank's OUT. -/
def State.resultChunk (s : State) (p : Port) (r : RecSt) (id : Nat) (k : Coll) (c : Chunk) : Except EngFault State :=
  match s.writeOut p r (s.recTime p r) k c.elems with
  | .error f => .error f
  | .ok s => .ok ((s.modColl id fun x => { x with written := x.written ++ [c.chunk] }).postOnce (.collComplete p k.num))

/-- The chunk is a contribution to a chunk that the rank owns, not a result. -/
def Coll.merges (k : Coll) (c : Chunk) : Bool := k.reduces && k.owner c.chunk == k.self

/-- The chunk has reached the collective before: a contribution counts once for each rank. -/
def Coll.had (k : Coll) (c : Chunk) : Bool :=
  if k.merges c then k.seen.contains (c.chunk, c.rank) else k.written.contains c.chunk

/-- The bytes that a chunk moves at the memory of its rank. -/
def Coll.fee (k : Coll) (c : Chunk) : Nat :=
  if k.failed || k.had c then 0 else if k.merges c then 128 * c.elems.length else c.elems.length * k.size

/-- A chunk's transfers ask the regulator; the machine, and whether they are let through. -/
def State.payChunk (s : State) (k : Coll) (c : Chunk) : State × Bool :=
  match s.record k.port k.num with
  | none => (s, true)
  | some r =>
    if r.paused then (s, true)
    else
      let (s, q) := s.reedSpend k.port r (k.fee c)
      (s, q.isSome)

/-- A chunk reaches its rank's collective: a contribution, or a result. -/
def State.deliverChunk (s : State) (id : Nat) (k : Coll) (c : Chunk) : State :=
  match s.record k.port k.num with
  | none => s
  | some r =>
    if r.paused then s.holdChunk k.die c
    else
      let done := if k.failed || k.had c then .ok s
        else if k.merges c then s.mergeChunk k.port r id k c else s.resultChunk k.port r id k c
      match done with
      | .ok s => s.answerChunk c .done
      | .error f => (s.pause k.port r f).holdChunk k.die c

/-- What arrives at a die for a context: a message under way in the package, or one from outside, whose bytes are counted
(R363, R402). -/
def State.received (s : State) (i : Instr) (src : Source) (ctx die n : Nat) : State :=
  if s.pending.contains i then s.finished i
  else match src with
    | .here => s
    | .pod m => (s.carry ctx none (some die) n).ualMove ctx m 0 n
    | .bridge => (s.carry ctx none (some die) n).meterAdd ctx 19 n

/-- What arrives for no context. -/
def State.astray (s : State) (i : Instr) (src : Source) (n : Nat) : State :=
  if s.pending.contains i then s.finished i
  else match src with
    | .pod m => s.ualBytes m 0 n
    | _ => s

/-- The collective of this package that sent a chunk. -/
def State.senderOf (s : State) (c : Chunk) : Option (Nat × Coll) :=
  s.colls.find? fun k => k.2.planid == c.planid && k.2.body.step == c.step && k.2.self == c.rank

/-- A chunk arrives (R369): merged or written when its COLL is accepted, else held; an identifier that no context declares
is refused, which ends its sender's collective. -/
def execChunkArrival (c : Chunk) (s : State) : Out :=
  let i := Instr.chunkArrival c
  if c.src == .here && !(s.pending.contains i) then .next s
  else match s.colls.find? fun k => k.2.takes c && k.2.accepted with
  | some (id, k) =>
    match s.payChunk k c with
    | (s, false) => .next s
    | (s, true) => .next ((s.received i c.src k.ctx k.die c.bytes).deliverChunk id k c)
  | none =>
    match s.declarer c.planid false with
    | some x => .next ((s.received i c.src x (s.leadDie x c) c.bytes).holdChunk (s.leadDie x c) c)
    | none =>
      let t := s.astray i c.src c.bytes
      match c.src, t.senderOf c with
      | .here, some (id, k) => .next (t.failColl id k)
      | .here, none => .next t
      | _, _ => .next (t.answerChunk c .refused)

/-- A refused chunk is sent again after 16 µs (R369): one of this package arrives again, one for another device leaves again. -/
def execChunkResend (e : Resend) (s : State) : Out :=
  let i := Instr.chunkResend e
  let c := e.chunk
  if !(s.pending.contains i) || s.gt < e.due then .next s
  else if c.src == .here then .next ((s.finished i).post (.chunkArrival c))
  else match s.senderOf c with
    | none => .next (s.finished i)
    | some (id, k) =>
      match s.record k.port k.num with
      | none => .next (s.finished i)
      | some r =>
        if r.paused then .next s
        else match s.wayTo k.port r k [c.dest] with
          | .error f => .next (s.pause k.port r f)
          | .ok (s, .bad) => .next ((s.finished i).failColl id k)
          | .ok (s, .to [x]) => .next ((s.finished i).shipOut k x c)
          | .ok (s, _) => .next s

/-- Another device answers a chunk of this package (R369, R371): it is owed no more, it is sent again, or the collective
ends. -/
def State.chunkAnswer (s : State) (planid step : DWord) (chunk rank dest : Nat) (a : Answer) : State :=
  match s.colls.find? fun k => k.2.planid == planid && k.2.body.step == step && k.2.self == rank with
  | none => s
  | some (id, k) =>
    match k.owed.find? fun c => c.chunk == chunk && c.dest == dest with
    | none => s
    | some c =>
      match a with
      | .done => (s.modColl id fun x => { x with owed := x.owed.erase c }).postOnce (.collComplete k.port k.num)
      | .full => s.post (.chunkResend ⟨c, s.gt + 16000⟩)
      | .refused => s.failColl id k

/-! ## Reduce blocks (R370) -/

/-- Rounded lines of elements (R370): value, poison. -/
def State.roundLines (s : State) (p : Port) (r : RecSt) (k : Coll) : List Nat → Except EngFault (State × List ChunkElem)
  | [] => .ok (s, [])
  | e :: es =>
    match s.poisonRead p.ctx (s.recCore p r) (s.recPlace p r) (k.lineVa e) 2 128 with
    | .error f => .error f
    | .ok (s, bs) =>
      let b := boltOfLine (bs.map Prod.fst)
      let bad := b.poison || bs.any Prod.snd
      let x : ChunkElem := { e := e, x := BitVec.ofNat 64 (boltRound k.body.fmt k.body.rm false b).1, bad := bad }
      match s.roundLines p r k es with
      | .error f => .error f
      | .ok (s, xs) => .ok (s, x :: xs)

/-- The ranks other than the owner whose OUT takes the rounded chunk. -/
def Coll.others (k : Coll) : List Nat := if k.body.op = 0 then (List.range k.ranks).filter (· != k.self) else []

/-- A reduce block of a chunk: it rounds the lines, writes the OUTs and releases the launch counter (R370, R376). -/
def State.reduceChunk (s : State) (p : Port) (r : RecSt) (id : Nat) (k : Coll) (c core : Nat) :
    Except EngFault (State × Bool) :=
  match s.wayTo p r k k.others with
  | .error f => .error f
  | .ok (s, .bad) => .ok (s.failColl id k, true)
  | .ok (s, .shut) => .ok (s, false)
  | .ok (s, .to rs) =>
    match s.reedSpend p r ((k.span c).2 * (128 + k.size)) with
    | (s, none) => .ok (s, false)
    | (s, some r) =>
      match s.roundLines p r k (k.elemsIn [c]) with
      | .error f => .error f
      | .ok (s, xs) =>
        match s.writeOut p r (s.core core).lclk k xs with
        | .error f => .error f
        | .ok s =>
          let s := (s.shipAll id k c xs k.others rs).modColl id fun x => { x with
            counters := tdel x.counters c, written := x.written ++ [c],
            poisoned := x.poisoned + bitNat (xs.any (·.bad)) }
          let s := s.modDie k.die fun d => { d with counters := d.counters - 1 }
          .ok (s.meterAdd p.ctx (if k.body.fmt == .f32 then 8 else 9) xs.length, true)

/-- The core of a reduce block: what waits on the die takes its turns, and an idle core is preferred (R298, R370). -/
def State.reduceCore (s : State) (p : Port) (n die : Nat) : Option Nat :=
  let ws := s.queueOn die
  (ws.find? fun w => w.reduce && w.ctx == p.ctx && w.num == n).bind fun w => s.coreFor ws w die

/-- A reduce block runs on a core of the lead die with room once the chunk's launch counter is 0; without room it makes a
pre-emption point (R304, R370). -/
def execReduceBlock (p : Port) (n chunk : Nat) (s : State) : Out :=
  let i := Instr.reduceBlock p n chunk
  withRec i p n s fun r =>
    match s.collFor p n with
    | none => s.finished i
    | some (id, k) =>
      if k.failed || tget k.counters chunk != some 0 then s.finished i
      else match s.reduceCore p n k.die with
        | none => s.postOnce (.preemptionPoint k.die)
        | some core =>
          match s.reduceChunk p r id k chunk core with
          | .error f => s.pause p r f
          | .ok (s, false) => s
          | .ok (s, true) => ((s.finished i).postOnce (.blockPlace k.die)).postOnce (.collComplete p n)

/-! ## Completion (R371, R372, R375) -/

/-- The chunk is on its way from a rank. -/
def isFrom (k : Coll) : Instr → Bool
  | .chunkArrival c => c.planid == k.planid && c.step == k.body.step && c.rank == k.self
  | .chunkResend ⟨c, _⟩ => c.planid == k.planid && c.step == k.body.step && c.rank == k.self
  | _ => false

/-- Something that the rank sent is not yet merged or written in this package. -/
def State.unmerged (s : State) (k : Coll) : Bool :=
  s.pending.any (isFrom k) || s.dies.any fun d : Nat × Die =>
    d.2.intake.any fun c => c.planid == k.planid && c.step == k.body.step && c.rank == k.self

/-- The writes of R371 are complete at the rank, and other devices have acknowledged what they were sent. -/
def State.collDone (s : State) (k : Coll) : Bool :=
  k.accepted && k.toSend.all k.sent.contains && k.toWrite.all k.written.contains && !s.unmerged k && k.owed.isEmpty

/-- The collective has a digest exchange (R375). -/
def Coll.exchanges (k : Coll) : Bool := k.level != 0 && (k.body.op == 0 || k.body.op == 2 || k.body.op == 3)

/-- The rank's DIGEST over every element of OUT (R375); none while it waits for the regulator. -/
def State.collDigest (s : State) (p : Port) (r : RecSt) (k : Coll) : Except EngFault (State × Option DWord) :=
  let len := k.body.elems * k.size
  match s.reedSpend p r len with
  | (s, none) => .ok (s, none)
  | (s, some r) =>
    match s.engRead p.ctx (s.recCore p r) (s.recPlace p r) k.outVa.toNat len with
    | .error f => .error f
    | .ok (s, bs, _) =>
      .ok (s, some ((List.range k.body.elems).foldl (fun d e =>
        d + contribution (BitVec.ofNat 64 (e * k.size)) (fieldAt bs (e * k.size) k.size)) 0))

/-- The rank's DIGEST on its way to a rank. -/
def State.shipDigest (s : State) (k : Coll) (d : DWord) (x : Nat × Route) : State :=
  let s := s.routeBytes k x.2 8
  match x.2 with
  | .self => s
  | .pod m _ =>
    if m == s.pkg.podnum then s.post (.digestArrival k.planid k.body.step k.self x.1 ⟨.here, d⟩)
    else s.emit (.digest m k.planid k.body.step k.self d)
  | .bridge pa _ => s.emit (.digest (s.canon pa) k.planid k.body.step k.self d)

/-- The ranks other than the rank itself. -/
def Coll.peers (k : Coll) : List Nat := (List.range k.ranks).filter (· != k.self)

/-- The rank's DIGEST formed and sent to every other rank, once all of them can be reached. -/
def State.sendDigest (s : State) (p : Port) (r : RecSt) (id : Nat) (k : Coll) : Except EngFault State :=
  match s.wayTo p r k k.peers with
  | .error f => .error f
  | .ok (s, .bad) => .ok (s.failColl id k)
  | .ok (s, .shut) => .ok s
  | .ok (s, .to rs) =>
    match s.collDigest p r k with
    | .error f => .error f
    | .ok (s, none) => .ok s
    | .ok (s, some d) =>
      .ok (((k.peers.zip rs).foldl (fun s x => s.shipDigest k d x) s).modColl id fun x =>
        { x with digested := true, digests := tput x.digests k.self d })

/-- DMATCH (R372, R375). -/
def Coll.dmatch (k : Coll) : Nat :=
  if !k.exchanges || k.failed then 0
  else match tget k.digests k.self with
    | none => 0
    | some d => if k.digests.all fun x => x.2 == d then 1 else 2

/-- The rank's own digest; 0 when there was no exchange. -/
def Coll.ownDigest (k : Coll) : DWord := if k.exchanges && !k.failed then (tget k.digests k.self).getD 0 else 0

/-- The status block (R372). -/
def Coll.statusBlock (k : Coll) : List Byte :=
  leBytes 8 k.ownDigest.toNat ++ leBytes 1 (if k.failed then 3 else if k.poisoned = 0 then 1 else 2) ++ leBytes 1 k.dmatch
    ++ [0, 0] ++ leBytes 4 k.poisoned ++ leBytes 8 k.body.step.toNat ++ List.replicate 8 0

/-- A COLL_DIGEST entry (R375). -/
def State.postCollDigest (s : State) (p : Port) (k : Coll) : State :=
  if k.dmatch = 2 then
    s.event p.ctx (k.die - (s.ctx p.ctx).firstDie) k.tag 0x23
      (leBytes 1 k.body.op ++ leBytes 2 k.queue ++ leBytes 4 k.body.step.toNat ++ leBytes 8 k.ownDigest.toNat)
  else s

/-- The status block is written and the record completes; a bound grid may complete (R371, R374). -/
def State.endColl (s : State) (p : Port) (r : RecSt) (id : Nat) (k : Coll) : State :=
  match s.recWrite p r k.statVa.toNat k.statusBlock with
  | .error f => s.pause p r f
  | .ok s =>
    let s := s.postCollDigest p k
    let s := s.modDie k.die fun d => { d with counters := d.counters - k.counters.length }
    let s := { s with colls := tdel s.colls id }
    let s := s.completeRec p r
    match k.grid with
    | some g => s.postOnce (.gridComplete g)
    | none => s

/-- A collective completes at its rank (R371, R375). -/
def execCollComplete (p : Port) (n : Nat) (s : State) : Out :=
  let i := Instr.collComplete p n
  withRec i p n s fun r =>
    match s.collFor p n with
    | none => s.finished i
    | some (id, k) =>
      if k.failed then s.endColl p r id k
      else if !s.collDone k then (if s.unmerged k then s else s.finished i)
      else if !k.exchanges then s.endColl p r id k
      else if !k.digested then
        match s.sendDigest p r id k with
        | .error f => s.pause p r f
        | .ok s => s
      else if k.digests.length = k.ranks then s.endColl p r id k
      else s

/-- A rank's digest reaches a rank of this package (R375); it waits for the collective while one is expected. -/
def execDigestArrival (planid step : DWord) (rank dest : Nat) (digest : SentDigest) (s : State) : Out :=
  let i := Instr.digestArrival planid step rank dest digest
  let src := digest.src
  if src == .here && !(s.pending.contains i) then .next s
  else match s.colls.find? fun k => k.2.planid == planid && k.2.body.step == step && k.2.self == dest with
  | some (id, k) =>
    let s := s.received i src k.ctx k.die 8
    if rank < k.ranks && rank != k.self then
      .next ((s.modColl id fun x => { x with digests := tput x.digests rank digest.value }).postOnce (.collComplete k.port k.num))
    else .next s
  | none =>
    match s.declarer planid false with
    | some x => .next ((s.received i src x (s.ctx x).firstDie 8).post i)
    | none => .next (s.astray i src 8)

/-- The rank that a chunk of OUT comes from (R367). -/
def Coll.giver (k : Coll) (c : Nat) : Nat := if k.body.op = 3 then k.root else k.owner c

/-- The collective waits on another rank (R372): for a contribution, a result, an acknowledgement or a digest of it, or to
reach it. -/
def State.waitsOn (s : State) (k : Coll) (rank : Nat) : Bool :=
  rank != k.self && decide (rank < k.ranks) && !k.failed
    && ((k.reduces && k.owned.any fun c => !(k.seen.contains (c, rank)))
      || (k.toWrite.any fun c => k.giver c == rank && !(k.written.contains c))
      || (k.toSend.any fun c => (k.dests c).contains rank && !(k.sent.contains c))
      || (k.owed.any fun c => c.dest == rank)
      || (s.pending.any fun i => isFrom k i && match i with
        | .chunkArrival c | .chunkResend ⟨c, _⟩ => c.dest == rank
        | _ => false)
      || (k.exchanges && (tget k.digests rank).isNone))

/-- A rank that cannot be reached fails the collective at every rank that waits on it (R372). -/
def execRankTimeout (planid step : DWord) (rank : Nat) (s : State) : Out :=
  let ks := s.colls.filter fun k => k.2.planid == planid && k.2.body.step == step && s.waitsOn k.2 rank
  .next (ks.foldl (fun s k => s.failColl k.1 k.2) s)

end Sys2Proof.Machine
end

