-- ==== Sys2Proof/Machine/Heddle.lean ====
section
/-! DEFINITION. The heddle: coded exchange, side information, decoding and fallbacks (spec 14 R378 to R386, R431), and the
refill of regulators (R377). -/

namespace Sys2Proof.Machine

/-- BlockCheck of 4 KiB (R380). -/
def blockCheck (bs : List Byte) : DWord := digestOf 0 bs

/-- A block of zeros. -/
def zeroBlock : List Byte := List.replicate 4096 0

/-! ## Entries (R378) -/

/-- A component of an entry, without its CHECK. -/
def compOf (bs : List Byte) (j : Nat) : PlanComp :=
  let o := 32 + 32 * j
  { src := dwordAt bs (o + 8),
    comp := { bid := dwordAt bs o, dst := dwordAt bs (o + 16), rdev := fieldAt bs (o + 24) 2, rdie := fieldAt bs (o + 26) 1,
              check := 0 } }

/-- The number of components that an entry's first byte names, at most 4. -/
def ncompOf (bs : List Byte) : Nat := min 4 (fieldAt bs 0 1)

/-- The components of an entry. -/
def compsOf (bs : List Byte) : List PlanComp := (List.range (ncompOf bs)).map (compOf bs)

/-- The receiver is the sender's own device. -/
def State.ownDevice (s : State) (rdev : Nat) : Bool := rdev == 0xFFFF || rdev == s.pkg.podnum

/-- Two components name one receiver. -/
def State.sameReceiver (s : State) (a b : Comp) : Bool :=
  a.rdie == b.rdie && (a.rdev == b.rdev || (s.ownDevice a.rdev && s.ownDevice b.rdev))

/-- Two of the components name one receiver. -/
def State.twice (s : State) : List Comp → Bool
  | [] => false
  | a :: cs => cs.any (s.sameReceiver a) || s.twice cs

/-- An entry breaks the rules of R378; the dies of another device are known only to be below 4. -/
def State.entryBroken (s : State) (c : Nat) (bs : List Byte) : Bool :=
  let n := fieldAt bs 0 1
  let cs := (compsOf bs).map (·.comp)
  n = 0 || 4 < n || anySet bs 1 31 || anySet bs (32 + 32 * n) (128 - 32 * n)
    || (List.range (min 4 n)).any (fun j => anySet bs (32 + 32 * j + 28) 4)
    || (compsOf bs).any (fun x => x.src.toNat % 4096 != 0)
    || cs.any (fun x => x.dst.toNat % 4096 != 0
        || decide ((if s.ownDevice x.rdev then (s.ctx c).nDies else 4) ≤ x.rdie))
    || s.twice cs

/-! ## STATUS (R386) -/

/-- The STATUS of a component is known; it is still to be written into the plan. -/
def RecSt.status (r : RecSt) (key v : Nat) : RecSt := { r with stats := tput r.stats key (8 + v) }

/-- A known STATUS that is not written yet. -/
def RecSt.unwritten (r : RecSt) : Option (Nat × Nat) := r.stats.find? fun x => decide (8 ≤ x.2)

/-- The sending port writes a STATUS byte into the plan. -/
def State.writeStatus (s : State) (p : Port) (r : RecSt) (plan : DWord) (key v : Nat) : State :=
  let va := plan.toNat + 64 + 160 * (key / 4) + 32 + 32 * (key % 4) + 27
  match s.recWrite p r va (leBytes 1 (v - 8)) with
  | .error f => s.pause p r f
  | .ok s => s.setRecord p { r with stats := tput r.stats key (v - 8) }

/-! ## Sending (R379, R380, R382) -/

/-- Bytes with their poison, XORed: a poisoned byte poisons the byte made of it (R326; log 8). -/
def xorMarked (a b : PBytes) : PBytes := List.zipWith (fun x y => (x.1 ^^^ y.1, x.2 || y.2)) a b

/-- The blocks of components read in order. -/
def State.readBlocks (s : State) (p : Port) (r : RecSt) : List PlanComp → Except EngFault (State × List PBytes)
  | [] => .ok (s, [])
  | c :: cs =>
    match s.poisonRead p.ctx (s.recCore p r) (s.recPlace p r) c.src.toNat 33 4096 with
    | .error f => .error f
    | .ok (s, b) =>
      match s.readBlocks p r cs with
      | .error f => .error f
      | .ok (s, bs) => .ok (s, b :: bs)

/-- The dies of the sender's device that receive a packet. -/
def State.localDies (s : State) (c : Nat) (cs : List Comp) : List Nat :=
  (cs.filter fun x => s.ownDevice x.rdev).map fun x => (s.ctx c).firstDie + x.rdie

/-- The other devices that receive a packet. -/
def State.farPods (s : State) (cs : List Comp) : List Nat :=
  ((cs.filter fun x => !s.ownDevice x.rdev).map (·.rdev)).eraseDups

/-- A packet can leave: its receiving dies have free slots, and its devices an active port (R362, R382). -/
def State.canSend (s : State) (c : Nat) (cs : List Comp) : Bool :=
  (s.localDies c cs).all (fun d => (s.die d).lost || decide ((s.die d).slots < 256)) && (s.farPods cs).all fun m => (s.ualPin m).isSome

/-- A component in a packet's header (R380). -/
def Comp.bytes (x : Comp) : List Byte :=
  leBytes 8 x.bid.toNat ++ leBytes 8 x.check.toNat ++ leBytes 8 x.dst.toNat ++ leBytes 2 x.rdev ++ leBytes 1 x.rdie
    ++ List.replicate 5 0

/-- The 160-byte header of a packet (R380). -/
def Packet.header (pk : Packet) : List Byte :=
  sized 160 (leBytes 8 pk.xid.toNat ++ leBytes 4 pk.entry ++ leBytes 1 pk.comps.length ++ [0, 0, 0] ++ leBytes 2 pk.pod
    ++ leBytes 1 pk.die ++ List.replicate 13 0 ++ pk.comps.flatMap Comp.bytes)

/-- A packet's bytes. -/
def packetBytes : Nat := 160 + 4096

/-- A packet on its way to a die of the package, where it holds a slot. -/
def State.toDie (s : State) (c d : Nat) (i : Instr) : State :=
  ((s.carry c none (some d) packetBytes).modDie d fun x => { x with slots := x.slots + 1 }).post i

/-- A packet on its way to another device. -/
def State.toPod (s : State) (c m : Nat) (pk : Packet) : State := 
  (s.ualMove c m packetBytes 0).emit (.packet m (Packet.header pk ++ pk.payload.map Prod.fst))

/-- The die of the package that a component goes to is lost: it is reported (R385). -/
def State.goneFor (s : State) (c : Nat) (x : Comp) : Bool :=
  s.ownDevice x.rdev && (s.die ((s.ctx c).firstDie + x.rdie)).lost

/-- The STATUS of a component as it is sent: owed, or reported at once. -/
def State.firstStatus (s : State) (c : Nat) (x : Comp) : Nat := if s.goneFor c x then 12 else 0

/-- An entry sent: one copy for each receiving die of the device, and one for each other device. -/
def State.sendPacket (s : State) (p : Port) (pk : Packet) : State :=
  let s := (s.localDies p.ctx (pk.comps.filter fun x => !(s.goneFor p.ctx x))).foldl (fun s d => s.toDie p.ctx d (.packetDecode d pk)) s
  (s.farPods pk.comps).foldl (fun s m => s.toPod p.ctx m pk) s

/-- The next entry of a CXCH sent, or given STATUS 5 (R378, R379). -/
def State.sendEntry (s : State) (p : Port) (r : RecSt) (plan : DWord) : State :=
  let k := r.rows
  match s.engRead p.ctx (s.recCore p r) (s.recPlace p r) (plan.toNat + 64 + 160 * k) 160 with
  | .error f => s.pause p r f
  | .ok (s, e, _) =>
    let ps := compsOf e
    let js := List.range ps.length
    if s.entryBroken p.ctx e then
      s.setRecord p { r with rows := k + 1, stats := js.foldl (fun t j => tput t (4 * k + j) 13) r.stats }
    else if !s.canSend p.ctx (ps.map (·.comp)) then s
    else match s.reedSpend p r (4096 * ps.length) with
      | (s, none) => s
      | (s, some r) =>
        match s.readBlocks p r ps with
        | .error f => s.pause p r f
        | .ok (s, bs) =>
          let qs := (ps.zip bs).map fun x =>
            { x.1 with comp := { x.1.comp with check := blockCheck (x.2.map Prod.fst) } }
          let pk : Packet :=
            { xid := r.xid, pod := s.pkg.podnum, die := s.portDie p, entry := k, comps := qs.map (·.comp),
              payload := bs.foldl xorMarked (clean zeroBlock) }
          let s := s.setRecord p { r with
            rows := k + 1, comps := r.comps ++ (js.zip qs).map fun x => (4 * k + x.1, x.2),
            stats := (js.zip qs).foldl (fun t x => tput t (4 * k + x.1) (s.firstStatus p.ctx x.2.comp)) r.stats,
            coded := r.coded + (if ps.length < 2 then 0 else 1) }
          s.sendPacket p pk

/-- CXCH (R379, R386): known STATUS bytes are written, and the entries are sent in ascending order. -/
def execCxch (p : Port) (n : Nat) (s : State) : Out :=
  let i := Instr.cxch p n
  withRec i p n s fun r =>
    match r.body with
    | .cxch plan npkt _ =>
      match r.unwritten with
      | some (key, v) => s.writeStatus p r plan key v
      | none =>
        if npkt ≤ r.rows then
          let s := s.finished i
          if r.exchanged npkt then s.postOnce (.recordComplete p n) else s
        else s.sendEntry p r plan
    | _ => s.finished i

/-! ## Side information (R381) -/

/-- The entry of a context and block. -/
def Die.sideOf (d : Die) (c : Nat) (bid : DWord) : Option SideEntry := d.side.find? fun e => e.ctx == c && e.bid == bid

/-- The table without the entry of a context and block. -/
def Die.withoutSide (d : Die) (c : Nat) (bid : DWord) : Die :=
  { d with side := d.side.filter fun e => !(e.ctx == c && e.bid == bid) }

/-- The table with an entry made, the most recently used; nothing while the entries it could take are INUSE. -/
def Die.enterSide (d : Die) (c : Nat) (bid va : DWord) : Option Die :=
  let e : SideEntry := { ctx := c, bid := bid, va := va, inuse := false }
  match d.sideOf c bid with
  | some x =>
    if x.inuse then none
    else
      let d := d.withoutSide c bid
      some { d with side := d.side ++ [e] }
  | none =>
    if d.side.length < 4096 then some { d with side := d.side ++ [e] }
    else match d.side.find? fun x => !x.inuse with
      | none => none
      | some x => some { d with side := d.side.erase x ++ [e] }

/-- SIDE (R381). -/
def execSide (p : Port) (n : Nat) (s : State) : Out :=
  let i := Instr.side p n
  withRec i p n s fun r =>
    match r.body with
    | .side bid va =>
      match (s.die (s.portDie p)).enterSide p.ctx bid va with
      | none => s
      | some d => (s.setDie (s.portDie p) d).completeRec p r
    | _ => s.finished i

/-- SREL (R381). -/
def execSrel (p : Port) (n : Nat) (s : State) : Out :=
  let i := Instr.srel p n
  withRec i p n s fun r =>
    match r.body with
    | .srel bid =>
      let d := s.die (s.portDie p)
      match d.sideOf p.ctx bid with
      | some x => if x.inuse then s else (s.setDie (s.portDie p) (d.withoutSide p.ctx bid)).completeRec p r
      | none => s.completeRec p r
    | _ => s.finished i

/-! ## Receiving (R382 to R386). A decode is one step, so no entry is INUSE between steps. -/

/-- The context of a die that declares an XID (R364). -/
def State.declarerOn (s : State) (xid : DWord) (die : Nat) : Option Nat :=
  (s.ctxs.find? fun c : Nat × Context =>
    c.2.state != .free && c.2.state != .lost && c.2.hasDie die && c.2.declares xid true).map Prod.fst

/-- What a decode comes to: the block, or a reason with the block identifier it concerns (R383, R314). -/
abbrev Decoded := Except (Nat × DWord) PBytes

/-- The side blocks of the components other than the receiver's own, cancelled from a payload (R383). -/
def State.cancel (s : State) (c die : Nat) : List Comp → PBytes → State × Decoded
  | [], b => (s, .ok b)
  | x :: xs, b =>
    match (s.die die).sideOf c x.bid with
    | none => (s, .error (1, x.bid))
    | some e =>
      let s := s.modDie die fun d => let d := d.withoutSide c x.bid; { d with side := d.side ++ [e] }
      match s.poisonRead c (48 * die) (some die) e.va.toNat 33 4096 with
      | .error _ => (s, .error (4, x.bid))
      | .ok (s, sb) =>
        if blockCheck (sb.map Prod.fst) != x.check then (s, .error (2, x.bid)) else s.cancel c die xs (xorMarked b sb)

/-- A packet decoded for its component number i (R383). -/
def State.decodePacket (s : State) (c die : Nat) (pk : Packet) (i : Nat) (own : Comp) : State × Decoded :=
  let r := s.cancel c die (pk.comps.eraseIdx i) pk.payload
  match r.2 with
  | .error e => (r.1, .error e)
  | .ok b => if blockCheck (b.map Prod.fst) == own.check then (r.1, .ok b) else (r.1, .error (3, own.bid))

/-- What a receiver tells the sending port of a packet, or of a fallback. -/
def nackOf (pk : Packet) (fallback : Bool) (own : Comp) (reason : Nat) (bid : DWord) : NackMsg :=
  { die := pk.die, xid := pk.xid, entry := pk.entry, rdev := own.rdev, rdie := own.rdie, fallback := fallback,
    reason := reason, bid := bid }

/-- A receiver's message reaches the sending port, here or in another device. -/
def State.answerTo (s : State) (pk : Packet) (m : NackMsg) : State :=
  if pk.pod == s.pkg.podnum then s.post (.nack m) else s.emit (.nackTo pk.pod m)

/-- The receive count word of a context gains 1, as by `cntsig` at system scope and behind what the block's write shows (R386,
R364, R430). -/
def State.countReceipt (s : State) (c : Nat) (xid : DWord) (l : Stamp) : State :=
  match (s.ctx c).ids.find? fun x => x.id == xid && x.heddle with
  | none => s
  | some x =>
    match s.countAdd c ((s.ctx c).firstDie * 48) none (Stamp.max s.pkg.pclk l) x.recvVa.toNat 1 with
    | .ok s => s
    | .error _ => s.lose c 5

/-- A component ends at its receiver with a STATUS, which is told to the sending port (R386). -/
def State.endComp (s : State) (c : Nat) (pk : Packet) (fallback : Bool) (own : Comp) (status : Nat) (l : Stamp) : State :=
  (s.countReceipt c pk.xid l).answerTo pk (nackOf pk fallback own (16 + status) own.bid)

/-- A block written at its DST (R383); a fault makes the component reported, with STATUS 4. -/
def State.deliverBlock (s : State) (c die : Nat) (pk : Packet) (own : Comp) (b : PBytes) (status : Nat) : State :=
  match s.poisonWrite c (48 * die) (some die) (s.die die).pclk own.dst.toNat b with
  | .error _ => s.endComp c pk (status == 2) own 4 (s.die die).pclk
  | .ok (s, w) => (if status = 1 then s.meterAdd c 21 1 else s).endComp c pk (status == 2) own status w

/-- A component's RDEV names this device, in a packet of a sender (R378). -/
def State.namesHere (s : State) (pk : Packet) (x : Comp) : Bool :=
  if pk.pod == s.pkg.podnum then s.ownDevice x.rdev else x.rdev == s.pkg.podnum

/-- The component of a packet that names a receiver: a die of the device of a context. -/
def State.ownComp (s : State) (c die : Nat) (pk : Packet) : Option (Nat × Comp) :=
  ((List.range pk.comps.length).zip pk.comps).find? fun x =>
    x.2.rdie == die - (s.ctx c).firstDie && s.namesHere pk x.2

/-- The packets of a die in the order of arrival. -/
def isPacketFor (die : Nat) : Instr → Bool
  | .packetDecode d _ => d == die
  | .fallbackArrival d _ => d == die
  | _ => false

/-- A refused XID: the component is reported without a fallback (R385). -/
def State.refusePacket (s : State) (die : Nat) (pk : Packet) (fallback : Bool) : State :=
  match pk.comps.find? fun x => s.namesHere pk x && x.rdie % 4 == die % 4 with
  | none => s
  | some own => s.answerTo pk (nackOf pk fallback own 20 own.bid)

/-- Components of a packet that cannot be delivered are reported without a fallback (R385). -/
def State.refuseAll (s : State) (pk : Packet) (fallback : Bool) (cs : List Comp) : State :=
  cs.foldl (fun s x => s.answerTo pk (nackOf pk fallback x 20 x.bid)) s

/-- A packet from another device reaches the gallery, which replicates it to its receiving dies, each of which gives it a slot
(R379, R382); while one of them has none free, the packet is held at its source and does not come about. -/
def State.fromPod (s : State) (die : Nat) (pk : Packet) (fallback : Bool) (row : Nat → Instr) : State :=
  if pk.pod == s.pkg.podnum then s
  else
    let mine := pk.comps.filter (s.namesHere pk)
    match s.declarerOn pk.xid die with
    | none => (s.ualBytes pk.pod 0 packetBytes).refuseAll pk fallback mine
    | some c =>
      let x := s.ctx c
      let (there, gone) := mine.partition fun y => decide (y.rdie < x.nDies) && !(s.die (x.firstDie + y.rdie)).lost
      let ds := there.map fun y => x.firstDie + y.rdie
      if ds.any fun d => decide (256 ≤ (s.die d).slots) then s
      else ds.foldl (fun s d => s.toDie c d (row d)) ((s.ualMove c pk.pod 0 packetBytes).refuseAll pk fallback gone)

/-- Transfers of n bytes of a die's oldest packet ask the regulator of the receiving context (R377): the machine, and whether
they are let through. -/
def State.payPacket (s : State) (c die n : Nat) : State × Bool :=
  let had := (s.die die).paid
  let (s, left) := s.payFor c (bucketKey (die - (s.ctx c).firstDie) false) (n - had)
  let got := max n had - left
  (s.modDie die fun d => { d with paid := if left = 0 then got - n else got }, left == 0)

/-- A packet of a die is taken when it is the oldest there and its transfers of n bytes are let through; its slot is given up
(R382). -/
def takePacket (i : Instr) (die : Nat) (pk : Packet) (fallback : Bool) (n : Nat) (s : State) (f : State → Nat → State) : Out :=
  if s.pending.find? (isPacketFor die) != some i then .next s
  else
    let t := (s.finished i).modDie die fun d => { d with slots := d.slots - 1 }
    match s.declarerOn pk.xid die with
    | none => .next (t.refusePacket die pk fallback)
    | some c =>
      match s.payPacket c die n with
      | (s, false) => .next s
      | (s, true) => .next (f ((s.finished i).modDie die fun d => { d with slots := d.slots - 1 }) c)

/-- A receiver decodes a coded packet, or takes a plain one (R383 to R386); one from another device arrives first. -/
def execPacketDecode (die : Nat) (pk : Packet) (s : State) : Out :=
  let i := Instr.packetDecode die pk
  if !(s.pending.contains i) then .next (s.fromPod die pk false fun d => .packetDecode d pk)
  else takePacket i die pk false (4096 * pk.comps.length) s fun s c =>
    match s.ownComp c die pk with
    | none => s
    | some (j, own) =>
      let (s, d) := s.decodePacket c die pk j own
      match d with
      | .ok b => s.deliverBlock c die pk own b (if pk.comps.length = 1 then 3 else 1)
      | .error (reason, bid) => s.answerTo pk (nackOf pk false own reason bid)

/-- A fallback is checked and written, or its component is reported (R385). -/
def execFallbackArrival (die : Nat) (pk : Packet) (s : State) : Out :=
  let i := Instr.fallbackArrival die pk
  if !(s.pending.contains i) then .next (s.fromPod die pk true fun d => .fallbackArrival d pk)
  else takePacket i die pk true 4096 s fun s c =>
    match s.ownComp c die pk with
    | none => s
    | some (_, own) =>
      if blockCheck (pk.payload.map Prod.fst) == own.check then s.deliverBlock c die pk own pk.payload 2
      else s.endComp c pk true own 4 (s.die die).pclk

/-! ## What the sending port is told (R385, R386) -/

/-- The component that a message is about, of a CXCH that a heddle of the sending die works on. -/
def State.compFor (s : State) (m : NackMsg) (p : Port) (r : RecSt) : Option (Nat × PlanComp) :=
  if s.portDie p != m.die || r.xid != m.xid then none
  else r.comps.find? fun x => x.1 / 4 == m.entry && x.2.comp.rdie == m.rdie
    && (x.2.comp.rdev == m.rdev || (s.ownDevice x.2.comp.rdev && s.ownDevice m.rdev))
    && tget r.stats x.1 == some (if m.fallback then 6 else 0)

/-- The record that a message is about, its key and component. -/
def State.askedBy (s : State) (m : NackMsg) : Option (Port × RecSt × Nat × PlanComp) :=
  s.ports.findSome? fun x => x.recs.findSome? fun r => (s.compFor m x.port r).map fun q => (x.port, r, q)

/-- A STATUS reaches the port. -/
def State.statusCame (s : State) (p : Port) (r : RecSt) (key : Nat) (m : NackMsg) : State :=
  let v := m.reason - 16
  let r := r.status key v
  (s.setRecord p { r with
    decodes := r.decodes + (if v = 1 then 1 else 0), fallbacks := r.fallbacks + (if v = 2 then 1 else 0) }).postOnce
    (.cxch p r.num)

/-- The fallback of a component leaves: SRC is read again, and carries the check of the first read (R385). -/
def State.sendFallback (s : State) (p : Port) (r : RecSt) (key : Nat) (q : PlanComp) : Except EngFault State :=
  match s.poisonRead p.ctx (s.recCore p r) (s.recPlace p r) q.src.toNat 33 4096 with
  | .error f => .error f
  | .ok (s, b) =>
    let pk : Packet := { xid := r.xid, pod := s.pkg.podnum, die := s.portDie p, entry := key / 4, comps := [q.comp],
                         payload := b }
    .ok (if s.ownDevice q.comp.rdev then
        let d := (s.ctx p.ctx).firstDie + q.comp.rdie
        s.toDie p.ctx d (.fallbackArrival d pk)
      else s.toPod p.ctx q.comp.rdev pk)

/-- A decode fault is counted at its port, and the first one of a STRICT plan is reported (R385, R431). -/
def State.countFault (s : State) (p : Port) (r : RecSt) (key : Nat) (m : NackMsg) : State :=
  let s := s.setRecord p { r with faults := r.faults + 1, stats := tput r.stats key 6 }
  if r.trap && r.faults = 0 then s.report p r 0x14 0x21 m.reason m.bid else s

/-- A message of a receiver reaches the sending port: a NACK, which one fallback answers, or a STATUS (R385, R386). It
waits while the record is paused, and while the receiver has no slot. -/
def execNack (m : NackMsg) (s : State) : Out :=
  let i := Instr.nack m
  match s.askedBy m with
  | none => .next (s.finished i)
  | some (p, r, key, q) =>
    if 16 ≤ m.reason then .next ((s.finished i).statusCame p r key m)
    else if m.fallback then .next (s.finished i)
    else if r.paused || !s.canSend p.ctx [q.comp] then .next (s.postOnce i)
    else match s.reedSpend p r 4096 with
      | (s, none) => .next (s.postOnce i)
      | (s, some r) =>
        match s.sendFallback p r key q with
        | .error f => .next ((s.postOnce i).pause p r f)
        | .ok s => .next ((s.finished i).countFault p r key m)

/-! ## Regulators (R377) -/

/-- A regulator's bucket is refilled (R377). -/
def execBucketRefill (ctx die : Nat) (shuttles : Bool) (s : State) : Out :=
  let key := bucketKey die shuttles
  .next (s.modCtx ctx fun x => { x with
    buckets := tput x.buckets key (((tget x.buckets key).getD {}).refill s.gt) })

end Sys2Proof.Machine
end

