-- ==== Sys2Proof/Machine/Links.lean ====
section
/-! DEFINITION. Bubbles and the governor, the package network, stair modules and UALink ports (spec 13 R342 to R358, 14 R362,
R363, 15 R398, 16 R415). Module m is module m mod 16 of logical die m ÷ 16. -/

namespace Sys2Proof.Machine

/-- A 64-bit counter that saturates. -/
def sat64 (n : Nat) : Nat := min n (2 ^ 64 - 1)

/-! ## Bubbles and power (R398, R415) -/

/-- Nanoseconds of n arithmetic clocks at 1.2 GHz. -/
def clocksNs (n : Nat) : Nat := n * 5 / 6

/-- Every arithmetic clock stops for n clocks: global time goes on, the clock count does not (R398). -/
def execWholePackageBubble (n : Nat) (s : State) : Out :=
  let s := s.finished (.wholePackageBubble n)
  when (decide (0 < n) && decide (n ≤ 4096)) s fun s =>
    { s with gt := s.gt + clocksNs n, pkg := { s.pkg with bubbleclk := sat64 (s.pkg.bubbleclk + n) } }

/-- A bubble. -/
def isBubble : Instr → Bool
  | .wholePackageBubble _ => true
  | _ => false

/-- The average of the power samples exceeds the cap. -/
def Package.hot (x : Package) : Bool := decide (x.watts * x.samples.length < x.samples.sum)

/-- The governor's sample of a microsecond (R415): while the average of the last 100 exceeds WATTS, or a sensor exceeds
TJMAX, a bubble is inserted. The manual does not fix its length (log 2). -/
def execGovernorSample (watts tj : Nat) (s : State) : Out :=
  let s := { s with pkg := { s.pkg with samples := (watts :: s.pkg.samples).take 100 } }
  if s.pkg.hot || s.pkg.tjmax < tj then
    .next (s.post (.wholePackageBubble (1 + Config.openField 8 s.free % 4096)))
  else .next { s with pending := s.pending.filter fun i => !(isBubble i) }

/-! ## The package network (R343, R344). A packet in the network is a message under way. -/

/-- A flow has a packet in the network. -/
def State.inNetwork (s : State) (f : Nat) : Bool := s.pending.any fun i => s.flowOf i == some f && s.onNetwork i

/-- Flows without a packet left in the network leave the escape channel. -/
def State.settleFlows (s : State) : State :=
  { s with pkg := { s.pkg with escaped := s.pkg.escaped.filter s.inNetwork } }

/-- A packet that has waited 256 clocks enters the escape channel, and its flow stays there until it has no packet left
(R343). Fixed-class mode has no escape channel. The path changes no order: a flow's packets come in theirs on every path
(`State.headOf`). -/
def execEscapeTimeout (flow : Nat) (s : State) : Out :=
  let s := s.settleFlows
  when (s.inNetwork flow && !s.pkg.fixedClass && !(s.pkg.escaped.contains flow)) s fun s =>
    { s with pkg := { s.pkg with escaped := s.pkg.escaped ++ [flow] } }

/-- The re-admission of a module. -/
def isReadmit : Instr → Bool
  | .readmit _ => true
  | _ => false

/-- Some module is being re-admitted, or is to be. -/
def State.readmitting (s : State) : Bool := (s.stairs.any fun m => m.2.readmit) || s.pending.any isReadmit

/-- The network changes its mode once it is empty (R344). -/
def execNetworkModeChange (fixed : Bool) (s : State) : Out :=
  if s.pending.any s.onNetwork then .next s
  else
    let s := s.finished (.networkModeChange fixed)
    when (fixed || (decide (5 ≤ s.pkg.bringUp) && !s.readmitting)) s fun s =>
      { s with pkg := { s.pkg with fixedClass := fixed, escaped := [] } }

/-! ## Stair modules (R346 to R353) -/

/-- The rate of a code in GT/s (R346). -/
def rateOf (code : Nat) : Nat := 32 + 4 * code

/-- The code of a rate. -/
def codeOf (rate : Nat) : Nat := (rate - 32) / 4

/-- The modules of a die. -/
def modulesOf (d : Nat) : List Nat := (List.range 16).map (16 * d + ·)

/-- UPTIME of a module (R350). -/
def Stair.uptime (x : Stair) (gt : Nat) : Nat :=
  match x.state, x.trainedAt with
  | 0, some t => sat64 (gt - t)
  | _, _ => 0

/-! ## Events of links (R355, R356, R358, R362) -/

/-- Contexts whose device includes a die and that subscribe to link events. -/
def State.watching (s : State) (d : Nat) : List (Nat × Context) :=
  s.ctxs.filter fun c : Nat × Context => c.2.state != .free && c.2.hasDie d && c.2.linkwatch.getLsbD 0

/-- An event to the management processor and to the watching contexts, each on its ring of the die. -/
def State.linkEvent (s : State) (d kind tag : Nat) (bytes : Nat → List Byte) : State :=
  let ws := s.watching d
  let s := s.emit (.mgmt kind (bytes d))
  ws.foldl (fun s c => s.event c.1 (d - c.2.firstDie) tag kind (bytes (d - c.2.firstDie))) s

/-- LINK_DEGRADE of a module's step (R355): TRAPINFO, by the die as its reader numbers it. -/
def degradeInfo (x : Stair) (m d step : Nat) (lane : Option Nat) : Nat :=
  m % 16 + d * 2 ^ 4 + step * 2 ^ 8 + x.rate * 2 ^ 16 + x.width * 2 ^ 24 + lane.getD 0xFF * 2 ^ 32

/-- Skeins of contexts with LINKWATCH.TRAP take LINK_DEGRADE (R318, R355). -/
def State.degradeTraps (s : State) (m : Nat) (info : Nat → Nat) : State :=
  (s.watching (m / 16)).foldl (fun s c =>
    if c.2.linkwatch.getLsbD 1 then
      (s.skeins.filter fun k => k.2.ctx == c.1).foldl (fun s k =>
        s.deliver k.1 { code := 0x31, addr := 0, info := BitVec.ofNat 64 (info (m / 16 - c.2.firstDie)) }) s
    else s) s

/-- The event of a degradation step, posted once its quiet point has ended (R355). -/
def State.linkDegrade (s : State) (m step : Nat) (lane : Option Nat) : State :=
  let x := s.stair m
  let info := fun d => degradeInfo x m d step lane
  (s.linkEvent (m / 16) 0x20 0 fun d => leBytes 5 (info d)).degradeTraps m info

/-! ## Retired modules and lost dies (R353, R357, R358) -/

/-- The message is a write on its way to a home of the die. -/
def State.writesTo (s : State) (d : Nat) : Instr → Bool
  | .homeWrite r => s.homeDie r.la == some d
  | _ => false

/-- The tag of a request or reply of a load. -/
def loadTag : Instr → Option Nat
  | .homeLoad r => some r.tag
  | .loadReply r => some r.tag
  | _ => none

/-- Requests of loads to homes of the die that no message under way answers. -/
def State.unserved (s : State) (d : Nat) : List LoadReq :=
  (s.skeins.flatMap fun k : Nat × Skein => k.2.loads.flatMap fun o => o.asked.map Prod.fst).filter fun r =>
    s.homeDie r.la == some d && !(s.pending.any fun i => loadTag i == some r.tag)

/-- What the cores of a lost die hold of lines: each line takes S.POISON (R261, R358). -/
def State.poisonHeld (s : State) (d : Nat) : State :=
  (List.range 48).foldl (fun s k =>
    let core := 48 * d + k
    let s := (s.core core).merges.foldl (fun s m => s.returnCopy m.1 core) s
    let owed := (s.core core).acks.filter fun a => !(s.pending.contains (.recallAck a.1))
    owed.foldl (fun s a => s.mergeAck { a.1 with bolt := { Bolt.zero with poison := true }, count := 0 }) s) s

/-- The packets bound for a lost die are reported (R385). -/
def State.dropPackets (s : State) (d : Nat) : State :=
  let gone := s.pending.filter (isPacketFor d)
  let s := { s with pending := s.pending.filter fun i => !(isPacketFor d i) }
  gone.foldl (fun s i => match i with
    | .packetDecode _ pk => s.refusePacket d pk false
    | .fallbackArrival _ pk => s.refusePacket d pk true
    | _ => s) s

/-- Accesses under way to the homes of a lost die complete at the gallery (R358): writes are discarded and acknowledged, and
loads whose messages were lost are served. -/
def State.settleLost (s : State) (d : Nat) : State :=
  let ws := s.pending.filter (s.writesTo d)
  let s := ws.foldl State.landWrite { s with pending := s.pending.filter fun i => !(s.writesTo d i) }
  (s.unserved d).foldl (fun s r => s.post (.homeLoad r)) s

/-- A die is lost (R358): what is under way to it completes, DIE_LOST tells of the writes discarded, and its contexts become
LOST. -/
def State.loseDie (s : State) (d : Nat) : State :=
  if (s.die d).lost then s
  else
    let s := (((s.modDie d fun x => { x with lost := true }).settleLost d).poisonHeld d).dropPackets d
    let bs := leBytes 1 d ++ List.replicate 6 0 ++ leBytes 8 (s.die d).discarded
    let s := s.emit (.mgmt 0x22 bs)
    let cs := s.ctxs.filter fun c : Nat × Context => c.2.state != .free && c.2.hasDie d
    let s := cs.foldl (fun s c => s.eventAll c.1 (Config.openField 6 s.free) 0x22 bs) s
    (cs.foldl (fun s c => s.lose c.1 2) s).postOnce (.networkModeChange true)

/-- The other modules of a stair resume after its quiet point (R351). -/
def State.resumeStair (s : State) (m : Nat) : State :=
  (modulesOf (m / 16)).foldl (fun s j => s.modStair j fun x =>
    if x.held && !x.gone then { x with state := 0, held := false } else x) s

/-- A module is retired; the flits that it has not delivered cross the modules that their flows are then pinned to, in their
order. With the last module of its stair its die is lost (R353, R357). -/
def State.retireModule (s : State) (m : Nat) : State :=
  if (s.stair m).gone then s
  else
    let s := if (s.stair m).readmit then s.resumeStair m else s
    let s := s.modStair m fun x => { x with
      state := 3, rate := 0, width := 0, trainedAt := none, target := none, waking := none, readmit := false,
      rewritten := false, held := false }
    let s := s.linkDegrade m 4 none
    if (modulesOf (m / 16)).all fun j => (s.stair j).gone then s.loseDie (m / 16) else s

/-- A module is retired (R352, R353). -/
def execModuleRetire (m : Nat) (s : State) : Out := message (.moduleRetire m) s fun s => s.retireModule m

/-- A module reports link-down and is retired at once (R356). -/
def execLinkDown (m : Nat) (s : State) : Out := when (decide (m < 64)) s fun s => s.retireModule m

/-! ## Errors and the degradation policy (R352) -/

/-- The window of a module is over, and the policy has not acted yet. -/
def Stair.overdue (x : Stair) (gt : Nat) : Bool :=
  x.state == 0 && x.trainedAt.isSome && x.target.isNone && decide (x.windowAt + 1000000 ≤ gt)

/-- A flit fails CRC and is replayed; each lane that differs is credited in the window of this time (R350, R352). -/
def execFlitCrcError (m : Nat) (lanes : List Nat) (replayed cycles : Nat) (s : State) : Out :=
  when (decide (m < 64) && !(s.stair m).gone && !(s.stair m).overdue s.gt) s fun s => s.modStair m fun x => { x with
    crcerr := sat64 (x.crcerr + 1), replay := sat64 (x.replay + replayed), replaycyc := sat64 (x.replaycyc + cycles),
    windowReplay := x.windowReplay + replayed,
    attrib := (lanes.eraseDups.filter (· < 68)).foldl (fun t l => tput t l ((tget t l).getD 0 + 1)) x.attrib }

/-- The lane that holds at least 16 attributions and at least half of all (R352): the one with the most, the lowest on a
tie. -/
def Stair.badLane (x : Stair) : Option Nat :=
  let total := (x.attrib.map Prod.snd).sum
  ((x.attrib.filter fun a => decide (16 ≤ a.2) && decide (total ≤ 2 * a.2)).foldl (fun best a =>
    match best with
    | some (l, n) => if n < a.2 then some (a.1, a.2) else some (l, n)
    | none => some (a.1, a.2)) none).map Prod.fst

/-- The lowest redundant lane that is neither in use nor retired. -/
def Stair.spare (x : Stair) : Option Nat := (List.range 4).find? fun i => !(x.ruse.getLsbD i) && !(x.rret.getLsbD i)

/-- The data lane whose bits a lane carries. -/
def Stair.dataLane (x : Stair) (l : Nat) : Nat := if l < 64 then l else (tget x.carries (l - 64)).getD l

/-- Every lane of a half is good, a lane apart (R352): each is its own or carried by a redundant one. -/
def Stair.halfGood (x : Stair) (l h : Nat) : Bool := !((x.dataLane l :: x.bad).any fun n => n / 32 == h)

/-- A lane retired, its data moved to the lowest free redundant lane (R352). -/
def Stair.retireLane (x : Stair) (l : Nat) : Stair :=
  match x.spare with
  | none => x
  | some i =>
    let n := x.dataLane l
    let x := if l < 64 then { x with retired := x.retired ||| (1#64 <<< l) }
      else { x with rret := x.rret ||| (1#4 <<< (l - 64)), ruse := x.ruse &&& ~~~(1#4 <<< (l - 64)),
                    carries := tdel x.carries (l - 64) }
    { x with ruse := x.ruse ||| (1#4 <<< i), carries := tput x.carries i n }

/-- What the policy does at the end of a window. -/
inductive Degrade where
  | none
  | retire
  | train (t : Retraining)
  deriving DecidableEq, Repr

/-- Three retrains in place within 100 ms, which retire a module (R352). -/
def Stair.thirdInPlace (x : Stair) (gt : Nat) : Bool :=
  decide (3 ≤ (x.inPlace.filter fun t => decide (gt < t + 100000000)).length)

/-- The first rule of R352 that applies. -/
def Stair.policy (x : Stair) : Degrade :=
  let code := codeOf x.rate
  match x.badLane with
  | some l =>
    if x.spare.isSome then .train { code := code, width := x.width, half := x.half, lane := some l, step := 2 }
    else if x.halfGood l 0 then .train { code := code, width := 32, half := 0, step := 3 }
    else if x.halfGood l 1 then .train { code := code, width := 32, half := 1, step := 3 }
    else .retire
  | none =>
    if x.windowReplay ≤ x.limit then .none
    else if 32 < x.rate then .train { code := code - 1, width := x.width, half := x.half, step := 1 }
    else .train { code := code, width := x.width, half := x.half, step := 5 }

/-- The window restarted. -/
def Stair.newWindow (x : Stair) : Stair :=
  { x with windowAt := x.windowAt + 1000000, windowReplay := 0, attrib := [] }

/-- At the end of a 1 ms window the policy acts (R352). -/
def execDegradeWindow (m : Nat) (s : State) : Out :=
  let x := s.stair m
  when (decide (m < 64) && x.overdue s.gt) s fun s =>
    match x.policy with
    | .none => s.setStair m x.newWindow
    | .retire => (s.setStair m x.newWindow).postOnce (.moduleRetire m)
    | .train t =>
      let lost := match t.step, x.badLane with
        | 3, some l => [x.dataLane l]
        | _, _ => []
      (s.setStair m { x.newWindow with target := some t, bad := x.bad ++ lost }).postOnce (.quietPoint m)

/-! ## Quiet points (R351) -/

/-- A module at its quiet point trains. -/
def State.beginTraining (s : State) (m : Nat) : State :=
  (s.modStair m fun x => { x with state := 1, fell := false }).postOnce (.trainingDone m true)

/-- A module drains and trains at its new settings (R351). -/
def execQuietPoint (m : Nat) (s : State) : Out :=
  let x := s.stair m
  if x.state = 3 || x.target.isNone then .next (s.finished (.quietPoint m))
  else if x.state != 0 then .next s
  else .next ((s.finished (.quietPoint m)).beginTraining m)

/-- A change of rate that the host commands. -/
def Stair.rateChange (x : Stair) : Retraining := { code := x.code, width := x.width, half := x.half }

/-- A quiet point for a rate that was written, when it differs from the present one (R351). -/
def State.askRate (s : State) (m : Nat) : State :=
  let x := s.stair m
  if x.gone || rateOf x.code = x.rate then s
  else (s.setStair m { x with target := some x.rateChange }).postOnce (.quietPoint m)

/-- A written STAIR_RATE (R348, R351). -/
def execStairRate (m : Nat) (v : DWord) (s : State) : Out :=
  let c := v.toNat % 8
  if 64 ≤ m then .next s
  else
    let s := if c < 5 then s.modStair m fun x => { x with code := c } else s
    let s := if v.getLsbD 8 then s.postOnce (.readmit m) else s
    if 5 ≤ c then .next s
    else if (s.stair m).target.isSome then .next (s.modStair m fun x => { x with rewritten := true })
    else .next (s.askRate m)

/-- A module is at a quiet point, or waking. -/
def Stair.busy (x : Stair) : Bool := x.state == 1 || x.waking.isSome

/-- A module in service stands at the quiet point of its whole stair (R351). -/
def Stair.hold (x : Stair) : Stair := if x.state = 0 then { x with state := 1, held := true } else x

/-- A retired module is trained at code 0 with every lane restored, in fixed-class mode, while every other module of its stair
stands at the quiet point with it (R344, R351). -/
def execReadmit (m : Nat) (s : State) : Out :=
  let x := s.stair m
  let others := (modulesOf (m / 16)).filter (· != m)
  if 64 ≤ m || !x.gone || (s.die (m / 16)).lost then .next (s.finished (.readmit m))
  else if !s.pkg.fixedClass then .next ((s.postOnce (.readmit m)).postOnce (.networkModeChange true))
  else if others.any fun j => (s.stair j).busy then .next (s.postOnce (.readmit m))
  else
    let s := others.foldl (fun s j => s.modStair j Stair.hold) (s.finished (.readmit m))
    .next ((s.setStair m { x with target := some { code := 0, width := 64 }, readmit := true }).beginTraining m)

/-- A failed wake, or a training that failed at code 0 (R351, R356): the third in a row retires the module. -/
def State.failWake (s : State) (m : Nat) (again : State → State) : State :=
  let n := min 3 ((s.stair m).wakefail + 1)
  let s := s.modStair m fun x => { x with wakefail := n }
  let s := s.linkEvent (m / 16) 0x21 (Config.openField 5 s.free) fun _ => leBytes 1 (m % 16) ++ leBytes 1 n
  if 3 ≤ n then s.retireModule m else again s

/-- The settings of a training taken up (R350 to R352). -/
def Stair.trained (x : Stair) (t : Retraining) (gt : Nat) : Stair :=
  let x := if x.readmit then { x with retired := 0, ruse := 0, rret := 0, carries := [], bad := [] }
    else match t.lane with
      | some l => x.retireLane l
      | none => x
  { x with state := 0, rate := rateOf t.code, width := t.width, half := t.half, trainedAt := some gt, windowAt := gt,
           windowReplay := 0, attrib := [], target := none, readmit := false, wakefail := 0 }

/-- A successful training: the module resumes, and with a re-admitted one its stair; the events are posted, a third retrain in
place retires the module (R352), and a rate written meanwhile comes next. -/
def State.trainOk (s : State) (m : Nat) (x : Stair) (t : Retraining) : State :=
  let s := s.setStair m { x.trained t s.gt with
    rewritten := false, inPlace := if t.step = 5 then x.inPlace ++ [s.gt] else x.inPlace }
  let s := if t.step = 0 then s else s.linkDegrade m t.step t.lane
  let s := if x.fell then s.linkDegrade m 6 none else s
  let s := if x.readmit then (s.resumeStair m).postOnce (.networkModeChange false) else s
  let s := if t.step = 5 && (s.stair m).thirdInPlace s.gt then s.postOnce (.moduleRetire m) else s
  if x.rewritten then s.askRate m else s

/-- A module's training ends (R350, R351). After bring-up it counts in RETRAIN. -/
def execTrainingDone (m : Nat) (ok : Bool) (s : State) : Out :=
  let s := s.finished (.trainingDone m ok)
  let x := s.stair m
  match x.state, x.target with
  | 1, some t =>
    let x := { x with retrain := sat64 (x.retrain + 1) }
    if ok then .next (s.trainOk m x t)
    else if 0 < t.code then
      .next ((s.setStair m { x with target := some { t with code := t.code - 1 }, fell := true }).postOnce
        (.trainingDone m true))
    else .next ((s.setStair m x).failWake m fun s => s.postOnce (.trainingDone m true))
  | _, _ => .next s

/-! ## Sleep and wake (R356) -/

/-- A stair whose modules have carried no flit for the idle time sleeps; an idle time of 0 disables sleep. -/
def execStairSleep (die : Nat) (s : State) : Out :=
  let ms := modulesOf die
  when (s.pkg.idle != 0 && decide (die < 4) && decide ((s.die die).lastFlit + s.pkg.idle ≤ s.gt)
      && ms.all (fun m => (s.stair m).state == 0 || (s.stair m).gone)) s fun s =>
    ms.foldl (fun s m => s.modStair m fun x => if x.gone then x else { x with state := 2, waking := none }) s

/-- A flit wakes a sleeping stair, its modules in parallel. -/
def execStairWake (die : Nat) (s : State) : Out :=
  if (modulesOf die).any fun m => (s.stair m).readmit then .next (s.postOnce (.stairWake die))
  else
  let s := s.finished (.stairWake die)
  .next ((modulesOf die).foldl (fun s m =>
    let x := s.stair m
    if x.state = 2 && x.waking.isNone then (s.setStair m { x with waking := some s.gt }).postOnce (.wakeSuccess m)
    else s) s)

/-- A wake attempt of the module is under way, and its 16 µs have or have not passed. -/
def Stair.wakeLate (x : Stair) (gt : Nat) : Option Bool :=
  match x.state, x.waking with
  | 2, some t => some (decide (t + 16000 ≤ gt))
  | _, _ => none

/-- A wake completes within its bound: WAKEFAIL clears, and the module is back in service. -/
def execWakeSuccess (m : Nat) (s : State) : Out :=
  let x := s.stair m
  match x.wakeLate s.gt with
  | none => .next (s.finished (.wakeSuccess m))
  | some true => .next (s.postOnce (.stairWakeSlow m))
  | some false => .next ((s.finished (.wakeSuccess m)).setStair m { x with state := 0, waking := none, wakefail := 0 })

/-- A wake not complete within 16 µs fails and is tried again at once; the third failure retires the module. -/
def execStairWakeSlow (m : Nat) (s : State) : Out :=
  let s := s.finished (.stairWakeSlow m)
  when ((s.stair m).wakeLate s.gt == some true) s fun s =>
    s.failWake m fun s => (s.modStair m fun x => { x with waking := some s.gt }).postOnce (.wakeSuccess m)

/-! ## UALink ports (R362, R363) -/

/-- The die of a UALink port: each pair of ports stands beside one die. -/
def ualDie (p : Nat) : Nat := p / 2

/-- A port leaves the active state: it is retired, and UAL_PORT is posted (R362). -/
def execUalPort (p state lanes : Nat) (s : State) : Out :=
  when (decide (p < 8) && (s.ualPort p).state == 2 && decide (state < 4) && state != 2
      && [0, 1, 2, 4].contains lanes) s fun s =>
    let s := s.modUal p fun x => { x with state := state, lanes := lanes, activeAt := none }
    s.linkEvent (ualDie p) 0x24 (Config.openField 7 s.free) fun _ => leBytes 1 p ++ leBytes 1 state ++ leBytes 1 lanes

/-- A port finishes training and is active: UPTIME restarts, and flows may be pinned to it (R363). -/
def execUalPortActive (p : Nat) (peer : DWord) (peerport lanes : Nat) (s : State) : Out :=
  when (decide (p < 8) && (s.ualPort p).state != 2 && (lanes == 1 || lanes == 2 || lanes == 4)) s fun s =>
    s.modUal p fun x => { x with
      state := 2, peer := peer, peerport := peerport % 256, lanes := lanes, activeAt := some s.gt,
      retrain := if s.pkg.bringUp < 6 then x.retrain else sat64 (x.retrain + 1) }

/-- UPTIME of a port (R363). -/
def UalPort.uptime (x : UalPort) (gt : Nat) : Nat :=
  match x.state, x.activeAt with
  | 2, some t => gt - t
  | _, _ => 0

end Sys2Proof.Machine
end

