-- ==== Sys2Proof/Machine/Host.lean ====
section
/-! DEFINITION. The host, the pod and the management processor: accesses from outside, contexts, page fault replies, debug,
invalidations, signed records, firmware and bring-up (spec 16 R402 to R414, 10 R287, R288, 11 R306, 12 R320, R323, R333,
R334, R339, 14 R361). -/

namespace Sys2Proof.Machine

/-! ## Accesses by physical address (R287, R288, R361, R412) -/

/-- The number that stands for an agent charged to no context (R402). -/
def noCtx : Nat := 256

/-- The link is in normal service (R414). -/
def State.inService (s : State) : Bool := s.pkg.bringUp == 6 && !s.pkg.failed

/-- The first local address beyond the last extent (R262). -/
def hbmEnd : Nat := 0x7700000000

/-- The local address lies in an extent that is in use. -/
def State.inExtent (s : State) (a : Nat) : Bool := decide (a < hbmEnd) && (s.extent a).1 != 0

/-- Bytes read at their homes by an agent that holds no lease; the first number bounds the lines. A memory bolt line is read
in normal form (R85). -/
def State.physRead (s : State) (pa : Nat) : Nat → Nat → State × List Byte
  | 0, _ => (s, [])
  | fuel + 1, n =>
    if n = 0 then (s, [])
    else
      let m := min n (128 - pa % 128)
      let (s, bs, _) := s.agentRead noCtx none (s.boltPa pa) pa m
      let (s, rest) := s.physRead (pa + m) fuel (n - m)
      (s, bs ++ rest)

/-- The address can be reached: a home here, the pod or the host. -/
def State.reachable (s : State) (a : Nat) : Bool := s.paOk (s.canon a)

/-- Bytes that the management processor writes, where their addresses can be reached. -/
def State.physWrite (s : State) (pa : Nat) (bs : List Byte) : State :=
  (s.agentStore noCtx none s.pkg.pclk ((cellsAt (s.canon pa) bs).filter fun c => s.reachable c.1)).1

/-- A line of a host write at its home; its acknowledgement raises the host port's LCLK (R287). -/
def State.hostStore (s : State) (la : Nat) (cells : List (Nat × Byte)) : State :=
  let (s, w) := s.homeStore noCtx none la s.pkg.hostLclk cells
  { s with pkg := { s.pkg with hostLclk := Stamp.max s.pkg.hostLclk w } }

/-- A host write through BAR2 is performed at its homes (R287); what lies beyond the extents is dropped (R412; log 21). -/
def execHostWrite (_func pa : Nat) (bytes : List Byte) (s : State) : Out :=
  when s.inService s fun s =>
    (byLine ((cellsAt pa bytes).filter fun c => s.inExtent c.1)).foldl (fun s g => s.hostStore g.1 g.2) s.hostClock

/-- A byte of a line without a home for the host: all ones beyond the last extent; of an extent of class 0 the manual states
none (log 21). -/
def State.noHomeByte (s : State) (a : Nat) : Byte :=
  if hbmEnd ≤ a then 0xFF else BitVec.ofNat 8 (Config.openField 9 s.free)

/-- Bytes of a host read, line by line, each served at its home after the recall, without a lease (R260, R288), a memory bolt
line in normal form (R85). The first number bounds the lines. -/
def State.hostBytes (s : State) (pa : Nat) : Nat → Nat → State × List Byte
  | 0, _ => (s, [])
  | fuel + 1, n =>
    if n = 0 then (s, [])
    else
      let m := min n (128 - pa % 128)
      let (s, bs) := if s.inExtent pa then
          let (s, bs, _) := s.agentRead noCtx none (s.boltPa pa) pa m
          (s, bs)
        else (s, (List.range m).map fun i => s.noHomeByte (pa + i))
      let (s, rest) := s.hostBytes (pa + m) fuel (n - m)
      (s, bs ++ rest)

/-- A host read through BAR2 (R85, R288, R412). -/
def execHostRead (func pa len : Nat) (s : State) : Out :=
  when s.inService s fun s =>
    let (s, bs) := s.hostBytes pa (len / 128 + 2) len
    s.emit (.reply func bs)

/-- An inbound window holds the bytes of a request of a peer (R361), and every one of them has a home. -/
def State.inWindow (s : State) (pa n : Nat) : Bool :=
  (s.pkg.windows.any fun w => decide (w.1 ≤ pa) && decide (pa + n ≤ w.1 + w.2))
    && (List.range n).all fun i => s.inExtent (pa + i)

/-- The pod number of a request, and its bytes. -/
def PeerReq.span : PeerReq → Nat × Nat × Nat
  | .read pod pa n => (pod, pa, n)
  | .write pod pa bs => (pod, pa, bs.length)
  | .atomic pod pa _ t _ _ => (pod, pa, accBytes t)

/-- The request is one that R360 supports: 1 to 256 bytes, or an aligned atomic of 32 or 64 bits. -/
def peerShape : PeerReq → Bool
  | .read _ _ n => decide (0 < n) && decide (n ≤ 256)
  | .write _ _ bs => decide (0 < bs.length) && decide (bs.length ≤ 256)
  | .atomic _ pa _ t _ _ => (accBytes t == 4 || accBytes t == 8) && pa % accBytes t == 0

/-- A request carried out: the state and the bytes of its reply. -/
def State.serve (s : State) : PeerReq → State × List Byte
  | .read _ pa n => s.physRead pa 4 n
  | .write _ pa bs => ((s.agentStore noCtx none s.pkg.pclk (cellsAt pa bs)).1, [])
  | .atomic _ pa op t b e =>
    let n := accBytes t
    let m := 2 ^ Ty.bits t
    let (s, bs, bad) := s.agentRead noCtx none (s.boltPa pa) pa n
    let new := atomicNew op t (ofLeBytes bs) (b.toNat % m) (e.toNat % m)
    let s := (s.agentStore noCtx none s.pkg.pclk (cellsAt pa (leBytes n new))).1
    (if bad then { s with memPoison := addUnit s.memPoison (pa, n) } else s, bs)

/-- Payload that a request brings in and a reply takes out. -/
def peerBytes (r : PeerReq) (reply : List Byte) : Nat × Nat :=
  match r with
  | .read _ _ _ => (0, reply.length)
  | .write _ _ bs => (bs.length, 0)
  | .atomic _ _ op t _ _ => (accBytes t * (if op = .cas then 2 else 1), reply.length)

/-- A request of a peer is carried out inside the inbound windows, and answered with an error outside (R361). -/
def execPeerRequest (r : PeerReq) (s : State) : Out :=
  let (pod, pa, n) := PeerReq.span r
  if !(peerShape r && s.inWindow pa n) then .next (s.emit (.peerReply pod false []))
  else
    let (s, reply) := s.serve r
    let (rx, tx) := peerBytes r reply
    .next ((s.ualMove noCtx pod tx rx).emit (.peerReply pod true reply))

/-! ## Creation of a context (R290, R306, R309, R364, R410, R411) -/

/-- The fields of a creation block. -/
structure Creation where
  mode : Nat
  device : Nat
  func : Nat
  flags : Nat
  nrings : Nat
  nids : Nat
  root : DWord
  save : DWord
  saveLen : DWord
  cnt : DWord
  tmpl : DWord
  rings : DWord
  ids : DWord
  events : DWord
  budget : DWord
  deriving DecidableEq, Repr

/-- The devices of a presentation mode (R11). -/
def devicesOf (mode : Nat) : Nat := match mode with | 0 => 1 | 1 => 2 | _ => 4

/-- The dies of a device of a mode. -/
def diesOf (mode : Nat) : Nat := match mode with | 0 => 4 | 1 => 2 | _ => 1

/-- A creation block within the limits of R411, R226, R231, R327 and R335. -/
def creationOf (bs : List Byte) : Option Creation :=
  let c : Creation :=
    { mode := fieldAt bs 0 1, device := fieldAt bs 1 1, func := fieldAt bs 2 1, flags := fieldAt bs 3 1,
      nrings := fieldAt bs 4 1, nids := fieldAt bs 5 1, root := dwordAt bs 8, save := dwordAt bs 16,
      saveLen := dwordAt bs 24, cnt := dwordAt bs 32, tmpl := dwordAt bs 40, rings := dwordAt bs 48,
      ids := dwordAt bs 56, events := dwordAt bs 64, budget := dwordAt bs 72 }
  if 2 < c.mode || devicesOf c.mode ≤ c.device || 16 < c.func || 8 ≤ c.flags || 64 < c.nrings || 16 < c.nids
      || (c.nrings != 0 && c.flags % 2 == 0) || entryAddr c.root != c.root.toNat || c.save.toNat % 2 ^ 16 != 0
      || c.saveLen.toNat < 2 ^ 23 * 48 * diesOf c.mode || c.cnt.toNat % 2 ^ 15 != 0 || c.tmpl.toNat % 64 != 0
      || anySet bs 6 2 || anySet bs 80 48 then none
  else some c

/-- A ring descriptor on a device of d dies (R290). -/
def ringOfBytes (d : Nat) (bs : List Byte) : Option Ring :=
  let r : Ring := { base := dwordAt bs 0, log2n := fieldAt bs 8 1, cls := fieldAt bs 9 1, die := fieldAt bs 10 1,
                    enabled := fieldAt bs 11 1 != 0, headVa := dwordAt bs 16, tailVa := dwordAt bs 24,
                    doneVa := dwordAt bs 32 }
  if r.log2n < 4 || 16 < r.log2n || r.base.toNat % (64 * 2 ^ r.log2n) != 0 || 2 < r.cls || d ≤ r.die
      || 1 < fieldAt bs 11 1 || anySet bs 12 4 || r.headVa.toNat % 8 != 0 || r.tailVa.toNat % 8 != 0
      || r.doneVa.toNat % 8 != 0 || anySet bs 40 24 then none
  else some r

/-- An event-ring descriptor (R309). -/
def eventOfBytes (bs : List Byte) : Option EvRing :=
  let e : EvRing := { base := dwordAt bs 0, log2n := fieldAt bs 8 1, vector := fieldAt bs 10 2, headVa := dwordAt bs 16,
                      tailVa := dwordAt bs 24 }
  if e.log2n < 4 || 16 < e.log2n || e.base.toNat % (32 * 2 ^ e.log2n) != 0 || anySet bs 9 1 || anySet bs 12 4
      || anySet bs 32 32 then none
  else some e

/-- An identifier table entry (R364, R411). -/
def identOfBytes (bs : List Byte) : Option Ident :=
  if 1 < fieldAt bs 8 1 || anySet bs 9 7 || fieldAt bs 16 8 % 8 != 0 then none
  else some { id := dwordAt bs 0, heddle := fieldAt bs 8 1 == 1, recvVa := dwordAt bs 16 }

/-- The entries of a table of n entries of m bytes, from entry i on; nothing where one breaks a limit. -/
def entriesOf {α : Type} (f : List Byte → Option α) (m : Nat) (bs : List Byte) (i : Nat) : Nat → Option (Tbl α)
  | 0 => some []
  | n + 1 =>
    match f ((bs.drop (m * i)).take m), entriesOf f m bs (i + 1) n with
    | some x, some t => some ((i, x) :: t)
    | _, _ => none

/-- Every page of [va, va + n) has a valid PINNED translation. -/
def State.pinned (s : State) (c core va n : Nat) : Bool :=
  n == 0 || (List.range ((va + n - 1) / 2 ^ 16 - va / 2 ^ 16 + 1)).all fun i =>
    match s.translate c core (BitVec.ofNat 64 ((va / 2 ^ 16 + i) * 2 ^ 16)) .load with
    | .ok p => p.pinned && va + n ≤ 2 ^ 64
    | .error _ => false

/-- The tables and areas that a creation block names. -/
def Creation.areas (c : Creation) : List (DWord × Nat) :=
  [(c.save, c.saveLen.toNat), (c.cnt, 32768), (c.tmpl, 16384), (c.rings, 64 * c.nrings), (c.ids, 24 * c.nids),
   (c.events, 64 * diesOf c.mode)]

/-- What the descriptors name. -/
def namedAreas (rs : Tbl Ring) (es : Tbl EvRing) (is : Tbl Ident) : List (DWord × Nat) :=
  (rs.flatMap fun r => [(r.2.base, 64 * 2 ^ r.2.log2n), (r.2.headVa, 8), (r.2.tailVa, 8), (r.2.doneVa, 8)])
    ++ (es.flatMap fun e => [(e.2.base, 32 * 2 ^ e.2.log2n), (e.2.headVa, 8), (e.2.tailVa, 8)])
    ++ is.map fun i => (i.2.recvVa, 8)

/-- A context as created: every register of its window at its reset value (R402, R403, R410). -/
def Creation.context (c : Creation) (gt : Nat) : Context :=
  { state := .saved, mode := c.mode, device := c.device, func := c.func, launchPorts := c.flags / 2 % 2 == 1,
    abortOnPoison := c.flags / 4 == 1, ttroot := c.root,
    areas := { saveVa := c.save, saveLen := c.saveLen, cntVa := c.cnt, tmplVa := c.tmpl, retention := c.budget },
    created := gt, lastRes := gt }

/-- Some other context of the same device declares an identifier with the same use (R364). -/
def State.clash (s : State) (c : Nat) (new : Context) (is : Tbl Ident) : Bool :=
  s.ctxs.any fun x => x.1 != c && x.2.state != .free && x.2.firstDie == new.firstDie && x.2.nDies == new.nDies
    && is.any fun i => x.2.declares i.2.id i.2.heddle

/-- Bytes of a table that a new context names. -/
def State.tableBytes (s : State) (c core : Nat) (va : DWord) (n : Nat) : Option (State × List Byte) :=
  match s.engRead c core none va.toNat n with
  | .ok (s, bs, _) => some (s, bs)
  | .error _ => none

/-- The tables of a creation read. -/
def State.creationTables (s : State) (n : Nat) (c : Creation) : Option (State × List Byte × List Byte × List Byte) :=
  let core := (s.ctx n).firstDie * 48
  match s.tableBytes n core c.rings (64 * c.nrings) with
  | none => none
  | some (s, rb) =>
    match s.tableBytes n core c.ids (24 * c.nids) with
    | none => none
    | some (s, ib) =>
      match s.tableBytes n core c.events (64 * diesOf c.mode) with
      | none => none
      | some (s, eb) => some (s, rb, ib, eb)

/-- The checks of a creation behind those of its block (R411): a status, or the context with its rings and tables. -/
def State.checkCreation (s : State) (n : Nat) (c : Creation) : State × Except Nat Context :=
  let x := c.context s.gt
  let t := s.setCtx n x
  let core := x.firstDie * 48
  let ok := fun (s : State) (as : List (DWord × Nat)) => as.all fun a => s.pinned n core a.1.toNat a.2
  if (List.range 4).any fun d => x.hasDie d && (s.die d).lost then (s, .error 2)
  else if !ok t c.areas then (s, .error 3)
  else match t.creationTables n c with
    | none => (s, .error 3)
    | some (t, rb, ib, eb) =>
      let back := { t with ctxs := s.ctxs }
      match entriesOf (ringOfBytes x.nDies) 64 rb 0 c.nrings, entriesOf identOfBytes 24 ib 0 c.nids,
          entriesOf eventOfBytes 64 eb 0 x.nDies with
      | some rs, some is, some es =>
        if !ok t (namedAreas rs es is) then (back, .error 3)
        else if s.clash n x is then (back, .error 4)
        else (back, .ok { x with rings := rs, events := es, ids := is.map Prod.snd })
      | _, _, _ => (back, .error 2)

/-- The enabled rings of a context are visited (R291). -/
def State.pollRings (s : State) (c : Nat) : State :=
  ((s.ctx c).rings.filter fun r => r.2.enabled).foldl (fun s r => s.postOnce (.ringPoll c r.1)) s

/-- The CREATE register takes a status. -/
def State.createStatus (s : State) (c st : Nat) : State := s.modCtx c fun x => { x with create := st }

/-- A context begins: the words of its engine count-word area, and what is reserved there, are 0 (R225, R226). -/
def State.begin (s : State) (c : Nat) (x : Context) : State :=
  ((s.setCtx c x).bookWrite c x.areas.cntVa (List.replicate 32768 0)).pollRings c

/-- CREATE (R410, R411): a block in device memory creates a context, or is refused with a status. The window of a FREE
context reaches the PF alone. -/
def execCreate (ctx pa func : Nat) (s : State) : Out :=
  if 256 ≤ ctx || func != 0 && (s.ctx ctx).func != func then .next s
  else if s.pkg.failed then .next (s.createStatus ctx 6)
  else if s.pkg.bringUp != 6 || (func != 0 && (s.ctx ctx).state == .free) then .next s
  else if (s.ctx ctx).state != .free then .next (s.createStatus ctx 5)
  else if pa % 64 != 0 || !(s.inExtent pa) then .next (s.createStatus ctx 2)
  else
    let (s, bs) := s.physRead pa 2 128
    match creationOf bs with
    | none => .next (s.createStatus ctx 2)
    | some c =>
      match s.checkCreation ctx c with
      | (s, .error st) => .next (s.createStatus ctx st)
      | (s, .ok x) => .next (s.begin ctx x)

/-! ## Signed records (R404 to R407) -/

/-- A signing request waits behind the others (R405). -/
def State.request (s : State) (r : SignReq) : State :=
  { s with pkg := { s.pkg with signQ := s.pkg.signQ ++ [r] } }.postOnce .signRecord

/-- The body of a meter record (R406). -/
def State.meterBody (s : State) (c reason : Nat) : List Byte :=
  let x := s.ctx c
  leBytes 4 1 ++ leBytes 4 1 ++ leBytes 8 s.pkg.serial.toNat ++ leBytes 8 s.gt ++ leBytes 1 c ++ leBytes 1 reason
    ++ List.replicate 6 0 ++ leBytes 8 x.job.1.toNat ++ leBytes 8 x.job.2.toNat ++ leBytes 8 x.metSeq
    ++ leBytes 4 x.metersat ++ List.replicate 4 0 ++ (List.range 32).flatMap (fun i => leBytes 8 (x.counter i))
    ++ leBytes 8 x.created ++ List.replicate 56 0

/-- A meter record of a context requested, with the next sequence number. -/
def State.requestMeter (s : State) (c reason pa : Nat) : State :=
  let s := s.modCtx c fun x => { x with metSeq := x.metSeq + 1 }
  s.request { ctx := c, pa := pa, body := s.meterBody c reason, job := none }

/-- METERREQ (R406, R410). -/
def execMeterreq (ctx pa : Nat) (s : State) : Out :=
  when (s.inService && (s.ctx ctx).state != .free) s fun s => s.requestMeter ctx 1 pa

/-- DIEMAP (R340): VALID where the fuse word holds five distinct positions. -/
def Package.diemap (x : Package) : BitVec 16 :=
  let f := x.fuse.setWidth 15
  let ps := (List.range 5).map fun i => f.toNat / 2 ^ (3 * i) % 8
  if ps.all (· < 5) && ps.eraseDups.length = 5 then f.setWidth 16 ||| 0x8000 else f.setWidth 16

/-- The fuse word was read without error. -/
def Package.fuseValid (x : Package) : Bool := x.diemap.getLsbD 15

/-- A port's entry in a membership record (R407). -/
def UalPort.entry (u : UalPort) : List Byte :=
  leBytes 8 u.peer.toNat ++ leBytes 1 u.peerport ++ leBytes 1 u.state ++ leBytes 1 u.lanes ++ List.replicate 5 0

/-- The body of a membership record, as it stands at the moment of signing (R407). -/
def State.memberBody (s : State) (c : Nat) (job : DWord × DWord) : List Byte :=
  leBytes 4 2 ++ leBytes 4 1 ++ leBytes 8 s.pkg.serial.toNat ++ leBytes 8 job.1.toNat ++ leBytes 8 job.2.toNat
    ++ leBytes 8 s.pkg.diemap.toNat
    ++ (List.range 64).map (fun i => Config.measureByte s.pkg.fwversion s.pkg.rollback i)
    ++ (List.range 8).flatMap (fun p => (s.ualPort p).entry) ++ leBytes 8 s.gt ++ leBytes 2 s.pkg.podnum ++ leBytes 1 c
    ++ List.replicate 13 0

/-- JOIN (R407): the job id and output area of a join command, and a membership record. -/
def execJoin (ctx pa : Nat) (s : State) : Out :=
  when (s.inService && (s.ctx ctx).state != .free && s.reachable pa) s fun s =>
    let (s, bs) := s.physRead (s.canon pa) 2 32
    let job := (dwordAt bs 0, dwordAt bs 8)
    (s.modCtx ctx fun x => { x with job := job }).request
      { ctx := ctx, pa := fieldAt bs 16 8, body := [], job := some job }

/-- The record of a request: body, the index, and the signature over the body (R404). -/
def State.signed (s : State) (r : SignReq) (idx : Nat) : List Byte :=
  let body := match r.job with
    | some j => s.memberBody r.ctx j
    | none => r.body
  body ++ leBytes 5 idx ++ (List.range 9888).map fun i => Config.signByte idx body i

/-- The signer's oldest request is done with; the next one follows. -/
def State.nextSign (s : State) (rs : List SignReq) : State :=
  let s := { (s.finished .signRecord) with pkg := { s.pkg with signQ := rs, reserved := none } }
  if rs.isEmpty then s else s.postOnce .signRecord

/-- The management processor serves its requests one at a time (R405): it reserves an index, and then signs with it. Past
index 2^40 a request completes EXHAUSTED, without a signature. -/
def execSignRecord (s : State) : Out :=
  match s.pkg.signQ, s.pkg.reserved with
  | [], _ => .next (s.finished .signRecord)
  | r :: rs, some i => .next ((s.physWrite r.pa (s.signed r i)).nextSign rs)
  | _ :: rs, none =>
    if 2 ^ 40 ≤ s.pkg.xmssIdx then .next (s.nextSign rs)
    else .next { s with pkg := { s.pkg with xmssIdx := s.pkg.xmssIdx + 1, reserved := some s.pkg.xmssIdx } }

/-! ## The end of a context (R306, R403, R410) -/

/-- A context's queues have drained: no grid, record, saved block, ring record or event entry is left. -/
def State.drained (s : State) (c : Nat) : Bool :=
  (s.gridsOf c).isEmpty && !(s.ports.any fun p => p.port.ctx == c && !p.recs.isEmpty)
    && !(s.saved.any fun b => b.2.block.ctx == c) && (s.ctx c).events.all (fun e => e.2.backlog.isEmpty)
    && (s.ctx c).rings.all fun r => !r.2.enabled || match s.bookRead c r.2.headVa 8 with
      | some (_, h) => decide (ofLeBytes h ≤ r.2.taken)
      | none => true

/-- The cores on which a context holds partitions. -/
def State.partCores (s : State) (c : Nat) : List Nat :=
  (s.cores.filter fun k => k.2.hallc.any fun p => p.2.ctx == c).map Prod.fst

/-- The lines that a context dirtied are written back, so that its meter is final (R403). -/
def State.writeBackOf (s : State) (c : Nat) : State :=
  (s.lines.filter fun l => l.2.dirty == some c).foldl (fun s l => s.writeBack l.1) s

/-- A die without what it holds of a context. -/
def Die.without (d : Die) (c : Nat) : Die :=
  { d with tlb := d.tlb.filter (·.ctx != c), side := d.side.filter (·.ctx != c) }

/-- The context becomes FREE: its merge copies return, its lines are written back, its retire record is requested, and
nothing of it is left. -/
def State.retireCtx (s : State) (c : Nat) : State :=
  let s := (s.cores.map Prod.fst).foldl (fun s k => s.returnAll c k) s
  let s := (s.writeBackOf c).requestMeter c 0 (s.ctx c).areas.metOut.toNat
  { s with
    ports := s.ports.filter fun p : PortSt => p.port.ctx != c
    savedC := s.savedC.filter fun h => h.2.ctx != c
    cores := s.cores.map fun k : Nat × CoreSt =>
      (k.1, { k.2 with hallc := k.2.hallc.filter (fun p => p.2.ctx != c), utlb := k.2.utlb.filter (·.ctx != c) })
    dies := s.dies.map fun d : Nat × Die => (d.1, d.2.without c)
    ctxs := tput s.ctxs c {} }

/-- RETIRE (R306, R410): a LOST context at once, a saved one when its queues have drained; partitions that are all it holds
on a core are saved first. -/
def execRetire (ctx : Nat) (s : State) : Out :=
  let i := Instr.retire ctx
  match (s.ctx ctx).state with
  | .free => .next (s.finished i)
  | .lost => .next ((s.retireCtx ctx).finished i)
  | .saved => .next (if s.drained ctx then (s.retireCtx ctx).finished i else s.postOnce i)
  | .resident =>
    let s := s.postOnce i
    .next (if s.drained ctx then (s.partCores ctx).foldl (fun s k => s.postOnce (.hallcSave ctx k)) s else s)

/-- A host abort makes the context LOST with cause 4 (R306). -/
def execHostAbort (ctx : Nat) (s : State) : Out := .next (s.lose ctx 4)

/-! ## Replies to faults (R320, R321, R323) -/

/-- The skein is parked on a fault. -/
def Skein.onFault (id : Nat) (k : Skein) : Bool :=
  match k.park with
  | .fault i _ _ _ _ => i == id
  | _ => false

/-- The park of a saved skein after REFUSE. -/
def Park.refuse : Park → Park
  | .fault _ va acc f lane => .refused va acc f lane
  | p => p

/-- The skeins of a context that are parked on a fault, on cores. -/
def State.onFault (s : State) (c id : Nat) : List (Nat × Skein) := s.skeins.filter fun k => k.2.ctx == c && k.2.onFault id

/-- A skein parked on a fault with its park changed. -/
def Skein.offFault (id : Nat) (f : Park → Park) (k : Skein) : Skein :=
  if k.onFault id then { k with park := f k.park } else k

/-- Saved skeins parked on a fault are changed. -/
def State.modSavedOn (s : State) (c id : Nat) (f : Park → Park) : State :=
  { s with saved := s.saved.map fun b : Nat × Saved =>
      if b.2.block.ctx == c then (b.1, { b.2 with skeins := b.2.skeins.map fun k => (k.1, k.2.offFault id f) }) else b }

/-- An outstanding fault is answered. -/
def State.dropFault (s : State) (c id : Nat) : State :=
  s.modCtx c fun x => { x with faults := x.faults.filter (·.id != id) }

/-- The context has an outstanding fault with the id. -/
def State.hasFault (s : State) (c id : Nat) : Bool := (s.ctx c).faults.any (·.id == id)

/-- RETRY (R320): every skein parked on the fault executes its instruction afresh. -/
def execFaultRetry (ctx id : Nat) (s : State) : Out :=
  when (s.hasFault ctx id) s fun s =>
    (s.onFault ctx id).foldl (fun s k => s.wake k.1) ((s.dropFault ctx id).modSavedOn ctx id fun _ => .no)

/-- REFUSE (R320): every skein parked on the fault takes its trap. -/
def execFaultRefuse (ctx id : Nat) (s : State) : Out :=
  when (s.hasFault ctx id) s fun s =>
    (s.onFault ctx id).foldl (fun s k => match k.2.park with
      | .fault _ va acc f lane => s.refuse k.1 va acc f lane
      | _ => s) ((s.dropFault ctx id).modSavedOn ctx id Park.refuse)

/-- The record was listed by a QUIESCE (R334). -/
def State.isListed (s : State) (p : Port) (n : Nat) : Bool :=
  (s.ctx p.ctx).dbg.listed.any fun l => l.1 == p && l.2.num == n

/-- A RETRY of a record number resumes the record (R323). -/
def RecSt.answers (r : RecSt) (num : Nat) : Bool := r.paused && r.num % 2 ^ 48 == num

/-- Paused records of a port resume. -/
def State.resumePort (s : State) (num : Nat) (x : PortSt) : State :=
  let mine := fun r : RecSt => r.answers num && !(s.isListed x.port r.num)
  let t := s.setPort { x with recs := x.recs.map fun r => if mine r then { r with paused := false } else r }
  (x.recs.filter mine).foldl (fun t r => match r.body with
    | .coll _ => t.postOnce (.coll x.port r.num)
    | _ => t) t

/-- RETRY with ENG (R323): every paused record of the context whose number matches resumes. -/
def execEngineRetry (ctx num : Nat) (s : State) : Out :=
  let s := { s with saved := s.saved.map fun b : Nat × Saved =>
    (b.1, { b.2 with copies := b.2.copies.map fun r : Port × RecSt =>
      if r.1.ctx == ctx && r.2.answers num then (r.1, { r.2 with paused := false }) else r }) }
  .next ((s.ports.filter fun p : PortSt => p.port.ctx == ctx).foldl (fun s p => s.resumePort num p) s)

/-- REFUSE with ENG leaves every record paused (R323). -/
def execEngineRefuse (_ctx _num : Nat) (s : State) : Out := .next s

/-! ## Debug (R333, R334) -/

/-- The debug registers of a context changed. -/
def State.modDbg (s : State) (c : Nat) (f : Debug → Debug) : State := s.modCtx c fun x => { x with dbg := f x.dbg }

/-- A listed record is issued again at its place in its channel. -/
def State.relist (s : State) (r : Port × RecSt) : State :=
  match s.record r.1 r.2.num with
  | none => s
  | some q =>
    (s.setRecord r.1 { q with paused := false }).postOnce (if q.started then .copyRow r.1 q.num else startRow r.1 q.num q.body)

/-- HALT (R334): set, the skeins of the context stop at their next boundaries; cleared, they go on, and the listed records
are issued again. -/
def execHalt (ctx : Nat) (on : Bool) (s : State) : Out :=
  if on then .next (s.modDbg ctx fun d => { d with halt := true })
  else
    let ls := (s.ctx ctx).dbg.listed
    let s := (s.finished (.quiesce ctx)).modDbg ctx fun d => { d with halt := false, listed := [] }
    let s := { s with skeins := s.skeins.map fun k : Nat × Skein =>
      if k.2.ctx == ctx then (k.1, { k.2 with halted := false }) else k }
    .next (ls.foldl State.relist s)

/-- The incomplete records of a context that touch halls. -/
def State.hallRecs (s : State) (c : Nat) : List (Port × RecSt) :=
  s.ports.flatMap fun x : PortSt =>
    if x.port.ctx == c then
      (x.recs.filter fun r => r.blk.isSome && r.touchesHall (r.blk.getD 0)).map fun r => (x.port, r)
    else []

/-- Records stopped at a row boundary and listed (R334). -/
def State.cancelCopies (s : State) (rs : List (Port × RecSt)) : State :=
  rs.foldl (fun s r =>
    let q := { r.2 with paused := true }
    (s.setRecord r.1 q).modDbg r.1.ctx fun d => { d with listed := d.listed ++ [(r.1, q)] }) s

/-- The list is written to DBGLIST, 96 bytes for each record; a write that fails leaves the area as it is. -/
def State.writeList (s : State) (c : Nat) (rs : List (Port × RecSt)) : State :=
  match s.engWrite c ((s.ctx c).firstDie * 48) none s.pkg.pclk (s.ctx c).dbg.dbglist.toNat
      (rs.flatMap fun r => s.copyBytes r.1 r.2) with
  | .ok s => s
  | .error _ => s

/-- QUIESCE (R333, R334): ignored unless the context is halted. It waits for the hall copies, or cancels them, lists the
paused ones, of which 64 have room and more are waited for, and sets QDONE when no group 4 instruction is to land either. -/
def execQuiesce (ctx : Nat) (s : State) : Out :=
  let i := Instr.quiesce ctx
  let d := (s.ctx ctx).dbg
  if !d.halt then .next (s.finished i)
  else
    let s := (s.postOnce i).modDbg ctx fun d => { d with qdone := false }
    let rs := s.hallRecs ctx
    let running := rs.filter fun r => !r.2.paused
    let stop := if d.qmode then running.take (64 - (rs.length - running.length)) else []
    let s := s.cancelCopies stop
    let ls := s.hallRecs ctx
    if stop.length < running.length || 64 < ls.length || s.cores.any (fun k => k.2.loom.any fun o => o.ctx == ctx) then .next s
    else
      .next ((((s.writeList ctx ls).modDbg ctx fun d => { d with qdone := true, listed := ls })).finished i)

/-! ## Registers of a context window that steer the context (R41, R335, R410) -/

/-- TTROOT (R335, R410): walks from now on use the new root. -/
def execTtroot (ctx : Nat) (v : DWord) (s : State) : Out :=
  .next (s.modCtx ctx fun x => { x with ttroot := BitVec.ofNat 64 (entryAddr v) })

/-- QUANTUM (R41). -/
def execQuantum (ctx : Nat) (v : DWord) (s : State) : Out :=
  .next (s.modCtx ctx fun x => { x with quantum := clampNat 100 100000 (v.toNat % 2 ^ 32) })

/-- RINGEN (R292, R410): each ring takes its enable; one that is enabled anew has its words read afresh. -/
def execRingen (ctx : Nat) (v : DWord) (s : State) : Out :=
  let s := s.modCtx ctx fun x => { x with rings := x.rings.map fun r : Nat × Ring =>
    let on := v.getLsbD r.1
    (r.1, { r.2 with enabled := on, fresh := r.2.fresh || (on && !r.2.enabled) }) }
  .next (s.pollRings ctx)

/-! ## Invalidation (R339) -/

/-- The entry meets a range of a context. -/
def TlbEntry.meets (t : TlbEntry) (c va n : Nat) : Bool :=
  t.ctx == c && decide (t.vbase < va + n) && decide (va < t.vbase + t.size)

/-- The TLBs discard a range. -/
def State.discard (s : State) (c va n : Nat) : State :=
  { s with
    cores := s.cores.map fun k : Nat × CoreSt => (k.1, { k.2 with utlb := k.2.utlb.filter fun t => !(t.meets c va n) })
    dies := s.dies.map fun d : Nat × Die => (d.1, { d.2 with tlb := d.2.tlb.filter fun t => !(t.meets c va n) }) }

/-- A skein saved in a count wait looks its word up afresh when it is back; its wait goes on counting (R205). -/
def Skein.rewait (k : Skein) : Skein :=
  match k.park with
  | .count _ _ _ _ _ => { k with park := .no, waited := Park.since k.park }
  | _ => k

/-- Count waits of a context look their words up afresh, on cores and in images. -/
def State.rewait (s : State) (c : Nat) : State :=
  let s := (s.skeins.filter fun k => k.2.ctx == c).foldl (fun s k => match k.2.park with
    | .count _ _ _ _ _ => s.wake k.1
    | _ => s) s
  { s with saved := s.saved.map fun b : Nat × Saved =>
      if b.2.block.ctx == c then (b.1, { b.2 with skeins := b.2.skeins.map fun k => (k.1, Skein.rewait k.2) }) else b }

/-- An access of a context holds a translation: a load in flight, a store that is to be recorded, an ordered entry that no home
has applied, or a tile transfer that waits for its lines (R179, R217, R339, R397). -/
def State.translating (s : State) (c : Nat) : Bool :=
  let mine := fun sk => ((tget s.skeins sk).map (·.ctx)).getD noCtx == c
  s.skeins.any (fun k => k.2.ctx == c && !k.2.loads.isEmpty)
    || s.cores.any (fun k => k.2.recWait.any (fun r => mine r.sk) || k.2.loom.any fun o => o.ctx == c && o.act == .lines)
    || s.slices.any (fun n => n.2.ordered.any fun e => e.ctx == c)
    || s.pending.any fun i => match i with
      | .orderedRetry e => e.ctx == c
      | _ => false

/-- Every merge-state copy is back in its line, also one that is on its way (R261). A copy belongs to a line, whichever context
made it, so all of them return (log 74). -/
def State.returnEvery (s : State) : State :=
  ((s.mergeDir.map Prod.fst) ++ s.cores.flatMap fun k => k.2.acks.map fun a => a.1.la).foldl (fun s la => s.recallNow la) s

/-- The oldest invalidation command completes once every access that used an old translation has landed or is recorded:
stores drain, the rest is waited for, merge-state copies return, and the TLBs discard the range. -/
def execInvalidation (s : State) : Out :=
  match s.pkg.invalQ with
  | [] => .next (s.finished .invalidation)
  | (cx, va, n, cmd) :: rest =>
    let c := cx.toNat % 256
    let s := (s.cores.map Prod.fst).foldl State.drainCore (s.discard c va.toNat n.toNat)
    if s.translating c then .next s
    else
      let s := s.returnEvery.rewait c
      .next { s with pkg := { s.pkg with invalQ := rest, invalDone := cmd } }

/-! ## Firmware and bring-up (R413, R414) -/

/-- The largest image. -/
def maxImage : Nat := 8388600

/-- An image passes the ROM's checks. -/
def Package.verifies (x : Package) (good : Bool) (version : Nat) : Bool := good && decide (x.rollback ≤ version)

/-- A length written to the recovery window makes the waiting ROM verify the image there; a verified one is stored and
runs, and bring-up goes on at step 5 (R413, R414). -/
def execFirmwareLoad (len : Nat) (good : Bool) (version : Nat) (s : State) : Out :=
  when (s.pkg.fwstate == 1) s fun s =>
    let x := { s.pkg with window := Mem.write s.pkg.window maxImage (leBytes 8 len) }
    if maxImage < len || !(x.verifies good version) then { s with pkg := x }
    else { s with pkg := { x with fwstate := 0, fwversion := version, rollback := version, failed := false } }

/-- Package reset (R413): the machine is as after reset, but for the fuses, the serial number, the stored image, the
rollback count, the signature index, memory outside the package, and the model's own fields. -/
def execPackageReset (good : Bool) (version : Nat) (s : State) : Out :=
  let x := s.pkg
  let ok := x.verifies good version
  let p : Package :=
    { fuse := x.fuse, serial := x.serial, rollback := if ok then version else x.rollback, xmssIdx := x.xmssIdx,
      fwversion := if ok then version else x.fwversion, fwstate := if ok then 0 else 1 }
  .next { State.reset with
    pkg := p, mem := s.mem.filter (fun c => regionOf c.1 != .localHbm), sched := s.sched, free := s.free,
    nextId := s.nextId, out := s.out }

/-- The stairs trained at 32 GT/s (R414). -/
def State.trainAll (s : State) : State :=
  (List.range 64).foldl (fun s m => s.modStair m fun x =>
    { x with state := 0, rate := 32, width := 64, trainedAt := some s.gt, windowAt := s.gt }) s

/-- A step of bring-up fails; the failure is reported (R414). -/
def State.failStep (s : State) (n : Nat) : State :=
  { s with pkg := { s.pkg with failed := true, fwstate := if n = 5 then 1 else 3 } }.emit (.mgmt 0 (leBytes 1 n))

/-- A step can succeed: step 1 needs a fuse word without error, step 5 a verified image (R340, R413, R414). -/
def Package.stepOk (x : Package) (n : Nat) : Bool := (n != 1 || x.fuseValid) && (n != 5 || x.fwstate == 0)

/-- The next bring-up step completes or fails (R414). -/
def execBringUpStep (ok : Bool) (s : State) : Out :=
  let n := s.pkg.bringUp + 1
  when (!s.pkg.failed && decide (n ≤ 6)) s fun s =>
    if !ok || !(s.pkg.stepOk n) then s.failStep n
    else
      let s := if n = 3 then s.trainAll else s
      { s with pkg := { s.pkg with bringUp := n, fixedClass := if n = 6 then false else s.pkg.fixedClass } }

/-! ## What firmware and chance do without a row (R326, R356, R361, R416; logs 13, 66) -/

/-- A lane of a register is struck: it is poisoned, and the register is general (R17). -/
def VReg.struck (r : VReg) (l : Nat) : VReg := { r with tag := .general, poison := r.poison ||| (1#64 <<< l) }

/-- A message under way with 32-byte units of its payload poisoned (R354); units are numbered from the start of its line, or
of its payload. -/
def spoilMessage (us : List Nat) (i : Instr) : Instr :=
  match i with
  | .loadReply r => .loadReply { r with poison := us.foldl (fun m u => addUnit m (r.la * 128 + 32 * (u % 4), 32)) r.poison }
  | .homeWrite r => .homeWrite { r with bad := r.bad ++ us.map (· % 4) }
  | .chunkArrival c =>
    let n := max 1 (c.bytes / max 1 c.elems.length)
    let hit := fun k : Nat => us.any fun u => decide (32 * u < n * (k + 1)) && decide (n * k < 32 * (u + 1))
    let es := (c.elems.zip (List.range c.elems.length)).map fun x => if hit x.2 then { x.1 with bad := true } else x.1
    .chunkArrival { c with elems := es }
  | .packetDecode d p =>
    let bs := (p.payload.zip (List.range p.payload.length)).map fun x => if us.contains (x.2 / 32) then (x.1.1, true) else x.1
    .packetDecode d { p with payload := bs }
  | _ => i

/-- A control message that its requester sends again when it is lost (R359). -/
def reissued : Instr → Bool
  | .homeLoad _ | .recallAck _ => true
  | _ => false

/-- The replay copy of a message on the network holds an uncorrectable error (R354): a data flit arrives with units poisoned,
and a control flit that its requester sends again is lost. Of others the manual states no more (log 72). -/
def State.replayError (s : State) (n : Nat) (us : List Nat) : State :=
  match s.pending[n]? with
  | none => s
  | some i =>
    if !s.onNetwork i then s
    else if reissued i then { s with pending := s.pending.eraseIdx n }
    else { s with pending := s.pending.set n (spoilMessage us i) }

/-- An uncorrectable error met by the save of an image (R332), at the clock at which it is written. -/
def State.imageError (s : State) (hallC : Bool) (id seg off : Nat) : State :=
  if hallC then
    match tget s.savedC id with
    | some h => if h.savedAt = s.clk then s.spoilImage h.ctx ((s.ctx h.ctx).firstDie * 48) h.va seg off else s
    | none => s
  else
    match tget s.saved id with
    | some b => if b.savedAt = s.clk then s.spoilImage b.block.ctx b.block.core b.va seg off else s
    | none => s

/-- Firmware sets what has no register, an uncorrectable error strikes, or another agent acts. -/
def State.outside (s : State) : Outside → State
  | .idle ns => { s with pkg := { s.pkg with idle := ns } }
  | .windows ws => { s with pkg := { s.pkg with windows := ws } }
  | .lineError la => if s.inExtent (la * 128) then { s with memPoison := addUnit s.memPoison (la * 128, 128) } else s
  | .copyError core la =>
    { s with cores := tmod s.cores core fun k => { k with l1 := tmod k.l1 la fun x => { x with poison := [(la * 128, 128)] } } }
  | .hallError blk w i => if 4 * i < s.hallSize blk w then s.modBlock blk fun b => b.hallSpoil w (4 * i) 4 else s
  | .boltError core p e =>
    if 6144 ≤ e then s else { s with cores := tmod s.cores core fun k => { k with hallc := tmod k.hallc p fun x =>
      { x with bolts := tput x.bolts e { x.bolt e with poison := true } } } }
  | .imageError hallC id seg off => s.imageError hallC id seg off
  | .replayError n us => s.replayError n us
  | .ualErrors p crc replayed => s.modUal p fun x => { x with
      crcerr := min (x.crcerr + crc) (2 ^ 64 - 1), replay := min (x.replay + replayed) (2 ^ 64 - 1) }
  | .answer planid step chunk rank dest a => s.chunkAnswer planid step chunk rank dest a
  | .saveContext c => s.saveContext c
  | .laneError sk r l =>
    s.modSkein sk fun k => if r < k.regCount && l < k.width then { k with regs := tput k.regs r ((k.reg r).struck l) } else k

end Sys2Proof.Machine
end

