-- ==== Sys2Proof/Machine/HostRegs.lean ====
section
/-! DEFINITION. The registers of BAR0 as the host writes and reads them (spec 16 R408 to R410, R413 to R415, 13 R340, R347 to
R350, 14 R363, R377, 09 R262, 11 R310, 12 R333, 15 R399). -/

namespace Sys2Proof.Machine

/-! ## What an offset names (R409, R410) -/

/-- A register of the PF's BAR0. -/
inductive Reg where
  | dev (o : Nat)
  | cert (o : Nat)
  | stair (m o : Nat)
  | ual (p o : Nat)
  | extent (n : Nat)
  | leave (k : Nat)
  | window (o : Nat)
  | ctx (c o : Nat)
  | none
  deriving DecidableEq, Repr

/-- The register at an offset of the PF's BAR0; registers are 8 bytes wide. -/
def regAt (off : Nat) : Reg :=
  if off % 8 != 0 then .none
  else if off < 0x1000 then .dev off
  else if off < 0x2000 then .cert (off - 0x1000)
  else if 0x100000 ≤ off && off < 0x102000 then .stair ((off - 0x100000) / 0x80) ((off - 0x100000) % 0x80)
  else if 0x102000 ≤ off && off < 0x102400 then .ual ((off - 0x102000) / 0x80) ((off - 0x102000) % 0x80)
  else if 0x110000 ≤ off && off < 0x110000 + 8 * 476 then .extent ((off - 0x110000) / 8)
  else if 0x120000 ≤ off && off < 0x120000 + 8 * 192 then .leave ((off - 0x120000) / 8)
  else if 0x800000 ≤ off && off < 0x1000000 then .window (off - 0x800000)
  else if 0x1000000 ≤ off && off < 0x2000000 then .ctx ((off - 0x1000000) / 0x10000) (off % 0x10000)
  else .none

/-- In limited service the device registers, the certificate and the recovery window respond, and CREATE (R414). -/
def State.responds (s : State) (r : Reg) : Bool :=
  s.inService || (s.pkg.failed && match r with
    | .dev _ | .cert _ | .window _ => true
    | .ctx _ o => o == 0
    | _ => false)

/-! ## Writes -/

/-- A device register written (R409); SERIAL, DIEMAP, BUBBLECLK, the done word and FWSTATE are read-only. -/
def Package.write (x : Package) (o : Nat) (v : DWord) : Package :=
  match o with
  | 0x10 => { x with podnum := v.toNat % 1024 }
  | 0x18 => { x with hostbase := v }
  | 0x20 => { x with watts := clampNat 600 2400 (v.toNat % 4096), tjmax := min 110 (v.toNat / 2 ^ 16 % 256) }
  | 0x30 => { x with inval := (v, x.inval.2.1, x.inval.2.2) }
  | 0x38 => { x with inval := (x.inval.1, v, x.inval.2.2) }
  | 0x40 => { x with inval := (x.inval.1, x.inval.2.1, v) }
  | 0x48 => { x with invalCmd := v, invalQ := x.invalQ ++ [(x.inval.1, x.inval.2.1, x.inval.2.2, v)] }
  | _ => x

/-- A device register written; a command number starts an invalidation (R339). -/
def State.writeDev (s : State) (o : Nat) (v : DWord) : State :=
  let s := { s with pkg := s.pkg.write o v }
  if o = 0x48 then s.postOnce .invalidation else s

/-- CLASS and FIRST of a write of EXTENT (R262). -/
def extentOf (v : DWord) : Nat × Nat :=
  let cls := v.toNat / 8 % 4
  let first := v.toNat % 8
  let n := match cls with | 1 => 8 | 2 => 4 | _ => 2
  if first % n = 0 then (cls, first) else (0, first)

/-- An EXTENT register written (R262). -/
def State.writeExtent (s : State) (n : Nat) (v : DWord) : State :=
  { s with pkg := { s.pkg with extents := tput s.pkg.extents n (extentOf v) } }

/-- A regulator's register written (R377): the change takes effect at the next microsecond. -/
def Bucket.write (b : Bucket) (v : DWord) (gt : Nat) : Bucket :=
  { b.refill gt with next := some (v.toNat % 2 ^ 32, max 4096 (v.toNat / 2 ^ 32)) }

/-- RATE and DEPTH as a regulator's register reads: as last written. -/
def Bucket.read (b : Bucket) : Nat :=
  let (rate, depth) := b.next.getD (b.rate, b.depth)
  rate + depth * 2 ^ 32

/-- An event-ring control register written (R310). -/
def EvRing.write (e : EvRing) (v : DWord) : EvRing :=
  { e with en := v.getLsbD 44, etime := v.toNat / 2 ^ 28 % 2 ^ 16, ecount := max 1 (v.toNat % 2 ^ 16) }

/-- Debug control written (R333): BRKEN and QMODE, then HALT, and QUIESCE while the context is halted. -/
def writeDebug (c : Nat) (v : DWord) (s : State) : Out :=
  let s := s.modDbg c fun d => { d with brken := v.getLsbD 2, qmode := v.getLsbD 4 }
  match (if v.getLsbD 0 == (s.ctx c).dbg.halt then Host.Outcome.next s else execHalt c (v.getLsbD 0) s) with
  | .next s => if v.getLsbD 3 then execQuiesce c s else .next s
  | r => r

/-- FAULTREPLY written (R320, R323, R410): actions 2 and 3 are ignored. -/
def writeReply (c : Nat) (v : DWord) (s : State) : Out :=
  let id := v.toNat / 256
  match v.getLsbD 2, v.toNat % 4 with
  | false, 0 => execFaultRetry c id s
  | false, 1 => execFaultRefuse c id s
  | true, 0 => execEngineRetry c (id % 2 ^ 48) s
  | true, 1 => execEngineRefuse c (id % 2 ^ 48) s
  | _, _ => .next s

/-- A register of a context window written by the PF (R410). -/
def writeCtx (c o : Nat) (v : DWord) (s : State) : Out :=
  let mod := fun (f : Context → Context) => Host.Outcome.next (s.modCtx c f)
  match o with
  | 0x00 => execCreate c v.toNat 0 s
  | 0x10 => if v.toNat = 1 then execRetire c s else .next s
  | 0x18 => execMeterreq c v.toNat s
  | 0x20 => writeReply c v s
  | 0x28 => writeDebug c v s
  | 0x30 => mod fun x => { x with dbg := { x.dbg with dbglist := v } }
  | 0x38 => mod fun x => { x with areas := { x.areas with metOut := v } }
  | 0xA0 => execJoin c v.toNat s
  | 0xA8 => execTtroot c v s
  | 0xB0 => execQuantum c v s
  | 0xB8 => execRingen c v s
  | _ =>
    if 0x40 ≤ o && o < 0x60 then
      let d := (o - 0x40) / 8
      if d < (s.ctx c).nDies then .next ((s.modEvents c d fun e => e.write v).postOnce (.eventInterrupt c d)) else .next s
    else if 0x60 ≤ o && o < 0xA0 then
      let key := (o - 0x60) / 8
      mod fun x => { x with buckets := tput x.buckets key (((tget x.buckets key).getD {}).write v s.gt) }
    else .next s

/-- A register of BAR0 written by the PF (R409): it stores its value as its fields allow, or starts what it commands. -/
def execRegisterWrite (off : Nat) (v : DWord) (s : State) : Out :=
  if !s.responds (regAt off) then .next s
  else match regAt off with
    | .dev o => .next (s.writeDev o v)
    | .stair m 0x00 => execStairRate m v s
    | .stair m 0x08 => .next (s.modStair m fun x => { x with limit := max 1 (v.toNat % 2 ^ 16) })
    | .extent n => .next (s.writeExtent n v)
    | .leave k => .next (s.modCore k fun x => { x with refill := max 1 (v.toNat % 2 ^ 32) })
    | .window o => .next { s with pkg := { s.pkg with window := Mem.write s.pkg.window o (leBytes 8 v.toNat) } }
    | .ctx c o => writeCtx c o v s
    | _ => .next s

/-! ## Reads -/

/-- A device register as it reads (R409). -/
def Package.read (x : Package) (o : Nat) : Nat :=
  match o with
  | 0x00 => x.serial.toNat
  | 0x08 => x.diemap.toNat
  | 0x10 => x.podnum
  | 0x18 => x.hostbase.toNat
  | 0x20 => x.watts + x.tjmax * 2 ^ 16
  | 0x28 => x.bubbleclk
  | 0x30 => x.inval.1.toNat
  | 0x38 => x.inval.2.1.toNat
  | 0x40 => x.inval.2.2.toNat
  | 0x48 => x.invalCmd.toNat
  | 0x50 => x.invalDone.toNat
  | 0x58 => x.fwstate + x.rollback * 2 ^ 32
  | _ => 0

/-- STAIR_STATUS (R349). -/
def Stair.status (x : Stair) : Nat := x.rret.toNat + x.ruse.toNat * 2 ^ 4 + x.state * 2 ^ 8 + x.wakefail * 2 ^ 16

/-- A stair register as it reads (R347 to R350). -/
def Stair.read (x : Stair) (gt o : Nat) : Nat :=
  match o with
  | 0x00 => x.code
  | 0x08 => x.limit
  | 0x10 => x.status
  | 0x18 => x.rate
  | 0x20 => x.width
  | 0x28 => x.retired.toNat
  | 0x30 => x.crcerr
  | 0x38 => x.replay
  | 0x40 => x.replaycyc
  | 0x48 => x.retrain
  | 0x50 => x.uptime gt
  | _ => 0

/-- A UALink register as it reads (R363). -/
def UalPort.read (x : UalPort) (gt o : Nat) : Nat :=
  match o with
  | 0x00 => x.lanes + x.state * 2 ^ 8 + x.peerport * 2 ^ 16
  | 0x08 => x.peer.toNat
  | 0x10 => x.crcerr
  | 0x18 => x.replay
  | 0x20 => x.retrain
  | 0x28 => x.uptime gt
  | 0x30 => x.txbytes
  | 0x38 => x.rxbytes
  | _ => 0

/-- The code of a context's state (R410). -/
def CtxState.code : CtxState → Nat
  | .free => 0 | .resident => 1 | .saved => 2 | .lost => 3

/-- Debug control as it reads (R333); QUIESCE is write-only. -/
def Debug.read (d : Debug) : Nat :=
  bitNat d.halt + bitNat d.halt * 2 + bitNat d.brken * 4 + bitNat d.qmode * 16 + bitNat d.qdone * 128

/-- RINGEN as it reads (R410). -/
def Context.ringBits (x : Context) : Nat := (x.rings.map fun r => if r.2.enabled then 2 ^ r.1 else 0).sum

/-- A register of a context window as the PF reads it (R410). -/
def Context.read (x : Context) (o : Nat) : Nat :=
  match o with
  | 0x00 => x.create
  | 0x08 => x.state.code + x.loss * 2 ^ 8
  | 0x28 => x.dbg.read
  | 0x30 => x.dbg.dbglist.toNat
  | 0x38 => x.areas.metOut.toNat
  | 0xA8 => x.ttroot.toNat
  | 0xB0 => x.quantum
  | 0xB8 => x.ringBits
  | _ =>
    if 0x40 ≤ o && o < 0x60 then
      let e := (tget x.events ((o - 0x40) / 8)).getD {}
      e.ecount + e.etime * 2 ^ 28 + bitNat e.en * 2 ^ 44
    else if 0x60 ≤ o && o < 0xA0 then
      ((tget x.buckets ((o - 0x60) / 8)).getD {}).read
    else 0

/-- A register of BAR0 as the PF reads it (R409). -/
def State.readReg (s : State) (off : Nat) : Nat :=
  let r := regAt off
  if !s.responds r then 0
  else match r with
    | .dev o => s.pkg.read o
    | .cert o => ofLeBytes ((List.range 8).map fun i => Config.certByte (o + i))
    | .stair m o => (s.stair m).read s.gt o
    | .ual p o => (s.ualPort p).read s.gt o
    | .extent n => (s.extent (n * 2 ^ 30)).1 * 8 + (s.extent (n * 2 ^ 30)).2
    | .leave k => (s.core k).refill
    | .window o => Mem.nat s.pkg.window o 8
    | .ctx c o => if s.pkg.failed then 6 else (s.ctx c).read o
    | .none => 0

/-- The offsets of a context window that reach the PF alone (R410). -/
def pfOnly (o : Nat) : Bool :=
  o == 0x28 || o == 0x30 || (decide (0x60 ≤ o) && decide (o < 0xA0)) || o == 0xA0 || o == 0xA8 || o == 0xB0

/-- A register as the BAR0 of a virtual function reads it: the windows of its own contexts, without what reaches the PF
alone (R409, R410). -/
def State.readRegVf (s : State) (func off : Nat) : Nat :=
  let c := off / 0x10000
  let x := s.ctx c
  if 256 ≤ c || x.state == .free || x.func != func || pfOnly (off % 0x10000) then 0 else s.readReg (0x1000000 + off)

/-- A register written through the BAR0 of a virtual function (R409, R410). -/
def writeRegVf (func off : Nat) (v : DWord) (s : State) : Out :=
  let c := off / 0x10000
  let x := s.ctx c
  if 256 ≤ c || x.state == .free || x.func != func || pfOnly (off % 0x10000) then .next s
  else execRegisterWrite (0x1000000 + off) v s

end Sys2Proof.Machine
end

