-- ==== Sys2Proof/Machine/Dispatch.lean ====
section
/-! DEFINITION. The meaning of every instruction and step: one arm for each constructor of `Instr`. -/

namespace Sys2Proof.Machine

def exec (i : Instr) (s : State) : Host.Outcome State Fault Refusal :=
  match i with
  | .nop h => Sys2Proof.Machine.execNop h s
  | .iadd h f => Sys2Proof.Machine.execIadd h f s
  | .isub h f => Sys2Proof.Machine.execIsub h f s
  | .iadd3 h f => Sys2Proof.Machine.execIadd3 h f s
  | .imul h f => Sys2Proof.Machine.execImul h f s
  | .imulh h f => Sys2Proof.Machine.execImulh h f s
  | .imad h f => Sys2Proof.Machine.execImad h f s
  | .idiv h f => Sys2Proof.Machine.execIdiv h f s
  | .irem h f => Sys2Proof.Machine.execIrem h f s
  | .imin h f => Sys2Proof.Machine.execImin h f s
  | .imax h f => Sys2Proof.Machine.execImax h f s
  | .iabs h f => Sys2Proof.Machine.execIabs h f s
  | .ineg h f => Sys2Proof.Machine.execIneg h f s
  | .and h f => Sys2Proof.Machine.execAnd h f s
  | .or h f => Sys2Proof.Machine.execOr h f s
  | .xor h f => Sys2Proof.Machine.execXor h f s
  | .not h f => Sys2Proof.Machine.execNot h f s
  | .shl h f => Sys2Proof.Machine.execShl h f s
  | .shr h f => Sys2Proof.Machine.execShr h f s
  | .sar h f => Sys2Proof.Machine.execSar h f s
  | .rot h f => Sys2Proof.Machine.execRot h f s
  | .bfx h f => Sys2Proof.Machine.execBfx h f s
  | .bfi h f => Sys2Proof.Machine.execBfi h f s
  | .popc h f => Sys2Proof.Machine.execPopc h f s
  | .clz h f => Sys2Proof.Machine.execClz h f s
  | .ctz h f => Sys2Proof.Machine.execCtz h f s
  | .brev h f => Sys2Proof.Machine.execBrev h f s
  | .icmp h f => Sys2Proof.Machine.execIcmp h f s
  | .sel h f => Sys2Proof.Machine.execSel h f s
  | .iaddc h f => Sys2Proof.Machine.execIaddc h f s
  | .lea h f => Sys2Proof.Machine.execLea h f s
  | .mov h wide d a => Sys2Proof.Machine.execMov h wide d a s
  | .movi h d imm => Sys2Proof.Machine.execMovi h d imm s
  | .pand h op d a b => Sys2Proof.Machine.execPand h op d a b s
  | .pmovToPred h d a => Sys2Proof.Machine.execPmovToPred h d a s
  | .pmovToReg h d a => Sys2Proof.Machine.execPmovToReg h d a s
  | .vote h op d a => Sys2Proof.Machine.execVote h op d a s
  | .voteBallot h d a => Sys2Proof.Machine.execVoteBallot h d a s
  | .lbcast h d a b => Sys2Proof.Machine.execLbcast h d a b s
  | .lshuf h d a b => Sys2Proof.Machine.execLshuf h d a b s
  | .lrot h d a b => Sys2Proof.Machine.execLrot h d a b s
  | .lscan h f => Sys2Proof.Machine.execLscan h f s
  | .lreduce h f => Sys2Proof.Machine.execLreduce h f s
  | .shape h d a => Sys2Proof.Machine.execShape h d a s
  | .unif h d a => Sys2Proof.Machine.execUnif h d a s
  | .affine h d a b => Sys2Proof.Machine.execAffine h d a b s
  | .pack h f => Sys2Proof.Machine.execPack h f s
  | .unpack h ty j d a => Sys2Proof.Machine.execUnpack h ty j d a s
  | .perm h d a b c => Sys2Proof.Machine.execPerm h d a b c s
  | .chstat h d a => Sys2Proof.Machine.execChstat h d a s
  | .fadd h f => Sys2Proof.Machine.execFadd h f s
  | .fsub h f => Sys2Proof.Machine.execFsub h f s
  | .fmul h f => Sys2Proof.Machine.execFmul h f s
  | .ffma h f => Sys2Proof.Machine.execFfma h f s
  | .fmin h f => Sys2Proof.Machine.execFmin h f s
  | .fmax h f => Sys2Proof.Machine.execFmax h f s
  | .fcmp h f => Sys2Proof.Machine.execFcmp h f s
  | .fclass h ty d a => Sys2Proof.Machine.execFclass h ty d a s
  | .frcp h f => Sys2Proof.Machine.execFrcp h f s
  | .frsq h f => Sys2Proof.Machine.execFrsq h f s
  | .fsqrt h f => Sys2Proof.Machine.execFsqrt h f s
  | .fdiv h f => Sys2Proof.Machine.execFdiv h f s
  | .fex2 h f => Sys2Proof.Machine.execFex2 h f s
  | .flg2 h f => Sys2Proof.Machine.execFlg2 h f s
  | .fsin h f => Sys2Proof.Machine.execFsin h f s
  | .fcos h f => Sys2Proof.Machine.execFcos h f s
  | .ftanh h f => Sys2Proof.Machine.execFtanh h f s
  | .fscl h f => Sys2Proof.Machine.execFscl h f s
  | .frint h f => Sys2Proof.Machine.execFrint h f s
  | .cvt h f => Sys2Proof.Machine.execCvt h f s
  | .cvti h f => Sys2Proof.Machine.execCvti h f s
  | .cvtf h f => Sys2Proof.Machine.execCvtf h f s
  | .bzero h d => Sys2Proof.Machine.execBzero h d s
  | .badd h f => Sys2Proof.Machine.execBadd h f s
  | .bmac h f => Sys2Proof.Machine.execBmac h f s
  | .bdot h f => Sys2Proof.Machine.execBdot h f s
  | .bmerge h d a b => Sys2Proof.Machine.execBmerge h d a b s
  | .bneg h d a => Sys2Proof.Machine.execBneg h d a s
  | .bnorm h d a => Sys2Proof.Machine.execBnorm h d a s
  | .brnd h f => Sys2Proof.Machine.execBrnd h f s
  | .bfold h d a => Sys2Proof.Machine.execBfold h d a s
  | .bstat h d a => Sys2Proof.Machine.execBstat h d a s
  | .bld h d a => Sys2Proof.Machine.execBld h d a s
  | .bst h a b => Sys2Proof.Machine.execBst h a b s
  | .bamo h f => Sys2Proof.Machine.execBamo h f s
  | .bcmp h f => Sys2Proof.Machine.execBcmp h f s
  | .bexp h d a => Sys2Proof.Machine.execBexp h d a s
  | .bfix h f => Sys2Proof.Machine.execBfix h f s
  | .baddi h f => Sys2Proof.Machine.execBaddi h f s
  | .mmap h f => Sys2Proof.Machine.execMmap h f s
  | .mma h f => Sys2Proof.Machine.execMma h f s
  | .mmag h f => Sys2Proof.Machine.execMmag h f s
  | .mzero h p => Sys2Proof.Machine.execMzero h p s
  | .mrnd h f => Sys2Proof.Machine.execMrnd h f s
  | .msave h f => Sys2Proof.Machine.execMsave h f s
  | .mload h f => Sys2Proof.Machine.execMload h f s
  | .mmerge h p q => Sys2Proof.Machine.execMmerge h p q s
  | .qmx h f => Sys2Proof.Machine.execQmx h f s
  | .dqmx h ty d a => Sys2Proof.Machine.execDqmx h ty d a s
  | .qscale h ty d a => Sys2Proof.Machine.execQscale h ty d a s
  | .ld h f => Sys2Proof.Machine.execLd h f s
  | .st h f => Sys2Proof.Machine.execSt h f s
  | .ldh h f => Sys2Proof.Machine.execLdh h f s
  | .sth h f => Sys2Proof.Machine.execSth h f s
  | .ldf h f => Sys2Proof.Machine.execLdf h f s
  | .ste h f => Sys2Proof.Machine.execSte h f s
  | .ldw h f => Sys2Proof.Machine.execLdw h f s
  | .fe h full a b => Sys2Proof.Machine.execFe h full a b s
  | .amo h f => Sys2Proof.Machine.execAmo h f s
  | .amoh h f => Sys2Proof.Machine.execAmoh h f s
  | .pref h l2 a off => Sys2Proof.Machine.execPref h l2 a off s
  | .cflush h scope a off => Sys2Proof.Machine.execCflush h scope a off s
  | .bra h off => Sys2Proof.Machine.execBra h off s
  | .brx h a => Sys2Proof.Machine.execBrx h a s
  | .call h d off => Sys2Proof.Machine.execCall h d off s
  | .ret h a => Sys2Proof.Machine.execRet h a s
  | .shed h neg a e c => Sys2Proof.Machine.execShed h neg a e c s
  | .close h => Sys2Proof.Machine.execClose h s
  | .regroup h a => Sys2Proof.Machine.execRegroup h a s
  | .exit h => Sys2Proof.Machine.execExit h s
  | .yield h => Sys2Proof.Machine.execYield h s
  | .meet h => Sys2Proof.Machine.execMeet h s
  | .fence h ord scope promote => Sys2Proof.Machine.execFence h ord scope promote s
  | .cntsig h f => Sys2Proof.Machine.execCntsig h f s
  | .cntwait h f => Sys2Proof.Machine.execCntwait h f s
  | .cntrd h f => Sys2Proof.Machine.execCntrd h f s
  | .ifence h => Sys2Proof.Machine.execIfence h s
  | .drains h => Sys2Proof.Machine.execDrains h s
  | .tbeg h a b => Sys2Proof.Machine.execTbeg h a b s
  | .tend h => Sys2Proof.Machine.execTend h s
  | .submit h d a b => Sys2Proof.Machine.execSubmit h d a b s
  | .csrr h d csr => Sys2Proof.Machine.execCsrr h d csr s
  | .csrw h a csr => Sys2Proof.Machine.execCsrw h a csr s
  | .trap h imm => Sys2Proof.Machine.execTrap h imm s
  | .eret h => Sys2Proof.Machine.execEret h s
  | .sfrq h d => Sys2Proof.Machine.execSfrq h d s
  | .kill h => Sys2Proof.Machine.execKill h s
  | .brk h imm => Sys2Proof.Machine.execBrk h imm s
  | .sleep h a => Sys2Proof.Machine.execSleep h a s
  | .clockGt h d => Sys2Proof.Machine.execClockGt h d s
  | .clockAc h d => Sys2Proof.Machine.execClockAc h d s
  | .meter h d a => Sys2Proof.Machine.execMeter h d a s
  | .dgrdTask h d => Sys2Proof.Machine.execDgrdTask h d s
  | .dgrdExp h d => Sys2Proof.Machine.execDgrdExp h d s
  | .illegalOp op => Sys2Proof.Machine.execIllegalOp op s
  | .lineFetch sk line => Sys2Proof.Machine.execLineFetch sk line s
  | .stallElapse sk => Sys2Proof.Machine.execStallElapse sk s
  | .issuePromotion sk => Sys2Proof.Machine.execIssuePromotion sk s
  | .resultLand sk r => Sys2Proof.Machine.execResultLand sk r s
  | .loadDataLand sk op => Sys2Proof.Machine.execLoadDataLand sk op s
  | .storeFaultRecord r => Sys2Proof.Machine.execStoreFaultRecord r s
  | .storeFault sk => Sys2Proof.Machine.execStoreFault sk s
  | .boundaryCause sk => Sys2Proof.Machine.execBoundaryCause sk s
  | .skeinWake sk => Sys2Proof.Machine.execSkeinWake sk s
  | .waitWatchdog sk => Sys2Proof.Machine.execWaitWatchdog sk s
  | .sleepExpire sk => Sys2Proof.Machine.execSleepExpire sk s
  | .leaveGrant core => Sys2Proof.Machine.execLeaveGrant core s
  | .allowanceRefill core => Sys2Proof.Machine.execAllowanceRefill core s
  | .scbDrain core la => Sys2Proof.Machine.execScbDrain core la s
  | .homeLoad r => Sys2Proof.Machine.execHomeLoad r s
  | .loadReply r => Sys2Proof.Machine.execLoadReply r s
  | .homeWrite r => Sys2Proof.Machine.execHomeWrite r s
  | .writeAck r => Sys2Proof.Machine.execWriteAck r s
  | .lclkTick core => Sys2Proof.Machine.execLclkTick core s
  | .pclkBroadcast => Sys2Proof.Machine.execPclkBroadcast s
  | .l2Evict la => Sys2Proof.Machine.execL2Evict la s
  | .countWake sk => Sys2Proof.Machine.execCountWake sk s
  | .recall la => Sys2Proof.Machine.execRecall la s
  | .recallAck r => Sys2Proof.Machine.execRecallAck r s
  | .partialReturn core la => Sys2Proof.Machine.execPartialReturn core la s
  | .controlReissue m => Sys2Proof.Machine.execControlReissue m s
  | .tagExpire slice tag => Sys2Proof.Machine.execTagExpire slice tag s
  | .promoteDrain core la => Sys2Proof.Machine.execPromoteDrain core la s
  | .translationWalk sk va acc => Sys2Proof.Machine.execTranslationWalk sk va acc s
  | .orderedEntryApply slice => Sys2Proof.Machine.execOrderedEntryApply slice s
  | .orderedRetry e => Sys2Proof.Machine.execOrderedRetry e s
  | .frontierUpdate grid => Sys2Proof.Machine.execFrontierUpdate grid s
  | .copy p n => Sys2Proof.Machine.execCopy p n s
  | .copyGather p n => Sys2Proof.Machine.execCopyGather p n s
  | .gatherShard p n => Sys2Proof.Machine.execGatherShard p n s
  | .copyRow p n => Sys2Proof.Machine.execCopyRow p n s
  | .recordComplete p n => Sys2Proof.Machine.execRecordComplete p n s
  | .mark p n => Sys2Proof.Machine.execMark p n s
  | .launch p n => Sys2Proof.Machine.execLaunch p n s
  | .coll p n => Sys2Proof.Machine.execColl p n s
  | .cxch p n => Sys2Proof.Machine.execCxch p n s
  | .side p n => Sys2Proof.Machine.execSide p n s
  | .srel p n => Sys2Proof.Machine.execSrel p n s
  | .setlevel p n => Sys2Proof.Machine.execSetlevel p n s
  | .expect p n => Sys2Proof.Machine.execExpect p n s
  | .reexec p n => Sys2Proof.Machine.execReexec p n s
  | .ringPoll ctx ring => Sys2Proof.Machine.execRingPoll ctx ring s
  | .blockPlace die => Sys2Proof.Machine.execBlockPlace die s
  | .stealRequest grid victim thief => Sys2Proof.Machine.execStealRequest grid victim thief s
  | .stealReply grid thief blocks => Sys2Proof.Machine.execStealReply grid thief blocks s
  | .gridComplete grid => Sys2Proof.Machine.execGridComplete grid s
  | .preemptionPoint die => Sys2Proof.Machine.execPreemptionPoint die s
  | .blockSave blk => Sys2Proof.Machine.execBlockSave blk s
  | .blockRestore blk core => Sys2Proof.Machine.execBlockRestore blk core s
  | .hallcSave ctx core => Sys2Proof.Machine.execHallcSave ctx core s
  | .starvationGuard ctx => Sys2Proof.Machine.execStarvationGuard ctx s
  | .guardQuantumEnd ctx => Sys2Proof.Machine.execGuardQuantumEnd ctx s
  | .channelStall blk => Sys2Proof.Machine.execChannelStall blk s
  | .eventBacklogPost ctx die => Sys2Proof.Machine.execEventBacklogPost ctx die s
  | .eventInterrupt ctx die => Sys2Proof.Machine.execEventInterrupt ctx die s
  | .chunkArrival c => Sys2Proof.Machine.execChunkArrival c s
  | .chunkResend c => Sys2Proof.Machine.execChunkResend c s
  | .collChunkFire grid idx bad => Sys2Proof.Machine.execCollChunkFire grid idx bad s
  | .reduceBlock p n chunk => Sys2Proof.Machine.execReduceBlock p n chunk s
  | .collComplete p n => Sys2Proof.Machine.execCollComplete p n s
  | .digestArrival planid step rank dest digest => Sys2Proof.Machine.execDigestArrival planid step rank dest digest s
  | .packetDecode die pk => Sys2Proof.Machine.execPacketDecode die pk s
  | .nack m => Sys2Proof.Machine.execNack m s
  | .fallbackArrival die pk => Sys2Proof.Machine.execFallbackArrival die pk s
  | .bucketRefill ctx die shuttles => Sys2Proof.Machine.execBucketRefill ctx die shuttles s
  | .wholePackageBubble n => Sys2Proof.Machine.execWholePackageBubble n s
  | .networkModeChange fixed => Sys2Proof.Machine.execNetworkModeChange fixed s
  | .degradeWindow m => Sys2Proof.Machine.execDegradeWindow m s
  | .quietPoint m => Sys2Proof.Machine.execQuietPoint m s
  | .trainingDone m ok => Sys2Proof.Machine.execTrainingDone m ok s
  | .moduleRetire m => Sys2Proof.Machine.execModuleRetire m s
  | .stairSleep die => Sys2Proof.Machine.execStairSleep die s
  | .stairWake die => Sys2Proof.Machine.execStairWake die s
  | .stairWakeSlow m => Sys2Proof.Machine.execStairWakeSlow m s
  | .linkDown m => Sys2Proof.Machine.execLinkDown m s
  | .retire ctx => Sys2Proof.Machine.execRetire ctx s
  | .meterreq ctx pa => Sys2Proof.Machine.execMeterreq ctx pa s
  | .signRecord => Sys2Proof.Machine.execSignRecord s
  | .faultRetry ctx id => Sys2Proof.Machine.execFaultRetry ctx id s
  | .faultRefuse ctx id => Sys2Proof.Machine.execFaultRefuse ctx id s
  | .engineRetry ctx num => Sys2Proof.Machine.execEngineRetry ctx num s
  | .engineRefuse ctx num => Sys2Proof.Machine.execEngineRefuse ctx num s
  | .halt ctx on => Sys2Proof.Machine.execHalt ctx on s
  | .quiesce ctx => Sys2Proof.Machine.execQuiesce ctx s
  | .ttroot ctx v => Sys2Proof.Machine.execTtroot ctx v s
  | .quantum ctx v => Sys2Proof.Machine.execQuantum ctx v s
  | .ringen ctx v => Sys2Proof.Machine.execRingen ctx v s
  | .invalidation => Sys2Proof.Machine.execInvalidation s
  | .stairRate m v => Sys2Proof.Machine.execStairRate m v s
  | .readmit m => Sys2Proof.Machine.execReadmit m s
  | .wakeSuccess m => Sys2Proof.Machine.execWakeSuccess m s
  | .hostWrite func pa bytes => Sys2Proof.Machine.execHostWrite func pa bytes s
  | .hostRead func pa len => Sys2Proof.Machine.execHostRead func pa len s
  | .peerRequest r => Sys2Proof.Machine.execPeerRequest r s
  | .governorSample watts tj => Sys2Proof.Machine.execGovernorSample watts tj s
  | .escapeTimeout flow => Sys2Proof.Machine.execEscapeTimeout flow s
  | .flitCrcError m lanes replayed cycles => Sys2Proof.Machine.execFlitCrcError m lanes replayed cycles s
  | .ualPort p state lanes => Sys2Proof.Machine.execUalPort p state lanes s
  | .ualPortActive p peer peerport lanes => Sys2Proof.Machine.execUalPortActive p peer peerport lanes s
  | .create ctx pa func => Sys2Proof.Machine.execCreate ctx pa func s
  | .join ctx pa => Sys2Proof.Machine.execJoin ctx pa s
  | .firmwareLoad len good version => Sys2Proof.Machine.execFirmwareLoad len good version s
  | .registerWrite off v => Sys2Proof.Machine.execRegisterWrite off v s
  | .packageReset good version => Sys2Proof.Machine.execPackageReset good version s
  | .bringUpStep ok => Sys2Proof.Machine.execBringUpStep ok s
  | .hostAbort ctx => Sys2Proof.Machine.execHostAbort ctx s
  | .rankTimeout planid step rank => Sys2Proof.Machine.execRankTimeout planid step rank s

end Sys2Proof.Machine
end

