-- ==== Sys2Proof/Machine/Step.lean ====
section
/-! DEFINITION. One step of the machine: what moves next, and for a skein its boundary causes, its fetch, or the
instruction at its PC (logs 1 to 3). -/

namespace Sys2Proof.Machine

/-- What a skein does at its boundary (R107, R217, R317): STORE_FAULT, a held cause, the fetch of its line, or its word. -/
def atWord (s : State) (sk : Nat) (k : Skein) : Host.Outcome State Fault Refusal :=
  if !k.hnd && k.sfInd then exec (.storeFault sk) s
  else if !k.hnd && !k.held.isEmpty then exec (.boundaryCause sk) s
  else match k.fetched with
    | .missing => exec (.lineFetch sk (k.pc.toNat / 128)) s
    | .header => .next (s.headerTrap sk k)
    | .poisoned => .next (s.poisonTrap sk k)
    | .illegalOp op => exec (.illegalOp op) s
    | .illegalEnc => .next (s.takeTrap sk (encTrap 0) k.pc)
    | .instr i => exec i s

/-- A skein moves; one that is parked, stalled, halted or at a meeting does not (R50). -/
def runSkein (s : State) (sk : Nat) : Host.Outcome State Fault Refusal :=
  match tget s.skeins sk with
  | none => .next s
  | some k =>
    if !s.free? k then .next s
    else
      let s := { (s.chose sk k) with cur := sk }
      s.gate (atWord s sk k)

/-- A skein that issues in its turn: its quadrant chooses it, or nothing happens (R302). -/
def runTurn (s : State) (sk : Nat) : Host.Outcome State Fault Refusal :=
  match tget s.skeins sk with
  | none => .next s
  | some k => if s.wins sk k then runSkein s sk else .next s

/-- A move made. An event that comes about is a step that no word of a skein encodes. -/
def runMove (s : State) : Move → Host.Outcome State Fault Refusal
  | .issue sk => runTurn s sk
  | .now sk => runSkein s sk
  | .pend n =>
    match s.underWay n with
    | some i => s.gate (exec i s) (s.onNetwork i)
    | none => .next s
  | .ev i => if Instr.issued i then .next s else s.gate (exec i s)
  | .evict e => .next (s.through (s.evict e))
  | .outside o => .next (s.through (s.outside o))

/-- One step: a move is chosen, time passes, and the move is made. -/
def step (s0 : State) : Host.Outcome State Fault Refusal :=
  match s0.nextMove with
  | (none, s) => .next (s.tick none)
  | (some m, s) => runMove (s.tick (s.moverCore m)) m

/-- The machine with an instruction placed where the next step fetches it: bits above nbits are 0 (log 3). -/
def State.withFetchWord (s : State) (nbits w : Nat) : State := s.loadWord (w % 2 ^ nbits % 2 ^ 96)

end Sys2Proof.Machine
end

