-- ==== Sys2Proof/Safety.lean ====
section
/-! DEFINITION. What counts as a well-kept machine, and the words in which claims about instructions are made: when the
word of a skein may issue, what it has at hand, and what a completed instruction has changed and left alone. -/

namespace Sys2Proof.Machine

/-- The memory is in its canonical form. -/
def State.memWf (s : State) : Bool := Mem.wf s.mem

/-! ## Before the instruction -/

/-- What the word of skein `k`, which acts in state `s` under issue fields `h`, has at hand. -/
def State.iss (s : State) (h : Ctl) (k : Skein) : Iss :=
  { s := s, id := s.cur, k := k, b := (tget s.blocks k.blk).getD {}, g := (tget s.grids k.grid).getD {}, h := h,
    act := k.active h }

/-- No write of a skein is held by its core or waits to be recorded or sent again, and none of the core is on its way
(R218). -/
def State.quiet (s : State) (core sk : Nat) : Bool :=
  s.flushed core sk && !(s.pending.any fun i => isWriteOf core i || isWriteAckOf core i)

/-- Nothing that the acting skein `k` has started is outstanding: no load, no write, no ordered entry. -/
def State.settled (s : State) (k : Skein) : Bool := k.loads.isEmpty && s.quiet k.core s.cur && !s.ordHeld s.cur

/-- The skein that acts is `k`, which is not parked, and the word may issue in some lane: no register at or above the register
count, no channel that is not bound (R107), WAIT and SETF flags as wanted, no register that a load still writes (R98, R99), no
acquire in flight where it accesses a hall (R272), an active lane (R95), an element or space in each channel that it pops or
pushes (R94), and for a push, which is a release, nothing outstanding (R274). -/
def State.mayIssue (s : State) (h : Ctl) (u : Uses) (k : Skein) : Bool :=
  tget s.skeins s.cur == some k && k.park == .no && u.outOfRange k.regCount == none && u.unbound (s.iss h k).b == none
    && flagsReady k h && !u.locked k && !(u.touchesHall && k.loads.any (·.acq)) && k.active h != 0
    && u.blocked (s.iss h k).b == none && (u.push.isNone || s.settled k)

/-- No active lane is poisoned, under each of several readings of poison. -/
def Iss.clean (c : Iss) (ps : List (Nat → Bool)) : Bool := ps.all fun p => c.lanes.all fun l => !p l

/-! ## After the instruction -/

/-- A counter of a context's meter, exactly. -/
def State.count (s : State) (c i : Nat) : Nat := (tget (s.ctx c).meter i).getD 0

/-- The gains of one counter among several. -/
def gainOf (gs : List (Nat × Nat)) (i : Nat) : Nat := ((gs.filter fun g => g.1 == i).map Prod.snd).sum

/-- A skein from before to after, or its absence: it is as it was, but that where `m` holds, a count word that it waits on may
be noted to have met its threshold (R214). -/
def Stirred (m : Bool) (a b : Option Skein) : Prop :=
  b = a ∨ (m = true ∧ ∃ k, a = some k ∧ k.park ≠ .no ∧ b = some { k with met := true })

/-- THE FRAME OF A COMPLETED LANE INSTRUCTION. From `s` to `t` the skein that acted is `k` before and `k'` after: its PC is
the next instruction's, its STALL runs, its YLD stands, its SETF flag is raised where the result lands later, and of the rest of
it only registers, predicates, FPCSR and the latched clock may differ. Its block has changed by `pb`, then by the pops of the
word. Its context's counters have grown by `gains` and one issue slot. Every other skein (but for a count wait of the block
that an element pushed meets), block and context, every byte of memory and everything else of the machine is as before; steps
may have been posted. -/
structure LaneStep (s t : State) (h : Ctl) (u : Uses) (clocked late : Bool) (pb : Block → Block) (gains : List (Nat × Nat))
    (k k' : Skein) : Prop where
  here : tget t.skeins s.cur = some k'
  same : k' = { k with
    pc := pcNext k.pc, stall := h.stall.toNat, readyAt := s.clk, waited := none, promoted := none, leave := .no,
    met := false, yielded := h.yld, clockh := k'.clockh, flags := k'.flags, regs := k'.regs, preds := k'.preds, fpcsr := k'.fpcsr }
  flags : ∀ f, k'.flag f = k.flag f + if late && Ctl.flag h == some f then 1 else 0
  clock : k'.clockh = if clocked then BitVec.ofNat 32 (s.clk / 2 ^ 32) else k.clockh
  skeins : ∀ i, i ≠ s.cur → Stirred u.touchesHall (tget s.skeins i) (tget t.skeins i)
  block : ∀ b, tget s.blocks k.blk = some b →
    tget t.blocks k.blk = some { popChans (pb b) u.reads with stalled := false }
  blocks : ∀ i, i ≠ k.blk → tget t.blocks i = tget s.blocks i
  counts : k.ctx < 256 → ∀ i, t.count k.ctx i = s.count k.ctx i + gainOf (gains ++ [(24, 1)]) i
  ctx : { t.ctx k.ctx with meter := [] } = { s.ctx k.ctx with meter := [] }
  ctxs : ∀ c, c ≠ k.ctx → t.ctx c = s.ctx c
  posts : ∃ l, t.pending = s.pending ++ l
  rest : t = { s with skeins := t.skeins, blocks := t.blocks, ctxs := t.ctxs, pending := t.pending }
  bytes : ∀ a, Mem.get t.mem a = Mem.get s.mem a

/-- EXACTLY THE LISTED REGISTERS ARE WRITTEN, in the active lanes (R17, R18): the value and poison bit of each active lane,
the value and poison bit of each other lane as before, and the tag, which is general where lanes are left out or
poisoned. Every other register is as before. Tag and poison are given by register. -/
structure RegsWritten (c : Iss) (k' : Skein) (tag : Nat → Shape) (poi : Nat → Nat → Bool)
    (ws : List (Nat × (Nat → Word))) : Prop where
  active : ∀ w ∈ ws, ∀ l, l < c.k.width → Mask.has c.act l = true →
    (k'.reg w.1).lane l = w.2 l ∧ Mask.has (k'.reg w.1).poison l = poi w.1 l
  inactive : ∀ w ∈ ws, ∀ l, l < c.k.width → l < 64 → Mask.has c.act l = false →
    (k'.reg w.1).lane l = (c.k.reg w.1).lane l ∧ Mask.has (k'.reg w.1).poison l = Mask.has (c.k.reg w.1).poison l
  tags : ∀ w ∈ ws, (k'.reg w.1).tag =
    if c.allLanes && (List.range c.k.width).all (fun l => !(Mask.has c.act l && poi w.1 l)) then tag w.1 else .general
  others : ∀ r, r ∉ ws.map Prod.fst → k'.reg r = c.k.reg r

/-- The registers that a result under a type fills: one, or a pair with the low half first (R15). -/
def resultRegs (wide : Bool) (n : Nat) (val : Nat → DWord) : List (Nat × (Nat → Word)) :=
  if wide then [(n, fun l => (val l).setWidth 32), (n + 1, fun l => (val l >>> 32).setWidth 32)]
  else [(n, fun l => (val l).setWidth 32)]

/-- The registers that a result put where D says fills: none for a channel. -/
def destRegs (wide : Bool) (d : Opnd) (val : Nat → DWord) : List (Nat × (Nat → Word)) :=
  match d with
  | .reg n => resultRegs wide n.toNat val
  | .chan _ _ => []

/-- What a result does to the block: nothing for a register, the push of an element for a channel (R94). -/
def pushed (c : Iss) (d : Opnd) (val : Nat → DWord) (poi : Nat → Bool) : Block → Block :=
  match d with
  | .reg _ => fun b => b
  | .chan n _ => fun b => { c with b := b }.pushBlock n.toNat (fun l => (val l).setWidth 32) poi

/-- THE INSTRUCTION COMPLETES WITH A LANE RESULT: `exec` answers a next state, in which operand D holds `val` with poison
`poi` and tag `tag` (or has been pushed it), and nothing else has changed than `LaneStep` says. -/
def Computes (i : Instr) (s : State) (h : Ctl) (u : Uses) (k : Skein) (gains : List (Nat × Nat)) (wide : Bool) (d : Opnd)
    (tag : Shape) (val : Nat → DWord) (poi : Nat → Bool := fun _ => false) : Prop :=
  ∃ t k', exec i s = .next t
    ∧ LaneStep s t h u u.readsClock false (pushed (s.iss h k) d val poi) gains k k'
    ∧ RegsWritten (s.iss h k) k' (fun _ => tag) (fun _ => poi) (destRegs wide d val)
    ∧ k'.preds = k.preds ∧ k'.fpcsr = k.fpcsr

/-- EXACTLY ONE PREDICATE IS WRITTEN, in the active lanes (R22). -/
structure PredWritten (c : Iss) (k' : Skein) (p : Nat) (val : Nat → Bool) : Prop where
  active : ∀ l, l < 64 → Mask.has c.act l = true → Mask.has (k'.pred p) l = val l
  inactive : ∀ l, l < 64 → Mask.has c.act l = false → Mask.has (k'.pred p) l = Mask.has (c.k.pred p) l
  others : ∀ q, q ≠ p → k'.pred q = c.k.pred q

/-- THE INSTRUCTION COMPLETES WITH A PREDICATE: as `Computes`, where operand P is the predicate written. -/
def Decides (i : Instr) (s : State) (h : Ctl) (u : Uses) (k : Skein) (gains : List (Nat × Nat)) (p : Opnd)
    (val : Nat → Bool) : Prop :=
  ∃ t k', exec i s = .next t
    ∧ LaneStep s t h u u.readsClock false id gains k k'
    ∧ PredWritten (s.iss h k) k' (opIdx p) val
    ∧ k'.regs = k.regs ∧ k'.fpcsr = k.fpcsr

/-- THE INSTRUCTION COMPLETES WITH A FLOAT RESULT: as `Computes`, and FPCSR has the flags of the active lanes ORed in
(R155). -/
def ComputesF (i : Instr) (s : State) (h : Ctl) (u : Uses) (k : Skein) (gains : List (Nat × Nat)) (wide : Bool) (d : Opnd)
    (tag : Shape) (res : Nat → Nat × Fl) (poi : Nat → Bool := fun _ => false) : Prop :=
  ∃ t k', exec i s = .next t
    ∧ LaneStep s t h u u.readsClock false (pushed (s.iss h k) d (fun l => BitVec.ofNat 64 (res l).1) poi) gains k k'
    ∧ RegsWritten (s.iss h k) k' (fun _ => tag) (fun _ => poi) (destRegs wide d fun l => BitVec.ofNat 64 (res l).1)
    ∧ k'.preds = k.preds
    ∧ k'.fpcsr = fpcsrOr k.fpcsr (flagsOver (s.iss h k).lanes fun l => (res l).2)

/-- THE INSTRUCTION COMPLETES WITH A BOLT RESULT: the 24 registers of operand D hold the bolt of each active lane (R21,
R157). -/
def ComputesB (i : Instr) (s t0 : State) (h : Ctl) (u : Uses) (k : Skein) (gains : List (Nat × Nat)) (d : Opnd)
    (tag : Shape) (val : Nat → Bolt) : Prop :=
  ∃ t k', exec i s = .next t
    ∧ LaneStep t0 t h u u.readsClock false id gains k k'
    ∧ RegsWritten (s.iss h k) k' (fun _ => tag) (fun _ _ => false)
        ((List.range 24).map fun i => (opIdx d + i, fun l => boltWord (val l) i))
    ∧ k'.preds = k.preds ∧ k'.fpcsr = k.fpcsr

/-! ## What an access to memory needs, and what it may change -/

/-- The core holds no write of a line, and has no write under way. -/
def State.quietLine (s : State) (core la : Nat) : Bool :=
  !(s.pending.any fun i => isWriteOf core i || isWriteAckOf core i) && !((s.core core).scb.any fun e => e.la == la)

/-- No partial of a line is on its way or owed to it (R359). -/
def State.noPartial (s : State) (la : Nat) : Bool :=
  (tget s.mergeDir la).isNone && (s.owedAcks la).isEmpty && !(s.pending.any (isAckOf la))

/-- A line whose home's die stands, of which the core holds no write and no partial and has none under way, and for which no
merge state is out. -/
def State.plainLine (s : State) (core la : Nat) : Bool :=
  s.quietLine core la && !s.homeLost la && (tget (s.core core).merges la).isNone && s.noPartial la

/-- The slice of a line's home has the line, or room for one more (R3). -/
def State.sliceRoom (s : State) (la : Nat) : Bool :=
  (tget s.lines la).isSome || decide ((s.lines.filter fun p => s.homeSlice p.1 == s.homeSlice la).length < 49152)

/-- What a change of a line does to the count waits of its word whose threshold the word now meets, from `s` to `t`: each is
noted to be over, and woken; every other skein is as before (R214, R256). -/
def Woken (s t : State) (la : Nat) : Prop :=
  (∀ i, Stirred true (tget s.skeins i) (tget t.skeins i))
    ∧ ∀ i k u l pa va n, tget s.skeins i = some k → k.park = .count u l pa va n → pa / 128 = la →
        n.toNat ≤ Mem.nat t.mem pa 8 → tget t.skeins i = some { k with met := true } ∧ .countWake i ∈ t.pending

/-- Every active lane translates for an access, to `p`. -/
def Iss.reaches (c : Iss) (acc : Acc) (ea : Nat → DWord) (p : Nat → Phys) : Prop :=
  ∀ l ∈ c.lanes, c.s.translate c.k.ctx c.k.core (ea l) acc = .ok (p l)

/-- WHAT ACCESSES OF A CORE AT THEIR HOMES MAY CHANGE, from `s` to `m`: bytes and poison of memory, home lines, the eviction
times of slices and merge state; of the core, its clock, copies, partials and TLB; of the dies, TLBs, the times of flits and
the count of discarded writes; meters; what is posted, and which modules a flit has met out of service. Every skein (but for a
count wait whose word now meets its threshold), block, grid, record and other core is as before. -/
structure Served (s m : State) (n : Nat) : Prop where
  rest : m = { s with mem := m.mem, memPoison := m.memPoison, lines := m.lines, mergeDir := m.mergeDir, dies := m.dies,
                      cores := m.cores, ctxs := m.ctxs, pending := m.pending, ual := m.ual, slices := m.slices,
                      shut := m.shut, skeins := m.skeins }
  skeins : ∀ i, Stirred true (tget s.skeins i) (tget m.skeins i)
  slices : ∀ i, m.slice i = { s.slice i with mts := (m.slice i).mts }
  own : m.core n = { s.core n with
    lclk := (m.core n).lclk, l1 := (m.core n).l1, merges := (m.core n).merges, utlb := (m.core n).utlb }
  others : ∀ i, i ≠ n → m.core i = s.core i
  dies : ∀ d, m.die d = { s.die d with
    tlb := (m.die d).tlb, lastFlit := (m.die d).lastFlit, discarded := (m.die d).discarded }
  ctxs : ∀ c, { m.ctx c with meter := [] } = { s.ctx c with meter := [] }
  posts : ∃ l, m.pending = s.pending ++ l

/-- THE INSTRUCTION COMPLETES over a base `m`: the machine with what the instruction has done beside the frame of
`LaneStep`, of which `P` speaks. `k0` is the skein with what the instruction has done to it beside that frame. -/
def CompletesOver (i : Instr) (s : State) (h : Ctl) (u : Uses) (late : Bool) (pb : Block → Block)
    (gains : List (Nat × Nat)) (P : State → Skein → Skein → Prop) : Prop :=
  ∃ t m k0 k', exec i s = .next t ∧ LaneStep m t h u u.readsClock late pb gains k0 k' ∧ P m k0 k'

/-- THE INSTRUCTION TAKES THE LAST PLACE IN LOOM ORDER (R180): it completes over a machine `m` of which `P` speaks, under the
machine's next name, with what it is still to do. Its flag is raised and its landing is posted; no register, predicate or FPCSR
changes. -/
def Looms (i : Instr) (s : State) (h : Ctl) (u : Uses) (pb : Block → Block) (gains : List (Nat × Nat)) (k : Skein)
    (act : LoomAct) (P : State → Prop) : Prop :=
  ∃ t m k', exec i s = .next t ∧ P m ∧ m.nextId = s.nextId
    ∧ LaneStep (({ m with nextId := m.nextId + 1 } : State).modCore k.core fun x => { x with loom := x.loom ++
        [{ id := m.nextId, sk := s.cur, blk := k.blk, ctx := k.ctx, mark := (s.iss h k).b.past.length, act := act }] })
        t h u u.readsClock true pb gains k k'
    ∧ k'.regs = k.regs ∧ k'.preds = k.preds ∧ k'.fpcsr = k.fpcsr
    ∧ .resultLand s.cur ⟨Ctl.flag h, some m.nextId⟩ ∈ t.pending

/-- A GROUP 4 INSTRUCTION HAS LANDED, from `s` to `t`, as the step `i` (R180, R189): it has left the loom's order of its core;
beside that only hall C of the core, its block, skeins, and what is posted may have changed. -/
structure Landed (s t : State) (core : Nat) (o : LoomOp) (i : Instr) : Prop where
  rest : t = { s with cores := t.cores, blocks := t.blocks, skeins := t.skeins, pending := t.pending }
  own : t.core core = { s.core core with
    loom := (s.core core).loom.filter fun x => x.id != o.id, hallc := (t.core core).hallc }
  others : ∀ j, j ≠ core → t.core j = s.core j
  blocks : ∀ j, j ≠ o.blk → tget t.blocks j = tget s.blocks j
  posts : ∃ l, t.pending = s.pending.erase i ++ l

/-- From `k` to `k'` a flag, if one is named, has come down by one, and nothing else has changed; a skein that this makes
ready has waited from now on (R99, R302). -/
def FlagDown (clk : Nat) (f : Option Nat) (k k' : Skein) : Prop :=
  k' = { k with flags := k'.flags, readyAt := k'.readyAt }
    ∧ (∀ g, k'.flag g = k.flag g - if f = some g then 1 else 0)
    ∧ k'.readyAt = if !k.wordReady && k'.wordReady then clk else k.readyAt

/-- Atomic additions and the like on a memory, one location after another: the memory after the listed lanes (R207). -/
def amoAfter (op : AOp) (ty : Ty) (pa b e : Nat → Nat) (m : Memory) (ls : List Nat) : Memory :=
  ls.foldl (fun m l => Mem.write m (pa l) (leBytes (accBytes ty)
    (atomicNew op ty (Mem.nat m (pa l) (accBytes ty)) (b l % 2 ^ Ty.bits ty) (e l % 2 ^ Ty.bits ty)))) m

/-- The lanes that act before a lane. -/
def lanesBefore (ls : List Nat) (l : Nat) : List Nat := ls.takeWhile (· != l)

/-- The value that a loaded number of a type has in its register (R193). -/
def loaded (ty : Ty) (x : Nat) : DWord := if Ty.signed ty then BitVec.ofInt 64 (intOf ty x) else BitVec.ofNat 64 x

/-- The highest lane of a list that stores to a byte address. -/
def lastStorer (ls : List Nat) (ea : Nat → Nat) (n a : Nat) : Option Nat :=
  ls.reverse.find? fun l => decide (ea l ≤ a) && decide (a < ea l + n)

/-- The core grants an ask of leave at once: leave is granted already, or no ask waits and the allowance holds enough
(R399). -/
def State.leaveAtOnce (s : State) (k : Skein) (ask : Nat) : Prop :=
  k.leave = .granted ∨ ((s.core k.core).asks = [] ∧ ((min ask (4 * (s.core k.core).refill) : Nat) : Int) ≤ (s.core k.core).allow)

/-- The machine with the ask deducted, where it has not been before (R399). -/
def State.charged (s : State) (k : Skein) (ask : Nat) : State :=
  if k.leave == .granted then s
  else s.modCore k.core fun x => { x with allow := x.allow - (ask : Nat) }

/-- The memory `m` is `m0` with cells written, the later over the earlier. -/
def wroteCells (m0 m : Memory) (cells : List (Nat × Byte)) : Prop :=
  ∀ a, Mem.get m a = ((cells.reverse.find? fun c => c.1 == a).map Prod.snd).getD (Mem.get m0 a)

/-- The bolt at a place of a tile's table. -/
def boltAt (bs : Tbl Bolt) (i : Nat) : Bolt := (tget bs i).getD Bolt.zero

/-- A byte as an agent that holds no mapping reads it at its home: of a memory bolt line in normal form (R85). -/
def State.seenByte (s : State) (a : Nat) : Byte := (s.lineView (s.boltPa a) (a / 128)).getD (a % 128) 0

/-! ## Engines -/

/-- A line whose home's die stands, and for which no merge state is out or on its way. -/
def State.bareLine (s : State) (la : Nat) : Bool := !s.homeLost la && s.noPartial la

/-- WHAT AN ENGINE'S ACCESSES TO BARE LINES MAY CHANGE, from `s` to `m`: bytes and poison of memory, home lines and the
eviction times of slices, the times of flits, meters, bytes of links, count waits whose words now meet their thresholds, what is
posted, and which modules a flit has met out of service. -/
structure Brought (s m : State) : Prop where
  rest : m = { s with mem := m.mem, memPoison := m.memPoison, lines := m.lines, dies := m.dies, ctxs := m.ctxs,
                      pending := m.pending, ual := m.ual, slices := m.slices, shut := m.shut, skeins := m.skeins }
  skeins : ∀ i, Stirred true (tget s.skeins i) (tget m.skeins i)
  slices : ∀ i, m.slice i = { s.slice i with mts := (m.slice i).mts }
  dies : ∀ d, m.die d = { s.die d with lastFlit := (m.die d).lastFlit }
  ctxs : ∀ c, { m.ctx c with meter := [] } = { s.ctx c with meter := [] }
  posts : ∃ l, m.pending = s.pending ++ l

/-- WHAT THE TRANSFERS OF A RECORD TO BARE LINES MAY CHANGE, from `s` to `m`: what `Brought` says, and beside it the buckets of
regulators, and what records have been let through and the times of their writes. -/
structure Moved (s m : State) : Prop where
  rest : m = { s with mem := m.mem, memPoison := m.memPoison, lines := m.lines, dies := m.dies, ctxs := m.ctxs,
                      pending := m.pending, ual := m.ual, slices := m.slices, shut := m.shut, skeins := m.skeins,
                      ports := m.ports }
  skeins : ∀ i, Stirred true (tget s.skeins i) (tget m.skeins i)
  slices : ∀ i, m.slice i = { s.slice i with mts := (m.slice i).mts }
  dies : ∀ d, m.die d = { s.die d with lastFlit := (m.die d).lastFlit }
  ctxs : ∀ c, { m.ctx c with meter := [], buckets := [] } = { s.ctx c with meter := [], buckets := [] }
  ports : ∀ p, { m.port p with recs := [] } = { s.port p with recs := [] }
  recs : ∀ p n r, s.record p n = some r → ∃ r', m.record p n = some r' ∧ r' = { r with paid := r'.paid, seen := r'.seen }
  posts : ∃ l, m.pending = s.pending ++ l

/-- The regulator of an engine of a context on a die lets everything through (R377). -/
def State.unruled (s : State) (c die : Nat) (shuttles : Bool) : Prop :=
  (((tget (s.ctx c).buckets (bucketKey die shuttles)).getD {}).refill s.gt).rate = 0

/-- A 64-bit word at a virtual address of a context that an access of an engine reaches, at `q`. -/
def State.wordAt (s : State) (c core : Nat) (va : Nat) (acc : Acc) (q : Phys) : Prop :=
  s.translate c core (BitVec.ofNat 64 va) acc = .ok q ∧ va % 8 = 0 ∧ q.pa % 8 = 0 ∧ q.bolt = false
    ∧ s.bareLine (q.pa / 128) = true

/-- Bytes within one line at a virtual address that an access of an engine reaches, at `q`. -/
def State.spanAt (s : State) (c core : Nat) (va n : Nat) (acc : Acc) (q : Phys) : Prop :=
  s.translate c core (BitVec.ofNat 64 va) acc = .ok q ∧ va % 128 + n ≤ 128 ∧ q.pa % 128 = va % 128 ∧ q.bolt = false
    ∧ s.bareLine (q.pa / 128) = true

/-- An entry has been put behind those of event ring `d` of a context, from `s` to `t`, and is to be posted. -/
def entryPut (s t : State) (c d tag kind : Nat) (rest : List Byte) : Prop :=
  let old := (tget (s.ctx c).events d).getD {}
  tget (t.ctx c).events d = some { old with backlog := old.backlog ++ [evEntry tag s.gt kind rest] }
    ∧ .eventBacklogPost c d ∈ t.pending

/-- AN EVENT OF A LINK of die `d` has been posted, from `s` to `t` (R355, R356, R362): to the management processor, and to the
die's event ring of each context that subscribes to it. The bytes of an entry number the die as its reader does. -/
def linkPosted (s t : State) (d kind tag : Nat) (bytes : Nat → List Byte) : Prop :=
  t.out = s.out ++ [.mgmt kind (bytes d)]
    ∧ ∀ c x, tget s.ctxs c = some x → x.state ≠ .free → x.hasDie d = true → x.linkwatch.getLsbD 0 = true →
        entryPut s t c (d - x.firstDie) tag kind (bytes (d - x.firstDie))

/-- From `s` to `t` only module `m` has changed, to `x`, beside what has been posted, sent and entered into event rings. -/
structure StairStep (s t : State) (m : Nat) (x : Stair) : Prop where
  here : t.stair m = x
  others : ∀ j, j ≠ m → t.stair j = s.stair j
  rest : t = { s with stairs := t.stairs, out := t.out, ctxs := t.ctxs, skeins := t.skeins, saved := t.saved,
                      pending := t.pending }
  ctxs : ∀ c, t.ctx c = { s.ctx c with events := (t.ctx c).events }
  skeins : ∀ i k, tget s.skeins i = some k → ∃ k', tget t.skeins i = some k' ∧ k' = { k with held := k'.held, bclost := k'.bclost }

/-- The indices of the blocks that a die's share of a grid over `nd` dies has not placed. -/
def unplacedOf (g : Grid) (nd : Nat) (h : Share) : List Nat :=
  (List.range (h.hi - h.lo)).map (fun j => if g.serial then h.lo + j else h.die + nd * (h.lo + j)) ++ h.extra

/-! ## Control -/

/-- THE FRAME OF A COMPLETED CONTROL INSTRUCTION: from `s` to `t` the skein that acted is `k'` with the STALL of its word
running. Its block is not stalled, its context has grown by one issue slot, and every other skein, block and context and
everything else of the machine, memory among it, is as before; steps may have been posted. -/
structure WentStep (s t : State) (h : Ctl) (k k' : Skein) : Prop where
  here : tget t.skeins s.cur = some { k' with
    stall := h.stall.toNat, readyAt := s.clk, waited := none, promoted := none, leave := .no, met := false,
    yielded := h.yld }
  skeins : ∀ i, i ≠ s.cur → tget t.skeins i = tget s.skeins i
  block : ∀ b, tget s.blocks k.blk = some b → tget t.blocks k.blk = some { b with stalled := false }
  blocks : ∀ i, i ≠ k.blk → tget t.blocks i = tget s.blocks i
  counts : k.ctx < 256 → ∀ i, t.count k.ctx i = s.count k.ctx i + if i = 24 then 1 else 0
  ctx : { t.ctx k.ctx with meter := [] } = { s.ctx k.ctx with meter := [] }
  ctxs : ∀ c, c ≠ k.ctx → t.ctx c = s.ctx c
  posts : ∃ l, t.pending = s.pending ++ l
  rest : t = { s with skeins := t.skeins, blocks := t.blocks, ctxs := t.ctxs, pending := t.pending }

/-- The instruction completes as a control instruction, with the skein as given. -/
def Goes (i : Instr) (s : State) (h : Ctl) (k k' : Skein) : Prop := ∃ t, exec i s = .next t ∧ WentStep s t h k k'

/-- No store fault is due to the skein where it could be taken (R218). -/
def Skein.noFault (k : Skein) : Bool := !k.sfInd || k.hnd

end Sys2Proof.Machine
end

