-- ==== Sys2Proof/Certificates/Slice0/Obligations.lean ====
section
/-! DEFINITION. The statements of this model: what each instruction and step of the opcode table does, when it completes,
what it leaves alone, and what every step keeps. -/

open Sys2Proof Sys2Proof.Machine

/-! ## Integer lane instructions (spec 04 R117 to R130) -/

/-- R117, R119, R120, R122, R124, R125: the two-operand integer instructions. Each completes, in every form of D, A and B,
with the exact result of its operands delivered into the type.
R119, R120, R122, R124, R126: the three-operand and one-operand integer instructions.
R120, R122, R126: logic, shifts, the rotation and `bfx`; a shift count is operand B as n32, and a count of at least the
width gives 0 or copies of the sign. -/
def Obligations.IntegerLanes : Prop :=
   (∀ (s : State) (h : Ctl) (f : Alu2) (k : Skein),
      let c := s.iss h k
      let u := Alu2.uses f f.ty.is64 f.ty.is64
      let a := c.opnd f.ty.is64 [] f.a
      let b := c.srcImm f.ty.is64 (Ty.signed f.ty) [f.a] f.b
      let gives := fun (i : Instr) (tag : Shape) (r : Int → Int → Int) =>
        Computes i s h u k [(13, c.lanes.length)] f.ty.is64 f.d tag
          fun l => deliver (r (a.int f.ty l) (b.int f.ty l)) f.ty f.sat
      f.wf true = true → s.mayIssue h u k = true → c.clean [a.poi, b.poi] = true →
        gives (.iadd h f) (tagSum f.ty f.sat [a.tag, b.tag]) (fun x y => x + y)
        ∧ gives (.isub h f) (tagSum f.ty f.sat [a.tag, b.tag]) (fun x y => x - y)
        ∧ gives (.imul h f) (tagMul f.ty f.sat a.tag b.tag) (fun x y => x * y)
        ∧ gives (.imulh h f) (Shape.joinU a.tag b.tag) (fun x y => x * y / (2 ^ Ty.bits f.ty : Nat))
        ∧ gives (.idiv h f) (Shape.joinU a.tag b.tag) (fun x y =>
            if y = 0 then
              (if Ty.signed f.ty then (if f.sat then (if 0 ≤ x then Ty.maxV f.ty else Ty.minV f.ty) else -1)
               else Ty.maxV f.ty)
            else Int.tdiv x y)
        ∧ gives (.irem h f) (Shape.joinU a.tag b.tag) (fun x y => if y = 0 then x else Int.tmod x y)
        ∧ gives (.imin h f) (Shape.joinU a.tag b.tag) (fun x y => if x ≤ y then x else y)
        ∧ gives (.imax h f) (Shape.joinU a.tag b.tag) (fun x y => if x ≤ y then y else x))
 ∧ ((∀ (s : State) (h : Ctl) (f : Alu3) (k : Skein),
      let c := s.iss h k
      let a := c.opnd f.ty.is64 [] f.a
      let b := c.opnd f.ty.is64 [f.a] f.b
      let u := fun (wc : Bool) => (
        { a := regsOf f.a (nRegs f.ty), b := regsOf f.b (nRegs f.ty), c := regsOf f.c (if wc then 2 else 1),
          d := regsOf f.d (nRegs f.ty), reads := chanOf f.a ++ chanOf f.b ++ chanOf f.c, push := pushOf f.d } : Uses)
      let gives := fun (i : Instr) (wc : Bool) (tag : Shape) (r : Nat → DWord) =>
        s.mayIssue h (u wc) k = true → c.clean [a.poi, b.poi, (c.opnd wc [f.a, f.b] f.c).poi] = true →
          Computes i s h (u wc) k [(13, c.lanes.length)] f.ty.is64 f.d tag r
      f.wf true = true →
        (let e := c.opnd f.ty.is64 [f.a, f.b] f.c
         gives (.iadd3 h f) f.ty.is64 (tagSum f.ty f.sat [a.tag, b.tag, e.tag])
            (fun l => deliver (a.int f.ty l + b.int f.ty l + e.int f.ty l) f.ty f.sat)
         ∧ gives (.imad h f) f.ty.is64 (tagU [a.tag, b.tag, e.tag])
            (fun l => deliver (a.int f.ty l * b.int f.ty l + e.int f.ty l) f.ty f.sat))
        ∧ (let e := c.opnd false [f.a, f.b] f.c
           gives (.bfi h f) false (tagU [a.tag, b.tag, e.tag]) fun l =>
             let pos := e.nat .n32 l % 256
             let n := fieldLen pos (e.nat .n32 l / 256 % 256) (Ty.bits f.ty)
             BitVec.ofNat 64 (if n = 0 then b.nat f.ty l
               else b.nat f.ty l / 2 ^ (pos + n) * 2 ^ (pos + n) + a.nat f.ty l % 2 ^ n * 2 ^ pos + b.nat f.ty l % 2 ^ pos)))
    ∧ (∀ (s : State) (h : Ctl) (f : Alu1) (k : Skein),
      let c := s.iss h k
      let a := c.opnd f.ty.is64 [] f.a
      let u := fun (wd : Bool) => (
        { a := regsOf f.a (nRegs f.ty), d := regsOf f.d (if wd then 2 else 1), reads := chanOf f.a,
          push := pushOf f.d } : Uses)
      let gives := fun (i : Instr) (wd : Bool) (tag : Shape) (r : Nat → DWord) =>
        s.mayIssue h (u wd) k = true → c.clean [a.poi] = true →
          Computes i s h (u wd) k [(13, c.lanes.length)] wd f.d tag r
      (f.wf true = true →
        gives (.iabs h f) f.ty.is64 (tagU [a.tag]) (fun l => deliver ((a.int f.ty l).natAbs : Int) f.ty f.sat)
        ∧ gives (.ineg h f) f.ty.is64 (tagSum f.ty f.sat [a.tag]) (fun l => deliver (-(a.int f.ty l)) f.ty f.sat)
        ∧ gives (.not h f) f.ty.is64 (tagU [a.tag]) (fun l => BitVec.ofNat 64 (2 ^ Ty.bits f.ty - 1 - a.nat f.ty l))
        ∧ gives (.brev h f) f.ty.is64 (tagU [a.tag]) (fun l => BitVec.ofNat 64 (revNat (Ty.bits f.ty) (a.nat f.ty l))))
      ∧ (f.wfCount = true →
        gives (.popc h f) false (tagU [a.tag]) (fun l => BitVec.ofNat 64 (popNat (Ty.bits f.ty) (a.nat f.ty l)))
        ∧ gives (.clz h f) false (tagU [a.tag]) (fun l => BitVec.ofNat 64 (Ty.bits f.ty - bitLen (a.nat f.ty l)))
        ∧ gives (.ctz h f) false (tagU [a.tag]) (fun l => BitVec.ofNat 64 (ctzNat (Ty.bits f.ty) (a.nat f.ty l))))))
 ∧ (∀ (s : State) (h : Ctl) (f : Alu2) (k : Skein),
      let c := s.iss h k
      let w := Ty.bits f.ty
      let a := c.opnd f.ty.is64 [] f.a
      let gives := fun (i : Instr) (wb : Bool) (tag : Shape → Shape) (r : Nat → Nat → Nat) =>
        let b := c.srcImm wb (Ty.signed f.ty) [f.a] f.b
        s.mayIssue h (Alu2.uses f wb f.ty.is64) k = true → c.clean [a.poi, b.poi] = true →
          Computes i s h (Alu2.uses f wb f.ty.is64) k [(13, c.lanes.length)] f.ty.is64 f.d (tag b.tag)
            fun l => BitVec.ofNat 64
              (r (a.nat f.ty l) (if wb then b.nat f.ty l else (b.val l).toNat % 2 ^ 32) % 2 ^ w)
      (f.wf false = true →
        gives (.and h f) f.ty.is64 (Shape.joinU a.tag) (fun x y => x &&& y)
        ∧ gives (.or h f) f.ty.is64 (Shape.joinU a.tag) (fun x y => x ||| y)
        ∧ gives (.xor h f) f.ty.is64 (Shape.joinU a.tag) (fun x y => x ^^^ y))
      ∧ (f.wfShift = true →
        gives (.shl h f) false (tagShl f.ty a.tag) (fun x n => if w ≤ n then 0 else x * 2 ^ n)
        ∧ gives (.shr h f) false (Shape.joinU a.tag) (fun x n => if w ≤ n then 0 else x / 2 ^ n)
        ∧ gives (.sar h f) false (Shape.joinU a.tag) (fun x n =>
            x / 2 ^ min n w + if x / 2 ^ (w - 1) % 2 = 1 then 2 ^ w - 2 ^ (w - min n w) else 0)
        ∧ gives (.rot h f) false (Shape.joinU a.tag) (fun x n => x * 2 ^ (n % w) % 2 ^ w + x / 2 ^ (w - n % w))
        ∧ gives (.bfx h f) false (Shape.joinU a.tag) (fun x d =>
            let n := fieldLen (d % 256) (d / 256 % 256) w
            if n = 0 then 0
            else
              let y := x / 2 ^ (d % 256) % 2 ^ n
              if Ty.signed f.ty && y / 2 ^ (n - 1) % 2 = 1 then y + (2 ^ w - 2 ^ n) else y)))

/-- R22, R127 to R130: compare, select, add with carry, and the scaled address. `sel` reads in each lane only the operand
that its predicate selects, and latches the clock only then; `iaddc` writes its sum and its carry. -/
def Obligations.CompareSelectCarryAddress : Prop :=
  (∀ (s : State) (h : Ctl) (f : ICmp) (k : Skein),
    let c := s.iss h k
    let u : Uses :=
      { a := regsOf f.a (nRegs f.ty), b := regsOf f.b (nRegs f.ty), reads := chanOf f.a ++ chanOf f.b }
    let a := c.opnd f.ty.is64 [] f.a
    let b := c.opnd f.ty.is64 [f.a] f.b
    f.p.isPredDst = true → s.mayIssue h u k = true → c.clean [a.poi, b.poi] = true →
      Decides (.icmp h f) s h u k [(13, c.lanes.length)] f.p fun l =>
        match f.cc with
        | .eq => decide (a.int f.ty l = b.int f.ty l)
        | .ne => decide (a.int f.ty l ≠ b.int f.ty l)
        | .lt => decide (a.int f.ty l < b.int f.ty l)
        | .le => decide (a.int f.ty l ≤ b.int f.ty l)
        | .gt => decide (b.int f.ty l < a.int f.ty l)
        | .ge => decide (b.int f.ty l ≤ a.int f.ty l))
  ∧ (∀ (s : State) (h : Ctl) (f : Sel) (k : Skein),
    let c := s.iss h k
    let u : Uses :=
      { a := (regsOf f.a (nRegs f.ty)).filter (· < 640), b := (regsOf f.b (nRegs f.ty)).filter (· < 640),
        d := regsOf f.d (nRegs f.ty), reads := chanOf f.a ++ chanOf f.b, push := pushOf f.d }
    let a := c.opnd f.ty.is64 [] f.a
    let p := c.pred f.p
    let b := c.opnd f.ty.is64 (if f.a == .reg 652 && c.act &&& p == 0 then [] else [f.a]) f.b
    let v := fun l => if Mask.has p l then a.val l else b.val l
    f.d.isAluDst f.ty = true → s.mayIssue h u k = true →
      c.clean [fun l => Mask.has p l && a.poi l, fun l => !Mask.has p l && b.poi l] = true →
      ∃ t k', exec (.sel h f) s = .next t
        ∧ LaneStep s t h u
            ((f.a == .reg 652 && c.act &&& p != 0) || (f.b == .reg 652 && c.act &&& ~~~p != 0)) false
            (pushed c f.d v fun _ => false) [(13, c.lanes.length)] k k'
        ∧ RegsWritten c k' (fun _ => Shape.joinU a.tag b.tag) (fun _ _ => false) (destRegs f.ty.is64 f.d v)
        ∧ k'.preds = k.preds ∧ k'.fpcsr = k.fpcsr)
  ∧ (∀ (s : State) (h : Ctl) (f : AddC) (k : Skein),
    let c := s.iss h k
    let w := Ty.bits f.ty
    let u : Uses :=
      { a := regsOf f.a (nRegs f.ty), b := regsOf f.b (nRegs f.ty), d := regsOf f.d (nRegs f.ty),
        reads := chanOf f.a ++ chanOf f.b, push := pushOf f.d }
    let a := c.opnd f.ty.is64 [] f.a
    let b := c.opnd f.ty.is64 [f.a] f.b
    let sum := fun l => a.nat f.ty l + (if f.sub then 2 ^ w - 1 - b.nat f.ty l else b.nat f.ty l)
      + if Mask.has (c.pred f.p) l then 1 else 0
    let v := fun l => BitVec.ofNat 64 (sum l % 2 ^ w)
    f.d.isAluDst f.ty = true → f.p.isPredDst = true → s.mayIssue h u k = true → c.clean [a.poi, b.poi] = true →
      ∃ t k', exec (.iaddc h f) s = .next t
        ∧ LaneStep s t h u u.readsClock false (pushed c f.d v fun _ => false) [(13, c.lanes.length)] k k'
        ∧ RegsWritten c k' (fun _ => Shape.joinU a.tag b.tag) (fun _ _ => false) (destRegs f.ty.is64 f.d v)
        ∧ PredWritten c k' (opIdx f.p) (fun l => decide (2 ^ w ≤ sum l))
        ∧ k'.fpcsr = k.fpcsr)
  ∧ (∀ (s : State) (h : Ctl) (f : Lea) (k : Skein),
    let c := s.iss h k
    let u : Uses := { a := regsOf f.a 2, b := regsOfImm f.b 1, d := regsOf f.d 2, reads := chanOfImm f.b }
    let a := c.pair f.a
    let b := c.srcImm false (Ty.signed f.ty) [f.a] f.b
    f.d.isPair = true → s.mayIssue h u k = true → c.clean [a.poi, b.poi] = true →
      Computes (.lea h f) s h u k [(13, c.lanes.length)] true f.d (Shape.joinU a.tag b.tag)
        fun l => a.val l + BitVec.ofInt 64 (b.int f.ty l) <<< leaShift f.sh)

/-! ## Moves, predicates and lanes (spec 04 R131 to R136) -/

/-- R22, R131, R132: moves copy values, poison and tags and never trap POISON; predicate logic, votes and ballots. None of
them is counted but as an issue slot.
R131: broadcasts, shuffles and rotations between lanes, `unif` and `affine`, and `shape`. A lane reads its source lane
whether or not that lane is active. -/
def Obligations.MovesPredicatesAndExchange : Prop :=
   (∀ (s : State) (h : Ctl) (d a b : Opnd) (k : Skein),
      let c := s.iss h k
      (let u : Uses := { a := regsOf a 1, d := regsOf d 1, reads := chanOf a, push := pushOf d }
       let x := c.single [] a
       s.mayIssue h u k = true →
         Computes (.mov h false d a) s h u k [] false d x.tag (fun l => ((x.val l).setWidth 32 : Word).setWidth 64) x.poi)
      ∧ (let u : Uses := { a := regsOf a 2, d := regsOf d 2, reads := chanOf a, push := pushOf d }
         let i := opIdx a
         let n := opIdx d
         d.isPair = true → a.isPair = true → s.mayIssue h u k = true →
           ∃ t k', exec (.mov h true d a) s = .next t ∧ LaneStep s t h u u.readsClock false (fun b => b) [] k k'
             ∧ RegsWritten c k' (fun r => if r = n then c.regTag i else c.regTag (i + 1))
                 (fun r => if r = n then c.lanePoison i else c.lanePoison (i + 1))
                 [(n, c.laneWord i), (n + 1, c.laneWord (i + 1))]
             ∧ k'.preds = k.preds ∧ k'.fpcsr = k.fpcsr)
      ∧ (∀ v : Word, s.mayIssue h { d := regsOf d 1 } k = true → d.isReg = true →
          Computes (.movi h d v) s h { d := regsOf d 1 } k [] false d .uniform fun _ => v.setWidth 64)
      ∧ (∀ op : POp, d.isPredDst = true → s.mayIssue h {} k = true →
          Decides (.pand h op d a b) s h {} k [] d fun l =>
            let x := Mask.has (c.pred a) l
            let y := Mask.has (c.pred b) l
            match op with
            | .and => x && y
            | .or => x || y
            | .xor => x != y
            | .andn => x && !y
            | .orn => x || !y)
      ∧ (d.isPredDst = true → s.mayIssue h { a := regsOf a 1 } k = true → c.clean [(c.single [] a).poi] = true →
          Decides (.pmovToPred h d a) s h { a := regsOf a 1 } k [] d fun l => (c.single [] a).val l != 0)
      ∧ (d.isReg = true → s.mayIssue h { d := regsOf d 1 } k = true →
          Computes (.pmovToReg h d a) s h { d := regsOf d 1 } k [] false d .general
            fun l => if Mask.has (c.pred a) l then 1 else 0)
      ∧ (∀ op : VoteOp, d.isPredDst = true → s.mayIssue h {} k = true →
          Decides (.vote h op d a) s h {} k [] d fun _ =>
            match op with
            | .all => decide (∀ l ∈ c.lanes, Mask.has (c.pred a) l = true)
            | .any => decide (∃ l ∈ c.lanes, Mask.has (c.pred a) l = true)
            | .eq => decide (∀ l ∈ c.lanes, Mask.has (c.pred a) l = true)
                || decide (∀ l ∈ c.lanes, Mask.has (c.pred a) l = false))
      ∧ (d.isPair = true → s.mayIssue h { d := regsOf d 2 } k = true →
          Computes (.voteBallot h d a) s h { d := regsOf d 2 } k [] true d .uniform fun _ => c.act &&& c.pred a))
 ∧ (∀ (s : State) (h : Ctl) (d a : Opnd) (b : SrcImm) (o : Opnd) (k : Skein),
      let c := s.iss h k
      let w := k.width
      let x := c.single [] a
      let xs := fun l => ((x.val l).setWidth 32 : Word)
      let moved : Shape := if x.tag == .uniform then .uniform else .general
      let n := ((c.srcImm false false [a] b).val c.low).toNat
      let bad := (c.srcImm false false [] b).poi c.low
      let u : Uses := { a := regsOf a 1, b := regsOfImm b 1, d := regsOf d 1 }
      d.isReg = true →
        (s.mayIssue h u k = true → c.clean [fun _ => x.poi (n % w), fun _ => bad] = true →
          Computes (.lbcast h d a b) s h u k [] false d .uniform fun _ => (xs (n % w)).setWidth 64)
        ∧ (s.mayIssue h u k = true → c.clean [fun l => x.poi ((l + n) % w), fun _ => bad] = true →
          Computes (.lrot h d a b) s h u k [] false d moved fun l => (xs ((l + n) % w)).setWidth 64)
        ∧ (let y := c.single [a] o
           let v : Uses := { a := regsOf a 1, b := regsOf o 1, d := regsOf d 1 }
           s.mayIssue h v k = true → c.clean [fun l => x.poi ((y.val l).toNat % w), y.poi] = true →
            Computes (.lshuf h d a o) s h v k [] false d moved fun l => (xs ((y.val l).toNat % w)).setWidth 64)
        ∧ (let v : Uses := { a := regsOf a 1, d := regsOf d 1 }
           s.mayIssue h v k = true → c.clean [fun _ => x.poi c.low] = true →
            Computes (.unif h d a) s h v k [] false d .uniform fun _ => (xs c.low).setWidth 64)
        ∧ (let y := c.srcImm false true [a] b
           s.mayIssue h u k = true → c.clean [fun _ => x.poi c.low, fun _ => y.poi c.low] = true →
            Computes (.affine h d a b) s h u k [] false d .affine
              fun l => (xs c.low + BitVec.ofNat 32 l * (y.val c.low).setWidth 32).setWidth 64)
        ∧ (let v : Uses := { a := (regsOf a 1).filter (· < 640), d := regsOf d 1 }
           s.mayIssue h v k = true →
            Computes (.shape h d a) s h v k [] false d .uniform fun _ =>
              match c.regTag (opIdx a) with
              | .uniform => 0
              | .affine => 1
              | .general => 2))

/-- R133 to R136: scans and reductions over the active lanes in ascending order, packing, unpacking, byte permutation, and
the state of a channel. -/
def Obligations.ScansPacksAndChannelState : Prop :=
  (∀ (s : State) (h : Ctl) (f : Scan) (k : Skein),
    let c := s.iss h k
    let u : Uses := { a := regsOf f.a 1, d := regsOf f.d 1 }
    let x := c.single [] f.a
    let xs := fun j => ((x.val j).setWidth 32 : Word)
    let comb : List Nat → Word := fun ls => match ls with
      | [] => 0
      | l :: ls => ls.foldl (fun acc j =>
          match f.op with
          | .add => acc + xs j
          | .min => if intOf f.ty acc.toNat ≤ intOf f.ty (xs j).toNat then acc else xs j
          | .max => if intOf f.ty acc.toNat ≤ intOf f.ty (xs j).toNat then xs j else acc
          | .and => acc &&& xs j
          | .or => acc ||| xs j
          | .xor => acc ^^^ xs j) (xs l)
    f.d.isReg = true → s.mayIssue h u k = true → c.clean [x.poi] = true →
      Computes (.lscan h f) s h u k [] false f.d .general (fun l => (comb (c.lanes.filter (· ≤ l))).setWidth 64)
      ∧ Computes (.lreduce h f) s h u k [] false f.d .uniform (fun _ => (comb c.lanes).setWidth 64))
  ∧ (∀ (s : State) (h : Ctl) (f : Pack) (k : Skein),
    let c := s.iss h k
    let u : Uses := { a := regsOf f.a 1, b := regsOf f.b 1, d := regsOf f.d 1 }
    let a := c.single [] f.a
    let b := c.single [f.a] f.b
    let o := c.single [] f.d
    let merges := Ty.bits f.ty == 8
    f.d.isReg = true → s.mayIssue h u k = true → c.clean [fun l => merges && o.poi l, a.poi, b.poi] = true →
      Computes (.pack h f) s h u k [] false f.d
        (tagU (if merges then [a.tag, b.tag, o.tag] else [a.tag, b.tag])) fun l =>
          let x := packElem f.ty f.sat ((a.val l).setWidth 32)
          let y := packElem f.ty f.sat ((b.val l).setWidth 32)
          let old := (o.val l).toNat % 2 ^ 32
          BitVec.ofNat 64 (if Ty.bits f.ty = 16 then x + y * 2 ^ 16
            else if f.hi then old % 2 ^ 16 + x * 2 ^ 16 + y * 2 ^ 24
            else x + y * 2 ^ 8 + old / 2 ^ 16 * 2 ^ 16))
  ∧ (∀ (s : State) (h : Ctl) (ty : Ty) (j : BitVec 2) (d a : Opnd) (k : Skein),
    let c := s.iss h k
    let u : Uses := { a := regsOf a 1, d := regsOf d 1 }
    let x := c.single [] a
    d.isReg = true → s.mayIssue h u k = true → c.clean [x.poi] = true →
      Computes (.unpack h ty j d a) s h u k [] false d (tagU [x.tag]) fun l =>
        (BitVec.ofInt 32 (intOf ty ((x.val l).toNat % 2 ^ 32 / 2 ^ (Ty.bits ty * j.toNat) % 2 ^ Ty.bits ty))).setWidth 64)
  ∧ (∀ (s : State) (h : Ctl) (d a b e : Opnd) (k : Skein),
    let c := s.iss h k
    let u : Uses := { a := regsOf a 1, b := regsOf b 1, c := regsOf e 1, d := regsOf d 1 }
    let x := c.single [] a
    let y := c.single [a] b
    let z := c.single [a, b] e
    d.isReg = true → s.mayIssue h u k = true → c.clean [x.poi, y.poi, z.poi] = true →
      Computes (.perm h d a b e) s h u k [] false d (tagU [x.tag, y.tag, z.tag]) fun l =>
        let ab := (x.val l).toNat % 2 ^ 32 + (y.val l).toNat % 2 ^ 32 * 2 ^ 32
        let byte := fun i =>
          let n := (z.val l).toNat % 2 ^ 32 / 2 ^ (4 * i) % 16
          if n < 8 then ab / 2 ^ (8 * n) % 256 else 0
        BitVec.ofNat 64 (byte 0 + byte 1 * 2 ^ 8 + byte 2 * 2 ^ 16 + byte 3 * 2 ^ 24))
  ∧ (∀ (s : State) (h : Ctl) (d : Opnd) (n : BitVec 10) (p : Bool) (k : Skein) (x : Chan),
    let c := s.iss h k
    let u : Uses := { d := regsOf d 1, look := some n.toNat }
    d.isReg = true → s.mayIssue h u k = true → c.chan n.toNat = some x → x.count < 2 ^ 16 → x.depth < 2 ^ 16 →
      Computes (.chstat h d (.chan n p)) s h u k [] false d .uniform fun _ => BitVec.ofNat 64 (x.count + x.depth * 2 ^ 16))

/-! ## Float lane instructions (spec 05 R145 to R156) -/

/-- R145 to R151, R155, R156: float arithmetic, minima and maxima, scaling and rounding to integer, division and the
functions, on one or two operands. Each active lane holds the result of its operands under the rounding mode, FPCSR has the
flags of the active lanes ORed in, and a packed pair is computed element by element.
R149, R150, R152 to R156: float comparison, classification and the conversions. A comparison raises its flags in
FPCSR; narrow integer kinds are extended to 32 bits. -/
def Obligations.FloatLanes : Prop :=
   ((∀ (s : State) (h : Ctl) (f : Flt2) (k : Skein),
      let c := s.iss h k
      let u : Uses :=
        { a := regsOf f.a 1, b := regsOf f.b 1, d := regsOf f.d 1, reads := chanOf f.a ++ chanOf f.b, push := pushOf f.d }
      let a := c.single [] f.a
      let b := c.single [f.a] f.b
      let m := Rm.num f.rm k.fpcsr
      let v := fun x => valOf f.ty x
      let gives := fun (i : Instr) (gain : Nat × Nat) (r : Nat → Nat → Nat × Fl) =>
        ComputesF i s h u k [gain] false f.d (tagU [a.tag, b.tag]) fun l =>
          if Ty.isX2 f.ty then
            let lo := r (a.bits f.ty l % 2 ^ 16) (b.bits f.ty l % 2 ^ 16)
            let hi := r (a.bits f.ty l / 2 ^ 16 % 2 ^ 16) (b.bits f.ty l / 2 ^ 16 % 2 ^ 16)
            (lo.1 + hi.1 * 2 ^ 16, lo.2 ||| hi.2)
          else r (a.bits f.ty l) (b.bits f.ty l)
      s.mayIssue h u k = true → c.clean [a.poi, b.poi] = true →
        let lane : Nat × Nat :=
          (if f.ty == .f32 then 8 else 9, if Ty.isX2 f.ty then 2 * c.lanes.length else c.lanes.length)
        gives (.fadd h f) lane (fun x y => fAdd f.ty m (v x) (v y))
        ∧ gives (.fsub h f) lane (fun x y => fAdd f.ty m (v x) (v y).negate)
        ∧ gives (.fmul h f) lane (fun x y => fMul f.ty m (v x) (v y))
        ∧ gives (.fdiv h f) (12, c.lanes.length) (fun x y => fDiv f.ty m (v x) (v y))
        ∧ gives (.fmin h { ty := f.ty, d := f.d, a := f.a, b := f.b }) lane (fun x y => fMinMax f.ty false x y)
        ∧ gives (.fmax h { ty := f.ty, d := f.d, a := f.a, b := f.b }) lane (fun x y => fMinMax f.ty true x y)
        ∧ (Ty.isX2 f.ty = false →
            ComputesF (.fscl h f) s h u k [lane] false f.d (tagU [a.tag, b.tag])
              fun l => fScl f.ty m (v (a.bits f.ty l)) (intOf .i32 (b.bits .i32 l))))
    ∧ (∀ (s : State) (h : Ctl) (f : Flt1) (k : Skein),
      let c := s.iss h k
      let u : Uses := { a := regsOf f.a 1, d := regsOf f.d 1, reads := chanOf f.a, push := pushOf f.d }
      let a := c.single [] f.a
      let m := Rm.num f.rm k.fpcsr
      let gives := fun (i : Instr) (gain : Nat × Nat) (r : Val → Nat × Fl) =>
        ComputesF i s h u k [gain] false f.d (tagU [a.tag]) fun l => r (valOf f.ty (a.bits f.ty l))
      f.wf = true → s.mayIssue h u k = true → c.clean [a.poi] = true →
        let n := c.lanes.length
        gives (.frcp h f) (12, n) (fun x => fDiv f.ty m (.fin false 1 0) x)
        ∧ gives (.frsq h f) (12, n) (fun x => fRsq f.ty m x)
        ∧ gives (.fsqrt h f) (12, n) (fun x => fSqrt f.ty m x)
        ∧ gives (.fex2 h f) (12, n) (fun x => fEx2 f.ty m x)
        ∧ gives (.flg2 h f) (12, n) (fun x => fLg2 f.ty m x)
        ∧ gives (.fsin h f) (12, n) (fun x => fTrig f.ty m false x)
        ∧ gives (.fcos h f) (12, n) (fun x => fTrig f.ty m true x)
        ∧ gives (.ftanh h f) (12, n) (fun x => fTanh f.ty m x)
        ∧ gives (.frint h f) (if f.ty == .f32 then 8 else 9, n) (fun x => fRint f.ty m x))
    ∧ (∀ (s : State) (h : Ctl) (f : Flt3) (k : Skein),
      let c := s.iss h k
      let u : Uses :=
        { a := regsOf f.a 1, b := regsOf f.b 1, c := regsOf f.c 1, d := regsOf f.d 1,
          reads := chanOf f.a ++ chanOf f.b ++ chanOf f.c, push := pushOf f.d }
      let a := c.single [] f.a
      let b := c.single [f.a] f.b
      let e := c.single [f.a, f.b] f.c
      let m := Rm.num f.rm k.fpcsr
      let r := fun x y z => fFma f.ty m (valOf f.ty x) (valOf f.ty y) (valOf f.ty z)
      s.mayIssue h u k = true → c.clean [a.poi, b.poi, e.poi] = true →
        ComputesF (.ffma h f) s h u k
          [(if f.ty == .f32 then 8 else 9, if Ty.isX2 f.ty then 2 * c.lanes.length else c.lanes.length)] false f.d
          (tagU [a.tag, b.tag, e.tag]) fun l =>
            if Ty.isX2 f.ty then
              let lo := r (a.bits f.ty l % 2 ^ 16) (b.bits f.ty l % 2 ^ 16) (e.bits f.ty l % 2 ^ 16)
              let hi := r (a.bits f.ty l / 2 ^ 16 % 2 ^ 16) (b.bits f.ty l / 2 ^ 16 % 2 ^ 16) (e.bits f.ty l / 2 ^ 16 % 2 ^ 16)
              (lo.1 + hi.1 * 2 ^ 16, lo.2 ||| hi.2)
            else r (a.bits f.ty l) (b.bits f.ty l) (e.bits f.ty l)))
 ∧ ((∀ (s : State) (h : Ctl) (f : FCmp) (k : Skein),
      let c := s.iss h k
      let u : Uses := { a := regsOf f.a 1, b := regsOf f.b 1, reads := chanOf f.a ++ chanOf f.b }
      let a := c.single [] f.a
      let b := c.single [f.a] f.b
      let r := fun l => fCmp f.cc (valOf f.ty (a.bits f.ty l)) (valOf f.ty (b.bits f.ty l))
      f.ty.isS = true → f.p.isPredDst = true → s.mayIssue h u k = true → c.clean [a.poi, b.poi] = true →
        ∃ t k', exec (.fcmp h f) s = .next t
          ∧ LaneStep s t h u u.readsClock false (fun b => b) [(if f.ty == .f32 then 8 else 9, c.lanes.length)] k k'
          ∧ PredWritten c k' (opIdx f.p) (fun l => (r l).1)
          ∧ k'.regs = k.regs ∧ k'.fpcsr = fpcsrOr k.fpcsr (flagsOver c.lanes fun l => (r l).2))
    ∧ (∀ (s : State) (h : Ctl) (ty : Ty) (d a : Opnd) (k : Skein),
      let c := s.iss h k
      let u : Uses := { a := regsOf a 1, d := regsOf d 1, reads := chanOf a, push := pushOf d }
      let x := c.single [] a
      ty.isS = true → s.mayIssue h u k = true → c.clean [x.poi] = true →
        ComputesF (.fclass h ty d a) s h u k [(if ty == .f32 then 8 else 9, c.lanes.length)] false d (tagU [x.tag])
          fun l => (fClass ty (x.bits ty l), 0))
    ∧ (∀ (s : State) (h : Ctl) (f : Cvt) (k : Skein),
      let c := s.iss h k
      let m := Rm.num f.rm k.fpcsr
      let u := fun (wd ws : Bool) => (
        { a := regsOf f.a (if ws then 2 else 1), d := regsOf f.d (if wd then 2 else 1), reads := chanOf f.a,
          push := pushOf f.d } : Uses)
      let gives := fun (i : Instr) (wd ws f32 : Bool) (r : Nat → Nat × Fl) =>
        let a := c.opnd ws [] f.a
        s.mayIssue h (u wd ws) k = true → c.clean [a.poi] = true →
          ComputesF i s h (u wd ws) k [(if f32 then 8 else 9, c.lanes.length)] wd f.d (tagU [a.tag])
            fun l => r (a.bits f.sty l)
      gives (.cvt h f) false false (f.ty == .f32 || f.sty == .f32) (fun x => fCvt f.ty m f.sat f.sty x)
      ∧ (f.d.isAluDst f.ty = true →
          gives (.cvti h f) f.ty.is64 false (f.sty == .f32) fun x =>
            let r := fCvtI f.ty m (valOf f.sty x)
            ((r.1 % (2 ^ (if f.ty.is64 then 64 else 32) : Nat)).toNat, r.2))
      ∧ gives (.cvtf h f) false f.sty.is64 (f.ty == .f32)
          (fun x => roundVal f.ty m false (finOfInt (intOf f.sty x) 0))))

/-! ## Bolts in registers (spec 05 R157 to R163) -/

/-- R157, R159 to R161: the additions, merges, negation, normal form and fold of register bolts. An addition's poisoned
operand sets S.POISON of the bolt and no trap is taken.
R162, R163: rounding, status, comparison, exponent and scaled fixing of register bolts. A poisoned bolt gives a poisoned
result, but a trap in `bcmp`. -/
def Obligations.BoltRegisterOperations : Prop :=
   (∀ (s : State) (h : Ctl) (d a b : Opnd) (k : Skein),
      let c := s.iss h k
      let n := c.lanes.length
      d.isBolt = true →
        (s.mayIssue h { d := regsOf d 24 } k = true →
          ComputesB (.bzero h d) s s h { d := regsOf d 24 } k [] d .uniform fun _ => Bolt.zero)
        ∧ (∀ ty : Ty,
            let x := c.single [] a
            let u : Uses := { a := regsOf a 1, d := regsOf d 24 }
            s.mayIssue h u k = true →
              ComputesB (.badd h { ty := ty, d := d, a := a }) s s h u k [(10, (if Ty.isX2 ty then 2 else 1) * n)] d
                (tagU [c.boltTag d, x.tag]) fun l =>
                  ((laneVals ty (x.val l).toNat).map addendOf).foldl (fun z y => boltAdd z y (x.poi l)) (c.bolt d l))
        ∧ (∀ (ty : Ty) (e : BitVec 24),
            let x := c.opnd ty.is64 [] a
            let u : Uses := { a := regsOf a (nRegs ty), d := regsOf d 24 }
            s.mayIssue h u k = true →
              ComputesB (.baddi h { ty := ty, d := d, a := a, e := e }) s s h u k [(10, n)] d (tagU [c.boltTag d, x.tag])
                fun l => boltAdd (c.bolt d l) (.fin (x.int ty l * (2 ^ (e.toInt + 300).toNat : Nat))) (x.poi l))
        ∧ (let u : Uses := { a := regsOf a 24, b := regsOf b 24, d := regsOf d 24 }
           s.mayIssue h u k = true →
            ComputesB (.bmerge h d a b) s s h u k [(10, n)] d (tagU [c.boltTag a, c.boltTag b])
              fun l => boltMerge (c.bolt a l) (c.bolt b l))
        ∧ (let u : Uses := { a := regsOf a 24, d := regsOf d 24 }
           s.mayIssue h u k = true →
            ComputesB (.bneg h d a) s s h u k [] d (c.boltTag a) (fun l => boltNeg (c.bolt a l))
            ∧ ComputesB (.bnorm h d a) s s h u k [] d (c.boltTag a) (fun l => boltNorm (c.bolt a l))
            ∧ ComputesB (.bfold h d a) s s h u k [(10, n)] d .uniform
                (fun _ => boltNorm ((c.lanes.map (c.bolt a)).foldl boltMerge Bolt.zero))))
 ∧ (∀ (s : State) (h : Ctl) (d a b : Opnd) (k : Skein),
      let c := s.iss h k
      let n := c.lanes.length
      let z := c.bolt a
      (∀ (ty : Ty) (rm : Rm) (sat : Bool),
        let u : Uses := { a := regsOf a 24, d := regsOf d 1 }
        d.isReg = true → ty.isRnd = true → s.mayIssue h u k = true →
          ComputesF (.brnd h { ty := ty, rm := rm, sat := sat, d := d, a := a }) s h u k
            [(if ty == .f32 then 8 else 9, n)] false d (c.boltTag a) (fun l => boltRound ty (Rm.num rm k.fpcsr) sat (z l))
            fun l => (z l).poison)
      ∧ (let u : Uses := { a := regsOf a 24, d := regsOf d 1 }
         d.isReg = true → s.mayIssue h u k = true →
          Computes (.bstat h d a) s h u k [] false d (c.boltTag a) (fun l =>
            BitVec.ofNat 64 (boltS (z l) + (if boltValue (z l) = 0 then 16 else 0) + if boltValue (z l) < 0 then 32 else 0))
          ∧ Computes (.bexp h d a) s h u k [] false d (c.boltTag a) (fun l =>
              ((match boltClass (z l) with
                | .fin _ _ _ =>
                  if boltValue (z l) = 0 then (0x80000000 : Word)
                  else BitVec.ofInt 32 ((bitLen (boltValue (z l)).natAbs : Int) - 1 - 300)
                | _ => 0x7FFFFFFF) : Word).setWidth 64) fun l => (z l).poison)
      ∧ (∀ (cc : ICond),
          let u : Uses := { a := regsOf a 24, b := regsOf b 24 }
          d.isPredDst = true → s.mayIssue h u k = true → c.clean [fun l => (z l).poison, fun l => (c.bolt b l).poison] = true →
            Decides (.bcmp h { cc := cc, p := d, a := a, b := b }) s h u k [] d fun l =>
              match boltClass (z l), boltClass (c.bolt b l) with
              | .nan _, _ => cc == .ne
              | _, .nan _ => cc == .ne
              | x, y => icond cc (cmpVal x y) 0)
      ∧ (∀ (ty : Ty) (rm : Rm),
          let q := c.single [] b
          let u : Uses := { a := regsOf a 24, b := regsOf b 1, d := regsOf d (nRegs ty) }
          let r := fun l => fixInt ty (Rm.num rm k.fpcsr) (z l) (q.int .i32 l)
          d.isData ty = true → s.mayIssue h u k = true → c.clean [q.poi] = true →
            ComputesF (.bfix h { ty := ty, rm := rm, d := d, a := a, b := b }) s h u k [(13, n)] ty.is64 d
              (tagU [c.boltTag a, q.tag]) (fun l => (((r l).1 % (2 ^ 64 : Nat)).toNat, (r l).2)) fun l => (z l).poison))

/-- R159, R160, R176, R399: `bmac` and `bdot` are heavy operations. Where the core's allowance grants the ask at once, they
complete with the products of each active lane added, and the ask is deducted from the allowance. -/
def Obligations.BoltProducts : Prop :=
  ∀ (s : State) (h : Ctl) (ty : Ty) (d a b e : Opnd) (mx : Bool) (k : Skein),
    let c := s.iss h k
    let x := c.single [] a
    let y := c.single [a] b
    d.isBolt = true →
      (let u : Uses := { a := regsOf a 1, b := regsOf b 1, d := regsOf d 24 }
       let n := (if Ty.isX2 ty then 2 else 1) * c.lanes.length
       s.mayIssue h u k = true → s.leaveAtOnce k n →
        ComputesB (.bmac h { ty := ty, d := d, a := a, b := b }) s (s.charged k n) h u k [(10, n), (macCounter ty, n)] d
          (tagU [c.boltTag d, x.tag, y.tag]) fun l =>
            (List.zipWith productOf (laneVals ty (x.val l).toNat) (laneVals ty (y.val l).toNat)).foldl
              (fun z q => boltAdd z q (x.poi l || y.poi l)) (c.bolt d l))
      ∧ (let w := c.single [a, b] e
         let u : Uses := { a := regsOf a 1, b := regsOf b 1, c := if mx then regsOf e 1 else [], d := regsOf d 24 }
         let n := dotN ty * c.lanes.length
         s.mayIssue h u k = true → s.leaveAtOnce k n →
          ComputesB (.bdot h { ty := ty, mx := mx, d := d, a := a, b := b, c := e }) s (s.charged k n) h u k
            [(10, n), (macCounter ty, n)] d (tagU ([c.boltTag d, x.tag, y.tag] ++ if mx then [w.tag] else [])) fun l =>
              let sa := if mx then some ((w.val l).toNat % 256) else none
              let sb := if mx then some ((w.val l).toNat / 256 % 256) else none
              (List.range (dotN ty)).foldl
                (fun z j => boltAdd z (productOf (packedElem ty (x.val l).toNat j sa) (packedElem ty (y.val l).toNat j sb))
                  (x.poi l || y.poi l || (mx && w.poi l))) (c.bolt d l))

/-- R73, R75, R78, R79, R83: what the bolt is for. An addition adds its addend to the value and a merge adds the values,
modulo 2^640; the normal form keeps the value and is fixed by it; the status bits gather. -/
def Obligations.BoltSums : Prop :=
  (∀ (b : Bolt) (q : Int) (p : Bool), b.dig.length = 10 → b.car.length = 10 →
    boltValue (boltAdd b (.fin q) p) = wrap640 (boltValue b + q)
    ∧ (boltAdd b (.fin q) p).poison = (b.poison || p) ∧ (boltAdd b (.fin q) p).nan = b.nan
    ∧ (boltAdd b (.fin q) p).pinf = b.pinf ∧ (boltAdd b (.fin q) p).ninf = b.ninf)
  ∧ (∀ a b : Bolt, a.dig.length = 10 → a.car.length = 10 → b.dig.length = 10 → b.car.length = 10 →
    boltValue (boltMerge a b) = wrap640 (boltValue a + boltValue b)
    ∧ boltS (boltMerge a b) = (boltS a ||| boltS b)
    ∧ boltNorm (boltMerge a b) = boltNorm (boltMerge b a))
  ∧ (∀ b : Bolt, b.dig.length = 10 → b.car.length = 10 →
    boltValue (boltNorm b) = boltValue b ∧ (boltNorm b).car = List.replicate 10 0 ∧ boltS (boltNorm b) = boltS b)
  ∧ (∀ a b : Bolt, a.dig.length = 10 → a.car.length = 10 → b.dig.length = 10 → b.car.length = 10 →
    boltValue a = boltValue b → boltS a = boltS b → boltNorm a = boltNorm b)


/-! ## Halls (spec 07 R193 to R205, R207, R209) -/

/-- R193, R194, R197, R199: loads and stores of a hall. The value is extended to its register, a store's highest lane
remains, a word written whole is no longer poisoned, and no other byte of either hall changes. -/
def Obligations.HallLoadsAndStores : Prop :=
  ∀ (s : State) (h : Ctl) (f : HallLS) (k : Skein),
    let c := s.iss h k
    let u := HallLS.uses f
    let n := accBytes f.ty
    let ea := c.hallEa f.a f.off
    f.d.isData f.ty = true → s.mayIssue h u k = true → (∀ l ∈ c.lanes, ea l % n = 0 ∧ ea l + n ≤ c.hallLen f.w) →
      (c.clean [(c.single [] f.a).poi, c.offPoison f.off] = true →
        Computes (.ldh h f) s h u k [] f.ty.is64 f.d (c.hallTag f.a f.off)
          (fun l => loaded f.ty (c.b.hallNat f.w (ea l) n)) fun l => c.b.hallBad f.w (ea l) n)
      ∧ (let d := c.opnd f.ty.is64 [] f.d
         c.clean [(c.single [] f.a).poi, c.offPoison f.off, d.poi] = true →
          ∃ t k' b', exec (.sth h f) s = .next t ∧ LaneStep s t h u u.readsClock false (fun _ => b') [] k k'
            ∧ k'.regs = k.regs ∧ k'.preds = k.preds ∧ k'.fpcsr = k.fpcsr
            ∧ b' = { c.b with
                hallA := b'.hallA, hallW := b'.hallW, poisonA := b'.poisonA, poisonW := b'.poisonW, past := b'.past }
            ∧ (c.b.reading = 0 → b'.past = c.b.past)
            ∧ b'.hall (!f.w) = c.b.hall (!f.w) ∧ b'.hallPoison (!f.w) = c.b.hallPoison (!f.w)
            ∧ (∀ a, Mem.get (b'.hall f.w) a =
                match lastStorer c.lanes ea n a with
                | some l => (leBytes n (d.val l).toNat).getD (a - ea l) 0
                | none => Mem.get (c.b.hall f.w) a)
            ∧ ∀ i, i ∈ b'.hallPoison f.w ↔
                i ∈ c.b.hallPoison f.w ∧ ¬ ∃ l ∈ c.lanes, ea l ≤ 4 * i ∧ 4 * i + 4 ≤ ea l + n)

/-- R200, R201, R204: full/empty words of hall A. `ldf` waits for full words and empties them, `ldw` leaves them full, `ste`
waits for empty words and fills them, and `fe` sets a range; where the condition does not hold in every lane, the skein
parks at the instruction and nothing else changes. -/
def Obligations.FullEmptyWords : Prop :=
  (∀ (s : State) (h : Ctl) (f : FeLS) (k : Skein),
    let c := s.iss h k
    let u := FeLS.uses f
    let ea := c.hallEa f.a f.off
    let word := fun l => c.b.hallNat false (ea l) 4
    let bad := fun l => c.b.hallBad false (ea l) 4
    let named := fun w => decide (∃ l ∈ c.lanes, ea l / 4 = w)
    let full := fun w => c.b.full.contains w
    f.ty.isInt = true → Ty.bits f.ty = 32 → f.d.isReg = true → s.mayIssue h u k = true →
      (∀ l ∈ c.lanes, ea l % 4 = 0 ∧ ea l + 4 ≤ c.hallLen false) →
      (c.clean [(c.single [] f.a).poi, c.offPoison f.off] = true →
        ((∀ l ∈ c.lanes, full (ea l / 4) = true) →
          Computes (.ldw h f) s h u k [] false f.d (c.hallTag f.a f.off) (fun l => BitVec.ofNat 64 (word l)) bad
          ∧ ∃ t k' b', exec (.ldf h f) s = .next t ∧ LaneStep s t h u u.readsClock false (fun _ => b') [] k k'
              ∧ RegsWritten c k' (fun _ => c.hallTag f.a f.off) (fun _ => bad)
                  (destRegs false f.d fun l => BitVec.ofNat 64 (word l))
              ∧ k'.preds = k.preds ∧ k'.fpcsr = k.fpcsr ∧ b' = { c.b with full := b'.full }
              ∧ ∀ w, b'.full.contains w = (full w && !named w))
        ∧ ((∃ l ∈ c.lanes, full (ea l / 4) = false) →
            exec (.ldf h f) s = .next (s.modSkein s.cur fun x => { x with
              park := .word (k.waited.getD s.clk) c.low (c.lanes.map ea) true })))
      ∧ (let d := c.single [] f.d
         c.clean [(c.single [] f.a).poi, c.offPoison f.off, d.poi] = true → s.settled k = true →
          (∀ l ∈ c.lanes, full (ea l / 4) = false) →
            ∃ t k' b', exec (.ste h f) s = .next t ∧ LaneStep s t h u u.readsClock false (fun _ => b') [] k k'
              ∧ k'.regs = k.regs ∧ k'.preds = k.preds ∧ k'.fpcsr = k.fpcsr
              ∧ b' = { c.b with hallA := b'.hallA, poisonA := b'.poisonA, full := b'.full, past := b'.past }
              ∧ (c.b.reading = 0 → b'.past = c.b.past)
              ∧ (∀ a, Mem.get b'.hallA a =
                  match lastStorer c.lanes ea 4 a with
                  | some l => (leBytes 4 (d.val l).toNat).getD (a - ea l) 0
                  | none => Mem.get c.b.hallA a)
              ∧ ∀ w, b'.full.contains w = (full w || named w)))
  ∧ (∀ (s : State) (h : Ctl) (fill : Bool) (a : Opnd) (b : SrcImm) (k : Skein),
    let c := s.iss h k
    let u : Uses := { a := regsOf a 1, b := regsOfImm b 1, hall := true }
    let x := c.lowNat a
    let n := c.lowImm false b [a]
    s.mayIssue h u k = true → s.settled k = true →
      c.clean [fun _ => (c.single [] a).poi c.low, fun _ => (c.srcImm false false [] b).poi c.low] = true →
      x % 4 = 0 → n % 4 = 0 → x + n ≤ c.hallLen false →
        ∃ t k' b', exec (.fe h fill a b) s = .next t ∧ LaneStep s t h u u.readsClock false (fun _ => b') [] k k'
          ∧ k'.regs = k.regs ∧ k'.preds = k.preds ∧ k'.fpcsr = k.fpcsr ∧ b' = { c.b with full := b'.full }
          ∧ ∀ w, b'.full.contains w = if x ≤ 4 * w ∧ 4 * w < x + n then fill else c.b.full.contains w)

/-- R207, R209: `amoh` applies its lanes to hall A one after another and returns each lane's old value. -/
def Obligations.HallAtomics : Prop :=
  ∀ (s : State) (h : Ctl) (f : Amo) (k : Skein),
    let c := s.iss h k
    let u := Amo.uses f 1
    let n := accBytes f.ty
    let ea := c.hallEa f.a (.imm 0)
    let b := c.opnd f.ty.is64 [f.a] f.b
    let e := c.opnd f.ty.is64 [] f.d
    let after := amoAfter f.op f.ty ea (fun l => (b.val l).toNat) (fun l => (e.val l).toNat) c.b.hallA
    (f.ret = true → f.d.isData f.ty = true) → s.mayIssue h u k = true →
      c.clean [(c.single [] f.a).poi, b.poi, fun l => f.op == .cas && e.poi l] = true →
      (∀ l ∈ c.lanes, ea l % n = 0 ∧ ea l + n ≤ c.hallLen false ∧ c.b.hallBad false (ea l) n = false) →
      (Order.releases f.ord = true → s.settled k = true) →
        ∃ t k' b', exec (.amoh h f) s = .next t
          ∧ LaneStep s t h u u.readsClock false (fun _ => b') [(13, c.lanes.length)] k k'
          ∧ RegsWritten c k' (fun _ => .general) (fun _ _ => false) (if f.ret then destRegs f.ty.is64 f.d fun l =>
              BitVec.ofNat 64 (Mem.nat (after (lanesBefore c.lanes l)) (ea l) n) else [])
          ∧ k'.preds = k.preds ∧ k'.fpcsr = k.fpcsr
          ∧ b' = { c.b with hallA := b'.hallA, poisonA := b'.poisonA, past := b'.past }
          ∧ (c.b.reading = 0 → b'.past = c.b.past)
          ∧ ∀ a, Mem.get b'.hallA a = Mem.get (after c.lanes) a

/-! ## Global memory (spec 07 R190 to R199, R206 to R208, R210, 09 R252, R255) -/

/-- R190, R193, R195, R199, R255: a load whose lanes translate is put under way, where the core holds no write of its lines
that must be performed first. Each of its lines is bound to a copy that the core holds or asked for at its home, the bytes that
the core's buffer holds are bound with them, its flag is raised, and no register and no byte of memory changes yet. Where a lane
does not translate, the skein parks for the walk instead. -/
def Obligations.GlobalLoads : Prop :=
  ∀ (s : State) (h : Ctl) (f : LdSt) (k : Skein),
    let c := s.iss h k
    let u : Uses := { a := regsOf f.a 2, b := regsOfOff f.off, d := regsOf f.d (nRegs f.ty) }
    let ea := c.ea f.a f.off
    s.mayIssue h u k = true → c.clean [(c.pair f.a).poi, c.offPoison f.off] = true →
      (∀ l ∈ c.lanes, (ea l).toNat % accBytes f.ty = 0) →
      (∀ p : Nat → Phys, s.settled k = true → c.reaches .load ea p → s.tooMany k.core c.lanes.length = false →
        (∀ l ∈ c.lanes, s.unsettled k.core (accBytes f.ty) (f.ord != .weak) (c.lanes.map fun j => (j, p j))
          ((p l).pa / 128) = false) →
        (f.promote = true → ∀ l ∈ c.lanes, (s.homeLine ((p l).pa / 128)).relCore = none) →
        CompletesOver (.ld h f) s h u false id [] fun m k0 k' =>
          k'.regs = k.regs ∧ k'.preds = k.preds ∧ k'.fpcsr = k.fpcsr
          ∧ (∀ g, k'.flag g = k.flag g + if Ctl.flag h == some g then 1 else 0)
          ∧ Served s ({ m with nextId := s.nextId }.modCore k.core fun x => { x with seq := (s.core k.core).seq }) k.core
          ∧ m.nextId = s.nextId + 1 ∧ m.mem = s.mem ∧ m.memPoison = s.memPoison ∧ m.lines = s.lines
          ∧ ∃ o, k0 = { k with loads := [o], flags := k'.flags } ∧ o.id = s.nextId ∧ o.dst = opIdx f.d ∧ o.ty = f.ty
            ∧ o.flag = Ctl.flag h ∧ o.olds = [] ∧ o.bolt = false ∧ o.noDst = false
            ∧ o.acq = Order.acquires f.ord ∧ o.strong = (f.ord != .weak)
            ∧ o.overlay = s.overlay k.core ((c.lanes.map fun l => (p l).pa / 128).eraseDups)
            ∧ o.lanes = c.lanes.map (fun l => ⟨l, (p l).pa, (p l).att⟩)
            ∧ ∀ l ∈ c.lanes, (∃ g ∈ o.got, g.la = (p l).pa / 128 ∧ g.att = (p l).att)
                ∨ ∃ r, .homeLoad r ∈ m.pending ∧ (r, s.gt) ∈ o.asked ∧ r.op = s.nextId ∧ r.sk = s.cur ∧ r.core = k.core
                  ∧ r.la = (p l).pa / 128 ∧ r.cached = (p l).cached ∧ r.bolt = (p l).bolt)
      ∧ (∀ l e, c.lanes.head? = some l → s.translate k.ctx k.core (ea l) .load = .error e →
          exec (.ld h f) s = .next ((s.postOnce (.translationWalk s.cur (ea l) .load)).modSkein s.cur fun x =>
            { x with park := .walk (ea l) .load (some l) }))

/-- R193, R194, R195, R252: a store whose lanes translate, in a grid without digests. Its bytes stand in the core's buffer
under its lines, the highest lane's where lanes meet, and are on their way to the homes; no register and no byte of memory
changes yet.
R390, R391: at level 1 and 2 the words that a store commits are added to the digest of the open span, or of the
block. -/
def Obligations.GlobalStoresAndDigests : Prop :=
   (∀ (s : State) (h : Ctl) (f : LdSt) (k : Skein) (p : Nat → Phys),
      let c := s.iss h k
      let u : Uses := { a := regsOf f.a 2, b := regsOfOff f.off, d := regsOf f.d (nRegs f.ty) }
      let n := accBytes f.ty
      let ea := c.ea f.a f.off
      let d := c.opnd f.ty.is64 [] f.d
      f.ty.isInt = true → s.mayIssue h u k = true → c.clean [(c.pair f.a).poi, c.offPoison f.off, d.poi] = true →
        (∀ l ∈ c.lanes, (ea l).toNat % n = 0) → s.settled k = true → c.reaches .store ea p → c.g.level = 0 →
        (s.core k.core).scb.length + c.lanes.length ≤ 64 → (∀ l ∈ c.lanes, (p l).pa % n = 0) →
        (∀ l ∈ c.lanes, (f.ord ≠ .weak ∨ hostLine ((p l).pa / 128) = true) → s.plainLine k.core ((p l).pa / 128) = true) →
          CompletesOver (.st h f) s h u false id [] fun m k0 k' =>
            k0 = { k with flags := k'.flags } ∧ k'.regs = k.regs ∧ k'.preds = k.preds ∧ k'.fpcsr = k.fpcsr
            ∧ (∀ g, k'.flag g = k.flag g + if Ctl.flag h == some g then 1 else 0)
            ∧ Served s ({ m with nextId := s.nextId }.modCore k.core fun x => { x with scb := (s.core k.core).scb }) k.core
            ∧ m.nextId = s.nextId + 1 ∧ m.mem = s.mem ∧ m.memPoison = s.memPoison ∧ m.lines = s.lines
            ∧ ∀ l ∈ c.lanes, (∀ j ∈ c.lanes, l < j → (p j).pa ≠ (p l).pa) →
                ∃ e ∈ (m.core k.core).scb, e.la = (p l).pa / 128 ∧ s.cur ∈ e.writers
                  ∧ (e.ctx = k.ctx ∨ ∃ x ∈ (s.core k.core).scb, x.la = e.la ∧ x.ctx = e.ctx)
                  ∧ (∀ b ∈ cellsAt (p l).pa (leBytes n (d.val l).toNat), b ∈ e.bytes)
                  ∧ ((∃ x ∈ (s.core k.core).scb, x.la = e.la) ∨ .scbDrain k.core e.la ∈ m.pending ∨ ∃ r, .homeWrite r ∈ m.pending ∧ r.core = k.core ∧ r.la = e.la
                      ∧ r.bytes = e.bytes))
 ∧ (∀ (s : State) (h : Ctl) (f : LdSt) (k : Skein) (p : Nat → Phys) (b : Block),
      let c := s.iss h k
      let u : Uses := { a := regsOf f.a 2, b := regsOfOff f.off, d := regsOf f.d (nRegs f.ty) }
      let ea := c.ea f.a f.off
      let d := c.opnd f.ty.is64 [] f.d
      let word := fun (a : DWord) (x : Nat) => (a ^^^ (BitVec.ofNat 64 x).rotateLeft 17) * 0x9E3779B97F4A7C15
      let sum := (c.lanes.map fun l => if Ty.bits f.ty = 64
        then word (ea l) ((d.val l).toNat % 2 ^ 32) + word (ea l + 4) ((d.val l).toNat / 2 ^ 32)
        else word (ea l) ((d.val l).toNat % 2 ^ Ty.bits f.ty)).foldl (· + ·) 0
      f.ty.isInt = true → f.ord = .weak → s.mayIssue h u k = true →
        c.clean [(c.pair f.a).poi, c.offPoison f.off, d.poi] = true → (∀ l ∈ c.lanes, (ea l).toNat % accBytes f.ty = 0) →
        s.settled k = true → c.reaches .store ea p → (∀ l ∈ c.lanes, ∀ j ∈ c.lanes, l ≠ j → (p l).pa ≠ (p j).pa) →
        c.g.level = 1 → (s.core k.core).scb.length + c.lanes.length ≤ 64 → tget s.blocks k.blk = some b →
          ∃ t k' b', exec (.st h f) s = .next t ∧ tget t.skeins s.cur = some k' ∧ tget t.blocks k.blk = some b'
            ∧ k'.task.digest = (if k.task.isOpen then k.task.digest + sum else k.task.digest)
            ∧ b'.digest = (if k.task.isOpen then b.digest else b.digest + sum))

/-- R206, R207, R255: an atomic in a grid without digests. Its lanes act at the home one after another in ascending order,
each returns the old value of its turn, and no other byte of memory changes. -/
def Obligations.GlobalAtomics : Prop :=
  ∀ (s : State) (h : Ctl) (f : Amo) (k : Skein) (p : Nat → Phys),
    let c := s.iss h k
    let u := Amo.uses f 2
    let n := accBytes f.ty
    let ea := (c.pair f.a).val
    let b := c.opnd f.ty.is64 [] f.b
    let e := c.opnd f.ty.is64 [] f.d
    let pa := fun l => (p l).pa
    let after := amoAfter f.op f.ty pa (fun l => (b.val l).toNat) (fun l => (e.val l).toNat) s.mem
    f.ty.isAlu = true → (f.ret = true → f.d.isData f.ty = true) → s.mayIssue h u k = true →
      c.clean [(c.pair f.a).poi, b.poi, fun l => f.op == .cas && e.poi l] = true →
      (∀ l ∈ c.lanes, (ea l).toNat % n = 0) → s.settled k = true → c.reaches .atomic ea p → c.g.level = 0 →
      (∀ l ∈ c.lanes, pa l % n = 0 ∧ s.plainLine k.core (pa l / 128) = true ∧ (p l).bolt = false ∧ poisonedAt s.memPoison (pa l) n = false
        ∧ (f.promote = true → (s.homeLine (pa l / 128)).relCore = none)) →
        CompletesOver (.amo h f) s h u false id [(13, c.lanes.length)] fun m k0 k' =>
          k0 = k ∧ k'.preds = k.preds ∧ k'.fpcsr = k.fpcsr ∧ Served s m k.core
          ∧ RegsWritten c k' (fun _ => .general) (fun _ _ => false) (if f.ret then destRegs f.ty.is64 f.d fun l =>
              BitVec.ofNat 64 (Mem.nat (after (lanesBefore c.lanes l)) (pa l) n) else [])
          ∧ ∀ a, Mem.get m.mem a = Mem.get (after c.lanes) a

/-- R210: the hints never trap and write no register and no byte of memory, whatever their addresses. A `pref` of one line
leaves a leased copy in the core; after a `cflush` the core holds no copy of its lines, and under device or system scope
their homes hold nothing that HBM does not. -/
def Obligations.HintsAndFlushes : Prop :=
  ∀ (s : State) (h : Ctl) (a : Opnd) (off : Offset) (k : Skein),
    let c := s.iss h k
    let u : Uses := { a := regsOf a 2, b := regsOfOff off }
    let named := fun (l : Nat) (p : Phys) => l ∈ c.lanes ∧ (c.pair a).poi l = false ∧ c.offPoison off l = false
      ∧ s.translate k.ctx k.core (c.ea a off l) .load = .ok p
    s.mayIssue h u k = true → s.settled k = true →
      (∀ l p, named l p → s.plainLine k.core (p.pa / 128) = true) →
      (∀ l2 : Bool,
        CompletesOver (.pref h l2 a off) s h u false id [] fun m k0 k' =>
          k0 = k ∧ k'.regs = k.regs ∧ k'.preds = k.preds ∧ k'.fpcsr = k.fpcsr ∧ Served s m k.core ∧ m.mem = s.mem
          ∧ ∀ l p, named l p → c.lanes = [l] → l2 = false → p.cached = true → p.bolt = false →
              (s.core k.core).l1.length + (s.core k.core).merges.length < 4096 →
              (tget (m.core k.core).l1 (p.pa / 128)).isSome = true)
      ∧ ∀ scope : Scope,
        CompletesOver (.cflush h scope a off) s h u false id [] fun m k0 k' =>
          k0 = k ∧ k'.regs = k.regs ∧ k'.preds = k.preds ∧ k'.fpcsr = k.fpcsr ∧ Served s m k.core ∧ m.mem = s.mem
          ∧ ∀ l p, named l p → tget (m.core k.core).l1 (p.pa / 128) = none
            ∧ ((scope = .device ∨ scope = .system) →
                ∀ x, tget m.lines (p.pa / 128) = some x → x.dirty = none)

/-! ## Bolts in memory (spec 05 R164 to R168, 09 R258) -/

/-- R85, R157, R164, R252: a `bld` is put under way: each of its lines is asked for at its home as a BOLT line, its flag is
raised, and no register changes yet. A `bst` puts lines in normal form with count 0 into the core's buffer, where they wait to
go to their homes; no byte of memory changes yet.
R165, R258: `bamo` adds what each lane brings to the bolt of its line, at the home or in the partial that the core
holds, and counts the addition; under RET a lane returns the line's normal form. No other byte of memory changes. -/
def Obligations.BoltMemory : Prop :=
   (∀ (s : State) (h : Ctl) (d a : Opnd) (k : Skein) (p : Nat → Phys),
      let c := s.iss h k
      let va := (c.pair a).val
      let la := fun l => (p l).pa / 128
      c.clean [(c.pair a).poi] = true → (∀ l ∈ c.lanes, (va l).toNat % 128 = 0) → s.settled k = true →
        (∀ l ∈ c.lanes, (p l).boltPage = true ∧ (p l).pa % 128 = 0 ∧ s.plainLine k.core (la l) = true) →
        (let u : Uses := { a := regsOf a 2, d := regsOf d 24 }
         d.isBolt = true → s.mayIssue h u k = true → c.reaches .load va p → s.tooMany k.core c.lanes.length = false →
          CompletesOver (.bld h d a) s h u false id [] fun m k0 k' =>
            k'.regs = k.regs ∧ k'.preds = k.preds ∧ k'.fpcsr = k.fpcsr
            ∧ (∀ g, k'.flag g = k.flag g + if Ctl.flag h == some g then 1 else 0)
            ∧ Served s ({ m with nextId := s.nextId }.modCore k.core fun x => { x with seq := (s.core k.core).seq }) k.core
            ∧ m.nextId = s.nextId + 1 ∧ m.mem = s.mem ∧ m.memPoison = s.memPoison ∧ m.lines = s.lines
            ∧ ∃ o, k0 = { k with loads := [o], flags := k'.flags } ∧ o.id = s.nextId ∧ o.dst = opIdx d ∧ o.bolt = true
              ∧ o.flag = Ctl.flag h ∧ o.olds = [] ∧ o.got = [] ∧ o.noDst = false
              ∧ o.lanes = c.lanes.map (fun l => ⟨l, (p l).pa, 2⟩)
              ∧ ∀ l ∈ c.lanes, ∃ r, .homeLoad r ∈ m.pending ∧ (r, s.gt) ∈ o.asked ∧ r.op = s.nextId ∧ r.sk = s.cur
                  ∧ r.core = k.core ∧ r.la = la l ∧ r.cached = false ∧ r.bolt = true)
        ∧ (let u : Uses := { a := regsOf a 2, b := regsOf d 24 }
           s.mayIssue h u k = true → c.reaches .store va p → c.g.level = 0 →
           (s.core k.core).scb.length + c.lanes.length ≤ 64 →
            CompletesOver (.bst h a d) s h u false id [] fun m k0 k' =>
              k0 = { k with flags := k'.flags } ∧ k'.regs = k.regs ∧ k'.preds = k.preds ∧ k'.fpcsr = k.fpcsr
              ∧ (∀ g, k'.flag g = k.flag g + if Ctl.flag h == some g then 1 else 0)
              ∧ Served s ({ m with nextId := s.nextId }.modCore k.core fun x => { x with scb := (s.core k.core).scb }) k.core
              ∧ m.nextId = s.nextId + 1 ∧ m.mem = s.mem ∧ m.memPoison = s.memPoison ∧ m.lines = s.lines
              ∧ ∀ l ∈ c.lanes, (∀ j ∈ c.lanes, l < j → la j ≠ la l) →
                  ∃ e ∈ (m.core k.core).scb, e.ctx = k.ctx ∧ e.la = la l ∧ e.writers = [s.cur] ∧ e.sent = false
                    ∧ e.bytes = cellsAt (p l).pa (boltLine (boltNorm (c.bolt d l)) 0)
                    ∧ .scbDrain k.core (la l) ∈ m.pending))
 ∧ (∀ (s : State) (h : Ctl) (f : BAmo) (k : Skein) (p : Nat → Phys),
      let c := s.iss h k
      let u := BAmo.uses f
      let n := c.lanes.length
      let va := (c.pair f.a).val
      let b := c.single [] f.b
      let e := c.single [f.b] f.c
      let la := fun l => (p l).pa / 128
      let add := fun (l : Nat) (z : Bolt) =>
        match f.form with
        | .value => ((laneVals f.ty (b.val l).toNat).map addendOf).foldl (fun z q => boltAdd z q (b.poi l)) z
        | .mul => (List.zipWith productOf (laneVals f.ty (b.val l).toNat) (laneVals f.ty (e.val l).toNat)).foldl
            (fun z q => boltAdd z q (b.poi l || e.poi l)) z
        | .bolt => boltMerge z (c.bolt f.b l)
      let gains := (11, n) :: if f.form = .mul then [(macCounter f.ty, (if Ty.isX2 f.ty then 2 else 1) * n)] else []
      (f.ret = true → f.d.isBolt = true) → s.mayIssue h u k = true → c.clean [(c.pair f.a).poi] = true →
        (∀ l ∈ c.lanes, (va l).toNat % 128 = 0 ∧ (p l).boltPage = true) → s.settled k = true →
        c.reaches .boltAtomic va p → (∀ l ∈ c.lanes, ∀ j ∈ c.lanes, l ≠ j → la l ≠ la j) →
        ((∀ l ∈ c.lanes, s.plainLine k.core (la l) = true) →
          (f.ret = false → (s.core k.core).merges.length + n ≤ 4096) →
          CompletesOver (.bamo h f) s h u false id gains fun m k0 k' =>
            k0 = k ∧ k'.preds = k.preds ∧ k'.fpcsr = k.fpcsr ∧ Served s m k.core
            ∧ RegsWritten c k' (fun _ => .general) (fun _ _ => false) (if f.ret then
                (List.range 24).map fun i => (opIdx f.d + i, fun l => boltWord (boltNorm (m.lineBolt (la l))) i) else [])
            ∧ (∀ l ∈ c.lanes, m.lineBytes (la l) = boltLine (boltNorm (add l (s.lineBolt (la l))))
                (min (countOfLine (s.lineBytes (la l)) + 1) (2 ^ 64 - 1)))
            ∧ ∀ x, (∀ l ∈ c.lanes, la l ≠ x / 128) → Mem.get m.mem x = Mem.get s.mem x)
        ∧ (∀ part : Nat → MergeCopy, f.ret = false →
          (∀ l ∈ c.lanes, (p l).cached = true ∧ s.quietLine k.core (la l) = true
            ∧ tget (s.core k.core).merges (la l) = some (part l)) →
          CompletesOver (.bamo h f) s h u false id gains fun m k0 k' =>
            k0 = k ∧ k'.regs = k.regs ∧ k'.preds = k.preds ∧ k'.fpcsr = k.fpcsr ∧ Served s m k.core ∧ m.mem = s.mem
            ∧ ∀ l ∈ c.lanes, tget (m.core k.core).merges (la l) = some { part l with
                bolt := add l (part l).bolt, count := min ((part l).count + 1) (2 ^ 64 - 1) }))

/-- R178, R180, R183, R189, R252: the tile transfers act on memory and hall C when they issue, with an empty loom before them,
and then stand in loom order until their lines are acknowledged. `msave` writes the 6,144 bolts of a partition, in normal form
with count 0, into the core's buffer or, where that is full, to their homes; under MERGE it merges them into what is at home.
`mload` reads them back; a poisoned line gives S.POISON. -/
def Obligations.TileTransfers : Prop :=
  ∀ (s : State) (h : Ctl) (f : MTile) (k : Skein) (p : Nat → Phys) (i : Nat) (x : Part),
    let c := s.iss h k
    let u : Uses := { a := regsOf f.a 2, b := regsOf f.b 1 }
    let a := ((c.pair f.a).val c.low).toNat
    let st := c.lowNat f.b
    let va := fun j => (BitVec.ofNat 64 (a + j / 96 * st + j % 96 * 128) : DWord)
    let la := fun j => (p j).pa / 128
    let line := fun j => boltLine (boltNorm (x.bolt j)) 0
    s.mayIssue h u k = true → c.clean [fun _ => (c.pair f.a).poi c.low, fun _ => (c.single [] f.b).poi c.low] = true →
      a % 128 = 0 → st % 128 = 0 → s.settled k = true → (s.core k.core).loom = [] → c.part f.p.toNat = some (i, x) →
      c.g.level = 0 → (s.core k.core).scb.length ≤ 64 →
      (∀ j < 6144, (p j).boltPage = true ∧ (p j).pa % 128 = 0 ∧ s.plainLine k.core (la j) = true) →
      ((∀ j < 6144, s.translate k.ctx k.core (va j) .tileStore = .ok (p j)) →
        (f.merge = false →
          Looms (.msave h f) s h u (fun b => b) [] k .lines fun m =>
            let held := fun n => (m.core k.core).scb.any fun e => e.la == n
            Served s (m.modCore k.core fun y => { y with scb := (s.core k.core).scb }) k.core
            ∧ (∀ y, Mem.get m.mem y =
                match lastStorer (List.range 6144) (fun j => (p j).pa) 128 y with
                | some j => if held (la j) then Mem.get s.mem y else (line j).getD (y - (p j).pa) 0
                | none => Mem.get s.mem y)
            ∧ ∀ j < 6144, (∀ l < 6144, j < l → la l ≠ la j) → held (la j) = true →
                ∃ e ∈ (m.core k.core).scb, e.la = la j ∧ e.writers = [s.cur] ∧ e.sent = false
                  ∧ (∀ y, y ∈ e.bytes ↔ y ∈ cellsAt (p j).pa (line j)) ∧ .scbDrain k.core (la j) ∈ m.pending)
        ∧ (f.merge = true → (∀ j < 6144, ∀ l < 6144, l ≠ j → la l ≠ la j) →
          ((∀ j < 6144, (p j).cached = false) ∨ (s.core k.core).merges = []) →
          Looms (.msave h f) s h u (fun b => b) [(11, 6144)] k .lines fun m =>
            Served s m k.core
            ∧ (∀ j < 6144, m.lineBytes (la j) = boltLine (boltNorm (boltMerge (s.lineBolt (la j)) (x.bolt j)))
                (min (countOfLine (s.lineBytes (la j)) + 1) (2 ^ 64 - 1)))
            ∧ ∀ y, (∀ j < 6144, la j ≠ y / 128) → Mem.get m.mem y = Mem.get s.mem y))
      ∧ ((∀ j < 6144, s.translate k.ctx k.core (va j) .tile = .ok (p j)) →
        Looms (.mload h f) s h u (fun b => b) [] k .lines fun m =>
          m.mem = s.mem ∧ Served s (m.modCore k.core fun y => { y with hallc := (s.core k.core).hallc }) k.core
          ∧ ∃ bs, (m.core k.core).hallc = tput (s.core k.core).hallc i { x with bolts := bs }
            ∧ ∀ j < 6144, boltAt bs j =
                let z := boltNorm (boltOfLine (s.lineBytes (la j)))
                if poisonedAt s.memPoison (la j * 128) 128 then { z with poison := true } else z)

/-! ## Tiles and quantisation (spec 06 R171 to R177, R185 to R188) -/

/-- R46, R171, R174 to R177, R180: maps, and the issue of tile products, of zeroing and of merging of partitions. A map slot is
written at once. The others are checked and counted, a product takes its maps and the rows of map A with it, under gathering
without the rows whose number is 0xFFFF, and each takes the last place in loom order; nothing else changes before it lands. -/
def Obligations.MapsAndTileProducts : Prop :=
  (∀ (s : State) (h : Ctl) (f : MMap) (k : Skein),
    let c := s.iss h k
    let u : Uses := { a := regsOf f.a 1, b := regsOf f.b 1, c := if f.idx then regsOf f.c 1 else [] }
    let al := match f.ty with
      | .f32 => 4
      | .f16 | .bf16 => 2
      | _ => 1
    let stride := c.lowNat f.b [f.a]
    let list := c.lowNat f.c [f.a, f.b]
    s.mayIssue h u k = true →
      c.clean [fun _ => (c.single [] f.a).poi c.low, fun _ => (c.single [] f.b).poi c.low,
        fun _ => f.idx && (c.single [] f.c).poi c.low] = true →
      c.lowNat f.a % al = 0 → stride % al = 0 → (f.idx = true → list % 4 = 0) →
        CompletesOver (.mmap h f) s h u true id [] fun m k0 k' =>
          m = s ∧ k0 = { k with maps := k'.maps } ∧ k'.regs = k.regs ∧ k'.preds = k.preds ∧ k'.fpcsr = k.fpcsr
          ∧ tget k'.maps (opIdx f.m) = some {
              ty := f.ty, hallW := f.w, base := BitVec.ofNat 32 (c.lowNat f.a),
              stride := BitVec.ofNat 32 stride, list := if f.idx then some (BitVec.ofNat 32 list) else none }
          ∧ ∀ j, j ≠ opIdx f.m → tget k'.maps j = tget k.maps j)
  ∧ (∀ (s : State) (h : Ctl) (f : Mma) (k : Skein) (gather : Bool) (a b : MapSlot) (i : Nat) (x : Part),
    let c := s.iss h k
    let kb := f.kb.toNat
    let n := 196608 * kb
    let list := (a.list.getD 0).toNat
    let row := fun j => if gather then c.b.hallNat false (list + 2 * j) 2 else j
    let fits := fun (m : MapSlot) (j : Nat) => m.base.toNat + j * m.stride.toNat + kb * blockBytes m.ty ≤ c.hallLen m.hallW
    let skip := fun j => gather && row j == 0xFFFF
    s.mayIssue h { hall := true } k = true → tget k.maps (opIdx f.a) = some a → tget k.maps (opIdx f.b) = some b →
      (gather = true → a.list.isSome = true ∧ list + 128 ≤ c.hallLen false ∧ c.b.hallBad false list 128 = false) →
      ((a.ty.isMx && b.ty.isMx) || a.ty == b.ty) = true → c.part f.p.toNat = some (i, x) →
      (∀ j < 64, skip j = false → fits a (row j)) → (∀ j < 96, fits b j) → s.leaveAtOnce k n →
        Looms (if gather then .mmag h f else .mma h f) s h { hall := true } (fun y => { y with reading := y.reading + 1 })
          [(pairCounter a.ty b.ty, n)] k
          (.mul a b kb ((List.range 64).map fun j => if skip j then none else some (row j)) i)
          fun m => m = s.charged k n)
  ∧ (∀ (s : State) (h : Ctl) (p q : BitVec 2) (k : Skein) (i j : Nat) (x y : Part),
    let c := s.iss h k
    s.mayIssue h {} k = true → c.part p.toNat = some (i, x) → c.part q.toNat = some (j, y) →
      Looms (.mzero h p) s h {} (fun b => b) [] k (.zero i) (fun m => m = s)
      ∧ Looms (.mmerge h p q) s h {} (fun b => b) [(10, 6144)] k (.merge i j) fun m => m = s)

/-- R176, R177, R180: `mrnd` is checked and counted, and takes the last place in loom order with its mode and its place in
hall A; neither hall changes before it lands.
R185 to R188: quantisation of groups of 32 lanes into MX blocks of hall A, the scale byte alone, and the way back. An
inactive lane counts as +0. -/
def Obligations.RoundingAndQuantisation : Prop :=
   (∀ (s : State) (h : Ctl) (f : MRnd) (k : Skein) (i : Nat) (x : Part),
      let c := s.iss h k
      let u : Uses := { a := regsOf f.a 1, b := regsOf f.b 1, hall := true }
      let a := c.lowNat f.a
      let st := c.lowNat f.b [f.a]
      let size := match f.ty with
        | .f32 => 4
        | .f16 | .bf16 => 2
        | _ => 1
      s.mayIssue h u k = true → c.clean [fun _ => (c.single [] f.a).poi c.low, fun _ => (c.single [] f.b).poi c.low] = true →
        a % size = 0 → st % size = 0 → c.part f.p.toNat = some (i, x) →
        (∀ j < 64, a + j * st + 96 * size ≤ c.hallLen false) →
          Looms (.mrnd h f) s h u (fun b => b) [(if f.ty == .f32 then 8 else 9, 6144)] k
            (.round f.ty (Rm.num f.rm k.fpcsr) f.sat a st i none) fun m => m = s)
 ∧ ((∀ (s : State) (h : Ctl) (ty : Ty) (d a : Opnd) (k : Skein),
      let c := s.iss h k
      let u : Uses := { a := regsOf a 1, d := regsOf d 1 }
      let x := c.single [] a
      let vals := fun g => (List.range 32).map fun j =>
        if Mask.has c.act (32 * g + j) then valOf .f32 ((x.val (32 * g + j)).toNat % 2 ^ 32) else .fin false 0 0
      d.isReg = true → 32 ≤ k.width → k.width % 32 = 0 →
        (s.mayIssue h u k = true → c.clean [x.poi] = true →
          Computes (.qscale h ty d a) s h u k [(8, c.lanes.length)] false d (if k.width = 32 then .uniform else .general)
            fun l => ((BitVec.ofNat 32 (match mxScale ty (vals (l / 32)) with
              | none => 255
              | some e => (e + 127).toNat) : Word).setWidth 64))
        ∧ (let off := c.lowNat a
           let m : MapSlot := { ty := ty, hallW := false, base := 0, stride := 0, list := none }
           let v : Uses := { a := regsOf a 1, d := regsOf d 1, hall := true }
           let elem := fun l => mapElem c.b { m with base := BitVec.ofNat 32 (off + l / 32 * mxBlock ty) } 0 (l % 32)
           s.mayIssue h v k = true → c.clean [fun _ => x.poi c.low] = true →
           (∀ l ∈ c.lanes, off + (l / 32 + 1) * mxBlock ty ≤ c.hallLen false) →
            ComputesF (.dqmx h ty d a) s h v k [(8, c.lanes.length)] false d .general
              (fun l => roundVal .f32 0 false (elem l).1) fun l => (elem l).2))
    ∧ (∀ (s : State) (h : Ctl) (f : Qmx) (k : Skein),
      let c := s.iss h k
      let u : Uses :=
        { a := regsOf f.a 1, b := regsOf f.b 1, c := if f.expl then regsOf f.c 1 else [], hall := true }
      let a := c.lowNat f.a
      let v := c.single [f.a] f.b
      let e := c.single [f.a, f.b] f.c
      let lowest := fun l => c.lanes.find? (fun j => j / 32 == l / 32) == some l
      let gs := (List.range (k.width / 32)).filter fun g => c.lanes.any fun l => l / 32 == g
      let off := fun g => a + g * mxBlock f.ty
      let q := fun g => mxQuantise f.ty f.sat
        (if f.expl then some ((e.val ((c.lanes.find? fun l => l / 32 == g).getD 0)).toNat % 256) else none)
        ((List.range 32).map fun j =>
          if Mask.has c.act (32 * g + j) then valOf .f32 ((v.val (32 * g + j)).toNat % 2 ^ 32) else .fin false 0 0)
      f.ty.isMx = true → s.mayIssue h u k = true → 32 ≤ k.width →
        c.clean [fun _ => (c.single [] f.a).poi c.low, v.poi, fun l => f.expl && lowest l && e.poi l] = true →
        (∀ g ∈ gs, off g + mxBlock f.ty ≤ c.hallLen false) →
          ∃ t k' b', exec (.qmx h f) s = .next t
            ∧ LaneStep s t h u u.readsClock true (fun _ => b') [(8, c.lanes.length)] k k'
            ∧ k'.regs = k.regs ∧ k'.preds = k.preds ∧ k'.fpcsr = fpcsrOr k.fpcsr (flagsOver gs fun g => (q g).2.2)
            ∧ b' = { c.b with hallA := b'.hallA, poisonA := b'.poisonA, past := b'.past }
            ∧ (c.b.reading = 0 → b'.past = c.b.past)
            ∧ ∀ y, Mem.get b'.hallA y =
                match lastStorer gs off (mxBlock f.ty) y with
                | some g => (mxBytes f.ty (q g).1 (q g).2.1).getD (y - off g) 0
                | none => Mem.get c.b.hallA y))

/-- R174, R177, R180 to R182, R189: what a group 4 instruction does when it lands. The first of a core's loom order lands, and
no other. A product adds to each bolt of its partition the products of its rows, over halls each word of which is as it stands
or as it stood at some moment since the issue. Clearing and merging act on their partitions. A rounding writes the words of its
elements in two parts, of which the machine leaves open which word is in which, and ORs its flags into FPCSR with the second. A
transfer waits for its lines. The flag that it holds comes down. -/
def Obligations.LoomLandings : Prop :=
  ∀ (s : State) (sk n core : Nat) (flag : Option Nat) (o : LoomOp),
    let i := Instr.resultLand sk ⟨flag, some n⟩
    let k := s.core core
    let flagged := fun t : State => (∀ j, j ≠ sk → tget t.skeins j = tget s.skeins j)
      ∧ ∀ x, tget s.skeins sk = some x → ∃ x', tget t.skeins sk = some x' ∧ FlagDown s.clk flag x x'
    let bolts := fun (t : State) (p : Nat) (x : Part) (f : Nat → Bolt) => ∃ bs,
      (∀ q, tget (t.core core).hallc q = if q = p then some { x with bolts := bs } else tget k.hallc q)
      ∧ ∀ j < 6144, boltAt bs j = f j
    (s.loomHead n = none → s.inLoom n = true → exec i s = .next s)
    ∧ ((s.cores.map Prod.fst).Nodup → s.loomHead n = some (core, o) → i ∈ s.pending →
        (tget s.blocks o.blk).bind (·.dying) = none →
      (∀ a b kb rows p x y, o.act = .mul a b kb rows p → tget k.hallc p = some x → tget s.blocks o.blk = some y →
        ∃ t v, exec i s = .next t ∧ Landed s t core o i ∧ flagged t
          ∧ tget t.blocks o.blk = some { y with
              reading := y.reading - 1, past := if y.reading ≤ 1 then [] else y.past }
          ∧ v = { y with hallA := v.hallA, hallW := v.hallW, poisonA := v.poisonA, poisonW := v.poisonW }
          ∧ (∀ w j, v.wordNow w j = y.wordNow w j ∨ v.wordNow w j ∈ y.past.drop o.mark)
          ∧ bolts t p x fun j => match (rows[j / 96]?).join with
              | some r => dotInto (x.bolt j) (rowElems v a kb r) (rowElems v b kb (j % 96))
              | none => x.bolt j)
      ∧ (∀ p x, o.act = .zero p → tget k.hallc p = some x →
          ∃ t, exec i s = .next t ∧ Landed s t core o i ∧ flagged t ∧ t.blocks = s.blocks
            ∧ bolts t p x fun _ => Bolt.zero)
      ∧ (∀ p q x y, o.act = .merge p q → tget k.hallc p = some x → tget k.hallc q = some y →
          ∃ t, exec i s = .next t ∧ Landed s t core o i ∧ flagged t ∧ t.blocks = s.blocks
            ∧ bolts t p x fun j => boltMerge (x.bolt j) (y.bolt j))
      ∧ (o.act = .lines →
          (s.flushed core o.sk = false → exec i s = .next s)
          ∧ (s.flushed core o.sk = true → ∃ t, exec i s = .next t ∧ Landed s t core o i ∧ flagged t
              ∧ t.blocks = s.blocks ∧ (t.core core).hallc = k.hallc))
      ∧ ∀ ty mode sat a st p begun x y, o.act = .round ty mode sat a st p begun → tget k.hallc p = some x →
          tget s.blocks o.blk = some y → 96 * rndSize ty ≤ st →
        let size := rndSize ty
        let off := fun j => a + j / 96 * st + j % 96 * size
        let r := fun j => boltRound ty mode sat (x.bolt j)
        let rounded := fun (t : State) (w : Nat → Bool) => ∃ z, tget t.blocks o.blk = some z
          ∧ z = { y with hallA := z.hallA, poisonA := z.poisonA, past := z.past } ∧ (y.reading = 0 → z.past = y.past)
          ∧ (∀ e, Mem.get z.hallA e = match w (e / 4), lastStorer (List.range 6144) off size e with
              | true, some j => (leBytes size (r j).1).getD (e - off j) 0
              | _, _ => Mem.get y.hallA e)
          ∧ ∀ v, v ∈ z.poisonA ↔ if w v = true then
                (∃ j < 6144, (x.bolt j).poison = true ∧ off j < 4 * v + 4 ∧ 4 * v < off j + size)
                ∨ (v ∈ y.poisonA ∧ ¬ ∃ j < 6144, off j ≤ 4 * v ∧ 4 * v + 4 ≤ off j + size)
              else v ∈ y.poisonA
        (begun = none → ∃ t, exec i s = .next t
          ∧ t = { s with cores := t.cores, blocks := t.blocks, skeins := t.skeins, pending := t.pending }
          ∧ t.core core = { k with loom := k.loom.map fun z =>
              if z.id = o.id then { z with act := .round ty mode sat a st p (some s.free) } else z }
          ∧ (∀ j, j ≠ core → t.core j = s.core j) ∧ (∀ j, j ≠ o.blk → tget t.blocks j = tget s.blocks j)
          ∧ (∀ j, Stirred true (tget s.skeins j) (tget t.skeins j)) ∧ (∃ l, t.pending = s.pending ++ l)
          ∧ rounded t (Config.early s.free))
        ∧ (∀ m, begun = some m → o.sk = sk → ∃ t, exec i s = .next t ∧ Landed s t core o i
          ∧ (t.core core).hallc = k.hallc ∧ rounded t (fun v => !(Config.early m v))
          ∧ (∀ j, j ≠ sk → Stirred true (tget s.skeins j) (tget t.skeins j))
          ∧ ∀ z, tget s.skeins sk = some z → ∃ z', tget t.skeins sk = some z' ∧ FlagDown s.clk flag { z with
              met := z'.met, fpcsr := fpcsrOr z.fpcsr (flagsOver (List.range 6144) fun j => (r j).2) } z'))

/-! ## Counts, fences, tasks (spec 07 R211 to R218, 08 R238) -/

/-- R213, R214, R216: count words in hall A and in global memory. `cntsig` adds up to 2^64 − 1, `cntrd` reads, and `cntwait`
goes on when the word has reached its threshold, or did so while the skein was parked, and parks otherwise. -/
def Obligations.CountWords : Prop :=
  ∀ (s : State) (h : Ctl) (f : Cnt) (g : CntRd) (k : Skein) (p : Phys),
    let c := s.iss h k
    let u : Uses := { a := cntRegs f.hall f.a, b := regsOfImm f.b 2, hall := f.hall }
    let v : Uses := { a := cntRegs f.hall f.a, d := regsOf g.d 2, hall := f.hall }
    let n := c.lowImm true f.b
    let va := c.cntAddr f.hall f.a
    let off := va.toNat
    let word := if f.hall then c.b.hallNat false off 8 else Mem.nat s.mem p.pa 8
    let since := k.waited.getD s.clk
    let parked : Park := if f.hall then .countHall since c.low off (BitVec.ofNat 64 n)
      else .count since c.low p.pa va (BitVec.ofNat 64 n)
    g.a = f.a → g.hall = f.hall → g.promote = f.promote →
      c.clean [fun _ => (c.opnd (!f.hall) [] f.a).poi c.low, fun _ => (c.srcImm true false [] f.b).poi c.low] = true →
      off % 8 = 0 → s.settled k = true → (f.hall = true → off + 8 ≤ c.hallLen false) →
      (f.hall = false → p.pa % 8 = 0 ∧ p.bolt = false ∧ s.plainLine k.core (p.pa / 128) = true
        ∧ (f.promote = true → (s.homeLine (p.pa / 128)).relCore = none)) →
      (s.mayIssue h u k = true →
        (f.hall = true →
          ∃ t k' b', exec (.cntsig h f) s = .next t ∧ LaneStep s t h u u.readsClock false (fun _ => b') [] k k'
            ∧ k'.regs = k.regs ∧ k'.preds = k.preds ∧ k'.fpcsr = k.fpcsr
            ∧ b' = { c.b with hallA := b'.hallA, poisonA := b'.poisonA, past := b'.past }
            ∧ (c.b.reading = 0 → b'.past = c.b.past)
            ∧ ∀ y, Mem.get b'.hallA y = if off ≤ y ∧ y < off + 8
                then (leBytes 8 (min (word + n) (2 ^ 64 - 1))).getD (y - off) 0 else Mem.get c.b.hallA y)
        ∧ (f.hall = false → s.translate k.ctx k.core va .store = .ok p →
          CompletesOver (.cntsig h f) s h u false id [] fun m k0 k' =>
            k0 = k ∧ k'.regs = k.regs ∧ k'.preds = k.preds ∧ k'.fpcsr = k.fpcsr ∧ Served s m k.core
            ∧ ∀ y, Mem.get m.mem y = if p.pa ≤ y ∧ y < p.pa + 8
                then (leBytes 8 (min (word + n) (2 ^ 64 - 1))).getD (y - p.pa) 0 else Mem.get s.mem y)
        ∧ ((f.hall = false → s.translate k.ctx k.core va .load = .ok p) →
          (n ≤ word ∨ k.met = true → CompletesOver (.cntwait h f) s h u false id [] fun m k0 k' =>
            k0 = k ∧ k'.regs = k.regs ∧ k'.preds = k.preds ∧ k'.fpcsr = k.fpcsr ∧ Served s m k.core ∧ m.mem = s.mem)
          ∧ (word < n → k.met = false → ∃ t, exec (.cntwait h f) s = .next t ∧ Served s { t with skeins := s.skeins } k.core
              ∧ t.mem = s.mem ∧ (∀ i, i ≠ s.cur → tget t.skeins i = tget s.skeins i)
              ∧ tget t.skeins s.cur = some { k with park := parked })))
      ∧ (s.mayIssue h v k = true → g.d.isPair = true → (f.hall = false → s.translate k.ctx k.core va .load = .ok p) →
        CompletesOver (.cntrd h g) s h v false id [] fun m k0 k' =>
          k0 = k ∧ k'.preds = k.preds ∧ k'.fpcsr = k.fpcsr ∧ Served s m k.core ∧ m.mem = s.mem
          ∧ RegsWritten c k' (fun _ => .uniform)
              (fun _ _ => if f.hall then c.b.hallBad false off 8 else poisonedAt s.memPoison p.pa 8)
              (destRegs true g.d fun _ => BitVec.ofNat 64 word))

/-- R211, R212, R215, R218: fences, the drain of the fetched lines and of the stores. A fence waits for the earlier loads; a
release waits until nothing of the skein is outstanding, and `drains` until no write of it is, and a store fault that is due is
taken first. After an `ifence` the skein holds no fetched line, and uses none that its core took in before.
R238, R392: task spans. `tbeg` opens one with a clear digest and an index of its own, `tend` closes it and adds its
digest, weighted by its index, to the kernel digest; out of turn each traps. -/
def Obligations.FencesDrainsAndSpans : Prop :=
   (∀ (s : State) (h : Ctl) (k : Skein), s.mayIssue h {} k = true →
      (∀ (ord : Order) (scope : Scope) (pr : Bool),
        (k.loads ≠ [] → exec (.fence h ord scope pr) s = .next s)
        ∧ (k.loads = [] → (Order.releases ord = true → s.settled k = true) →
          (Order.acquires ord = true → s.quiet k.core s.cur = true ∧ (s.core k.core).scb = []) →
          (pr = true → ∀ q ∈ s.lines, q.2.relCore = none) →
            CompletesOver (.fence h ord scope pr) s h {} false id [] fun m k0 k' =>
              k0 = k ∧ k'.regs = k.regs ∧ k'.preds = k.preds ∧ k'.fpcsr = k.fpcsr
              ∧ m = if ord = .sc then s.modCore k.core fun x => { x with l1 := [] } else s))
      ∧ (s.quiet k.core s.cur = true →
          CompletesOver (.ifence h) s h {} false id [] (fun m k0 k' =>
            m = { s with nextId := s.nextId + 1 }
            ∧ k0 = { k with lines := [], badWords := [], fenced := s.nextId + 1 } ∧ k'.regs = k.regs ∧ k'.preds = k.preds ∧ k'.fpcsr = k.fpcsr)
          ∧ (k.noFault = true →
            CompletesOver (.drains h) s h {} false id [] fun m k0 k' =>
              m = s ∧ k0 = k ∧ k'.regs = k.regs ∧ k'.preds = k.preds ∧ k'.fpcsr = k.fpcsr)
          ∧ (k.noFault = false → exec (.drains h) s = .next s)))
 ∧ ((∀ (s : State) (h : Ctl) (a b : Opnd) (k : Skein),
      let c := s.iss h k
      let u : Uses := { a := regsOf a 2, b := regsOf b 1 }
      let i := c.lowNat b
      s.mayIssue h u k = true → c.clean [fun _ => (c.pair a).poi c.low, fun _ => (c.single [] b).poi c.low] = true →
        (k.task.isOpen = true →
          exec (.tbeg h a b) s = .next (s.takeTrap s.cur { code := 0x02, info := 0x42 } k.pc))
        ∧ (k.task.isOpen = false → 2 ^ 31 ≤ i →
          exec (.tbeg h a b) s = .next (s.takeTrap s.cur { code := 0x02, info := 0x44 } k.pc))
        ∧ (k.task.isOpen = false → i < 2 ^ 31 → s.quiet k.core s.cur = true → k.noFault = true →
          CompletesOver (.tbeg h a b) s h u false id [] fun m k0 k' =>
            m = { s with nextId := s.nextId + 1 }.postOnce (.frontierUpdate k.grid) ∧ k'.regs = k.regs ∧ k'.preds = k.preds ∧ k'.fpcsr = k.fpcsr
            ∧ k0 = { k with task := { isOpen := true, ts := (c.pair a).val c.low, digest := 0, index := 2 ^ 31 + i,
                                      lastKey := k.task.lastKey, name := s.nextId } }))
    ∧ (∀ (s : State) (h : Ctl) (k : Skein) (g : Grid), s.mayIssue h {} k = true →
        (k.task.isOpen = false →
          exec (.tend h) s = .next (s.takeTrap s.cur { code := 0x02, info := 0x43 } k.pc))
        ∧ (k.task.isOpen = true → s.quiet k.core s.cur = true → k.noFault = true → tget s.grids k.grid = some g →
          CompletesOver (.tend h) s h {} false id [] fun m k0 k' =>
            m = { s with grids := m.grids, pending := m.pending } ∧ (∃ l, m.pending = s.pending ++ l)
            ∧ k'.regs = k.regs ∧ k'.preds = k.preds ∧ k'.fpcsr = k.fpcsr
            ∧ k0 = { k with task := { isOpen := false, lastKey := some (k.task.key (s.blockIdx k.blk)) } }
            ∧ tget m.grids k.grid = some (if g.level = 0 then g else
                { g with dsum := g.dsum + k.task.digest * BitVec.ofNat 64 (2 * k.task.index + 1) })
            ∧ ∀ i, i ≠ k.grid → tget m.grids i = tget s.grids i)))

/-! ## Control flow and meetings (spec 04 R137 to R144) -/

/-- R97, R137, R139: branches, calls and returns. Where every running lane goes, the PC moves; where only some go, the others
park at the nearest close point, and without one the branch traps SHED_DEPTH. A call's link is the next PC. -/
def Obligations.Branches : Prop :=
  ∀ (s : State) (h : Ctl) (a d : Opnd) (off : BitVec 24) (k : Skein),
    let c := s.iss h k
    let target : Pc := pcOfNum ((pcNum k.pc : Int) + off.toInt)
    let goes := fun (i : Instr) (k0 : Skein) (tk : Mask) (pc : Pc) =>
      (k.running &&& ~~~tk = 0 → Goes i s h k { k0 with pc := pc })
      ∧ (k.running &&& ~~~tk ≠ 0 → ∀ e es, k.sheds = e :: es → Goes i s h k { k0 with
          pc := pc, running := tk, sheds := { e with parked := e.parked ||| (k.running &&& ~~~tk) } :: es })
      ∧ (k.running &&& ~~~tk ≠ 0 → k.sheds = [] →
          exec i s = .next (s.takeTrap s.cur { code := 0x05, info := 0 } k.pc))
    (s.mayIssue h {} k = true → goes (.bra h off) k c.act target)
    ∧ (let x := c.pair a
       let tk := Mask.ofFn k.width fun l => Mask.has c.act l && decide ((x.val l).toNat = (x.val c.low).toNat)
       s.mayIssue h { a := regsOf a 2 } k = true → c.clean [x.poi] = true →
        ((∀ l ∈ c.lanes, (x.val l).toNat < 2 ^ 55 ∧ (x.val l).toNat % 128 ≤ 9) →
          goes (.brx h a) k tk ((x.val c.low).setWidth 55) ∧ goes (.ret h a) k tk ((x.val c.low).setWidth 55))
        ∧ ∀ l, c.lanes.head? = some l → (2 ^ 55 ≤ (x.val l).toNat ∨ 9 < (x.val l).toNat % 128) →
          exec (.brx h a) s = .next (s.takeTrap s.cur { code := 0x09, addr := x.val l } k.pc)
          ∧ exec (.ret h a) s = .next (s.takeTrap s.cur { code := 0x09, addr := x.val l } k.pc))
    ∧ (d.isPair = true → s.mayIssue h { d := regsOf d 2 } k = true →
        ∃ rs, goes (.call h d off) { k with regs := rs } c.act target
          ∧ RegsWritten c { k with regs := rs } (fun _ => openTag 0xC2) (fun _ _ => false)
              (destRegs true d fun _ => (pcNext k.pc).setWidth 64))

/-- R137, R138: the shed stack. `shed` defers the lanes of a false predicate and goes to them at once when none remain;
`close` passes to the deferred lanes, or joins the lanes that parked; at depth 16, or away from its close point, each
traps SHED_DEPTH. -/
def Obligations.ShedStack : Prop :=
  ∀ (s : State) (h : Ctl) (k : Skein), s.mayIssue h {} k = true →
    (∀ (neg : Bool) (a : Opnd) (e cl : BitVec 12),
      let q := if neg then ~~~((s.iss h k).pred a) else (s.iss h k).pred a
      let x : Shed :=
        { deferred := k.running &&& ~~~q, parked := 0, elsePc := pcOfNum ((pcNum k.pc : Int) + e.toNat),
          closePc := pcOfNum ((pcNum k.pc : Int) + cl.toNat), inElse := false }
      (16 ≤ k.sheds.length → exec (.shed h neg a e cl) s =
        .next (s.takeTrap s.cur { code := 0x05, info := BitVec.ofNat 64 k.sheds.length } k.pc))
      ∧ (k.sheds.length < 16 → k.running &&& q ≠ 0 → Goes (.shed h neg a e cl) s h k { k with
          pc := pcNext k.pc, running := k.running &&& q, sheds := x :: k.sheds })
      ∧ (k.sheds.length < 16 → k.running &&& q = 0 → Goes (.shed h neg a e cl) s h k { k with
          pc := x.elsePc, running := k.running, sheds := { x with deferred := 0, inElse := true } :: k.sheds }))
    ∧ (∀ (e : Shed) (es : List Shed), k.sheds = e :: es →
      (e.closePc ≠ k.pc → exec (.close h) s =
        .next (s.takeTrap s.cur { code := 0x05, info := BitVec.ofNat 64 k.sheds.length } k.pc))
      ∧ (e.closePc = k.pc → e.inElse = false → e.deferred ≠ 0 → Goes (.close h) s h k { k with
          pc := e.elsePc, running := e.deferred,
          sheds := { e with parked := e.parked ||| k.running, deferred := 0, inElse := true } :: es })
      ∧ (e.closePc = k.pc → (e.inElse = true ∨ e.deferred = 0) → Goes (.close h) s h k { k with
          pc := pcNext k.pc, running := e.parked ||| k.running, sheds := es }))
    ∧ (k.sheds = [] → exec (.close h) s = .next (s.takeTrap s.cur { code := 0x05, info := 0 } k.pc))

/-- R138, R140, R141: `exit` and `yield`. Lanes that exit leave the live and running sets; where others still run, the skein
goes on; where none runs, the deferred lanes of the nearest shed do; with its last lane the skein ends, and with its last
skein the block.
R124: `nop` completes and does nothing. -/
def Obligations.ExitYieldAndNop : Prop :=
   (∀ (s : State) (h : Ctl) (k : Skein), s.mayIssue h {} k = true →
      let act := k.active h
      (k.live &&& ~~~act ≠ 0 → k.running &&& ~~~act ≠ 0 → k.entry = none →
        Goes (.exit h) s h k { k with pc := pcNext k.pc, live := k.live &&& ~~~act, running := k.running &&& ~~~act })
      ∧ (∀ e es, k.live &&& ~~~act ≠ 0 → k.running &&& ~~~act = 0 → k.entry = none → k.hnd = false → k.sheds = e :: es →
        e.inElse = false → e.deferred ≠ 0 →
        Goes (.exit h) s h k { k with
          pc := e.elsePc, live := k.live &&& ~~~act, running := e.deferred,
          sheds := { e with deferred := 0, inElse := true } :: es })
      ∧ (∀ b g, k.live &&& ~~~act = 0 → s.settled k = true → s.looming k.core s.cur = false → k.noFault = true → tget s.blocks k.blk = some b →
        tget s.grids k.grid = some g → b.grid = k.grid → (∀ q ∈ s.skeins, q.2.meeting = .no) →
          ∃ t, exec (.exit h) s = .next t ∧ tget t.skeins s.cur = none
            ∧ (∀ i, i ≠ s.cur → tget t.skeins i = tget s.skeins i) ∧ t.mem = s.mem ∧ t.memPoison = s.memPoison
            ∧ (∀ i, i ≠ k.blk → ∀ x, tget s.blocks i = some x → ∃ y, tget t.blocks i = some y
                ∧ y = { x with parent := y.parent, stalled := y.stalled })
            ∧ (b.skeins ≠ [s.cur] → (∃ i ∈ b.skeins, i ≠ s.cur) →
                tget t.blocks k.blk = some { b with skeins := b.skeins.filter (· != s.cur), stalled := false })
            ∧ (b.skeins = [s.cur] → ∃ g', tget t.grids k.grid = some g' ∧ g'.blocksEnded = g.blocksEnded + 1
                ∧ g'.badCount = g.badCount))
      ∧ CompletesOver (.yield h) s h {} false id [] fun m k0 k' =>
          m = s ∧ k0 = { k with age := s.clk } ∧ k'.regs = k.regs ∧ k'.preds = k.preds ∧ k'.fpcsr = k.fpcsr)
 ∧ (∀ (s : State) (h : Ctl) (k : Skein), s.mayIssue h {} k = true →
      CompletesOver (.nop h) s h {} false id [] fun m k0 k' =>
        m = s ∧ k0 = k ∧ k'.regs = k.regs ∧ k'.preds = k.preds ∧ k'.fpcsr = k.fpcsr)

/-- R142 to R144: meetings. A skein waits before its `meet` until what it started is performed. The first skein to arrive waits
at its `meet` or `regroup`; with the last one every skein of the
block goes on behind its `meet`. A skein alone in its block repacks at its `regroup`: its threads whose predicate is 1
come first. An open shed or span, and a `regroup` that meets a `meet`, trap REGROUP_STATE. -/
def Obligations.Meetings : Prop :=
  (∀ (s : State) (h : Ctl) (a : Opnd) (k : Skein) (b : Block), s.mayIssue h {} k = true →
    tget s.blocks k.blk = some b → s.cur ∈ b.skeins → k.num < 16 →
    let others := fun (P : Nat → Skein → Prop) => ∀ q ∈ s.skeinsOf k.blk, q.1 ≠ s.cur → P q.1 q.2
    let idle := k.sheds = [] ∧ k.task.isOpen = false ∧ (∀ f < 12, k.flag f = 0) ∧ s.settled k = true
      ∧ s.looming k.core s.cur = false ∧ k.noFault = true
    (s.quiet k.core s.cur = true → (k.loads ≠ [] ∨ s.ordHeld s.cur = true) → exec (.meet h) s = .next s)
    ∧ (s.settled k = true → (∃ q ∈ s.skeinsOf k.blk, q.1 ≠ s.cur ∧ q.2.meeting = .no) →
        exec (.meet h) s = .next (s.modSkein s.cur fun x => { x with meeting := .meet h.stall.toNat }))
    ∧ (s.settled k = true → others (fun _ x => ∃ n, x.meeting = .meet n) →
        ∃ t, exec (.meet h) s = .next t ∧ t = { s with skeins := t.skeins, ctxs := t.ctxs, pending := t.pending }
          ∧ tget t.skeins s.cur = some { k with
              meeting := .no, pc := pcNext k.pc, stall := h.stall.toNat, readyAt := s.clk, waited := none,
              promoted := none, leave := .no, met := false, yielded := false }
          ∧ (∀ i x n, i ≠ s.cur → (i, x) ∈ s.skeinsOf k.blk → x.meeting = .meet n → tget t.skeins i = some { x with
              meeting := .no, pc := pcNext x.pc, stall := n, readyAt := s.clk, waited := none, promoted := none,
              leave := .no, met := false, yielded := false })
          ∧ ∀ i, (∀ q ∈ s.skeinsOf k.blk, q.1 ≠ i) → tget t.skeins i = tget s.skeins i)
    ∧ (k.sheds ≠ [] → exec (.regroup h a) s =
        .next (s.takeTrap s.cur { code := 0x06, info := BitVec.ofNat 64 k.sheds.length } k.pc))
    ∧ (k.sheds = [] → k.task.isOpen = true → exec (.regroup h a) s =
        .next (s.takeTrap s.cur { code := 0x06, info := 0x102 } k.pc))
    ∧ (idle → (∃ q ∈ s.skeinsOf k.blk, q.1 ≠ s.cur ∧ q.2.meeting = .no) → exec (.regroup h a) s =
        .next (s.modSkein s.cur fun x => { x with meeting := .regroup (opIdx a) })))
  ∧ (∀ (s : State) (h : Ctl) (a : Opnd) (k : Skein) (b : Block), s.mayIssue h {} k = true →
    tget s.blocks k.blk = some b → b.skeins = [s.cur] → k.num = 0 → k.width ≤ 64 → k.sheds = [] →
    k.task.isOpen = false → (∀ f < 12, k.flag f = 0) → s.settled k = true → s.looming k.core s.cur = false →
    k.noFault = true →
    let p := opIdx a
    let live := Mask.lanes k.live k.width
    let ts := live.filter (fun l => Mask.has (k.pred p) l) ++ live.filter fun l => !Mask.has (k.pred p) l
    live ≠ [] →
      ∃ t k', exec (.regroup h a) s = .next t ∧ tget t.skeins s.cur = some k'
        ∧ t = { s with skeins := t.skeins, blocks := t.blocks, ctxs := t.ctxs, pending := t.pending }
        ∧ (∀ i, i ≠ s.cur → tget t.skeins i = tget s.skeins i)
        ∧ k' = { k with
            pc := pcNext k.pc, stall := 0, readyAt := s.clk, waited := none, promoted := none, leave := .no,
            met := false, yielded := false, meeting := .no, live := Mask.full ts.length, running := Mask.full ts.length, regrouped := true, maps := [],
            clockh := 0, tid := k'.tid, regs := k'.regs, preds := k'.preds }
        ∧ (∀ l, l < ts.length → k'.tid.getD l 0 = k.tid.getD (ts.getD l 0) 0)
        ∧ (∀ q < 15, ∀ l, l < ts.length → Mask.has (k'.pred q) l = Mask.has (k.pred q) (ts.getD l 0))
        ∧ ∀ r < k.regCount,
            ((k.reg r).tag ≠ .uniform → (k'.reg r).tag = .general ∧ ∀ l, l < ts.length →
              (k'.reg r).lane l = (k.reg r).lane (ts.getD l 0)
              ∧ Mask.has (k'.reg r).poison l = Mask.has (k.reg r).poison (ts.getD l 0))
            ∧ ((k.reg r).tag = .uniform → (k'.reg r).tag = .uniform ∧ ∀ l, l < k.width →
              (k'.reg r).lane l = (k.reg r).lane 0))

/-! ## System instructions (spec 01 R31 to R43, 08 R239 to R248) -/

/-- R31 to R43, R240: reads of the special registers; a read of FPCSR waits for the skein's earlier group 4 instructions.
R243, R245 to R248: clocks, meters and digests, and the store-fault queue's reader. -/
def Obligations.CsrReadsClocksAndMeters : Prop :=
   (∀ (s : State) (h : Ctl) (d : Opnd) (csr : BitVec 24) (k : Skein),
      let c := s.iss h k
      let n := csr.toNat
      let x := s.ctx k.ctx
      let u : Uses := { d := regsOf d (if csrIs64 n then 2 else 1) }
      let reads := fun (v : DWord) => Computes (.csrr h d csr) s h u k [] (csrIs64 n) d .uniform fun _ => v
      (if csrIs64 n then d.isPair = true else d.isReg = true) → s.mayIssue h u k = true →
        (n = 0x00 → reads (BitVec.ofNat 64 ((if k.bclost then 2 ^ 14 else 0)
            + (if k.guard then 63 else c.g.prio) * 2 ^ 8 + x.mode * 2 ^ 4 + (if c.g.filler then 8 else 0)
            + (if c.g.serial then 4 else 0) + (if c.g.desc.midpre then 2 else 0) + if k.hnd then 1 else 0)))
        ∧ (n = 0x01 → reads c.g.trapvec)
        ∧ (n = 0x02 → reads (k.trap.cause.setWidth 64))
        ∧ (n = 0x03 → reads k.trap.pc)
        ∧ (n = 0x04 → reads k.trap.addr)
        ∧ (n = 0x05 → reads k.trap.info)
        ∧ (n = 0x10 → reads (BitVec.ofNat 64 x.lease))
        ∧ (n = 0x11 → reads ((s.core k.core).lclk.setWidth 64))
        ∧ (n = 0x12 → reads (BitVec.ofNat 64 x.ltick))
        ∧ (n = 0x13 → reads (BitVec.ofNat 64 c.g.level))
        ∧ (n = 0x14 → reads (if k.task.isOpen then k.task.ts else 0))
        ∧ (n = 0x21 → s.looming k.core s.cur = false → reads (k.fpcsr.setWidth 64))
        ∧ (n = 0x21 → s.looming k.core s.cur = true → exec (.csrr h d csr) s = .next s)
        ∧ (n = 0x30 → reads (x.linkwatch.setWidth 64))
        ∧ (n = 0x60 → reads (BitVec.ofNat 64 x.metersat))
        ∧ (0x40 ≤ n → n < 0x60 → reads (BitVec.ofNat 64
            (if n - 0x40 < 26 then min (s.count k.ctx (n - 0x40)) (2 ^ 64 - 1) else 0)))
        ∧ (n = 0x61 → reads (BitVec.ofNat 64 x.quantum))
        ∧ (n = 0x20 → ∃ v : DWord, reads v ∧ ∀ f, v.getLsbD f =
            (decide (f < 12) && (decide (k.flag f ≠ 0) || Ctl.flag h == some f))))
 ∧ ((∀ (s : State) (h : Ctl) (d : Opnd) (k : Skein),
      let c := s.iss h k
      let u : Uses := { d := regsOf d 2 }
      d.isPair = true → s.mayIssue h u k = true →
        Computes (.clockGt h d) s h u k [] true d .uniform (fun _ => BitVec.ofNat 64 s.gt)
        ∧ Computes (.clockAc h d) s h u k [] true d .uniform (fun _ => BitVec.ofNat 64 s.clk)
        ∧ Computes (.dgrdExp h d) s h u k [] true d .uniform
            (fun _ => if c.g.level = 0 then 0 else c.g.expect.getD 0)
        ∧ (s.quiet k.core s.cur = true → k.noFault = true →
          Computes (.dgrdTask h d) s h u k [] true d .uniform
            fun _ => if c.g.level = 0 then 0 else if k.task.isOpen then k.task.digest else c.b.digest))
    ∧ (∀ (s : State) (h : Ctl) (d : Opnd) (a : SrcImm) (k : Skein),
      let c := s.iss h k
      let u : Uses := { a := regsOfImm a 1, d := regsOf d 2 }
      let i := c.lowImm false a
      d.isPair = true → s.mayIssue h u k = true → c.clean [fun _ => (c.srcImm false false [] a).poi c.low] = true →
        (i ≤ 32 → Computes (.meter h d a) s h u k [] true d .uniform fun _ => BitVec.ofNat 64
          (if i = 32 then (s.ctx k.ctx).metersat else if i < 26 then min (s.count k.ctx i) (2 ^ 64 - 1) else 0))
        ∧ (32 < i → exec (.meter h d a) s = .next (s.takeTrap s.cur { code := 0x02, info := 0x45 } k.pc)))
    ∧ (∀ (s : State) (h : Ctl) (n : BitVec 10) (k : Skein),
      let c := s.iss h k
      let u : Uses := { d := regsOf (.reg n) 9 }
      let q := (s.core k.core).recQ
      n.toNat ≤ 630 → s.mayIssue h u k = true →
        ((∀ r ∈ q, r.sk ≠ s.cur) → ∃ t k', exec (.sfrq h (.reg n)) s = .next t
          ∧ LaneStep s t h u u.readsClock false id [] k k' ∧ k'.preds = k.preds ∧ k'.fpcsr = k.fpcsr
          ∧ RegsWritten c k' (fun _ => .uniform) (fun _ _ => false)
              ((List.range 9).map fun i => (n.toNat + i, fun _ => (0 : Word))))
        ∧ (∀ r rs, (∀ x ∈ rs, x.sk ≠ s.cur) → r.sk = s.cur → (∃ later, q = rs ++ r :: later) →
          CompletesOver (.sfrq h (.reg n)) s h u false id [] fun m k0 k' =>
            let at' := fun l => (r.lanes.find? fun x => x.lane == l).getD { lane := l, ea := 0, data := 0, poison := false }
            k0 = k ∧ k'.preds = k.preds ∧ k'.fpcsr = k.fpcsr
            ∧ m = s.modCore k.core (fun x => { x with recQ := q.erase r })
            ∧ RegsWritten c k' (fun i => if i < n.toNat + 4 then .general else .uniform)
                (fun i l => (i = n.toNat + 2 || i = n.toNat + 3) && (at' l).poison)
                [(n.toNat, fun l => (at' l).ea.setWidth 32), (n.toNat + 1, fun l => ((at' l).ea >>> 32).setWidth 32),
                 (n.toNat + 2, fun l => (at' l).data.setWidth 32), (n.toNat + 3, fun l => ((at' l).data >>> 32).setWidth 32),
                 (n.toNat + 4, fun _ => r.mask.setWidth 32), (n.toNat + 5, fun _ => (r.mask >>> 32).setWidth 32),
                 (n.toNat + 6, fun _ => r.pc.setWidth 32), (n.toNat + 7, fun _ => ((r.pc.setWidth 64 : DWord) >>> 32).setWidth 32),
                 (n.toNat + 8, fun _ => BitVec.ofNat 32 (2 ^ 31 + r.slot * 2 ^ 16 + r.size * 2 ^ 12 + r.cause))])))

/-- R31, R33, R35 to R43, R240: writes of the special registers, from the lowest active lane; what each keeps and clamps;
and what traps: a read-only or absent number ILLEGAL_ENC, a privileged one PRIV. -/
def Obligations.CsrWrites : Prop :=
  ∀ (s : State) (h : Ctl) (a d : Opnd) (csr : BitVec 24) (k : Skein),
    let c := s.iss h k
    let n := csr.toNat
    let x := s.ctx k.ctx
    let u : Uses := { a := regsOf a (if csrIs64 n then 2 else 1) }
    let o := c.opnd (csrIs64 n) [] a
    let v := o.val c.low
    let kept := fun (P : State → Skein → Prop) =>
      CompletesOver (.csrw h a csr) s h u false id [] fun m k0 k' =>
        P m k0 ∧ k'.regs = k.regs ∧ k'.preds = k.preds ∧ k'.fpcsr = k.fpcsr
    let ctxTo := fun (y : Context) => kept fun m k0 => k0 = k ∧ m = s.setCtx k.ctx y
    (s.mayIssue h u k = true → c.clean [fun _ => o.poi c.low] = true →
      (n = 0x01 → v.toNat % 128 ≤ 9 → kept fun m k0 => k0 = k ∧ m = { s with grids := m.grids }
        ∧ (∀ g, tget s.grids k.grid = some g →
            tget m.grids k.grid = some { g with trapvec := BitVec.ofNat 64 (v.toNat % 2 ^ 55) })
        ∧ ∀ i, i ≠ k.grid → tget m.grids i = tget s.grids i)
      ∧ (n = 0x01 → 9 < v.toNat % 128 → exec (.csrw h a csr) s = .next (s.takeTrap s.cur { code := 0x09, addr := v } k.pc))
      ∧ (n = 0x03 → k.hnd = true → kept fun m k0 => m = s
        ∧ k0 = { k with trap := { k.trap with pc := BitVec.ofNat 64 (v.toNat % 2 ^ 55) } })
      ∧ (n = 0x10 → ctxTo { x with lease := max 1 (v.toNat % 256) })
      ∧ (n = 0x12 → ctxTo { x with ltick := max 16 (v.toNat % 2 ^ 16) })
      ∧ (n = 0x30 → ctxTo { x with linkwatch := v.setWidth 2 })
      ∧ (n = 0x61 → k.firmware = true → ctxTo { x with quantum := max 100 (min (v.toNat % 2 ^ 32) 100000) })
      ∧ (n = 0x21 → CompletesOver (.csrw h a csr) s h u false id [] fun m k0 k' =>
          m = s ∧ k0 = k ∧ k'.regs = k.regs ∧ k'.preds = k.preds
          ∧ k'.fpcsr = (k.fpcsr &&& 0x1F0 &&& ~~~(v.setWidth 32)) ||| ((v.setWidth 32 : Word) &&& 3)))
    ∧ (tget s.skeins s.cur = some k →
      (0x100 ≤ n → k.firmware = false →
        exec (.csrr h d csr) s = .next (s.takeTrap s.cur { code := 0x07, info := BitVec.ofNat 64 n } k.pc)
        ∧ exec (.csrw h a csr) s = .next (s.takeTrap s.cur { code := 0x07, info := BitVec.ofNat 64 n } k.pc))
      ∧ (n = 0x61 → k.firmware = false →
        exec (.csrw h a csr) s = .next (s.takeTrap s.cur { code := 0x07, info := BitVec.ofNat 64 n } k.pc))
      ∧ ((n = 0x03 ∧ k.hnd = false) ∨ n ∈ [0x00, 0x02, 0x04, 0x05, 0x11, 0x13, 0x14, 0x20, 0x40, 0x59, 0x60] →
        exec (.csrw h a csr) s = .next (s.takeTrap s.cur { code := 0x02, info := 0 } k.pc))
      ∧ ((0x05 < n ∧ n < 0x10) ∨ (0x14 < n ∧ n < 0x20) ∨ (0x21 < n ∧ n < 0x30) ∨ (0x30 < n ∧ n < 0x40)
          ∨ (0x61 < n ∧ n < 0x100) →
        exec (.csrr h d csr) s = .next (s.takeTrap s.cur { code := 0x02, info := 0 } k.pc)
        ∧ exec (.csrw h a csr) s = .next (s.takeTrap s.cur { code := 0x02, info := 0 } k.pc)))

/-! ## Traps (spec 12 R314 to R318, 08 R241, R242, R244, R245) -/

/-- R35, R316, R317: taking a trap. With a handler and outside handler mode, the cause, PC, address and information are
saved, the interrupted PC, masks, sheds and flags too, handler mode is on, and the skein goes on at TRAPVEC. In handler mode,
or with TRAPVEC 0, its block ends with the cause, as soon as nothing that its skeins issued is still to land. -/
def Obligations.TrapEntry : Prop :=
  ∀ (s : State) (t : Trap) (pc : Pc) (k : Skein) (g : Grid),
    tget s.skeins s.cur = some k → tget s.grids k.grid = some g →
      (k.hnd = false → g.trapvec ≠ 0 →
        s.takeTrap s.cur t pc = { s with skeins := (s.takeTrap s.cur t pc).skeins }
        ∧ (∀ i, i ≠ s.cur → tget (s.takeTrap s.cur t pc).skeins i = tget s.skeins i)
        ∧ ∃ k', tget (s.takeTrap s.cur t pc).skeins s.cur = some k' ∧ k'.hnd = true ∧ k'.pc = g.trapvec.setWidth 55
          ∧ k'.trap.pc = pc.setWidth 64 ∧ k'.trap.addr = t.addr ∧ k'.trap.info = t.info
          ∧ k'.trap.cause = BitVec.ofNat 32 (t.code + match t.lane with
              | some l => 2 ^ 14 + l * 2 ^ 8
              | none => 0)
          ∧ (∃ e, k'.entry = some e ∧ e.pc = pc ∧ e.running = k.running ∧ e.live = k.live ∧ e.sheds = k.sheds
              ∧ e.preds = k.preds ∧ e.flags = k.flags)
          ∧ k'.sheds = [] ∧ k'.stall = 0 ∧ k'.park = .no ∧ k'.running = k.running ∧ k'.live = k.live ∧ k'.regs = k.regs
          ∧ k'.preds = k.preds ∧ k'.flags = k.flags ∧ k'.fpcsr = k.fpcsr ∧ k'.maps = k.maps ∧ k'.task = k.task
          ∧ k'.held = k.held)
      ∧ (∀ b, (k.hnd = true ∨ g.trapvec = 0) → tget s.blocks k.blk = some b → s.cur ∈ b.skeins → b.grid = k.grid →
          tget (s.takeTrap s.cur t pc).skeins s.cur = none
          ∧ (s.lingers k.blk b = true → ∃ b', tget (s.takeTrap s.cur t pc).blocks k.blk = some b'
              ∧ b'.dying = some t.code ∧ b'.allEnded = b.allEnded)
          ∧ (s.lingers k.blk b = false → ∃ g', tget (s.takeTrap s.cur t pc).grids k.grid = some g' ∧ g'.blocksEnded = g.blocksEnded + 1
            ∧ g'.badCount = g.badCount + 1))

/-- R241 to R245, R334: `trap` and `brk` complete and their trap is taken at the next instruction; `eret` restores what trap
entry saved and goes on at TRAPPC; `kill` ends the block from handler mode; `sleep` parks. Outside handler mode `eret` and
`kill` are ILLEGAL_ENC. -/
def Obligations.TrapsAndReturns : Prop :=
  ∀ (s : State) (h : Ctl) (imm : BitVec 24) (a : SrcImm) (k : Skein),
    (s.mayIssue h {} k = true →
      (let taken := fun (i : Instr) (code : Nat) => ∃ m k', LaneStep s m h {} false false id [] k k'
          ∧ k'.regs = k.regs ∧ k'.preds = k.preds ∧ k'.fpcsr = k.fpcsr
          ∧ exec i s = .next (m.takeTrap s.cur { code := code, info := imm.setWidth 64 } (pcNext k.pc))
       taken (.trap h imm) 0x32 ∧ ((s.ctx k.ctx).dbg.brken = false → taken (.brk h imm) 0x33))
      ∧ ((s.ctx k.ctx).dbg.brken = true → CompletesOver (.brk h imm) s h {} false id [] fun m k0 k' =>
          k0 = { k with halted := true } ∧ k'.regs = k.regs ∧ k'.preds = k.preds ∧ k'.fpcsr = k.fpcsr
          ∧ m = s.modCtx k.ctx fun x => { x with dbg := { x.dbg with halt := true } })
      ∧ (k.hnd = false →
        exec (.eret h) s = .next (s.takeTrap s.cur { code := 0x02, info := 0x40 } k.pc)
        ∧ exec (.kill h) s = .next (s.takeTrap s.cur { code := 0x02, info := 0x41 } k.pc))
      ∧ (k.hnd = true → 9 < k.trap.pc.toNat % 128 →
        exec (.eret h) s = .next (s.takeTrap s.cur { code := 0x09, addr := k.trap.pc } k.pc))
      ∧ (∀ e, k.hnd = true → k.entry = some e → k.trap.pc.toNat % 128 ≤ 9 → e.running ≠ 0 →
        Goes (.eret h) s h k { k with
          hnd := false, entry := none, running := e.running, sheds := e.sheds, pc := k.trap.pc.setWidth 55, stall := 0,
          bclost := k.bclost && !k.held.isEmpty })
      ∧ (∀ b g, k.hnd = true → tget s.blocks k.blk = some b → tget s.grids k.grid = some g → b.grid = k.grid →
        s.cur ∈ b.skeins →
        ∃ t, exec (.kill h) s = .next t ∧ (∀ i ∈ b.skeins, tget t.skeins i = none)
          ∧ (s.lingers k.blk b = true → ∃ b', tget t.blocks k.blk = some b'
              ∧ b'.dying = some (k.trap.cause.toNat % 256) ∧ b'.allEnded = b.allEnded)
          ∧ (s.lingers k.blk b = false → ∃ g', tget t.grids k.grid = some g' ∧ g'.blocksEnded = g.blocksEnded + 1
            ∧ g'.badCount = g.badCount + 1
            ∧ ((∀ i, g.lowest = some i → b.idx < i) → g'.lowest = some b.idx ∧ g'.cause = k.trap.cause.toNat % 256))))
    ∧ (let c := s.iss h k
       let u : Uses := { a := regsOfImm a 1 }
       let n := c.lowImm false a
       s.mayIssue h u k = true → c.clean [fun _ => (c.srcImm false false [] a).poi c.low] = true →
        (n = 0 → CompletesOver (.sleep h a) s h u false id [] fun m k0 k' =>
          m = s ∧ k0 = k ∧ k'.regs = k.regs ∧ k'.preds = k.preds ∧ k'.fpcsr = k.fpcsr)
        ∧ (n ≠ 0 → ∃ t k', exec (.sleep h a) s = .next t ∧ tget t.skeins s.cur = some k'
            ∧ k' = { k with park := .sleep s.clk n, clockh := k'.clockh } ∧ .sleepExpire s.cur ∈ t.pending
            ∧ t = { s with skeins := t.skeins, pending := t.pending }
            ∧ ∀ i, i ≠ s.cur → tget t.skeins i = tget s.skeins i))

/-! ## Issue (spec 01 R50, 03 R94, R95, R98, R99, R106, R107) -/

/-- R94, R98, R99, R106, R107, R272, R274: what is found before an instruction issues, shown on the integer two-operand form. A register at or above the count traps REG_RANGE, then a channel that is not bound traps CHAN_UNBOUND, then an unready flag, a register
that a load still writes or, for a channel operand, an acquire in flight makes it wait with nothing changed, as a load in flight
does before a push; a pop without an element or a push without space parks it.
R121, R193, R314, R326: precise traps of the operands, on the memory forms. The lowest poisoned active lane is named
with the operands that are poisoned; then the lowest misaligned lane with its address and the size. Nothing else
happens. -/
def Obligations.IssueConditionsAndOperandTraps : Prop :=
   (∀ (s : State) (h : Ctl) (f : Alu2) (k : Skein),
      let c := s.iss h k
      let u := Alu2.uses f f.ty.is64 f.ty.is64
      let does := fun (t : State) => exec (.iadd h f) s = .next t
      let inRange := u.outOfRange k.regCount = none
      let bound := u.unbound c.b = none
      tget s.skeins s.cur = some k →
        (∀ r, u.outOfRange k.regCount = some r →
          k.regCount ≤ r ∧ r < 640 ∧ does (s.takeTrap s.cur { code := 0x03, info := BitVec.ofNat 64 r } k.pc))
        ∧ (∀ n, inRange → u.unbound c.b = some n →
          tget c.b.chans n = none ∧ does (s.takeTrap s.cur { code := 0x04, info := BitVec.ofNat 64 n } k.pc))
        ∧ (inRange → bound → (∃ j < 12, h.wait.getLsbD j = true ∧ k.flag j ≠ 0) → does s)
        ∧ (inRange → bound → (∃ j, Ctl.flag h = some j ∧ k.flag j = 63) → does s)
        ∧ (inRange → bound → (∃ o ∈ k.loads, o.noDst = false ∧ ∃ r ∈ u.a ++ u.b ++ u.d,
            o.dst ≤ r ∧ r < o.dst + if o.bolt then 24 else nRegs o.ty) → does s)
        ∧ (inRange → bound → (u.reads ≠ [] ∨ u.push ≠ none) → (∃ o ∈ k.loads, o.acq = true) → does s)
        ∧ (inRange → bound → u.push ≠ none → u.blocked c.b = none → c.act ≠ 0 → k.loads ≠ [] → s.quiet k.core s.cur = true →
          does s)
        ∧ (∀ n, inRange → bound → flagsReady k h = true → u.locked k = false → (∀ o ∈ k.loads, o.acq = false) → c.act ≠ 0 →
          u.blocked c.b = some n →
          does (s.setSkein s.cur { k with park := .chan (k.waited.getD s.clk) c.low n })))
 ∧ (∀ (s : State) (h : Ctl) (f : LdSt) (k : Skein),
      let c := s.iss h k
      let u : Uses := { a := regsOf f.a 2, b := regsOfOff f.off, d := regsOf f.d (nRegs f.ty) }
      let ea := c.ea f.a f.off
      let badA := (c.pair f.a).poi
      let badB := c.offPoison f.off
      let badD := (c.opnd f.ty.is64 [] f.d).poi
      let bit := fun (b : Bool) (n : Nat) => if b then 2 ^ n else 0
      let align := fun l => (s.takeTrap s.cur
        { code := 0x08, addr := ea l, info := BitVec.ofNat 64 (accBytes f.ty), lane := some l } k.pc)
      s.mayIssue h u k = true →
        (∀ l ∈ c.lanes, (badA l || badB l) = true → (∀ j ∈ c.lanes, j < l → badA j = false ∧ badB j = false) →
          exec (.ld h f) s = .next (s.takeTrap s.cur
            { code := 0x13, info := BitVec.ofNat 64 (bit (c.lanes.any badA) 1 + bit (c.lanes.any badB) 2),
              lane := some l } k.pc))
        ∧ (∀ l ∈ c.lanes, (badA l || badB l || badD l) = true →
          (∀ j ∈ c.lanes, j < l → badA j = false ∧ badB j = false ∧ badD j = false) →
          exec (.st h f) s = .next (s.takeTrap s.cur
            { code := 0x13, info := BitVec.ofNat 64 (bit (c.lanes.any badA) 1 + bit (c.lanes.any badB) 2
                + bit (c.lanes.any badD) 0), lane := some l } k.pc))
        ∧ (∀ l ∈ c.lanes, (ea l).toNat % accBytes f.ty ≠ 0 → (∀ j ∈ c.lanes, j < l → (ea j).toNat % accBytes f.ty = 0) →
          (c.clean [badA, badB] = true → exec (.ld h f) s = .next (align l))
          ∧ (c.clean [badA, badB, badD] = true → exec (.st h f) s = .next (align l))))

/-- R95, R99, R100: an instruction word of the opcode map with no active lane does nothing but go on: it waits for its flags
and for its registers, honours STALL, and writes no register, predicate, memory or hall byte, and adds nothing to the meter.
The reads and writes of special registers, which may trap before, are not among them. -/
def Obligations.GuardedOff : Prop :=
  ∀ (s : State) (i : Instr) (w : IWord) (k : Skein), i.wf = true → encode i = some w →
    (∀ h d n, i ≠ .csrr h d n) → (∀ h a n, i ≠ .csrw h a n) →
    tget s.skeins s.cur = some k → k.regCount = 640 → (∀ n < 32, (tget (s.iss (ctlOf w) k).b.chans n).isSome = true) →
    k.loads = [] → flagsReady k (ctlOf w) = true → k.active (ctlOf w) = 0 →
      ∃ t, exec i s = .next t ∧ t = { s with skeins := t.skeins, pending := t.pending }
        ∧ (∀ j, j ≠ s.cur → tget t.skeins j = tget s.skeins j)
        ∧ (t.pending = s.pending ∨ t.pending = s.pending ++ [.stallElapse s.cur])
        ∧ tget t.skeins s.cur = some { k with
            pc := pcNext k.pc, stall := (ctlOf w).stall.toNat, readyAt := s.clk, waited := none, promoted := none,
            leave := .no, met := false, yielded := (ctlOf w).yld }

/-! ## Steps around a skein's issue (spec 03 R90, R99, R100, R106; 07 R199, R203, R205; 08 R245; 11 R302; 15 R399) -/

/-- R99, R100, R102, R106, R199, R203, R205, R245, R302: what comes about around a skein's issue. A word of an unused opcode
traps ILLEGAL_OP; a STALL elapses when its clocks have passed; a ready skein that has waited 3,072 clocks is promoted; a
result lowers its flag when every write is acknowledged; a load with every byte bound fills its destination; a parked skein
whose condition holds, or was met, is woken and acts at once; a wait of 2^32 clocks traps WAIT_WATCHDOG; a `sleep` ends; a
halted skein stays as it is (R334). Nothing else changes. -/
def Obligations.IssueEvents : Prop :=
  ∀ (s : State) (sk : Nat) (k : Skein), tget s.skeins sk = some k →
    let put := fun (t : State) (x : Skein) => { t with skeins := tput t.skeins sk x }
    let under := fun (i : Instr) => i ∈ s.pending
    (∀ op, s.cur = sk → k.fetched = .illegalOp op →
      exec (.illegalOp op) s = .next (s.takeTrap sk { code := 0x01, info := op.setWidth 64 } k.pc))
    ∧ (k.stall ≠ 0 → (k.readyAt + k.stall ≤ s.clk → exec (.stallElapse sk) s =
          .next (put (s.finished (.stallElapse sk)) { k with stall := 0, readyAt := s.clk }))
        ∧ (s.clk < k.readyAt + k.stall → exec (.stallElapse sk) s = .next s))
    ∧ (s.ready k = true → k.promoted = none →
        (k.readyAt + 3072 ≤ s.clk → exec (.issuePromotion sk) s = .next (put s { k with promoted := some s.clk }))
        ∧ (s.clk < k.readyAt + 3072 → exec (.issuePromotion sk) s = .next s))
    ∧ (∀ f, under (.resultLand sk ⟨some f, none⟩) →
        (s.flushed k.core sk = true → ∃ k', exec (.resultLand sk ⟨some f, none⟩) s =
            .next (put (s.finished (.resultLand sk ⟨some f, none⟩)) k') ∧ FlagDown s.clk (some f) k k')
        ∧ (s.flushed k.core sk = false → exec (.resultLand sk ⟨some f, none⟩) s = .next s))
    ∧ (∀ o ∈ k.loads, (∀ x ∈ k.loads, x.id = o.id → x = o) → LoadOp.bound o = true → under (.loadDataLand sk o.id) →
        let lane := fun l => o.lanes.find? fun x => x.lane == l
        let holds := fun (r old : VReg) (got : Nat → Option (Word × Bool)) => ∀ l < k.width, l < 64 →
          r.lane l = ((got l).map Prod.fst).getD (old.lane l)
          ∧ Mask.has r.poison l = ((got l).map Prod.snd).getD (Mask.has old.poison l)
        let got := fun (half : DWord → Word) (l : Nat) => (lane l).map fun x =>
          (half (LoadOp.value o x).1, (LoadOp.value o x).2)
        ∃ k' y, exec (.loadDataLand sk o.id) s = .next (put (s.finished (.loadDataLand sk o.id)) k')
          ∧ y = { k with regs := y.regs, loads := k.loads.filter fun x => x.id != o.id } ∧ FlagDown s.clk o.flag y k'
          ∧ (o.noDst = true → y.regs = k.regs)
          ∧ (o.noDst = false → o.bolt = false →
              holds (y.reg o.dst) (k.reg o.dst) (got fun v => v.setWidth 32)
              ∧ (o.ty.is64 = true → holds (y.reg (o.dst + 1)) (k.reg (o.dst + 1)) (got fun v => (v >>> 32).setWidth 32))
              ∧ ∀ r, r ≠ o.dst → ¬ (o.ty.is64 = true ∧ r = o.dst + 1) → y.reg r = k.reg r)
          ∧ (o.noDst = false → o.bolt = true →
              (∀ i < 24, holds (y.reg (o.dst + i)) (k.reg (o.dst + i)) fun l => (lane l).map fun x =>
                (boltWord (LoadOp.boltOf o x).1 i, (LoadOp.boltOf o x).2))
              ∧ ∀ r, (∀ i < 24, r ≠ o.dst + i) → y.reg r = k.reg r))
    ∧ (s.haltedAt k = true → exec (.skeinWake sk) s = .next s ∧ exec (.waitWatchdog sk) s = .next s
        ∧ (∀ u n, k.park = .sleep u n → exec (.sleepExpire sk) s = .next s))
    ∧ (∀ b, tget s.blocks k.blk = some b → (k.met || parkHolds b k.park) = true → s.haltedAt k = false →
        ((∃ t l c, k.park = .chan t l c) ∨ s.parkedBefore b k = false) → exec (.skeinWake sk) s =
          .next { put (s.finished (.skeinWake sk))
              { k with park := .no, readyAt := s.clk, waited := Park.since k.park } with
            sched := .now sk :: s.sched })
    ∧ (∀ u l, s.haltedAt k = false → (∀ offs full, k.park = .word u l offs full → u + 2 ^ 32 ≤ s.clk → exec (.waitWatchdog sk) s =
          .next (s.takeTrap sk { code := 0x14, addr := BitVec.ofNat 64 (offs.headD 0), lane := some l } k.pc))
        ∧ (∀ pa va n, k.park = .count u l pa va n → u + 2 ^ 32 ≤ s.clk → exec (.waitWatchdog sk) s =
          .next (s.takeTrap sk { code := 0x14, addr := va, lane := some l } k.pc))
        ∧ (∀ off n, k.park = .countHall u l off n → u + 2 ^ 32 ≤ s.clk → exec (.waitWatchdog sk) s =
          .next (s.takeTrap sk { code := 0x14, addr := BitVec.ofNat 64 off, lane := some l } k.pc))
        ∧ (∀ c, k.park = .chan u l c → u + 2 ^ 32 ≤ s.clk → exec (.waitWatchdog sk) s =
          .next (s.takeTrap sk { code := 0x14, addr := BitVec.ofNat 64 c, lane := some l } k.pc))
        ∧ (Park.since k.park = some u → s.clk < u + 2 ^ 32 → exec (.waitWatchdog sk) s = .next s))
    ∧ (∀ u n, k.park = .sleep u n →
        (u + n ≤ s.clk → s.haltedAt k = false → ∃ t, exec (.sleepExpire sk) s = .next t
          ∧ t = { s with skeins := t.skeins, ctxs := t.ctxs, pending := t.pending }
          ∧ t.skeins = tput s.skeins sk { k with
              park := .no, pc := pcNext k.pc, stall := k.ownStall, readyAt := s.clk, waited := none, promoted := none,
              leave := .no, met := false, yielded := false }
          ∧ (k.ctx < 256 → ∀ i, t.count k.ctx i = s.count k.ctx i + if i = 24 then 1 else 0)
          ∧ t.pending = s.pending.erase (.sleepExpire sk) ++ if k.ownStall = 0 then [] else [.stallElapse sk])
        ∧ (s.clk < u + n → exec (.sleepExpire sk) s = .next s))

/-- R217, R317, R318, R324: store faults and held causes. The records of a skein that wait enter the core's queue while it
has room, its indicator is set and STORE_FAULT is due; at a boundary it is taken with the cause and the lowest lane of the
oldest record and the number of records, and the indicator clears; a held cause is taken behind it, the oldest first, at the PC of the
next instruction. A parked `sleep` ends before its STORE_FAULT. -/
def Obligations.StoreFaultsAndCauses : Prop :=
  ∀ (s : State) (sk : Nat) (k : Skein), tget s.skeins sk = some k →
    let put := fun (t : State) (x : Skein) => { t with skeins := tput t.skeins sk x }
    let core := s.core k.core
    let due := fun (r : StoreRec) (l : FaultLane) => ∃ rs ls, core.recQ.filter (fun x => x.sk == sk) = r :: rs
      ∧ r.lanes = l :: ls
    let trap := fun (r : StoreRec) (l : FaultLane) =>
      ({ code := r.cause, addr := l.ea, info := BitVec.ofNat 64 (core.recQ.filter fun x => x.sk == sk).length } : Trap)
    (∀ r ∈ core.recWait, r.sk = sk →
        let mine := core.recWait.filter fun x => x.sk == sk
        (core.recQ.length + mine.length ≤ 32 →
          ∃ t, exec (.storeFaultRecord r) s = .next t
            ∧ t = { s with cores := t.cores, skeins := t.skeins, pending := t.pending }
            ∧ t.core k.core = { core with
                recQ := core.recQ ++ mine, recWait := core.recWait.filter fun x => x.sk != sk }
            ∧ (∀ i, i ≠ k.core → t.core i = s.core i) ∧ t.skeins = tput s.skeins sk { k with sfInd := true }
            ∧ .storeFault sk ∈ t.pending ∧ ∀ q ∈ mine, .storeFaultRecord q ∉ t.pending)
        ∧ (32 ≤ core.recQ.length → exec (.storeFaultRecord r) s = .next s))
    ∧ (∀ r l, k.sfInd = true → s.atBoundary k = true → due r l →
        ((∀ u n, k.park ≠ .sleep u n) → exec (.storeFault sk) s =
          .next ((put (s.finished (.storeFault sk)) { k with sfInd := false }).takeTrap sk (trap r l) k.pc))
        ∧ (∀ u n, k.park = .sleep u n → ∃ t : State, exec (.storeFault sk) s = .next (t.takeTrap sk (trap r l) (pcNext k.pc))
            ∧ t = { s with skeins := t.skeins, ctxs := t.ctxs, pending := t.pending }
            ∧ t.skeins = tput s.skeins sk { k with
                park := .no, sfInd := false, pc := pcNext k.pc, stall := k.ownStall, readyAt := s.clk, waited := none,
                promoted := none, leave := .no, met := false, yielded := false }
            ∧ (k.ctx < 256 → ∀ i, t.count k.ctx i = s.count k.ctx i + if i = 24 then 1 else 0)))
    ∧ (∀ c cs, k.held = c :: cs → s.atBoundary k = true → k.park = .no → k.sfInd = false → exec (.boundaryCause sk) s =
        .next ((put (if cs = [] then s.finished (.boundaryCause sk) else s) { k with held := cs }).takeTrap sk
          { code := c.code, addr := c.addr, info := c.info } k.pc))
    ∧ (s.atBoundary k = false →
        (k.sfInd = true → exec (.storeFault sk) s = .next s) ∧ (k.held ≠ [] → exec (.boundaryCause sk) s = .next s))

/-! ## Fetch and page faults (spec 03 R90, 12 R319 to R323, R326, R335 to R338) -/

/-- R90, R215, R251, R319, R320, R321, R326, R338: the line at a skein's PC is taken from the core's instruction cache, unless
an `ifence` shut the skein off from what it holds, or fetched with its poison, which keeps it out of that cache; where its address does not
translate the skein parks for a walk. A walk that finds a leaf caches it and lets the skein go on; one that fails puts a
PAGE_FAULT to the host, or joins the outstanding one of its page, and the skein stays parked. RETRY lets every skein parked
on the fault execute its instruction afresh; REFUSE makes each take its trap. -/
def Obligations.FetchAndPageFaults : Prop :=
  ∀ (s : State) (sk : Nat) (k : Skein), tget s.skeins sk = some k →
    let put := fun (t : State) (x : Skein) => { t with skeins := tput t.skeins sk x }
    let line := k.pc.toNat / 128
    let x := s.ctx k.ctx
    (k.park = .no →
        (∀ p, s.translate k.ctx k.core (BitVec.ofNat 64 (line * 128)) .fetch = .ok p → p.pa % 128 = 0 → p.bolt = false →
          s.plainLine k.core (p.pa / 128) = true →
          let held := (s.core k.core).codeLine (p.pa / 128) k.fenced
          (∀ x, held = some x → ∃ m, exec (.lineFetch sk line) s =
              .next (put m { k with lines := [(line, x.bytes)], badWords := [] })
            ∧ Served s m k.core ∧ m.mem = s.mem ∧ m.memPoison = s.memPoison)
          ∧ (held = none → ∃ m, exec (.lineFetch sk line) s = .next (put m { k with
                lines := [(line, Mem.read s.mem p.pa 128)]
                badWords := ((List.range 10).filter fun i =>
                  poisonedAt s.memPoison p.pa 8 || poisonedAt s.memPoison (p.pa + 8 + 12 * i) 12).map fun i => (line, i) })
            ∧ Served s ({ m with nextId := s.nextId }.modCore k.core fun y => { y with icache := (s.core k.core).icache })
                k.core
            ∧ m.nextId = s.nextId + 1 ∧ m.mem = s.mem ∧ m.memPoison = s.memPoison
            ∧ (m.core k.core).icache = if poisonedAt s.memPoison p.pa 128 then (s.core k.core).icache
                else lastOf 1024 ((s.core k.core).icache.filter (fun y => y.la != p.pa / 128)
                  ++ [⟨p.pa / 128, Mem.read s.mem p.pa 128, s.nextId⟩])))
        ∧ (∀ f, s.translate k.ctx k.core (BitVec.ofNat 64 (line * 128)) .fetch = .error f →
          exec (.lineFetch sk line) s =
            .next ((put s { k with park := .walk (BitVec.ofNat 64 (line * 128)) .fetch none }).postOnce
              (.translationWalk sk (BitVec.ofNat 64 (line * 128)) .fetch))))
    ∧ (∀ va acc lane, k.park = .walk va acc lane → .translationWalk sk va acc ∈ s.pending →
        let i := Instr.translationWalk sk va acc
        (∀ p e n, s.translate k.ctx k.core va acc = .ok p → s.findLeaf k.ctx k.core va = .ok (e, n) →
          ∃ t, exec i s = .next t
            ∧ t = { s with skeins := t.skeins, cores := t.cores, dies := t.dies, pending := s.pending.erase i }
            ∧ t.skeins = tput s.skeins sk { k with park := .no, readyAt := s.clk, waited := none }
            ∧ (s.tlbFind k.ctx k.core va.toNat = none → 0 < n →
                let leaf : TlbEntry := { ctx := k.ctx, vbase := va.toNat / n * n, size := n, entry := e }
                leaf ∈ (t.core k.core).utlb ∧ leaf ∈ (t.die (k.core / 48)).tlb)
            ∧ (∀ c, { t.core c with utlb := [] } = { s.core c with utlb := [] })
            ∧ ∀ d, { t.die d with tlb := [] } = { s.die d with tlb := [] })
        ∧ (∀ f, s.translate k.ctx k.core va acc = .error f →
          let mine := fun (q : PFault) => q.die == k.core / 48 && q.page == va.toNat / 2 ^ 16
          (∀ q, x.faults.find? mine = some q → exec i s =
            .next ((put (s.finished i) { k with park := .fault q.id va acc f.fcode lane }).modCtx k.ctx fun y => { y with
              faults := y.faults.map fun z => if z.id = q.id then { z with waiters := z.waiters ++ [sk] } else z }))
          ∧ (x.faults.find? mine = none → ∃ t e, exec i s = .next t
              ∧ t = { s with skeins := t.skeins, ctxs := t.ctxs, pending := t.pending }
              ∧ t.skeins = tput s.skeins sk { k with park := .fault x.nextFault va acc f.fcode lane }
              ∧ t.ctx k.ctx = { x with
                  faults := x.faults ++ [⟨x.nextFault, k.core / 48, va.toNat / 2 ^ 16, [sk]⟩]
                  nextFault := x.nextFault + 1
                  events := tput x.events (x.relDie k.core) e }
              ∧ (∃ old, old = (tget x.events (x.relDie k.core)).getD {} ∧ e = { old with backlog := e.backlog }
                  ∧ ∃ bs, e.backlog = old.backlog ++ [bs] ∧ bs.length = 32 ∧ fieldAt bs 0 8 = x.nextFault % 2 ^ 64
                    ∧ fieldAt bs 8 8 = s.gt % 2 ^ 64
                    ∧ fieldAt bs 16 1 = 0x10 ∧ fieldAt bs 17 1 = accCode acc ∧ fieldAt bs 18 2 = x.relCore k.core % 2 ^ 16
                    ∧ fieldAt bs 20 1 = f.level % 256 ∧ fieldAt bs 21 1 = f.fcode % 256 ∧ fieldAt bs 24 8 = va.toNat)
              ∧ (∀ c, c ≠ k.ctx → t.ctx c = s.ctx c)
              ∧ .eventBacklogPost k.ctx (x.relDie k.core) ∈ t.pending)))
    ∧ (∀ id va acc fcode lane, k.park = .fault id va acc fcode lane → (x.faults.any fun q => q.id == id) = true →
        let left := { x with faults := x.faults.filter fun q => q.id != id }
        (∃ t : State, exec (.faultRetry k.ctx id) s = .next t
          ∧ t = { s with skeins := t.skeins, ctxs := tput s.ctxs k.ctx left, saved := t.saved }
          ∧ tget t.skeins sk = some { k with park := .no, readyAt := s.clk, waited := none }
          ∧ ∀ i, (∀ y, (i, y) ∈ s.skeins → y.ctx = k.ctx → y.onFault id = false) → tget t.skeins i = tget s.skeins i)
        ∧ (s.onFault k.ctx id = [(sk, k)] →
          ∃ t : State, t = { s with skeins := tput s.skeins sk { k with park := .no }
                                    ctxs := tput s.ctxs k.ctx left
                                    saved := t.saved }
            ∧ (acc ≠ .tileStore → (acc = .atomic → fcode ≠ 2) → exec (.faultRefuse k.ctx id) s = .next (t.takeTrap sk
                { code := 0x10, addr := va, info := BitVec.ofNat 64 fcode, lane := lane } k.pc))
            ∧ ((acc = .tileStore ∨ (acc = .atomic ∧ fcode = 2)) →
                ∀ r rs l ls, (s.core k.core).recQ.filter (fun q => q.sk == sk) = r :: rs → rs.length < 32 →
                  r.lanes = l :: ls → exec (.faultRefuse k.ctx id) s = .next (t.takeTrap sk
                    { code := 0x11, addr := l.ea, info := BitVec.ofNat 64 (rs.length + 1) } k.pc))))

/-! ## Steps of the caches and homes (spec 09 R251 to R261, R428; 10 R280; 13 R359) -/

/-- R252, R255, R256, R326, R354, R358, R359: the store path and the loads at a home. The oldest entry of a line leaves the buffer as one
write, with none of the line's before it; the home places it behind every lease, dirties the line, clears the poison of
units written whole, notes and wakes the count waits of the line whose threshold it meets, poisons the units that
arrived poisoned, and acknowledges it; a lost home counts it as discarded. The acknowledgement raises LCLK and lands the
stores. A load gets the line's bytes under a lease, once for its tag: a request that comes again gets the reply again and
no further lease. The reply raises LCLK, leaves the copy and binds the bytes to the load; one that nobody waits for does
nothing. -/
def Obligations.StoreAndLoadPaths : Prop :=
  (∀ (s : State) (core la : Nat) (e : ScbEntry), .scbDrain core la ∈ s.pending → s.sentEntry core la = none →
    ((s.core core).scb.find? fun x => !x.sent && x.la == la) = some e →
    let r : WriteReq := { core := core, ctx := e.ctx, la := la, bytes := e.bytes, lclk := (s.core core).lclk,
                          cached := e.cached, writers := e.writers, narrow := false }
    exec (.scbDrain core la) s = .next ({ s with
      pending := s.pending.erase (.scbDrain core la) ++ [Instr.homeWrite r] }.modCore core fun x => { x with
        scb := x.scb.map fun y => if y = e then { y with sent := true } else y }))
  ∧ (∀ (s : State) (r : WriteReq) (d : Nat), .homeWrite r ∈ s.pending → s.homeDie r.la = some d →
    let ack := fun w => Instr.writeAck { core := r.core, ctx := r.ctx, la := r.la, bytes := r.bytes, wts := w,
                                         cached := r.cached, writers := r.writers }
    ((s.die d).lost = false → s.noPartial r.la = true → s.sliceRoom r.la = true →
      let w := Stamp.max r.lclk ((s.homeLine r.la).rts + 1)
      ∃ t, exec (.homeWrite r) s = .next t ∧ wroteCells s.mem t.mem r.bytes
        ∧ t = { s with mem := t.mem, memPoison := t.memPoison, lines := t.lines, dies := t.dies, ctxs := t.ctxs,
                       shut := t.shut, skeins := t.skeins, pending := t.pending }
        ∧ (∀ u, u ∈ t.memPoison ↔ (u ∈ s.memPoison ∧ ¬ ∀ i < u.2, ∃ c ∈ r.bytes, c.1 = u.1 + i)
            ∨ ∃ n ∈ r.bad, u = (r.la * 128 + 32 * n, 32))
        ∧ (∃ h, tget t.lines r.la = some h ∧ h = { wts := w, rts := w, dirty := some r.ctx
                                                   relCore := if r.narrow then some r.core else none })
        ∧ (∀ i, i ≠ r.la → tget t.lines i = tget s.lines i)
        ∧ (∀ i, t.die i = { s.die i with lastFlit := (t.die i).lastFlit })
        ∧ (∀ c, { t.ctx c with meter := [] } = { s.ctx c with meter := [] })
        ∧ ack w ∈ t.pending ∧ Woken s t r.la)
    ∧ ((s.die d).lost = true → ∃ t, exec (.homeWrite r) s = .next t
      ∧ t = { s with memPoison := t.memPoison, dies := t.dies, ctxs := t.ctxs, shut := t.shut
                     pending := s.pending.erase (.homeWrite r) ++ [ack r.lclk] }
      ∧ ∀ i, t.die i = { s.die i with
          lastFlit := (t.die i).lastFlit
          discarded := if i = d then min ((s.die d).discarded + 1) (2 ^ 64 - 1) else (s.die i).discarded }))
  ∧ (∀ (s : State) (r : WriteAck) (e : ScbEntry), .writeAck r ∈ s.pending → s.sentEntry r.core r.la = some e →
    ∃ t, exec (.writeAck r) s = .next t
      ∧ t = { s with cores := t.cores, skeins := t.skeins, pending := s.pending.erase (.writeAck r) }
      ∧ (t.core r.core).lclk = Stamp.max (s.core r.core).lclk r.wts ∧ (t.core r.core).scb = (s.core r.core).scb.erase e
      ∧ (∀ x, tget (t.core r.core).l1 r.la = some x → x.rts = r.wts
          ∧ ∀ u ∈ x.poison, ¬ ∀ i < u.2, ∃ c ∈ r.bytes, c.1 = u.1 + i)
      ∧ (∀ i, i ≠ r.core → t.core i = s.core i)
      ∧ (e.ops = [] → t.skeins = s.skeins)
      ∧ ∀ sk f n k, e.ops = [(sk, f, n)] → (∀ x ∈ (s.core r.core).scb.erase e, (sk, f, n) ∉ x.ops) →
          tget s.skeins sk = some k → (∃ k', tget t.skeins sk = some k' ∧ FlagDown s.clk (some f) k k')
            ∧ ∀ i, i ≠ sk → tget t.skeins i = tget s.skeins i)
  ∧ (∀ (s : State) (r : LoadReq) (d : Nat), .homeLoad r ∈ s.pending → s.homeDie r.la = some d →
    (s.die d).lost = false → s.noPartial r.la = true → s.sliceRoom r.la = true →
    let h := s.homeLine r.la
    let n := s.homeSlice r.la
    let reply := fun upto => Instr.loadReply
      { op := r.op, sk := r.sk, core := r.core, ctx := r.ctx, la := r.la, cached := r.cached && !r.bolt
        att := (if r.cached then 1 else 0) + (if r.bolt then 2 else 0)
        data := if r.bolt then normLine (s.lineBytes r.la) else s.lineBytes r.la
        poison := s.memPoison.filter (unitMeets (r.la * 128) 128), wts := h.wts, rts := upto, tag := r.tag }
    ∃ t, exec (.homeLoad r) s = .next t
      ∧ t = { s with lines := t.lines, dies := t.dies, ctxs := t.ctxs, slices := t.slices, shut := t.shut
                     pending := t.pending }
      ∧ (∀ i, i ≠ r.la → tget t.lines i = tget s.lines i)
      ∧ (∀ i, t.die i = { s.die i with lastFlit := (t.die i).lastFlit })
      ∧ (∀ c, { t.ctx c with meter := [] } = { s.ctx c with meter := [] })
      ∧ ((s.slice n).knows r.tag = false →
          let upto := Stamp.max h.rts (r.lclk + BitVec.ofNat 16 r.lease)
          tget t.lines r.la = some { h with rts := upto } ∧ reply upto ∈ t.pending
            ∧ t.slice n = { s.slice n with tags := (s.slice n).tags ++ [(r.tag, s.gt)] }
            ∧ ∀ i, i ≠ n → t.slice i = s.slice i)
      ∧ ((s.slice n).knows r.tag = true →
          tget t.lines r.la = some h ∧ t.slices = s.slices ∧ reply h.rts ∈ t.pending))
  ∧ (∀ (s : State) (r : LoadRep) (k : Skein) (o : LoadOp), .loadReply r ∈ s.pending → tget s.skeins r.sk = some k →
    k.loads = [o] → o.id = r.op →
    let o' := { o with got := o.got ++ [{ la := r.la, att := r.att, data := r.data, poison := r.poison }]
                       asked := o.asked.filter fun q => q.1.tag != r.tag }
    ((∃ q ∈ o.asked, q.1.tag = r.tag) → ∃ t, exec (.loadReply r) s = .next t
      ∧ t = { s with cores := t.cores, skeins := tput s.skeins r.sk { k with loads := [o'] }, pending := t.pending }
      ∧ (t.core r.core).lclk = Stamp.max (s.core r.core).lclk r.wts ∧ (∀ i, i ≠ r.core → t.core i = s.core i)
      ∧ (r.cached = true → tget (s.core r.core).merges r.la = none →
          (s.core r.core).l1.length + (s.core r.core).merges.length < 4096 →
          tget (t.core r.core).l1 r.la = some { data := r.data, rts := r.rts, poison := r.poison })
      ∧ t.pending = s.pending.erase (.loadReply r) ++ if LoadOp.bound o' then [.loadDataLand r.sk r.op] else [])
    ∧ ((∀ q ∈ o.asked, q.1.tag ≠ r.tag) →
        exec (.loadReply r) s = .next { s with pending := s.pending.erase (.loadReply r) }))

/-- R37, R255, R256, R257, R280, R428: clocks, eviction, wakes and promotion. LCLK rises by one when its tick is due, and the
next is due m clocks later, m the least LTICK of the contexts on the core; once a microsecond PCLK takes the latest LCLK, and no core stays more than 2^12 ticks
behind; an evicted line leaves its lease in the slice's mts and its dirty data in HBM, counted; a wake lets a count wait
whose threshold has been met perform at once, and leaves a halted skein parked; a promoting acquire makes the releasing core drain. No byte of memory changes but by
such a drain. -/
def Obligations.ClocksAndEvictions : Prop :=
  (∀ (s : State) (core m : Nat), (∀ c ∈ s.onCore core, m ≤ (s.ctx c).ltick) →
    (s.onCore core ≠ [] → ∃ c ∈ s.onCore core, (s.ctx c).ltick = m) → (s.onCore core = [] → m = 256) →
    let k := s.core core
    (k.tickAt ≤ s.clk → exec (.lclkTick core) s = .next (s.setCore core { k with
        lclk := k.lclk + 1, tickAt := k.tickAt + m
        l1 := if (k.lclk + 1).toNat % 2 ^ 13 = 0 then k.l1.filter fun c => !(Stamp.behind c.2.rts (k.lclk + 1) (2 ^ 14))
          else k.l1 }))
    ∧ (s.clk < k.tickAt → exec (.lclkTick core) s = .next s))
  ∧ (∀ s : State, let base := s.pkg.pclk
    (∀ i < 192, ((s.core i).lclk - base).toNat < 2 ^ 15) →
    (s.pkg.sampledAt + 1000 ≤ s.gt → ∃ t p, exec .pclkBroadcast s = .next t ∧ t.pkg.pclk = p
      ∧ t = { s with pkg := t.pkg, cores := t.cores, dies := t.dies, lines := t.lines, slices := t.slices
                     ports := t.ports, grids := t.grids, saved := t.saved }
      ∧ t.pkg.hostLclk =
          Stamp.floor (s.pkg.hostLclk + BitVec.ofNat 16 ((s.clk - s.pkg.hostTickAt) / 256)) p (2 ^ 12)
      ∧ (∀ i < 192, ((s.core i).lclk - base).toNat ≤ (p - base).toNat)
      ∧ (p = base ∨ ∃ i < 192, (s.core i).lclk = p) ∧ (∀ d < 4, (t.die d).pclk = p)
      ∧ t.pkg.sampledAt ≤ s.gt ∧ s.gt < t.pkg.sampledAt + 1000
      ∧ ∀ i < 192, (t.core i).lclk =
          if 2 ^ 12 < (p - (s.core i).lclk).toNat then p - BitVec.ofNat 16 (2 ^ 12) else (s.core i).lclk)
    ∧ (s.gt < s.pkg.sampledAt + 1000 → exec .pclkBroadcast s = .next s))
  ∧ (∀ (s : State) (la : Nat) (h : HomeLine), tget s.lines la = some h → h.relCore = none →
    (s.homeDie la).isSome = true →
    ∃ t, exec (.l2Evict la) s = .next t
      ∧ t = { s with lines := t.lines, slices := t.slices, ctxs := t.ctxs, dies := t.dies, shut := t.shut }
      ∧ tget t.lines la = none ∧ (∀ i, i ≠ la → tget t.lines i = tget s.lines i)
      ∧ (∀ i, t.die i = { s.die i with lastFlit := (t.die i).lastFlit })
      ∧ (t.slice (s.homeSlice la)) = { s.slice (s.homeSlice la) with
          mts := Stamp.max (s.slice (s.homeSlice la)).mts h.rts }
      ∧ (∀ c, h.dirty ≠ some c → t.ctx c = s.ctx c) ∧ (∀ c, { t.ctx c with meter := [] } = { s.ctx c with meter := [] })
      ∧ ∀ c < 256, h.dirty = some c → ∀ i, t.count c i = s.count c i + if i = 15 ∨ i = 18 then 128 else 0)
  ∧ (∀ (s : State) (sk : Nat) (k : Skein) (u l pa : Nat) (va n : DWord), .countWake sk ∈ s.pending →
    tget s.skeins sk = some k → k.park = .count u l pa va n →
    let t := { s with pending := s.pending.erase (.countWake sk) }
    (s.haltedAt k = false → k.met = true → exec (.countWake sk) s = .next { t with
        skeins := tput s.skeins sk { k with park := .no, readyAt := s.clk, waited := some u }
        sched := .now sk :: s.sched })
    ∧ (s.haltedAt k = false → k.met = false → exec (.countWake sk) s = .next t)
    ∧ (s.haltedAt k = true → exec (.countWake sk) s = .next s))
  ∧ (∀ (s : State) (core la : Nat), .promoteDrain core la ∈ s.pending →
    ∃ t, exec (.promoteDrain core la) s = .next t
      ∧ (∀ i ∈ t.pending, isWriteOf core i = false ∧ isWriteAckOf core i = false)
      ∧ (∀ h, tget t.lines la = some h → h.relCore ≠ some core)
      ∧ ((s.core core).scb = [] → (∀ i ∈ s.pending, isWriteOf core i = false ∧ isWriteAckOf core i = false) →
          t = { s with lines := t.lines, pending := s.pending.erase (.promoteDrain core la) }))

/-- R259 to R261, R359: merge state. A recall makes every holder give its copy up and send its partial under a tag of its own,
which it keeps until the reply; a partial that arrives is merged into its line once for its tag, whatever is sent again, and
its holder has the reply; a message without a reply for 8 µs is sent again with the same tag; a holder may return its copy
of its own; a tag leaves the window 64 µs after its transaction when no message that carries it is under way. -/
def Obligations.MergeState : Prop :=
  let merged := fun (s : State) (la : Nat) (b : Bolt) (n : Nat) => Mem.write s.mem (la * 128)
    (boltLine (boltNorm (boltMerge (s.lineBolt la) b)) (satAdd64 (countOfLine (s.lineBytes la)) n))
  (∀ (s : State) (la : Nat) (hs : List Nat), tget s.mergeDir la = some hs → hs.Nodup →
    (∀ c ∈ hs, (tget (s.core c).merges la).isSome = true ∧ (s.die (c / 48)).lost = false) →
    ∃ t, exec (.recall la) s = .next t
      ∧ t = { s with cores := t.cores, mergeDir := t.mergeDir, pending := t.pending }
      ∧ (hs ≠ [] → tget t.mergeDir la = none) ∧ (∀ i, i ≠ la → tget t.mergeDir i = tget s.mergeDir i)
      ∧ (∀ c, c ∉ hs → t.core c = s.core c)
      ∧ ∀ c ∈ hs, ∀ m, tget (s.core c).merges la = some m →
          let k := s.core c
          let x := s.slice (s.homeSlice la)
          ∃ n, let r : RecallAck := { core := c, la := la, tag := transTag c n, bolt := m.bolt, count := m.count }
            t.core c = { k with merges := tdel k.merges la, seq := (n + 1) % 2 ^ 20, acks := k.acks ++ [(r, s.gt)] }
            ∧ .recallAck r ∈ t.pending
            ∧ (x.tags.length + k.acks.length < 2 ^ 20 → x.knows r.tag = false ∧ ∀ a ∈ k.acks, a.1.tag ≠ r.tag))
  ∧ (∀ (s : State) (r : RecallAck), .recallAck r ∈ s.pending →
    let n := s.homeSlice r.la
    let x := s.slice n
    let k := s.core r.core
    let k' := { k with acks := k.acks.filter fun a => a.1.tag != r.tag }
    let t := { s with pending := s.pending.erase (.recallAck r) }
    (x.knows r.tag = false → s.homeLost r.la = false → ∃ u, exec (.recallAck r) s = .next u
      ∧ u = { s with mem := merged s r.la r.bolt r.count, skeins := u.skeins, pending := u.pending
                     slices := tput s.slices n { x with tags := x.tags ++ [(r.tag, s.gt)] }
                     cores := tput s.cores r.core k' }
      ∧ Woken s u r.la)
    ∧ (x.knows r.tag = true → exec (.recallAck r) s = .next { t with cores := tput s.cores r.core k' })
    ∧ (x.knows r.tag = false → s.homeLost r.la = true → ∃ u, exec (.recallAck r) s = .next u
      ∧ u = { t with dies := u.dies, slices := u.slices, cores := tput s.cores r.core k' }))
  ∧ (∀ (s : State) (r : RecallAck) (u : Nat), (r, u) ∈ (s.core r.core).acks → u + 8000 ≤ s.gt →
    let k := s.core r.core
    let t := { s with pending := s.pending ++ [Instr.recallAck r]
                      cores := tput s.cores r.core { k with
                        acks := k.acks.map fun a => if a.1 == r then (a.1, s.gt) else a } }
    exec (.controlReissue (.ack r)) s = .next t
    ∧ (k.acks = [(r, u)] → exec (.controlReissue (.recall r.core r.la)) s = .next t))
  ∧ (∀ (s : State) (core la : Nat), (∀ a ∈ (s.core core).acks, a.1.la = la → s.gt < a.2 + 8000) →
    exec (.controlReissue (.recall core la)) s = .next s)
  ∧ (∀ (s : State) (r : LoadReq) (k : Skein), tget s.skeins r.sk = some k →
    let old := fun q : LoadReq × Nat => q.1 = r ∧ q.2 + 8000 ≤ s.gt
    ((∃ o ∈ k.loads, ∃ q ∈ o.asked, old q) → exec (.controlReissue (.renewal r)) s = .next { s with
        pending := s.pending ++ [Instr.homeLoad r]
        skeins := tput s.skeins r.sk { k with loads := k.loads.map fun o => { o with
          asked := o.asked.map fun q => if q.1 == r then (q.1, s.gt) else q } } })
    ∧ ((∀ o ∈ k.loads, ∀ q ∈ o.asked, ¬ old q) → exec (.controlReissue (.renewal r)) s = .next s))
  ∧ (∀ (s : State) (core la : Nat) (m : MergeCopy), tget (s.core core).merges la = some m →
    (s.die (core / 48)).lost = false → s.homeLost la = false →
    ∃ t, exec (.partialReturn core la) s = .next t
      ∧ t = { s with mem := merged s la m.bolt m.count, cores := t.cores, mergeDir := t.mergeDir, skeins := t.skeins
                     pending := t.pending }
      ∧ Woken s t la
      ∧ t.core core = { s.core core with merges := tdel (s.core core).merges la }
      ∧ (∀ c, c ≠ core → t.core c = s.core c)
      ∧ (∀ c, c ∈ (tget t.mergeDir la).getD [] ↔ c ∈ (tget s.mergeDir la).getD [] ∧ c ≠ core)
      ∧ ∀ i, i ≠ la → tget t.mergeDir i = tget s.mergeDir i)
  ∧ ∀ (s : State) (n tag : Nat),
    ((∀ i ∈ s.pending, carriesTag tag i = false) → exec (.tagExpire n tag) s =
      .next (s.modSlice n fun x => { x with tags := x.tags.filter fun y => y.1 != tag || decide (s.gt < y.2 + 64000) }))
    ∧ ((∃ i ∈ s.pending, carriesTag tag i = true) → exec (.tagExpire n tag) s = .next s)

/-! ## Determinism (spec 15 R394 to R397) -/

/-- R395, R396, R397: ordered entries. The frontier of a grid is the least key that a block not yet placed, a live skein or a
saved one can still write under, and the slices that hold entries it has reached apply them; of the held entries that it has
reached the one with the least key is applied first, to its bytes alone; an entry ahead of the frontier is held while its
home has room, and else sent again after twice the wait, 64 at first and at most 4,096; of the lanes of one skein that wait
so for one location, the lowest goes first. -/
def Obligations.OrderedEntries : Prop :=
  (∀ (s : State) (grid : Nat) (g : Grid), tget s.grids grid = some g →
    ∃ t f, exec (.frontierUpdate grid) s = .next t ∧ t = { s with grids := t.grids, pending := t.pending }
      ∧ t.grids = tput s.grids grid { g with frontier := f } ∧ (f ∈ s.floors grid g ∨ f = BitVec.allOnes 64)
      ∧ (∀ b ∈ s.blocks, b.2.grid = grid → b.2.allEnded = false → ∀ i ∈ b.2.skeins, ∀ k, tget s.skeins i = some k →
          f ≤ k.task.key b.2.idx)
      ∧ (∀ p ∈ g.shares, p.2.lo < p.2.hi →
          f ≤ BitVec.ofNat 64 ((if g.serial then p.2.lo else p.2.die + (s.ctx g.ctx).nDies * p.2.lo) * 2 ^ 32))
      ∧ (∀ p ∈ g.shares, ∀ i ∈ p.2.extra, f ≤ BitVec.ofNat 64 (i * 2 ^ 32))
      ∧ (∀ p ∈ s.saved, p.2.block.grid = grid → ∀ k ∈ p.2.skeins, f ≤ k.2.task.key p.2.block.idx)
      ∧ ∀ n ∈ s.slices, (∃ e ∈ n.2.ordered, e.grid = grid ∧ e.key ≤ f) → .orderedEntryApply n.1 ∈ t.pending)
  ∧ (∀ (s : State) (n : Nat) (e : OrdEntry) (bytes : List (Nat × Byte)) (pre post : List OrdEntry),
    let ready := fun (x : OrdEntry) => x.key ≤ s.frontierOf x.grid
    let la := e.pa / 128
    (s.slice n).ordered = pre ++ e :: post → ready e → (∀ x ∈ pre, ready x → e.key < x.key) →
    (∀ x ∈ post, ready x → e.key ≤ x.key) → e.act = .store bytes → e ∉ pre → (s.homeDie la).isSome = true →
    s.bareLine la = true → s.sliceRoom la = true →
      ∃ t, exec (.orderedEntryApply n) s = .next t ∧ t.slice n = { s.slice n with ordered := pre ++ post }
        ∧ (∀ i, i ≠ n → t.slice i = s.slice i) ∧ wroteCells s.mem t.mem bytes
        ∧ t = { s with mem := t.mem, memPoison := t.memPoison, lines := t.lines, slices := t.slices, dies := t.dies,
                       cores := t.cores, ctxs := t.ctxs, pending := t.pending, grids := t.grids, blocks := t.blocks,
                       skeins := t.skeins, shut := t.shut }
        ∧ ((∃ x ∈ pre ++ post, ready x) → .orderedEntryApply n ∈ t.pending))
  ∧ (∀ (s : State) (e x : OrdEntry), .orderedRetry x ∈ s.pending → e.sk = x.sk → e.pa = x.pa → x.lane < e.lane →
    (∀ y, .orderedRetry y ∈ s.pending → y.sk = x.sk → y.pa = x.pa → y = x ∨ x.lane < y.lane) →
      exec (.orderedRetry e) s = exec (.orderedRetry x) s)
  ∧ ∀ (s : State) (e : OrdEntry), .orderedRetry e ∈ s.pending → (s.homeDie (e.pa / 128)).isSome = true →
    (∀ y, .orderedRetry y ∈ s.pending → y.sk = e.sk → y.pa = e.pa → e.lane ≤ y.lane) →
    (∀ b, tget s.blocks e.blk = some b → b.dying = none) → ¬ e.key ≤ s.frontierOf e.grid →
    let n := s.homeSlice (e.pa / 128)
    let t := { s with pending := s.pending.erase (.orderedRetry e) }
    ((s.slice n).ordered.length < 255 → exec (.orderedRetry e) s =
      .next (t.setSlice n { s.slice n with ordered := (s.slice n).ordered ++ [e] }))
    ∧ (255 ≤ (s.slice n).ordered.length → exec (.orderedRetry e) s =
      .next { t with pending := t.pending ++ [.orderedRetry { e with
        backoff := if e.backoff = 0 then 64 else min 4096 (2 * e.backoff) }] })

/-! ## Records (spec 08 R220 to R237, R429; 11 R290 to R292; 15 R399) -/

/-- R220 to R225, R228, R237, R291, R292: records. `submit` puts the record of its lowest active lane to the port that its
aperture selects and writes status and number; what is not accepted has no number and changes no port; a MARK that its checks
let through is numbered, queued and raises its flag. Completing a record lowers its flag, raises the LCLK of
its skein's core to the time of its last write, and brings the port's count word up to the last number below which every
record is complete. A MARK adds to its count word behind every earlier record. Rings are visited in turn; one
whose head word is out of range is disabled and reported; from a sound one the next record is taken and the tail word
written. -/
def Obligations.RecordsAndRings : Prop :=
  (∀ (s : State) (h : Ctl) (d a b : Opnd) (k : Skein),
    let c := s.iss h k
    let u : Uses := { a := regsOf a 1, b := regsOf b 16, d := regsOf d 2 }
    let x := c.single [] a
    let bad := fun l => l == c.low && (List.range 16).any fun j => c.lanePoison (opIdx b + j) l
    let bs := c.recordBytes (opIdx b)
    let answer := fun (k' : Skein) (v : Nat) => RegsWritten c k' (fun _ => .uniform) (fun _ _ => false)
      (destRegs true d fun _ => BitVec.ofNat 64 v)
    d.isReg = true → s.mayIssue h u k = true → c.clean [c.lowOnly x, bad] = true → c.flagHigh bs = false →
    s.settled k = true →
      (∀ p, portOf k.ctx k.core ((x.val c.low).setWidth 32 : Word).toNat = some p →
        let r := s.place { port := p, raw := bs, isRing := false, sk := some s.cur, blk := some k.blk, grid := some k.grid
                           core := k.core }
        CompletesOver (.submit h d a b) s h u false id [] fun m k0 k' =>
          m = r.1 ∧ tget m.skeins s.cur = some k0 ∧ k'.preds = k0.preds ∧ k'.fpcsr = k0.fpcsr
            ∧ answer k' (Status.num r.2.1 + 256 * r.2.2))
      ∧ (portOf k.ctx k.core ((x.val c.low).setWidth 32 : Word).toNat = none →
        CompletesOver (.submit h d a b) s h u false id [] fun m k0 k' =>
          m = s ∧ k0 = k ∧ k'.preds = k.preds ∧ k'.fpcsr = k.fpcsr ∧ answer k' 2))
  ∧ (∀ (s t : State) (a : Ask) (st : Status) (n : Nat), s.place a = (t, st, n) →
    (st ≠ .accepted → n = 0 ∧ t.ports = s.ports ∧ t.grids = s.grids
      ∧ ∀ i, Stirred true (tget s.skeins i) (tget t.skeins i))
    ∧ (st = .accepted → n = (s.port a.port).accepted + 1 ∧ (t.port a.port).accepted = n))
  ∧ (∀ (s : State) (a : Ask) (hd : Header) (core ch : Nat),
    let sc := fieldAt a.raw 24 1
    a.port.kind = .shuttle core ch → fieldAt a.raw 0 1 = 0x40 → fieldAt a.raw 8 8 < 2 ^ 55 → fieldAt a.raw 8 8 % 8 = 0 →
    2 ≤ sc → sc ≤ 4 → anySet a.raw 25 39 = false → headerOf a.isRing a.raw = some hd →
      (s.queueFull a.port = true → s.place a = (s, .full, 0))
      ∧ (s.queueFull a.port = false → ∃ t r, s.place a = (t, .accepted, (s.port a.port).accepted + 1)
          ∧ (t.port a.port).recs = (s.port a.port).recs ++ [r] ∧ r.num = (s.port a.port).accepted + 1
          ∧ r.body = .mark (dwordAt a.raw 8) (dwordAt a.raw 16) sc ∧ r.tag = hd.tag ∧ r.trap = hd.trap
          ∧ .mark a.port r.num ∈ t.pending
          ∧ ∀ i k, a.sk = some i → tget s.skeins i = some k → ∃ k', tget t.skeins i = some k'
              ∧ k' = { k with flags := k'.flags } ∧ ∀ f, k'.flag f = k.flag f + if f = hd.flag ∧ f < 12 then 1 else 0))
  ∧ (∀ (s : State) (p : Port) (n w sk f : Nat) (va : DWord) (q : Phys) (k : Skein) (r : RecSt),
    let x := s.port p
    let t := s.complete p n
    s.record p n = some r → r.sk = some sk → r.flag = some f → tget s.skeins sk = some k →
    x.word ≤ w → (∀ j, x.word < j → j ≤ w → j = n ∨ j ∈ x.done) → w + 1 ≠ n → w + 1 ∉ x.done →
    s.countVa p = some va → s.wordAt p.ctx ((s.ctx p.ctx).firstDie * 48) va.toNat .store q →
      t.port p = { x with recs := x.recs.filter (fun y => y.num != n), word := w, done := (t.port p).done
                          seen := Stamp.max x.seen r.seen }
      ∧ (∀ o, o ≠ p → t.port o = s.port o)
      ∧ wroteCells s.mem t.mem (if w = x.word then [] else cellsAt q.pa (leBytes 8 w))
      ∧ ∃ m k', FlagDown s.clk (some f) k k' ∧ Brought m t
          ∧ m = { s with ports := t.ports, skeins := tput s.skeins sk k', cores := m.cores, grids := m.grids }
          ∧ (m.core k.core).lclk = Stamp.max (s.core k.core).lclk r.seen ∧ (∀ i, i ≠ k.core → m.core i = s.core i)
          ∧ ∀ i g, tget s.grids i = some g → ∃ g', tget m.grids i = some g' ∧ g' = { g with lclk := g'.lclk })
  ∧ (∀ (s : State) (p : Port) (n sc : Nat) (target inc : DWord) (r : RecSt), s.record p n = some r →
    r.body = .mark target inc sc → r.paused = false →
      ((∃ y ∈ (s.port p).recs, y.num < n) → exec (.mark p n) s = .next s)
      ∧ ((∀ y ∈ (s.port p).recs, n ≤ y.num) →
        (target = 0 → exec (.mark p n) s = .next ((s.completeRec p r).finished (.mark p n)))
        ∧ (∀ q q', target ≠ 0 → s.wordAt p.ctx (s.recCore p r) target.toNat .load q →
            s.wordAt p.ctx (s.recCore p r) target.toNat .store q' → q.pa = q'.pa →
            ∃ m, exec (.mark p n) s = .next ((m.completeRec p r).finished (.mark p n)) ∧ Brought s m
              ∧ wroteCells s.mem m.mem
                  (cellsAt q.pa (leBytes 8 (min (Mem.nat s.mem q.pa 8 + inc.toNat) (2 ^ 64 - 1)))))))
  ∧ (∀ (s : State) (c ring : Nat) (r : Ring), s.ring c ring = some r → r.enabled = true →
    (s.ctx c).state ≠ .free → (s.ctx c).state ≠ .lost → s.nextRing ≠ some (c * 64 + ring) →
      exec (.ringPoll c ring) s = .next s)
  ∧ (∀ (s m : State) (c ring : Nat) (r : Ring) (hb : List Byte), s.ring c ring = some r → r.enabled = true →
    (s.ctx c).state ≠ .free → (s.ctx c).state ≠ .lost → r.fresh = false → r.taken < 2 ^ 64 →
    s.nextRing = some (c * 64 + ring) →
    ({ s with pkg := { s.pkg with ringLast := some (c * 64 + ring) } } : State).bookRead c r.headVa 8 = some (m, hb) →
    let head := ofLeBytes hb
    let p : Port := ⟨c, .ring ring⟩
    let m0 := m.modRing c ring fun q => { q with taken := r.taken, fresh := false }
    ((head < r.taken ∨ r.taken + 2 ^ r.log2n < head) → ∃ t e, exec (.ringPoll c ring) s = .next t
      ∧ t.ring c ring = some { r with enabled := false } ∧ t.ports = s.ports ∧ t.mem = m.mem
      ∧ tget (t.ctx c).events r.die = some e
      ∧ e.backlog = ((tget (m.ctx c).events r.die).getD {}).backlog ++
          [evEntry (Config.openField 3 ring) m.gt 0x04 ([0] ++ leBytes 2 ring)])
    ∧ (head = r.taken → exec (.ringPoll c ring) s = .next m0)
    ∧ (∀ m1 m2 bs n, head = r.taken + 1 → m0.ringHeld p = false → m0.backlogFull c r.die = false →
      m0.bookRead c (r.base + BitVec.ofNat 64 (64 * (r.taken % 2 ^ r.log2n))) 64 = some (m1, bs) →
      m1.place { port := p, raw := bs, isRing := true, core := m1.engCore p } = (m2, .accepted, n) →
      m2.ring c ring = some r →
        exec (.ringPoll c ring) s = .next ((m2.modRing c ring fun q => { q with taken := head }).bookWrite c r.tailVa
          (leBytes 8 head))))

/-- R228, R232 to R234, R331, R377, R399: copies. The record at the head of its channel begins, and one of 64 KiB or more asks
its core for leave first; a row takes its global bytes from the shuttles' regulator, each aligned word of it that no later
row reaches is written once, and it is counted; a row that faults pauses the record; a GATHER_SHARD reads its version first, writes no row where it is not the one expected, and
ends with its status block. Leave goes to the oldest ask; the allowance and the buckets are refilled by the microsecond, and
a change of a bucket acts from the next one on. -/
def Obligations.CopiesAndLeave : Prop :=
  (∀ (s : State) (p : Port) (n : Nat) (r : RecSt) (c : CopyRec), s.record p n = some r → r.paused = false →
    r.body = .copy c → r.started = false →
    let bytes := c.tmpl.planes * c.rows * Template.dstLen c.tmpl
    let begun := fun (t : State) (i : Instr) (x : RecSt) =>
      ((t.finished i).setRecord p { x with started := true, resumed := false }).postOnce (.copyRow p n)
    let go := (bytes < 65536 ∧ r.leave = .no) ∨ r.leave = .granted
    let ahead := (∃ q ∈ (s.port p).recs, q.core = r.core ∧ q.num < n) ∨
      ∃ x ∈ s.ports, x.port ≠ p ∧ Port.sameChannel x.port p = true ∧ ∃ q ∈ x.recs, q.core = r.core
        ∧ (q.started = true ∨ (q.resumed = true ∧ r.resumed = false))
    (ahead → ∀ i ∈ [Instr.copy p n, .copyGather p n, .gatherShard p n], exec i s = .next s) ∧ (¬ ahead →
    (go → exec (.copy p n) s = .next (begun s (.copy p n) r)
        ∧ exec (.copyGather p n) s = .next (begun s (.copyGather p n) r)
        ∧ (r.resumed = true → exec (.gatherShard p n) s = .next (begun s (.gatherShard p n) r))
        ∧ ∀ q, r.resumed = false → s.wordAt p.ctx (s.recCore p r) c.version.toNat .load q →
            let v := BitVec.ofNat 64 (Mem.nat s.mem q.pa 8)
            let bad := c.expect ≠ 0 ∧ c.expect ≠ v
            ∃ m, Brought s m ∧ m.mem = s.mem ∧ exec (.gatherShard p n) s = .next (begun m (.gatherShard p n) { r with
                version := some v, stale := decide bad, reread := decide bad
                rows := if bad then c.tmpl.planes * c.rows else r.rows }))
    ∧ (65536 ≤ bytes → r.leave = .no →
        ∀ i ∈ [Instr.copy p n, .copyGather p n, .gatherShard p n], exec i s =
          .next (((s.setRecord p { r with leave := .asked }).modCore r.core fun k => { k with
            asks := k.asks ++ [(.record p n, (bytes + 3) / 4)] }).postOnce (.leaveGrant r.core)))))
  ∧ (∀ (s : State) (p : Port) (n : Nat) (r : RecSt) (c : CopyRec), s.record p n = some r → r.paused = false →
    r.body = .copy c → r.started = true → r.rows < c.tmpl.planes * c.rows →
    let i := Instr.copyRow p n
    let row := r.rows % c.rows
    let plane := r.rows / c.rows
    let src := fun q : Nat => moveAddr c.src (plane * c.tmpl.spstride + q * c.tmpl.sstride)
    let dst := moveAddr c.dst (plane * c.tmpl.dpstride + row * c.tmpl.dstride)
    let total := c.tmpl.planes * c.rows
    let next := fun (t : State) (r' : RecSt) (owed : Marked) =>
      let t := t.setRecord p { r' with rows := r.rows + 1, owed := owed }
      if r.rows + 1 < total then t else (t.finished i).postOnce (.recordComplete p n)
    let pays := s.afford p r (bucketKey (s.recDie p r) true) (CopyRec.traffic c)
    (∀ s', pays = (s', none) → exec i s = .next s')
      ∧ (s.unruled p.ctx (s.recDie p r) true → ∃ s' r', pays = (s', some r')
          ∧ s' = { s with ctxs := s'.ctxs, ports := s'.ports } ∧ r' = { r with paid := r'.paid }
          ∧ s'.record p n = some r' ∧ ∀ d, s'.ctx d = { s.ctx d with buckets := (s'.ctx d).buckets })
      ∧ (∀ s' r', pays = (s', some r') →
        (∀ s0 s1 s2 q bs owed, s'.sourceRow p r' c row = .ok (s0, some q) →
          s0.copyRead p r' c.sspace (src q) (Template.srcLen c.tmpl) = .ok (s1, bs) →
          s1.putRow p r' c (Template.row c.tmpl bs) = .ok (s2, owed) →
            exec i s = .next (next (s2.meterAdd p.ctx 22 (Template.dstLen c.tmpl)) r' owed))
        ∧ (∀ s0 s2 owed, s'.sourceRow p r' c row = .ok (s0, none) → s0.putRow p r' c [] = .ok (s2, owed) →
            exec i s = .next (next s2 r' owed))
        ∧ (∀ s0 q f, s'.sourceRow p r' c row = .ok (s0, some q) →
          s0.copyRead p r' c.sspace (src q) (Template.srcLen c.tmpl) = .error f →
            exec i s = .next (s'.pause p r' f plane row)))
      ∧ (∀ b x q, c.kind = .copy → c.tmpl.conv = 0 → r.blk = some b → tget s.blocks b = some x → r.owed = [] →
        s.unruled p.ctx (s.recDie p r) true →
        let len := c.tmpl.rowlen
        (∀ a, dst ≤ a → a < dst + len → CopyRec.wordLater c a (total - (r.rows + 1)) (r.rows + 1) = false) →
        (c.sspace = 0 → c.dspace = 1 → s.spanAt p.ctx (s.recCore p r) (src row) len .load q → dst + len ≤ 4096 * x.granA →
          (∀ j < len, poisonedAt s.memPoison (q.pa + j) 1 = false) →
          ∃ t x', exec i s = .next t ∧ t.mem = s.mem ∧ tget t.blocks b = some x'
            ∧ x' = { x with hallA := x'.hallA, poisonA := x'.poisonA, past := x'.past }
            ∧ wroteCells x.hallA x'.hallA (cellsAt dst (Mem.read s.mem q.pa len))
            ∧ (p.ctx < 256 → t.count p.ctx 22 = s.count p.ctx 22 + len))
        ∧ (c.sspace = 1 → c.dspace = 0 → s.spanAt p.ctx (s.recCore p r) dst len .store q → src row + len ≤ 4096 * x.granA →
          ∃ t, exec i s = .next t ∧ t.blocks = s.blocks
            ∧ wroteCells s.mem t.mem (cellsAt q.pa (Mem.read x.hallA (src row) len)))))
  ∧ (∀ (s : State) (p : Port) (n : Nat) (r : RecSt), s.record p n = some r → r.paused = false →
    let i := Instr.recordComplete p n
    (∀ c, r.body = .copy c → r.started = true → c.tmpl.planes * c.rows ≤ r.rows →
      (c.kind ≠ .shard → exec i s = .next ((s.completeRec p r).finished i))
      ∧ (∀ q q', c.kind = .shard → s.wordAt p.ctx (s.recCore p r) c.version.toNat .load q →
          s.spanAt p.ctx (s.recCore p r) c.stat.toNat 16 .store q' →
          let stale := if r.reread then r.stale else r.version != some (BitVec.ofNat 64 (Mem.nat s.mem q.pa 8))
          (stale && r.trap) = false →
          ∃ m w, exec i s = .next (((m.sawWrite p n w).completeRec p r).finished i) ∧ Brought s m
            ∧ wroteCells s.mem m.mem (cellsAt q'.pa (leBytes 8 (r.version.getD 0).toNat
                ++ leBytes 4 (if stale then 0x22 else 0) ++ leBytes 4 0))))
    ∧ (∀ l, r.body = .launch l → (∀ g ∈ s.grids, g.2.port = p → g.2.num ≠ n) →
        exec i s = .next ((s.completeRec p r).finished i)))
  ∧ (∀ (s : State) (core n : Nat) (a : Asker) (asks : List (Asker × Nat)),
    let k := s.core core
    let i := Instr.leaveGrant core
    let t := fun (u : State) => (if asks = [] then u.finished i else u).setCore core { k with
      allow := k.allow - n, asks := asks }
    k.asks = (a, n) :: asks →
      (((min n (4 * k.refill) : Nat) : Int) ≤ k.allow →
        (∀ sk x, a = .skein sk → tget s.skeins sk = some x → exec i s =
          .next { t s with skeins := tput s.skeins sk { x with leave := .granted, readyAt := s.clk } })
        ∧ (∀ p m r, a = .record p m → s.record p m = some r → exec i s =
          .next ((t s).setRecord p { r with leave := .granted })))
      ∧ (k.allow < ((min n (4 * k.refill) : Nat) : Int) → exec i s = .next s))
  ∧ (∀ (s : State) (core : Nat), let k := s.core core
    let q := (s.gt - k.refillAt) / 1000
    exec (.allowanceRefill core) s = .next (s.setCore core { k with
      refillAt := k.refillAt + 1000 * q, allow := min (4 * k.refill : Nat) (k.allow + (q * k.refill : Nat)) }))
  ∧ ∀ (s : State) (c die : Nat) (shuttles : Bool) (b : Bucket), let key := 2 * die + if shuttles then 1 else 0
    let q := (s.gt - b.refillAt) / 1000
    let filled := fun b' : Bucket => exec (.bucketRefill c die shuttles) s =
      .next (s.modCtx c fun x => { x with buckets := tput x.buckets key b' })
    (tget (s.ctx c).buckets key).getD {} = b →
      ((q = 0 ∨ b.next = none) →
        filled { b with refillAt := b.refillAt + 1000 * q, level := if q = 0 then b.level else min b.depth (b.level + q * b.rate) })
      ∧ ∀ rate depth, 0 < q → b.next = some (rate, depth) →
        filled { b with refillAt := b.refillAt + 1000 * q, rate := rate, depth := depth, next := none
                        level := min depth (min depth (min b.depth (b.level + b.rate)) + (q - 1) * rate) }

/-! ## Grids and blocks (spec 11 R293 to R313; 15 R388, R389, R392) -/

/-- R293 to R299, R312, R389, R392: launches, placement and the end of a grid. Behind the earlier LAUNCHes of its port, a
LAUNCH gives die d of its device the blocks
whose index is d modulo the number of dies, a SERIAL one gives them all to die 0; the distributor of a die puts the next
block of the first waiting grid that a core takes on that core, with fresh skeins, or begins the restore of a saved one; a
victim of 16 blocks or more gives its 8 highest, once each; a complete grid posts its entries and its record completes. Queue
control changes its queue and completes. -/
def Obligations.LaunchesAndPlacement : Prop :=
  (∀ (s : State) (p : Port) (n id : Nat) (r : RecSt) (g : Grid), s.record p n = some r → r.paused = false →
    r.started = false → s.gridOf p n = some (id, g) →
    let nd := (s.ctx p.ctx).nDies
    let behind := ∃ q ∈ (s.port p).recs, q.num < n ∧ q.started = false ∧ ∃ l, q.body = .launch l
    (behind → exec (.launch p n) s = .next s) ∧ (¬ behind → ∃ t g', exec (.launch p n) s = .next t ∧ t = { s with ports := t.ports, grids := t.grids, pending := t.pending }
      ∧ t.record p n = some { r with started := true } ∧ t.grids = tput s.grids id g' ∧ g' = { g with shares := g'.shares }
      ∧ (g.serial = true → g'.shares = [(0, { die := 0, lo := 0, hi := g.gx * g.gy * g.gz })])
      ∧ (g.serial = false → ∀ d, (d < nd → ∃ h, tget g'.shares d = some h ∧ h.extra = []
            ∧ ∀ i, i ∈ unplacedOf g nd h ↔ i < g.gx * g.gy * g.gz ∧ i % nd = d)
          ∧ (nd ≤ d → tget g'.shares d = none))
      ∧ ∀ d < nd, .blockPlace ((s.ctx p.ctx).firstDie + d) ∈ t.pending))
  ∧ (∀ (s : State) (c ring n op lv : Nat) (dg : DWord) (r : RecSt), let p : Port := ⟨c, .ring ring⟩
    let queue := fun (f : QueueSt → QueueSt) => s.modCtx c fun x => { x with
      queues := tput x.queues ring (f ((tget x.queues ring).getD {})) }
    s.record p n = some r → r.paused = false → r.body = .qctl op lv dg →
      (op = 0 → (∀ q ∈ (s.port p).recs, q.num < n → ∀ l, q.body ≠ .launch l) → exec (.setlevel p n) s =
        .next (((queue fun q => { q with level := lv }).completeRec p r).finished (.setlevel p n)))
      ∧ (op = 0 → (∃ q ∈ (s.port p).recs, q.num < n ∧ ∃ l, q.body = .launch l) → exec (.setlevel p n) s = .next s)
      ∧ (op = 1 → exec (.expect p n) s =
        .next (((queue fun q => { q with expect := some dg }).completeRec p r).finished (.expect p n)))
      ∧ (op = 2 → exec (.reexec p n) s =
        .next (((queue fun q => { q with reexec := true }).completeRec p r).finished (.reexec p n))))
  ∧ (∀ (s : State) (die c : Nat) (w : Waiting) (pre post : List Waiting),
    let s' := s.finished (.blockPlace die)
    let ws := s'.queueOn die
    ws = pre ++ w :: post → (∀ v ∈ pre, v.reduce = true ∨ s'.coreFor ws v die = none) → w.reduce = false →
    s'.coreFor ws w die = some c →
      c / 48 = die ∧ s'.roomWithout w.need c w.saved [] = true
      ∧ (∀ b, w.saved = some b → exec (.blockPlace die) s = .next (s'.postOnce (.blockRestore b c)))
      ∧ (∀ g idx, w.saved = none → tget s.grids w.grid = some g → s'.nextBlock g die = some idx →
        s'.imageFor g.ctx c none = none →
          ∃ t x, exec (.blockPlace die) s = .next t ∧ tget t.blocks s.nextId = some x ∧ x.idx = idx ∧ x.core = c
            ∧ x.grid = w.grid ∧ x.ctx = g.ctx ∧ x.skeins.length = g.desc.skeins ∧ x.hallA = [] ∧ x.hallW = []
            ∧ x.full = [] ∧ x.chans = g.desc.chans ∧ (t.core c).lclk = Stamp.max (s.core c).lclk g.lclk
            ∧ (∃ g', tget t.grids w.grid = some g' ∧ g'.placed = g.placed + 1)
            ∧ .blockPlace die ∈ t.pending
            ∧ ∀ i < g.desc.skeins, ∃ j k, x.skeins[i]? = some j ∧ tget t.skeins j = some k
                ∧ k = { ctx := g.ctx, grid := w.grid, blk := s.nextId, core := c, quad := k.quad, slot := k.slot
                        width := 8 * 2 ^ g.desc.widthCode, num := i, regCount := g.desc.regs
                        tid := (List.range (8 * 2 ^ g.desc.widthCode)).map fun l => i * (8 * 2 ^ g.desc.widthCode) + l
                        live := Mask.full (8 * 2 ^ g.desc.widthCode), running := Mask.full (8 * 2 ^ g.desc.widthCode)
                        pc := g.desc.code, age := s.clk, readyAt := s.clk, guard := k.guard }))
  ∧ (∀ (s : State) (grid victim thief : Nat) (g : Grid) (h : Share), .stealRequest grid victim thief ∈ s.pending →
    tget s.grids grid = some g → tget g.shares victim = some h →
    let nd := (s.ctx g.ctx).nDies
    let s' := { s with pending := s.pending.erase (.stealRequest grid victim thief) }
    ((g.serial = true ∨ h.left < 16) → exec (.stealRequest grid victim thief) s =
      .next { s' with pending := s'.pending ++ [.stealReply grid thief []] })
    ∧ (g.serial = false → 16 ≤ h.left → (unplacedOf g nd h).Nodup → ∃ h' bs,
        exec (.stealRequest grid victim thief) s = .next { s' with
          grids := tput s.grids grid { g with shares := tput g.shares victim h' }
          pending := s'.pending ++ [.stealReply grid thief bs] }
        ∧ bs.length = 8 ∧ (∀ i, i ∈ unplacedOf g nd h ↔ i ∈ unplacedOf g nd h' ∨ i ∈ bs)
        ∧ ∀ i ∈ unplacedOf g nd h', ∀ j ∈ bs, i < j))
  ∧ (∀ (s : State) (grid thief : Nat) (bs : List Nat) (g : Grid) (h : Share), .stealReply grid thief bs ∈ s.pending →
    tget s.grids grid = some g → tget g.shares thief = some h →
    ∃ t h', exec (.stealReply grid thief bs) s = .next t ∧ t = { s with grids := t.grids, pending := t.pending }
      ∧ t.grids = tput s.grids grid { g with shares := tput g.shares thief h' } ∧ h' = { h with
          extra := h'.extra, mayAsk := !bs.isEmpty }
      ∧ (∀ i, i ∈ h'.extra ↔ i ∈ h.extra ∨ i ∈ bs) ∧ .blockPlace ((s.ctx g.ctx).firstDie + thief) ∈ t.pending)
  ∧ ∀ (s : State) (id : Nat) (g : Grid), tget s.grids id = some g → (s.ctx g.ctx).state ≠ .lost →
    let s' := s.finished (.gridComplete id)
    let done := leBytes 1 (if g.badCount = 0 then 0 else 1) ++ leBytes 2 g.queue
      ++ leBytes 2 ((g.desc.regs + 15) / 16 * 16) ++ leBytes 1 g.cause ++ [0] ++ leBytes 4 (min g.badCount (2 ^ 32 - 1))
      ++ leBytes 4 (g.lowest.getD (2 ^ 32 - 1))
    let digest := leBytes 1 (match g.expect with | none => 0 | some e => if e = g.dsum then 1 else 2) ++ leBytes 2 g.queue
      ++ leBytes 1 g.level ++ leBytes 1 (if g.reexec then 1 else 0) ++ [0, 0] ++ leBytes 8 g.dsum.toNat
    (s'.gridDone id g = false → exec (.gridComplete id) s = .next s')
    ∧ (s'.gridDone id g = true → g.parent = none → (g.level = 0 ∨ g.submitter = none) →
        ∃ t, exec (.gridComplete id) s = .next t
          ∧ t = { s with grids := tdel s.grids id, ctxs := t.ctxs, ports := t.ports, pending := t.pending }
          ∧ .recordComplete g.port g.num ∈ t.pending ∧ (∀ p, p ≠ g.port → t.port p = s.port p)
          ∧ (∀ r, s.record g.port g.num = some r →
              t.record g.port g.num = some { r with seen := Stamp.max r.seen g.lclk })
          ∧ (g.ctx < 256 → ∀ i, t.count g.ctx i = s.count g.ctx i + if g.reexec = true ∧ i = 25 then 1 else 0)
          ∧ (g.level = 0 → entryPut s t g.ctx g.die g.ltag.toNat 0x01 done)
          ∧ (g.level ≠ 0 → ∃ m, entryPut s m g.ctx g.die g.ltag.toNat 0x12 digest ∧ m.gt = s.gt
              ∧ entryPut m t g.ctx g.die g.ltag.toNat 0x01 done))

/-- R304, R305, R307, R327 to R331, R52, R46: pre-emption. Only blocks of MIDPRE kernels that have not ended are made to leave, for a
block that waits with a higher priority or before a filler. A block whose instructions have landed, with no hall copy under
way, is written whole into its image and leaves its core with its skeins; one that is restored stands on its new core as it was
read back; partitions that are all a context holds on a core are saved. A starved context is given a core for a guard
quantum, and what it raised falls back when the quantum ends. -/
def Obligations.PreemptionAndGuard : Prop :=
  (∀ (s : State) (die : Nat), ∃ t, exec (.preemptionPoint die) s = .next t ∧ t = { s with pending := t.pending }
    ∧ (∀ b, .blockSave b ∈ t.pending → .blockSave b ∈ s.pending ∨ ∃ x g w, (b, x) ∈ s.blocks ∧ x.core / 48 = die
        ∧ x.allEnded = false ∧ (tget s.grids x.grid).getD {} = g ∧ g.desc.midpre = true ∧ w ∈ s.waiting die
        ∧ (s.blockPrio x < w.prio ∨ (w.filler = false ∧ g.filler = true)))
    ∧ ∀ w v vs, let s' := s.finished (.preemptionPoint die)
        let leaving := s'.blocks.filter fun b => s'.beingSaved b.1
        ((s'.queueOn die).find? fun w => (s'.coreFor (s'.queueOn die) w die).isNone) = some w →
        s'.victims w die = v :: vs → s'.someCore w die (leaving.map Prod.fst) = false →
        let fits := s'.savesFit (leaving ++ s'.chosen w die (leaving.map Prod.fst) (v :: vs))
        (fits = true → .blockSave v.1 ∈ t.pending) ∧ (fits = false → t = s'))
  ∧ (∀ (s s1 : State) (l : Stamp) (blk i : Nat) (x : Block), tget s.blocks blk = some x → x.allEnded = false →
    s.blockMidpre x = true → (∀ k ∈ s.skeinsIn blk, k.2.loads = []) → (∀ j ∈ x.skeins, s.quiet x.core j = true) →
    s.copiesOf blk = [] → (∀ j f, .resultLand j ⟨f, none⟩ ∈ s.pending → j ∉ x.skeins) →
    (∀ o ∈ (s.core x.core).loom, o.blk ≠ blk) → (∀ q ∈ (s.core x.core).merges, q.2.ctx ≠ x.ctx) →
    let g := (tget s.grids x.grid).getD {}
    let ks := s.skeinsIn blk
    let m := s.blockImage x g ks [] ((s.core x.core).recQ.filter fun r => ks.any fun k => k.1 == r.sk)
    let va := (s.ctx x.ctx).areas.saveVa.toNat + 65536 * i
    (s.ctx x.ctx).findRun ((m.bytes.length + 65535) / 65536) = some i →
    s.poisonWrite x.ctx x.core (dieOf x.core) (s.core x.core).lclk va m.bytes = .ok (s1, l) →
      ∃ t sv, exec (.blockSave blk) s = .next t ∧ t.mem = s1.mem ∧ t.memPoison = s1.memPoison
        ∧ tget t.blocks blk = none ∧ (∀ b, b ≠ blk → tget t.blocks b = tget s.blocks b)
        ∧ t.skeins = s1.skeins.filter (fun k => k.2.blk != blk)
        ∧ tget t.saved blk = some sv ∧ sv.va = va ∧ sv.bytes = m.bytes.length ∧ sv.skeins.map Prod.fst = ks.map Prod.fst
        ∧ sv.block = { x with hallA := [], hallW := [], full := [], poisonA := [], poisonW := [] })
  ∧ (∀ (s s1 : State) (blk core : Nat) (sv sv1 : Saved) (w : Waiting),
    let s' := s.finished (.blockRestore blk core)
    let ws := s'.queueOn (core / 48)
    tget s.saved blk = some sv → (ws.find? fun w => w.saved == some blk) = some w → s'.mayTake ws w core = true →
    (∀ v ∈ ws, w.prio < v.prio → s'.mayTake ws v core = false) → s'.imageFor w.ctx core (some blk) = none →
    (s.ctx w.ctx).state ≠ .lost → s'.readBlock core sv = .ok (s1, sv1, false) →
    (sv1.skeins.map Prod.fst).Nodup → (∀ k ∈ sv1.skeins, ∀ va acc f l, k.2.park ≠ .refused va acc f l) →
      ∃ t, exec (.blockRestore blk core) s = .next t ∧ tget t.saved blk = none
        ∧ (∃ y, tget t.blocks blk = some y ∧ y = { sv1.block with core := core, hallc := y.hallc, placedAt := s.clk })
        ∧ (∀ b, b ≠ blk → tget t.blocks b = tget s.blocks b)
        ∧ (t.core core).lclk = Stamp.max (s1.core core).lclk sv1.lclk
        ∧ (∀ i k, (i, k) ∈ sv1.skeins → ∃ k', tget t.skeins i = some k' ∧ k' = { k with
            core := core, quad := k'.quad, slot := k'.slot, age := s.clk, readyAt := s.clk, guard := k'.guard })
        ∧ .blockPlace (core / 48) ∈ t.pending)
  ∧ (∀ (s s1 : State) (l : Stamp) (c core i : Nat),
    let mine := (s.core core).hallc.filter fun p => p.2.ctx == c
    let m := hallcImage (mine.map Prod.snd)
    let va := (s.ctx c).areas.saveVa.toNat + 65536 * i
    mine ≠ [] → (∀ b ∈ s.blocks, b.2.core = core → b.2.ctx ≠ c) → (∀ q ∈ (s.core core).merges, q.2.ctx ≠ c) →
    (∀ o ∈ (s.core core).loom, o.ctx ≠ c) → (s.ctx c).findRun ((m.bytes.length + 65535) / 65536) = some i →
    s.poisonWrite c core (dieOf core) (s.core core).lclk va m.bytes = .ok (s1, l) →
      ∃ t h, exec (.hallcSave c core) s = .next t ∧ t.mem = s1.mem ∧ t.memPoison = s1.memPoison
        ∧ (t.core core).hallc = (s.core core).hallc.filter (fun p => p.2.ctx != c)
        ∧ tget t.savedC s.nextId = some h ∧ h.ctx = c ∧ h.parts = mine.length ∧ h.va = va ∧ h.bytes = m.bytes.length
        ∧ t.skeins = s1.skeins ∧ t.blocks = s.blocks ∧ .blockPlace (core / 48) ∈ t.pending)
  ∧ ∀ (s : State) (c : Nat), let x := s.ctx c
    ((s.starved c = false ∨ s.guardTaken c = true) → exec (.starvationGuard c) s = .next s)
    ∧ (∀ k, s.starved c = true → s.guardTaken c = false → s.guardChoice c = some k →
        (s.ctx c).firstDie * 48 ≤ k ∧ x.lastRes + 4000000 ≤ s.gt ∧ exec (.starvationGuard c) s =
          .next ((s.setCtx c { x with guardCore := some k, guardEnd := 0 }).postOnce (.blockPlace (k / 48))))
    ∧ (∀ k, x.guardCore = some k → x.guardEnd ≠ 0 → x.guardEnd ≤ s.gt → exec (.guardQuantumEnd c) s =
          .next ({ s.setCtx c { x with guardCore := none, guardEnd := 0, lastRes := s.gt } with
            skeins := s.skeins.map fun p : Nat × Skein => if p.2.ctx = c then (p.1, { p.2 with guard := false }) else p }.postOnce
              (.blockPlace (k / 48))))

/-- R309 to R311, R313: channel stalls and event rings. A block whose skeins have all stood on channels for 1,200,000 clocks
posts one CHANNEL_STALL entry; a waiting entry is written into its slot, and then the head word; while the ring is full it
waits; an enabled ring whose count or time has come raises its vector, and both start again. -/
def Obligations.EventRings : Prop :=
  (∀ (s : State) (blk : Nat) (b : Block), tget s.blocks blk = some b →
    let ks := b.skeins.filterMap (tget s.skeins)
    let g := (tget s.grids b.grid).getD {}
    (b.stalled = false → ks ≠ [] → (∀ k ∈ ks, ∃ u l n, k.park = .chan u l n ∧ u + 1200000 ≤ s.clk) →
      ∃ t, exec (.channelStall blk) s = .next t ∧ t = { s with blocks := t.blocks, ctxs := t.ctxs, pending := t.pending }
        ∧ t.blocks = tput s.blocks blk { b with stalled := true }
        ∧ entryPut s t b.ctx ((s.ctx b.ctx).relDie b.core) g.ltag.toNat 0x03
            ([0] ++ leBytes 2 g.queue ++ [0, 0, 0, 0] ++ leBytes 4 b.idx ++ [0, 0, 0, 0]))
    ∧ ((b.stalled = true ∨ ∃ k ∈ ks, ∀ u l n, k.park = .chan u l n → s.clk < u + 1200000) →
      exec (.channelStall blk) s = .next s))
  ∧ (∀ (s : State) (c d : Nat) (e : EvRing) (bs : List Byte) (rest : List (List Byte)) (q q' q'' : Phys),
    let core := (s.ctx c).firstDie * 48
    let slot := (e.base + BitVec.ofNat 64 (32 * (e.posted % 2 ^ e.log2n))).toNat
    let tail := Mem.nat s.mem q.pa 8
    (tget (s.ctx c).events d).getD {} = e → e.backlog = bs :: rest → bs.length = 32 →
    s.wordAt c core e.tailVa.toNat .load q → s.spanAt c core slot 32 .store q' → s.wordAt c core e.headVa.toNat .store q'' →
    (s.tlbFind c core e.headVa.toNat).isSome = true →
      (e.posted < tail + 2 ^ e.log2n → ∃ t, exec (.eventBacklogPost c d) s = .next t
        ∧ tget (t.ctx c).events d = some { e with
            backlog := rest, posted := e.posted + 1, since := e.since + 1, oldest := some (e.oldest.getD s.gt) }
        ∧ wroteCells s.mem t.mem (cellsAt q'.pa bs ++ cellsAt q''.pa (leBytes 8 (e.posted + 1)))
        ∧ .eventInterrupt c d ∈ t.pending ∧ t.blocks = s.blocks ∧ t.ports = s.ports
        ∧ ∀ i, Stirred true (tget s.skeins i) (tget t.skeins i))
      ∧ (tail + 2 ^ e.log2n ≤ e.posted → ∃ t, exec (.eventBacklogPost c d) s = .next t ∧ Brought s t ∧ t.mem = s.mem))
  ∧ ∀ (s : State) (c d : Nat) (e : EvRing), tget (s.ctx c).events d = some e → e.en = true → e.since ≠ 0 →
    let ripe := e.ecount ≤ e.since ∨ ∃ u, e.oldest = some u ∧ u + 1000 * e.etime ≤ s.gt
    (ripe → ∃ t, exec (.eventInterrupt c d) s = .next t
        ∧ t = { s with ctxs := t.ctxs, out := s.out ++ [.interrupt (s.ctx c).func e.vector]
                       pending := s.pending.erase (.eventInterrupt c d) }
        ∧ t.ctx c = { s.ctx c with events := tput (s.ctx c).events d { e with since := 0, oldest := none } }
        ∧ ∀ i, i ≠ c → t.ctx i = s.ctx i)
    ∧ (¬ ripe → exec (.eventInterrupt c d) s = .next s)

/-! ## Collectives (spec 14 R365 to R376) -/

/-- R367 to R372, R374 to R376: collectives. A COLL takes a launch counter for each chunk that its rank owns and zeroes their
lines, or waits; then its chunks are read and sent in turn. A contribution is merged once for each rank into the lines of the
chunk's owner, a result is written to OUT; what comes before its COLL is held in the lead die's intake buffer, or refused
while that is full and sent again after 16 µs. Another device is answered, and answers what it was sent. The reduce block of a chunk rounds its lines and writes OUT. The collective ends with its status block,
failed where a rank that it waits on does not answer. -/
def Obligations.Collectives : Prop :=
  (∀ (s : State) (p : Port) (n id : Nat) (r : RecSt) (k : Coll), s.record p n = some r → r.paused = false →
    s.collFor p n = some (id, k) →
    let i := Instr.coll p n
    let size := elemBytes k.body.fmt
    let cs := if k.reduces then k.owned else []
    let done := (s.finished i).postOnce (.collComplete p n)
    (k.failed = true → exec i s = .next done)
    ∧ (k.failed = false → k.accepted = false →
        (4096 < (s.die k.die).counters + cs.length → exec i s = .next s)
        ∧ ((s.die k.die).counters + cs.length ≤ 4096 →
            let pays := s.afford p r (bucketKey (s.recDie p r) false) (128 * (k.elemsIn cs).length)
            (∀ s', pays = (s', none) → exec i s = .next s')
            ∧ ∀ s' r' m, pays = (s', some r') → s'.zeroLines p r' k (k.elemsIn cs) = .ok m →
                exec i s = .next ((m.modDie k.die fun d => { d with counters := d.counters + cs.length }).modColl id fun x =>
                  { x with accepted := true, counters := cs.map fun c => (c, k.ranks) })))
    ∧ (∀ e q, s.translate p.ctx (s.recCore p r) (BitVec.ofNat 64 (k.body.dst.toNat + 128 * e)) .store = .ok q →
        k.body.dst.toNat % 128 = 0 → q.pa % 128 = 0 → s.bareLine (q.pa / 128) = true →
        ∃ m, s.zeroLines p r k [e] = .ok m ∧ Moved s m ∧ wroteCells s.mem m.mem (cellsAt q.pa (boltLine Bolt.zero 0)))
    ∧ (k.failed = false → k.accepted = true → (∀ d ∈ s.dies, ∀ c ∈ d.2.intake, k.takes c = false) →
        let todo := k.toSend.filter fun c => !(k.sent.contains c)
        ((k.grid.isSome = true ∨ todo = []) → exec i s = .next done)
        ∧ (∀ c rest q q', k.grid = none → todo = c :: rest → k.reduces = true → k.owner c = k.self →
            let e := c * k.chunk
            let num := min ((c + 1) * k.chunk) k.body.elems - e
            let entry := Mem.nat s.mem q'.pa 8
            s.unruled p.ctx (s.recDie p r) false →
            s.spanAt p.ctx (s.recCore p r) (k.body.src.toNat + e * size) (num * size) .load q →
            (∀ j < num * size, poisonedAt s.memPoison (q.pa + j) 1 = false) →
            s.wordAt p.ctx (s.recCore p r) (k.planVa.toNat + 64 + 8 * k.self) .load q' →
            entry / 2 ^ 12 = 0 → entry % 2 ^ 10 = 0 →
              ∃ m, Moved s m ∧ m.mem = s.mem ∧ exec i s = .next ((m.post (.chunkArrival {
                  src := .here, planid := k.planid, step := k.body.step, chunk := c, rank := k.self, dest := k.self, lead := 0
                  bytes := num * size
                  elems := (List.range num).map fun j =>
                    ⟨e + j, BitVec.ofNat 64 (Mem.nat s.mem (q.pa + j * size) size), false⟩ })).modColl id fun x =>
                    { x with sent := x.sent ++ [c] }))))
  ∧ (∀ (s m : State) (g idx id : Nat) (bad fin : Bool) (k : Coll) (r : RecSt), let i := Instr.collChunkFire g idx bad
    s.pending.contains i = true → (s.colls.find? fun k => k.2.grid == some g) = some (id, k) →
    s.record k.port k.num = some r → r.paused = false →
      ((k.failed = true ∨ k.chunks ≤ idx) → exec i s = .next (s.finished i))
      ∧ (k.failed = false → idx < k.chunks → s.sendChunk k.port r id k idx bad = .ok (m, fin) →
          exec i s = .next (if fin = true then (m.finished i).postOnce (.collComplete k.port k.num) else m)))
  ∧ (∀ (s : State) (c : Chunk) (id : Nat) (k : Coll) (r : RecSt), let i := Instr.chunkArrival c
    let s' := s.finished i
    let size := elemBytes k.body.fmt
    (s.colls.find? fun k => k.2.takes c && k.2.accepted) = some (id, k) → s.record k.port k.num = some r →
    r.paused = false → k.failed = false → c.src = .here → i ∈ s.pending →
    s.unruled k.port.ctx (s.recDie k.port r) false →
      (∀ x q, k.reduces = true → k.owner c.chunk = k.self → (c.chunk, c.rank) ∉ k.seen → c.elems = [x] →
        let la := q.pa / 128
        let left := (tget k.counters c.chunk).getD 0 - 1
        s.translate k.port.ctx (s.recCore k.port r) (BitVec.ofNat 64 (k.body.dst.toNat + 128 * x.e)) .atomic = .ok q →
        s.bareLine la = true → (s.homeDie la).isSome = true →
          ∃ m, Moved s' m
            ∧ m.mem = Mem.write s.mem (la * 128) (boltLine (boltNorm (Sys2Proof.Machine.boltAdd (s.lineBolt la)
                (addendOf (valOf k.body.fmt x.x.toNat)) x.bad)) (satAdd64 (countOfLine (s.lineBytes la)) 1))
            ∧ let t := (m.modColl id fun y => { y with
                  seen := y.seen ++ [(c.chunk, c.rank)], counters := tput y.counters c.chunk left }).meterAdd k.port.ctx 11 1
              exec i s = .next (if left = 0 then t.postOnce (.reduceBlock k.port k.num c.chunk) else t))
      ∧ (k.reduces = true → k.owner c.chunk = k.self → (c.chunk, c.rank) ∈ k.seen →
          ∃ m, exec i s = .next m ∧ Moved s' m ∧ m.mem = s.mem)
      ∧ (∀ x q, (k.reduces = false ∨ k.owner c.chunk ≠ k.self) → c.chunk ∉ k.written →
        c.elems.head? = some x → (∀ y ∈ c.elems, y.bad = false) →
        s.spanAt k.port.ctx (s.recCore k.port r) (k.outVa.toNat + x.e * size) (c.elems.length * size) .store q →
          ∃ m, Moved s' m
            ∧ wroteCells s.mem m.mem (cellsAt q.pa (c.elems.flatMap fun y => leBytes size y.x.toNat))
            ∧ exec i s = .next ((m.modColl id fun y => { y with written := y.written ++ [c.chunk] }).postOnce
                (.collComplete k.port k.num))))
  ∧ (∀ (s : State) (c : Chunk), let i := Instr.chunkArrival c
    let s' := s.finished i
    let answer := fun a => Outward.answer c.src c.planid c.step c.chunk c.rank c.dest a
    (c.src = .here → i ∉ s.pending → exec i s = .next s)
    ∧ ((s.colls.find? fun k => k.2.takes c && k.2.accepted) = none →
      (∀ x, s.declarer c.planid false = some x →
        let d := (s.ctx x).firstDie + c.lead % (s.ctx x).nDies
        (c.src = .here → i ∈ s.pending →
          ((s.die d).held + c.bytes ≤ 8 * 2 ^ 20 → exec i s =
            .next (s'.modDie d fun d => { d with intake := d.intake ++ [c] }))
          ∧ (8 * 2 ^ 20 < (s.die d).held + c.bytes → exec i s =
            .next { s' with pending := s'.pending ++ [.chunkResend ⟨c, s.gt + 16000⟩] }))
        ∧ (∀ n, c.src = .pod n → i ∉ s.pending → ∃ t, exec i s = .next t ∧ t.mem = s.mem ∧ t.colls = s.colls
          ∧ (x < 256 → t.count x 17 = s.count x 17 + c.bytes)
          ∧ ((s.die d).held + c.bytes ≤ 8 * 2 ^ 20 → t.out = s.out ∧ (t.die d).intake = (s.die d).intake ++ [c])
          ∧ (8 * 2 ^ 20 < (s.die d).held + c.bytes → t.out = s.out ++ [answer .full] ∧ (t.die d).intake = (s.die d).intake)))
      ∧ (s.declarer c.planid false = none →
        (∀ id k, c.src = .here → i ∈ s.pending → s.senderOf c = some (id, k) → exec i s =
          .next ((s'.modColl id fun x => { x with failed := true }).postOnce (.collComplete k.port k.num)))
        ∧ (c.src ≠ .here → i ∉ s.pending → ∃ t, exec i s = .next t ∧ t = { s with ual := t.ual, out := s.out ++ [answer .refused] })))
    ∧ (∀ due, .chunkResend ⟨c, due⟩ ∈ s.pending → c.src = .here →
      (due ≤ s.gt → exec (.chunkResend ⟨c, due⟩) s =
        .next { s with pending := s.pending.erase (.chunkResend ⟨c, due⟩) ++ [i] })
      ∧ (s.gt < due → exec (.chunkResend ⟨c, due⟩) s = .next s)))
  ∧ (∀ (s : State) (p : Port) (n id chunk core e : Nat) (r : RecSt) (k : Coll) (q q' : Phys),
    let i := Instr.reduceBlock p n chunk
    let size := elemBytes k.body.fmt
    let b := boltOfLine (s.lineView q.bolt (q.pa / 128))
    s.record p n = some r → r.paused = false → s.collFor p n = some (id, k) →
      ((k.failed = true ∨ tget k.counters chunk ≠ some 0) → exec i s = .next (s.finished i))
      ∧ (k.failed = false → tget k.counters chunk = some 0 → s.reduceCore p n k.die = none →
          exec i s = .next (s.postOnce (.preemptionPoint k.die)))
      ∧ (k.failed = false → tget k.counters chunk = some 0 → s.reduceCore p n k.die = some core →
          s.unruled p.ctx (s.recDie p r) false → k.body.op ≠ 0 → k.span chunk = (e, 1) →
          s.translate p.ctx (s.recCore p r) (BitVec.ofNat 64 (k.body.dst.toNat + 128 * e)) .load = .ok q →
          k.body.dst.toNat % 128 = 0 → q.pa % 128 = 0 → s.bareLine (q.pa / 128) = true →
          (s.homeDie (q.pa / 128)).isSome = true → b.poison = false →
          (∀ j < 128, poisonedAt s.memPoison (q.pa + j) 1 = false) →
          s.spanAt p.ctx (s.recCore p r) (k.outVa.toNat + e * size) size .store q' →
            ∃ m, Moved s m
              ∧ wroteCells s.mem m.mem (cellsAt q'.pa (leBytes size (boltRound k.body.fmt k.body.rm false b).1))
              ∧ exec i s = .next ((((((m.modColl id fun x => { x with
                    counters := tdel x.counters chunk, written := x.written ++ [chunk] }).modDie k.die fun d =>
                    { d with counters := d.counters - 1 }).meterAdd p.ctx (if k.body.fmt = .f32 then 8 else 9) 1).finished
                    i).postOnce (.blockPlace k.die)).postOnce (.collComplete p n))))
  ∧ (∀ (s : State) (p : Port) (n id : Nat) (r : RecSt) (k : Coll) (q : Phys), let i := Instr.collComplete p n
    let own := if k.exchanges = true ∧ k.failed = false then ((tget k.digests k.self).getD 0).toNat else 0
    s.record p n = some r → r.paused = false → s.collFor p n = some (id, k) →
      (k.failed = false → s.collDone k = false → s.unmerged k = true → exec i s = .next s)
      ∧ ((k.failed = true ∨ s.collDone k = true ∧ (k.exchanges = false ∨ k.digested = true ∧ k.digests.length = k.ranks)) →
          k.dmatch ≠ 2 → k.grid = none → s.spanAt p.ctx (s.recCore p r) k.statVa.toNat 32 .store q →
          ∃ m, Moved s m
            ∧ wroteCells s.mem m.mem (cellsAt q.pa (leBytes 8 own ++ leBytes 1 (if k.failed = true then 3
                else if k.poisoned = 0 then 1 else 2) ++ leBytes 1 k.dmatch ++ [0, 0] ++ leBytes 4 k.poisoned
                ++ leBytes 8 k.body.step.toNat ++ List.replicate 8 0))
            ∧ let t := m.modDie k.die fun d => { d with counters := d.counters - k.counters.length }
              exec i s = .next ((({ t with colls := tdel t.colls id }).completeRec p r).finished i)))
  ∧ (∀ (s : State) (planid step : DWord) (chunk rank dest id : Nat) (k : Coll) (c : Chunk) (a : Answer),
    (s.colls.find? fun k => k.2.planid == planid && k.2.body.step == step && k.2.self == rank) = some (id, k) →
    (k.owed.find? fun c => c.chunk == chunk && c.dest == dest) = some c →
      s.chunkAnswer planid step chunk rank dest a = match a with
        | .done => (s.modColl id fun x => { x with owed := x.owed.erase c }).postOnce (.collComplete k.port k.num)
        | .full => { s with pending := s.pending ++ [.chunkResend ⟨c, s.gt + 16000⟩] }
        | .refused => (s.modColl id fun x => { x with failed := true }).postOnce (.collComplete k.port k.num))
  ∧ (∀ (s : State) (planid step : DWord) (rank dest : Nat) (d : DWord),
    let i := Instr.digestArrival planid step rank dest ⟨.here, d⟩
    let mine := s.colls.find? fun k => k.2.planid == planid && k.2.body.step == step && k.2.self == dest
    (i ∉ s.pending → exec i s = .next s)
    ∧ (i ∈ s.pending →
      (∀ id k, mine = some (id, k) →
        (rank < k.ranks → rank ≠ k.self → exec i s = .next (((s.finished i).modColl id fun x => { x with
            digests := tput x.digests rank d }).postOnce (.collComplete k.port k.num)))
        ∧ ((k.ranks ≤ rank ∨ rank = k.self) → exec i s = .next (s.finished i)))
      ∧ (mine = none → s.declarer planid false ≠ none → exec i s = .next ((s.finished i).post i))
      ∧ (mine = none → s.declarer planid false = none → exec i s = .next (s.finished i))))
  ∧ ∀ (s : State) (planid step : DWord) (rank : Nat), (s.colls.map Prod.fst).Nodup →
    let fails := fun k : Coll => k.planid = planid ∧ k.body.step = step ∧ s.waitsOn k rank = true
    ∃ t, exec (.rankTimeout planid step rank) s = .next t ∧ t = { s with colls := t.colls, pending := t.pending }
      ∧ (∀ id k, tget s.colls id = some k → fails k →
          tget t.colls id = some { k with failed := true } ∧ .collComplete k.port k.num ∈ t.pending)
      ∧ (∀ id, (∀ k, tget s.colls id = some k → ¬ fails k) → tget t.colls id = tget s.colls id)
      ∧ ∀ k, s.waitsOn k rank = true → rank < k.ranks ∧ rank ≠ k.self ∧ k.failed = false

/-! ## Coded exchange (spec 14 R378 to R386, R431) -/

/-- R378 to R386, R431: the heddle. SIDE makes or moves an entry of its die's table, which loses its least recently used one
when full; SREL takes one out. A CXCH writes the STATUS bytes that have come, then takes its next entry: a broken one gets
STATUS 5, a sound one is sent as one packet to each receiver, with the XOR of its blocks, once the receivers can take it. A
packet of another device takes a slot of its die, or is held at its source. The oldest packet of a die is decoded with the
side blocks of the other components, checked and written, and counted at the receiver; what fails is answered with its
reason, and the sending port answers that with one fallback. -/
def Obligations.CodedExchange : Prop :=
  (∀ (s : State) (p : Port) (n : Nat) (r : RecSt) (bid va : DWord), s.record p n = some r → r.paused = false →
    let dd := s.portDie p
    let d := s.die dd
    let e : SideEntry := ⟨p.ctx, bid, va, false⟩
    let others := d.side.filter fun x => !(x.ctx == p.ctx && x.bid == bid)
    let mine := d.side.find? fun x => x.ctx == p.ctx && x.bid == bid
    let ends := fun (i : Instr) (t : List SideEntry) => exec i s =
      .next (((s.setDie dd { d with side := t }).completeRec p r).finished i)
    (r.body = .side bid va →
      (∀ x, mine = some x → (x.inuse = false → ends (.side p n) (others ++ [e])) ∧ (x.inuse = true → exec (.side p n) s = .next s))
      ∧ (mine = none → d.side.length < 4096 → ends (.side p n) (d.side ++ [e]))
      ∧ (∀ x, mine = none → 4096 ≤ d.side.length → (d.side.find? fun x => !x.inuse) = some x →
          ends (.side p n) (d.side.erase x ++ [e])))
    ∧ (r.body = .srel bid →
      (∀ x, mine = some x → (x.inuse = false → ends (.srel p n) others) ∧ (x.inuse = true → exec (.srel p n) s = .next s))
      ∧ (mine = none → exec (.srel p n) s = .next ((s.completeRec p r).finished (.srel p n)))))
  ∧ (∀ (s : State) (p : Port) (n npkt : Nat) (r : RecSt) (plan ctrs : DWord), let i := Instr.cxch p n
    let core := s.recCore p r
    let k := r.rows
    s.record p n = some r → r.paused = false → r.body = .cxch plan npkt ctrs →
      (∀ key v q, r.unwritten = some (key, v) →
        s.spanAt p.ctx core (plan.toNat + 64 + 160 * (key / 4) + 32 + 32 * (key % 4) + 27) 1 .store q →
          ∃ m, Moved s m ∧ wroteCells s.mem m.mem (cellsAt q.pa (leBytes 1 (v - 8)))
            ∧ exec i s = .next (m.setRecord p { r with stats := tput r.stats key (v - 8) }))
      ∧ (r.unwritten = none → npkt ≤ k → exec i s = .next (if r.exchanged npkt = true
          then (s.finished i).postOnce (.recordComplete p n) else s.finished i))
      ∧ (∀ m e bad, r.unwritten = none → k < npkt →
        s.engRead p.ctx core (s.recPlace p r) (plan.toNat + 64 + 160 * k) 160 = .ok (m, e, bad) →
        let ps := compsOf e
        let js := List.range ps.length
        (m.entryBroken p.ctx e = true → exec i s = .next (m.setRecord p { r with
            rows := k + 1, stats := js.foldl (fun t j => tput t (4 * k + j) 13) r.stats }))
        ∧ (m.entryBroken p.ctx e = false → m.canSend p.ctx (ps.map (·.comp)) = false → exec i s = .next m)
        ∧ (m.entryBroken p.ctx e = false → m.canSend p.ctx (ps.map (·.comp)) = true →
            let pays := m.afford p r (bucketKey (m.recDie p r) false) (4096 * ps.length)
            (∀ s', pays = (s', none) → exec i s = .next s')
            ∧ ∀ s' r' m' bs, pays = (s', some r') → s'.readBlocks p r' ps = .ok (m', bs) →
              let qs := (ps.zip bs).map fun x =>
                { x.1 with comp := { x.1.comp with check := blockCheck (x.2.map Prod.fst) } }
              exec i s = .next ((m'.setRecord p { r' with
                rows := k + 1, coded := r.coded + if ps.length < 2 then 0 else 1
                comps := r.comps ++ (js.zip qs).map fun x => (4 * k + x.1, x.2)
                stats := (js.zip qs).foldl (fun t x => tput t (4 * k + x.1)
                  (if m'.goneFor p.ctx x.2.comp = true then 12 else 0)) r.stats }).sendPacket p {
                xid := r.xid, pod := m'.pkg.podnum, die := m'.portDie p, entry := k, comps := qs.map (·.comp)
                payload := bs.foldl xorMarked (clean (List.replicate 4096 0)) }))))
  ∧ (∀ (s : State) (p : Port) (pk : Packet), let t := s.sendPacket p pk
    (∀ x ∈ pk.comps, s.ownDevice x.rdev = true → (s.die ((s.ctx p.ctx).firstDie + x.rdie)).lost = false →
      .packetDecode ((s.ctx p.ctx).firstDie + x.rdie) pk ∈ t.pending)
    ∧ (∀ x ∈ pk.comps, s.ownDevice x.rdev = false →
      .packet x.rdev (Packet.header pk ++ pk.payload.map Prod.fst) ∈ t.out)
    ∧ t.mem = s.mem ∧ t.ports = s.ports ∧ t.skeins = s.skeins
    ∧ (pk.comps.length ≤ 4 → let h := Packet.header pk
        h.length = 160 ∧ fieldAt h 0 8 = pk.xid.toNat ∧ fieldAt h 8 4 = pk.entry % 2 ^ 32 ∧ fieldAt h 12 1 = pk.comps.length
          ∧ fieldAt h 16 2 = pk.pod % 2 ^ 16 ∧ fieldAt h 18 1 = pk.die % 2 ^ 8
          ∧ ∀ j x, pk.comps[j]? = some x → let o := 32 + 32 * j
            fieldAt h o 8 = x.bid.toNat ∧ fieldAt h (o + 8) 8 = x.check.toNat ∧ fieldAt h (o + 16) 8 = x.dst.toNat
              ∧ fieldAt h (o + 24) 2 = x.rdev % 2 ^ 16 ∧ fieldAt h (o + 26) 1 = x.rdie % 2 ^ 8))
  ∧ (∀ (s : State) (die c j : Nat) (pk : Packet) (own : Comp), let i := Instr.packetDecode die pk
    let i' := Instr.fallbackArrival die pk
    let taken := fun (t : State) (i : Instr) => (t.finished i).modDie die fun d => { d with slots := d.slots - 1 }
    let msg := fun (again : Bool) (reason : Nat) (bid : DWord) =>
      (⟨pk.die, pk.xid, pk.entry, own.rdev, own.rdie, again, reason, bid⟩ : NackMsg)
    let pays := s.payPacket c die (4096 * pk.comps.length)
    let pays' := s.payPacket c die 4096
    s.declarerOn pk.xid die = some c → s.ownComp c die pk = some (j, own) →
      (∀ x ∈ [i, i'], x ∈ s.pending → s.pending.find? (isPacketFor die) ≠ some x → exec x s = .next s)
      ∧ (s.pending.find? (isPacketFor die) = some i →
          (pays.2 = false → exec i s = .next pays.1)
          ∧ (∀ m m' b w, pays.2 = true → (taken pays.1 i).decodePacket c die pk j own = (m, .ok b) →
            m.poisonWrite c (48 * die) (some die) (m.die die).pclk own.dst.toNat b = .ok (m', w) →
              exec i s = .next (if pk.comps.length = 1 then (m'.countReceipt c pk.xid w).answerTo pk (msg false 19 own.bid)
                else ((m'.meterAdd c 21 1).countReceipt c pk.xid w).answerTo pk (msg false 17 own.bid)))
          ∧ (∀ m reason bid, pays.2 = true → (taken pays.1 i).decodePacket c die pk j own = (m, .error (reason, bid)) →
              exec i s = .next (m.answerTo pk (msg false reason bid))))
      ∧ (s.pending.find? (isPacketFor die) = some i' →
          (pays'.2 = false → exec i' s = .next pays'.1)
          ∧ (∀ m w, pays'.2 = true → blockCheck (pk.payload.map Prod.fst) = own.check →
            let t := taken pays'.1 i'
            t.poisonWrite c (48 * die) (some die) (t.die die).pclk own.dst.toNat pk.payload = .ok (m, w) →
              exec i' s = .next ((m.countReceipt c pk.xid w).answerTo pk (msg true 18 own.bid)))
          ∧ (pays'.2 = true → blockCheck (pk.payload.map Prod.fst) ≠ own.check → let t := taken pays'.1 i'
              exec i' s = .next ((t.countReceipt c pk.xid (t.die die).pclk).answerTo pk (msg true 20 own.bid)))))
  ∧ (∀ (s : State) (die c d : Nat) (pk : Packet) (x : Comp), let i := Instr.packetDecode die pk
    i ∉ s.pending → pk.pod ≠ s.pkg.podnum → s.declarerOn pk.xid die = some c → pk.comps = [x] → x.rdev = s.pkg.podnum →
    x.rdie < (s.ctx c).nDies → d = (s.ctx c).firstDie + x.rdie → (s.die d).lost = false →
      (256 ≤ (s.die d).slots → exec i s = .next s)
      ∧ ((s.die d).slots < 256 → ∃ t, exec i s = .next t ∧ t.pending = s.pending ++ [.packetDecode d pk] ∧ t.mem = s.mem
          ∧ (t.die d).slots = (s.die d).slots + 1 ∧ (c < 256 → t.count c 17 = s.count c 17 + 4256)))
  ∧ (∀ (s : State) (c die : Nat) (pk : Packet) (own x : Comp), let d := s.die die
    let found := d.side.find? fun e => e.ctx == c && e.bid == x.bid
    let used := fun e : SideEntry => s.modDie die fun d => { d with
      side := (d.side.filter fun y => !(y.ctx == c && y.bid == x.bid)) ++ [e] }
    let checked := fun b : PBytes => if blockCheck (b.map Prod.fst) = own.check then .ok b else .error (3, own.bid)
    (pk.comps = [own] → s.decodePacket c die pk 0 own = (s, checked pk.payload))
    ∧ (pk.comps = [own, x] →
      (found = none → s.decodePacket c die pk 0 own = (s, .error (1, x.bid)))
      ∧ (∀ e f, found = some e → (used e).poisonRead c (48 * die) (some die) e.va.toNat 33 4096 = .error f →
          s.decodePacket c die pk 0 own = (used e, .error (4, x.bid)))
      ∧ (∀ e m sb, found = some e → (used e).poisonRead c (48 * die) (some die) e.va.toNat 33 4096 = .ok (m, sb) →
          s.decodePacket c die pk 0 own = (m, if blockCheck (sb.map Prod.fst) ≠ x.check then .error (2, x.bid)
            else checked (xorMarked pk.payload sb)))))
  ∧ (∀ (s : State) (c : Nat) (xid : DWord) (l : Stamp) (w : Ident) (q q' : Phys), let core := (s.ctx c).firstDie * 48
    ((s.ctx c).ids.find? fun x => x.id == xid && x.heddle) = some w →
    s.wordAt c core w.recvVa.toNat .load q → s.wordAt c core w.recvVa.toNat .store q' → q.pa = q'.pa →
      Brought s (s.countReceipt c xid l) ∧ wroteCells s.mem (s.countReceipt c xid l).mem
        (cellsAt q.pa (leBytes 8 (min (Mem.nat s.mem q.pa 8 + 1) (2 ^ 64 - 1)))))
  ∧ ∀ (s : State) (m : NackMsg), let i := Instr.nack m
    (s.askedBy m = none → exec i s = .next (s.finished i))
    ∧ ∀ p r key q, s.askedBy m = some (p, r, key, q) →
      (s.portDie p = m.die ∧ r.xid = m.xid ∧ key / 4 = m.entry ∧ q.comp.rdie = m.rdie ∧ (key, q) ∈ r.comps
        ∧ tget r.stats key = some (if m.fallback = true then 6 else 0))
      ∧ (16 ≤ m.reason → let v := m.reason - 16
          exec i s = .next (((s.finished i).setRecord p { r with
            stats := tput r.stats key (8 + v), decodes := r.decodes + (if v = 1 then 1 else 0)
            fallbacks := r.fallbacks + if v = 2 then 1 else 0 }).postOnce (.cxch p r.num)))
      ∧ (m.reason < 16 → m.fallback = true → exec i s = .next (s.finished i))
      ∧ (m.reason < 16 → m.fallback = false → (r.paused = true ∨ s.canSend p.ctx [q.comp] = false) →
          exec i s = .next (s.postOnce i))
      ∧ (m.reason < 16 → m.fallback = false → r.paused = false → s.canSend p.ctx [q.comp] = true →
          let pays := s.afford p r (bucketKey (s.recDie p r) false) 4096
          (∀ s', pays = (s', none) → exec i s = .next (s'.postOnce i))
          ∧ ∀ s' r' t b, pays = (s', some r') →
            s'.poisonRead p.ctx (s'.recCore p r') (s'.recPlace p r') q.src.toNat 33 4096 = .ok (t, b) →
            let pk : Packet := {
              xid := r.xid, pod := t.pkg.podnum, die := t.portDie p, entry := key / 4, comps := [q.comp], payload := b }
            let d := (t.ctx p.ctx).firstDie + q.comp.rdie
            let u := if t.ownDevice q.comp.rdev = true
              then ((t.carry p.ctx none (some d) 4256).modDie d fun x => { x with slots := x.slots + 1 }).post
                (.fallbackArrival d pk)
              else (t.ualMove p.ctx q.comp.rdev 4256 0).emit (.packet q.comp.rdev (Packet.header pk ++ b.map Prod.fst))
            let w := (u.finished i).setRecord p { r' with faults := r.faults + 1, stats := tput r.stats key 6 }
            exec i s = .next (if r.trap = true ∧ r.faults = 0 then w.report p r' 0x14 0x21 m.reason m.bid else w))

/-! ## Power, the network and UALink ports (spec 13 R343, R344; 14 R362, R363; 15 R398; 16 R415) -/

/-- R343, R344, R362, R363, R398, R415: a bubble lets global time go on for its clocks, while no arithmetic clock counts, and
BUBBLECLK counts it; a sample of the governor that finds the last 100 samples over the power cap, or a sensor over its limit,
has one inserted. A flow whose packet has waited enters the escape channel. The empty network changes its mode. A UALink port
becomes active with its peer, or leaves the active state and posts UAL_PORT. The length of a bubble and the tag of that event
are open in the manual (log 2, log 21). -/
def Obligations.PowerAndNetwork : Prop :=
  (∀ (s : State) (n : Nat), let s' := s.finished (.wholePackageBubble n)
    (0 < n → n ≤ 4096 → exec (.wholePackageBubble n) s = .next { s' with
      gt := s.gt + n * 5 / 6, pkg := { s.pkg with bubbleclk := min (s.pkg.bubbleclk + n) (2 ^ 64 - 1) } })
    ∧ (n = 0 ∨ 4096 < n → exec (.wholePackageBubble n) s = .next s'))
  ∧ (∀ (s : State) (watts tj : Nat), let xs := (watts :: s.pkg.samples).take 100
    let s' := { s with pkg := { s.pkg with samples := xs } }
    let hot := s.pkg.watts * xs.length < xs.sum ∨ s.pkg.tjmax < tj
    (hot → ∃ n, 0 < n ∧ n ≤ 4096 ∧ exec (.governorSample watts tj) s = .next (s'.post (.wholePackageBubble n)))
    ∧ (¬ hot → ∃ l, exec (.governorSample watts tj) s = .next { s' with pending := l }
        ∧ (∀ n, .wholePackageBubble n ∉ l) ∧ ∀ i, (∀ n, i ≠ .wholePackageBubble n) → (i ∈ l ↔ i ∈ s.pending)))
  ∧ (∀ (s : State) (flow : Nat), let es := s.pkg.escaped.filter s.inNetwork
    let ends := fun l : List Nat => exec (.escapeTimeout flow) s = .next { s with pkg := { s.pkg with escaped := l } }
    (s.inNetwork flow = true → s.pkg.fixedClass = false → flow ∉ s.pkg.escaped → ends (es ++ [flow]))
    ∧ (s.inNetwork flow = false ∨ s.pkg.fixedClass = true ∨ flow ∈ s.pkg.escaped → ends es))
  ∧ (∀ (s : State) (fixed : Bool), let s' := s.finished (.networkModeChange fixed)
    ((∃ i ∈ s.pending, s.onNetwork i = true) → exec (.networkModeChange fixed) s = .next s)
    ∧ ((∀ i ∈ s.pending, s.onNetwork i = false) →
        let again := (∃ m ∈ s.stairs, m.2.readmit = true) ∨ ∃ m, .readmit m ∈ s.pending
        ((fixed = true ∨ 5 ≤ s.pkg.bringUp ∧ ¬ again) →
          exec (.networkModeChange fixed) s = .next { s' with pkg := { s.pkg with fixedClass := fixed, escaped := [] } })
        ∧ (fixed = false → s.pkg.bringUp < 5 ∨ again → exec (.networkModeChange fixed) s = .next s')))
  ∧ (∀ (s : State) (p state lanes : Nat), (s.ctxs.map Prod.fst).Nodup → p < 8 → state < 4 →
    ((s.ualPort p).state = 2 → state ≠ 2 → lanes ∈ [0, 1, 2, 4] → ∃ t, exec (.ualPort p state lanes) s = .next t
      ∧ t = { s with ual := t.ual, ctxs := t.ctxs, out := t.out, pending := t.pending }
      ∧ t.ualPort p = { s.ualPort p with state := state, lanes := lanes, activeAt := none }
      ∧ (∀ j, j ≠ p → t.ualPort j = s.ualPort j)
      ∧ linkPosted s t (p / 2) 0x24 (Config.openField 7 s.free) fun _ => leBytes 1 p ++ leBytes 1 state ++ leBytes 1 lanes)
    ∧ ((s.ualPort p).state ≠ 2 ∨ state = 2 ∨ lanes ∉ [0, 1, 2, 4] → exec (.ualPort p state lanes) s = .next s))
  ∧ ∀ (s : State) (p : Nat) (peer : DWord) (peerport lanes : Nat), p < 8 → (s.ualPort p).state ≠ 2 →
    lanes = 1 ∨ lanes = 2 ∨ lanes = 4 →
      exec (.ualPortActive p peer peerport lanes) s = .next (s.setUal p { s.ualPort p with
        state := 2, peer := peer, peerport := peerport % 256, lanes := lanes, activeAt := some s.gt
        retrain := if s.pkg.bringUp < 6 then (s.ualPort p).retrain else min ((s.ualPort p).retrain + 1) (2 ^ 64 - 1) })

/-! ## Stair modules (spec 13 R346 to R358) -/

/-- R348 to R353, R355 to R358: stair modules. A flit that fails CRC is counted and each lane that differs is credited; at the
end of a window the first rule of the degradation policy that applies is taken; a quiet point drains the module, which then
trains and resumes with its new settings, one rate lower where the training fails above code 0. A written rate, or a readmission,
starts a quiet point; a readmission waits for fixed-class mode, and every other module of its stair stands at a quiet point
until it has ended. An idle stair sleeps and a flit wakes it; a wake that is late is tried again, and the third failure
retires the module, as link-down does at once. With its last module a die is lost, and its contexts are. The tag of
STAIR_WAKE_SLOW is open in the manual (log 21). -/
def Obligations.StairModules : Prop :=
  let resumed := fun (s : State) (m j : Nat) => let x := s.stair j
    if j / 16 = m / 16 ∧ x.held = true ∧ x.state ≠ 3 then { x with state := 0, held := false } else x
  (∀ (s : State) (m : Nat) (lanes : List Nat) (n cyc : Nat), m < 64 → let x := s.stair m
    let due := x.state = 0 ∧ x.trainedAt ≠ none ∧ x.target = none ∧ x.windowAt + 1000000 ≤ s.gt
    (x.state ≠ 3 → ¬ due → ∃ x', exec (.flitCrcError m lanes n cyc) s = .next (s.setStair m x')
      ∧ x' = { x with
          crcerr := min (x.crcerr + 1) (2 ^ 64 - 1), replay := min (x.replay + n) (2 ^ 64 - 1)
          replaycyc := min (x.replaycyc + cyc) (2 ^ 64 - 1), windowReplay := x.windowReplay + n, attrib := x'.attrib }
      ∧ ∀ l, (tget x'.attrib l).getD 0 = (tget x.attrib l).getD 0 + if l ∈ lanes ∧ l < 68 then 1 else 0)
    ∧ (x.state = 3 ∨ due → exec (.flitCrcError m lanes n cyc) s = .next s))
  ∧ (∀ (s : State) (m : Nat), m < 64 → let x := s.stair m
    let i := Instr.degradeWindow m
    let w := { x with windowAt := x.windowAt + 1000000, windowReplay := 0, attrib := [] }
    let code := (x.rate - 32) / 4
    let train := fun (y : Stair) (t : Retraining) => exec i s =
      .next ((s.setStair m { y with target := some t }).postOnce (.quietPoint m))
    (x.state ≠ 0 ∨ x.trainedAt = none ∨ x.target ≠ none ∨ s.gt < x.windowAt + 1000000 → exec i s = .next s)
    ∧ (x.state = 0 → x.trainedAt ≠ none → x.target = none → x.windowAt + 1000000 ≤ s.gt →
        (∀ l, x.badLane = some l →
          (x.spare ≠ none → train w { code := code, width := x.width, half := x.half, lane := some l, step := 2 })
          ∧ (x.spare = none →
            let y := { w with bad := x.bad ++ [x.dataLane l] }
            (x.halfGood l 0 = true → train y { code := code, width := 32, half := 0, step := 3 })
            ∧ (x.halfGood l 0 = false → x.halfGood l 1 = true → train y { code := code, width := 32, half := 1, step := 3 })
            ∧ (x.halfGood l 0 = false → x.halfGood l 1 = false →
                exec i s = .next ((s.setStair m w).postOnce (.moduleRetire m)))))
        ∧ (x.badLane = none →
          (x.windowReplay ≤ x.limit → exec i s = .next (s.setStair m w))
          ∧ (x.limit < x.windowReplay → 32 < x.rate →
              train w { code := code - 1, width := x.width, half := x.half, step := 1 })
          ∧ (x.limit < x.windowReplay → x.rate ≤ 32 →
              train w { code := code, width := x.width, half := x.half, step := 5 }))))
  ∧ (∀ (x : Stair), let total := (x.attrib.map Prod.snd).sum
    (∀ l, x.badLane = some l → ∃ n, (l, n) ∈ x.attrib ∧ 16 ≤ n ∧ total ≤ 2 * n ∧ ∀ a ∈ x.attrib, a.2 ≤ n)
    ∧ (x.badLane = none → ∀ a ∈ x.attrib, a.2 < 16 ∨ 2 * a.2 < total))
  ∧ (∀ (s : State) (m : Nat) (t : Retraining), let x := s.stair m
    let i := Instr.quietPoint m
    (x.state = 3 ∨ x.target = none → exec i s = .next (s.finished i))
    ∧ (x.state = 0 → x.target = some t → exec i s =
        .next (((s.finished i).setStair m { x with state := 1, fell := false }).postOnce (.trainingDone m true)))
    ∧ (x.state = 1 ∨ x.state = 2 → x.target = some t → exec i s = .next s))
  ∧ (∀ (s : State) (m : Nat) (ok : Bool) (t : Retraining), (s.ctxs.map Prod.fst).Nodup → let x := s.stair m
    let s' := s.finished (.trainingDone m ok)
    let n := min (x.retrain + 1) (2 ^ 64 - 1)
    let new := fun y : Stair => { y with
      state := 0, rate := 32 + 4 * t.code, width := t.width, half := t.half, trainedAt := some s.gt, windowAt := s.gt
      windowReplay := 0, attrib := [], target := none, readmit := false, wakefail := 0, retrain := n, rewritten := false }
    x.state = 1 → x.target = some t →
      (ok = true → x.readmit = false → x.rewritten = false → t.step = 0 → x.fell = false → t.lane = none →
        exec (.trainingDone m ok) s = .next (s'.setStair m (new x)))
      ∧ (ok = true → x.readmit = false → x.rewritten = false → t.step = 5 → x.fell = false → t.lane = none →
          let ts := x.inPlace ++ [s.gt]
          ∃ u, exec (.trainingDone m ok) s = .next u ∧ StairStep s' u m (new { x with inPlace := ts })
            ∧ linkPosted s' u (m / 16) 0x20 0 (fun d => leBytes 5 (m % 16 + d * 2 ^ 4 + 5 * 2 ^ 8 + (32 + 4 * t.code) * 2 ^ 16
                + t.width * 2 ^ 24 + 0xFF * 2 ^ 32))
            ∧ (3 ≤ (ts.filter fun a => decide (s.gt < a + 100000000)).length → .moduleRetire m ∈ u.pending))
      ∧ (∀ l, ok = true → x.readmit = false → x.rewritten = false → t.step = 2 → x.fell = false → t.lane = some l → l < 64 →
          x.spare ≠ none → ∃ u r, exec (.trainingDone m ok) s = .next u ∧ x.spare = some r
            ∧ StairStep s' u m (new { x with retired := x.retired ||| (1#64 <<< l), ruse := x.ruse ||| (1#4 <<< r)
                                             carries := tput x.carries r l })
            ∧ linkPosted s' u (m / 16) 0x20 0 fun d => leBytes 5 (m % 16 + d * 2 ^ 4 + 2 * 2 ^ 8 + (32 + 4 * t.code) * 2 ^ 16
                + t.width * 2 ^ 24 + l * 2 ^ 32))
      ∧ (ok = true → x.readmit = true → x.rewritten = false → t.step = 0 → x.fell = false →
          ∃ u, exec (.trainingDone m ok) s = .next u ∧ u = { s' with stairs := u.stairs, pending := u.pending }
            ∧ u.stair m = new { x with retired := 0, ruse := 0, rret := 0, carries := [], bad := [], held := false }
            ∧ (∀ j, j ≠ m → u.stair j = resumed s m j) ∧ .networkModeChange false ∈ u.pending)
      ∧ (ok = false → 0 < t.code → exec (.trainingDone m ok) s = .next ((s'.setStair m { x with
          retrain := n, target := some { t with code := t.code - 1 }, fell := true }).postOnce (.trainingDone m true)))
      ∧ (ok = false → t.code = 0 → x.wakefail + 1 < 3 → ∃ u, exec (.trainingDone m ok) s = .next u
          ∧ StairStep s' u m { x with retrain := n, wakefail := x.wakefail + 1 } ∧ .trainingDone m true ∈ u.pending
          ∧ linkPosted s' u (m / 16) 0x21 (Config.openField 5 s.free) fun _ => leBytes 1 (m % 16) ++ leBytes 1 (x.wakefail + 1)))
  ∧ (∀ (s : State) (m : Nat) (i : Instr), (s.ctxs.map Prod.fst).Nodup → m < 64 → (s.stair m).state ≠ 3 →
    (i = .linkDown m ∨ i = .moduleRetire m ∧ i ∈ s.pending) →
    let s' := if i = .linkDown m then s else s.finished i
    let gone : Stair := { s.stair m with
      state := 3, rate := 0, width := 0, trainedAt := none, target := none, waking := none, readmit := false
      rewritten := false, held := false }
    let degraded := fun d => leBytes 5 (m % 16 + d * 2 ^ 4 + 4 * 2 ^ 8 + 0xFF * 2 ^ 32)
    ((∃ j < 16, 16 * (m / 16) + j ≠ m ∧ (s.stair (16 * (m / 16) + j)).state ≠ 3) → ∃ r t, exec i s = .next t
      ∧ r = { s' with stairs := r.stairs } ∧ r.stair m = s.stair m
      ∧ (∀ j, j ≠ m → r.stair j = if (s.stair m).readmit = true then resumed s m j else s.stair j)
      ∧ StairStep r t m gone ∧ linkPosted r t (m / 16) 0x20 0 degraded)
    ∧ ((∀ j < 16, 16 * (m / 16) + j ≠ m → (s.stair (16 * (m / 16) + j)).state = 3) → (s.die (m / 16)).lost = false →
        let calm := (∀ j ∈ s.pending, s.writesTo (m / 16) j = false ∧ isPacketFor (m / 16) j = false)
          ∧ (∀ k ∈ s.skeins, k.2.loads = []) ∧ ∀ k < 48, (s.core (48 * (m / 16) + k)).merges = []
          ∧ (s.core (48 * (m / 16) + k)).acks = []
        ∃ t, exec i s = .next t ∧ t.stair m = gone ∧ (∀ j, j ≠ m → t.stair j = s.stair j)
          ∧ (t.die (m / 16)).lost = true ∧ .networkModeChange true ∈ t.pending
          ∧ (∀ c, (s.ctx c).state = .resident ∨ (s.ctx c).state = .saved → (s.ctx c).hasDie (m / 16) = true →
              (t.ctx c).state = .lost ∧ (t.ctx c).loss = 2)
          ∧ (calm → t.mem = s.mem ∧ (∀ d, d ≠ m / 16 → t.die d = s.die d)
              ∧ t.out = s.out ++ [.mgmt 0x20 (degraded (m / 16)), .mgmt 0x22 (leBytes 1 (m / 16) ++ List.replicate 6 0
                  ++ leBytes 8 (s.die (m / 16)).discarded)]
              ∧ ∀ c, (s.ctx c).hasDie (m / 16) = false → t.ctx c = s.ctx c)))
  ∧ (∀ (s : State) (die : Nat), let idle := s.pkg.idle ≠ 0 ∧ die < 4 ∧ (s.die die).lastFlit + s.pkg.idle ≤ s.gt
        ∧ ∀ j < 16, (s.stair (16 * die + j)).state = 0 ∨ (s.stair (16 * die + j)).state = 3
    (idle → ∃ t, exec (.stairSleep die) s = .next t ∧ t = { s with stairs := t.stairs }
        ∧ ∀ m, t.stair m = if m / 16 = die ∧ (s.stair m).state ≠ 3 then { s.stair m with state := 2, waking := none }
            else s.stair m)
    ∧ (¬ idle → exec (.stairSleep die) s = .next s))
  ∧ (∀ (s : State) (die : Nat), (∃ j < 16, (s.stair (16 * die + j)).readmit = true) →
    exec (.stairWake die) s = .next (s.postOnce (.stairWake die)))
  ∧ (∀ (s : State) (die : Nat), (∀ j < 16, (s.stair (16 * die + j)).readmit = false) →
    ∃ t, exec (.stairWake die) s = .next t
    ∧ t = { s with stairs := t.stairs, pending := t.pending }
    ∧ ∀ m, let wakes := m / 16 = die ∧ (s.stair m).state = 2 ∧ (s.stair m).waking = none
      (wakes → t.stair m = { s.stair m with waking := some s.gt } ∧ .wakeSuccess m ∈ t.pending)
      ∧ (¬ wakes → t.stair m = s.stair m))
  ∧ (∀ (s : State) (m u : Nat), (s.ctxs.map Prod.fst).Nodup → let x := s.stair m
    let s' := s.finished (.stairWakeSlow m)
    x.state = 2 → x.waking = some u →
      (s.gt < u + 16000 → exec (.wakeSuccess m) s = .next ((s.finished (.wakeSuccess m)).setStair m { x with
          state := 0, waking := none, wakefail := 0 })
        ∧ exec (.stairWakeSlow m) s = .next s')
      ∧ (u + 16000 ≤ s.gt → exec (.wakeSuccess m) s = .next (s.postOnce (.stairWakeSlow m)))
      ∧ (u + 16000 ≤ s.gt → x.wakefail + 1 < 3 → ∃ t, exec (.stairWakeSlow m) s = .next t
          ∧ StairStep s' t m { x with wakefail := x.wakefail + 1, waking := some s.gt } ∧ .wakeSuccess m ∈ t.pending
          ∧ linkPosted s' t (m / 16) 0x21 (Config.openField 5 s.free) fun _ => leBytes 1 (m % 16) ++ leBytes 1 (x.wakefail + 1))
      ∧ (u + 16000 ≤ s.gt → 3 ≤ x.wakefail + 1 → ∃ t, exec (.stairWakeSlow m) s = .next t ∧ (t.stair m).state = 3))
  ∧ (∀ (s : State) (m : Nat) (v : DWord), m < 64 → let x := s.stair m
    let c := v.toNat % 8
    let t := if c < 5 then s.setStair m { x with code := c } else s
    let t := if v.getLsbD 8 = true then t.postOnce (.readmit m) else t
    (5 ≤ c → exec (.stairRate m v) s = .next t)
    ∧ (c < 5 → x.target ≠ none → exec (.stairRate m v) s = .next (t.setStair m { x with code := c, rewritten := true }))
    ∧ (c < 5 → x.target = none → x.state = 3 ∨ x.rate = 32 + 4 * c → exec (.stairRate m v) s = .next t)
    ∧ (c < 5 → x.target = none → x.state ≠ 3 → x.rate ≠ 32 + 4 * c → exec (.stairRate m v) s =
        .next ((t.setStair m { x with code := c, target := some { code := c, width := x.width, half := x.half } }).postOnce
          (.quietPoint m))))
  ∧ ∀ (s : State) (m : Nat), m < 64 → let x := s.stair m
    let s' := s.finished (.readmit m)
    (x.state ≠ 3 ∨ (s.die (m / 16)).lost = true → exec (.readmit m) s = .next s')
    ∧ (x.state = 3 → (s.die (m / 16)).lost = false →
        let busy := ∃ j < 16, 16 * (m / 16) + j ≠ m
          ∧ ((s.stair (16 * (m / 16) + j)).state = 1 ∨ (s.stair (16 * (m / 16) + j)).waking ≠ none)
        (s.pkg.fixedClass = false →
          exec (.readmit m) s = .next ((s.postOnce (.readmit m)).postOnce (.networkModeChange true)))
        ∧ (s.pkg.fixedClass = true → busy → exec (.readmit m) s = .next (s.postOnce (.readmit m)))
        ∧ (s.pkg.fixedClass = true → ¬ busy → ∃ t, exec (.readmit m) s = .next t
            ∧ t = { s' with stairs := t.stairs, pending := t.pending } ∧ .trainingDone m true ∈ t.pending
            ∧ t.stair m = { x with
                target := some { code := 0, width := 64 }, readmit := true, state := 1, fell := false }
            ∧ ∀ j, j ≠ m → t.stair j =
                if j / 16 = m / 16 ∧ (s.stair j).state = 0 then { s.stair j with state := 1, held := true } else s.stair j))

/-! ## Contexts as the host steers them (spec 10 R306, 12 R320, R323, R333, R334, R339, 16 R403 to R407, R410, R411) -/

/-- R290, R306, R309, R364, R403 to R407, R410, R411: the life of a context, and its records. CREATE answers a status, or makes the
context SAVED with every register of its window at its reset value, the rings of its block, and its count words 0. An abort makes a context LOST:
its blocks and records go, and its launches complete. RETIRE of a context that has drained, or is LOST, makes it FREE with a
last meter record. A request takes the next sequence number; the signer reserves an index, and then writes body, index and
signature. JOIN reads the join command and asks for a membership record. -/
def Obligations.ContextLife : Prop :=
  (∀ (s : State) (c pa : Nat), let i := Instr.create c pa 0
    let status := fun (t : State) (n : Nat) => exec i s = .next (t.setCtx c { t.ctx c with create := n })
    c < 256 →
      (s.pkg.failed = true → status s 6)
      ∧ (s.pkg.failed = false → s.pkg.bringUp ≠ 6 → exec i s = .next s)
      ∧ (s.pkg.failed = false → s.pkg.bringUp = 6 →
          ((s.ctx c).state ≠ .free → status s 5)
          ∧ ((s.ctx c).state = .free → pa % 64 ≠ 0 ∨ s.inExtent pa = false → status s 2)
          ∧ (∀ m bs, (s.ctx c).state = .free → pa % 64 = 0 → s.inExtent pa = true → s.physRead pa 2 128 = (m, bs) →
              (creationOf bs = none → status m 2)
              ∧ (∀ b m' st, creationOf bs = some b → m.checkCreation c b = (m', .error st) → status m' st)
              ∧ (∀ b m' x, creationOf bs = some b → m.checkCreation c b = (m', .ok x) →
                  x = { ({} : Context) with
                      state := .saved, mode := b.mode, device := b.device, func := b.func
                      launchPorts := x.launchPorts, abortOnPoison := x.abortOnPoison, ttroot := b.root
                      areas := ⟨b.save, b.saveLen, b.cnt, b.tmpl, b.budget, 0⟩, created := m.gt, lastRes := m.gt
                      rings := x.rings, events := x.events, ids := x.ids }
                  ∧ (x.launchPorts = true ↔ b.flags / 2 % 2 = 1) ∧ (x.abortOnPoison = true ↔ b.flags / 4 = 1)
                  ∧ (x.rings.map Prod.fst) = List.range b.nrings ∧ x.ids.length = b.nids
                  ∧ (x.events.map Prod.fst) = List.range x.nDies
                  ∧ (∀ d < 4, x.hasDie d = true → (m.die d).lost = false)
                  ∧ ∀ q : Nat → Phys,
                      (∀ j < 256, (m'.setCtx c x).spanAt c (x.firstDie * 48) (b.cnt.toNat + 128 * j) 128 .store (q j)) →
                      ∃ t, exec i s = .next t ∧ Brought (m'.setCtx c x) t
                        ∧ (∀ r ∈ x.rings, r.2.enabled = true → .ringPoll c r.1 ∈ t.pending)
                        ∧ (∀ j < 256, ∀ o < 128, Mem.get t.mem ((q j).pa + o) = 0)
                        ∧ ∀ a, (∀ j < 256, a < (q j).pa ∨ (q j).pa + 128 ≤ a) → Mem.get t.mem a = Mem.get m'.mem a))))
  ∧ (∀ (s : State) (c : Nat), let i := Instr.hostAbort c
    ((s.ctx c).state = .free ∨ (s.ctx c).state = .lost → exec i s = .next s)
    ∧ ((s.ctx c).state = .resident ∨ (s.ctx c).state = .saved → ∃ t, exec i s = .next t
        ∧ t = { s with ctxs := t.ctxs, ports := t.ports, colls := t.colls, skeins := t.skeins, blocks := t.blocks
                       saved := t.saved, savedC := t.savedC, cores := t.cores, pending := t.pending }
        ∧ t.ctx c = { s.ctx c with state := .lost, loss := 4, faults := [] } ∧ (∀ d, d ≠ c → t.ctx d = s.ctx d)
        ∧ t.skeins = s.skeins.filter (fun k => k.2.ctx != c) ∧ t.blocks = s.blocks.filter (fun b => b.2.ctx != c)
        ∧ t.saved = s.saved.filter (fun b => b.2.block.ctx != c) ∧ (∀ p, p.ctx = c → (t.port p).recs = [])
        ∧ (∀ p, p.ctx ≠ c → t.port p = s.port p) ∧ (∀ k ∈ t.colls, k.2.ctx ≠ c)
        ∧ ∀ g ∈ s.grids, g.2.ctx = c → .gridComplete g.1 ∈ t.pending))
  ∧ (∀ (s : State) (c : Nat), let i := Instr.retire c
    let st := (s.ctx c).state
    (st = .free → exec i s = .next (s.finished i))
    ∧ (st = .saved → s.drained c = false → exec i s = .next (s.postOnce i))
    ∧ (st = .resident → s.drained c = false → exec i s = .next (s.postOnce i))
    ∧ (st = .resident → s.drained c = true → ∃ t, exec i s = .next t ∧ t = { s with pending := t.pending } ∧ i ∈ t.pending
        ∧ ∀ k ∈ s.cores, (∃ q ∈ k.2.hallc, q.2.ctx = c) → .hallcSave c k.1 ∈ t.pending)
    ∧ ((st = .lost ∨ st = .saved ∧ s.drained c = true) → c < 256 → ∃ t r, exec i s = .next t ∧ t.ctx c = {}
        ∧ (∀ d, d ≠ c → t.ctx d = s.ctx d) ∧ t.ports = s.ports.filter (fun p => p.port.ctx != c)
        ∧ t.pkg = { s.pkg with signQ := s.pkg.signQ ++ [r] } ∧ .signRecord ∈ t.pending
        ∧ r.ctx = c ∧ r.pa = (s.ctx c).areas.metOut.toNat ∧ r.job = none ∧ (∀ j, Stirred true (tget s.skeins j) (tget t.skeins j))
        ∧ ((∀ k ∈ s.cores, ∀ m ∈ k.2.merges, m.2.ctx ≠ c) → t.mem = s.mem ∧ t.skeins = s.skeins ∧ ((∀ l ∈ s.lines, l.2.dirty ≠ some c) →
            r.body = (s.setCtx c { s.ctx c with metSeq := (s.ctx c).metSeq + 1 }).meterBody c 0))))
  ∧ (∀ (s : State) (c pa : Nat), let x := { s.ctx c with metSeq := (s.ctx c).metSeq + 1 }
    (s.pkg.bringUp = 6 → s.pkg.failed = false → (s.ctx c).state ≠ .free → exec (.meterreq c pa) s =
      .next (({ s.setCtx c x with pkg := { s.pkg with signQ := s.pkg.signQ ++ [⟨c, pa,
        leBytes 4 1 ++ leBytes 4 1 ++ leBytes 8 s.pkg.serial.toNat ++ leBytes 8 s.gt ++ leBytes 1 c ++ leBytes 1 1
          ++ List.replicate 6 0 ++ leBytes 8 x.job.1.toNat ++ leBytes 8 x.job.2.toNat ++ leBytes 8 x.metSeq
          ++ leBytes 4 x.metersat ++ List.replicate 4 0 ++ (List.range 32).flatMap (fun j => leBytes 8 (x.counter j))
          ++ leBytes 8 x.created ++ List.replicate 56 0, none⟩] } } : State).postOnce .signRecord))
    ∧ (s.pkg.bringUp ≠ 6 ∨ s.pkg.failed = true ∨ (s.ctx c).state = .free → exec (.meterreq c pa) s = .next s))
  ∧ (∀ (s : State) (c reason : Nat), (s.meterBody c reason).length = 384)
  ∧ (∀ (s : State) (r : SignReq) (rs : List SignReq), let i := Instr.signRecord
    let done := fun t : State => let u := { t.finished i with pkg := { t.pkg with signQ := rs, reserved := none } }
      if rs = [] then u else u.postOnce i
    (s.pkg.signQ = [] → exec i s = .next (s.finished i))
    ∧ (s.pkg.signQ = r :: rs → s.pkg.reserved = none → s.pkg.xmssIdx < 2 ^ 40 → exec i s =
        .next { s with pkg := { s.pkg with xmssIdx := s.pkg.xmssIdx + 1, reserved := some s.pkg.xmssIdx } })
    ∧ (s.pkg.signQ = r :: rs → s.pkg.reserved = none → 2 ^ 40 ≤ s.pkg.xmssIdx → exec i s = .next (done s))
    ∧ (∀ idx, s.pkg.signQ = r :: rs → s.pkg.reserved = some idx →
        let body := match r.job with
          | some j => s.memberBody r.ctx j
          | none => r.body
        let record := body ++ leBytes 5 idx ++ (List.range 9888).map fun j => Config.signByte idx body j
        ∃ m, exec i s = .next (done m) ∧ (∀ j, Stirred true (tget s.skeins j) (tget m.skeins j)) ∧ m.pkg = s.pkg
          ∧ ((∀ j < record.length, s.reachable (s.canon r.pa + j) = true ∧ s.bareLine ((s.canon r.pa + j) / 128) = true) →
              wroteCells s.mem m.mem (cellsAt (s.canon r.pa) record))))
  ∧ ∀ (s : State) (c pa : Nat), let a := s.canon pa
    (s.pkg.bringUp = 6 → s.pkg.failed = false → (s.ctx c).state ≠ .free → s.reachable pa = true →
      a % 128 + 32 ≤ 128 → s.bareLine (a / 128) = true → s.boltPa a = false →
        let job := (BitVec.ofNat 64 (Mem.nat s.mem a 8), BitVec.ofNat 64 (Mem.nat s.mem (a + 8) 8))
        ∃ m, Brought s m ∧ m.mem = s.mem ∧ exec (.join c pa) s = .next
          (({ m.setCtx c { m.ctx c with job := job } with pkg := { m.pkg with
              signQ := m.pkg.signQ ++ [⟨c, Mem.nat s.mem (a + 16) 8, [], some job⟩] } } : State).postOnce .signRecord))
    ∧ (s.pkg.bringUp ≠ 6 ∨ s.pkg.failed = true ∨ (s.ctx c).state = .free ∨ s.reachable pa = false →
        exec (.join c pa) s = .next s)

/-- R41, R292, R320, R323, R333 to R335, R339, R410: a RETRY with ENG resumes the paused records that carry the number, and a
REFUSE leaves them. HALT stops a context's skeins at their boundaries, and its end releases them and issues the listed records
again. QUIESCE waits for the hall copies of a halted context or lists them, and then sets QDONE. TTROOT, QUANTUM and RINGEN
take their values. QDONE waits for group 4 instructions that have not landed too. An invalidation discards its range, drains the cores, waits
for accesses that hold an old translation, and completes. -/
def Obligations.ContextControl : Prop :=
  (∀ (s : State) (c num : Nat), (s.ports.map (·.port)).Nodup → ∃ t, exec (.engineRetry c num) s = .next t
    ∧ t = { s with saved := t.saved, ports := t.ports, pending := t.pending }
    ∧ (∀ p n r, s.record p n = some r → let answered := p.ctx = c ∧ r.paused = true ∧ n % 2 ^ 48 = num ∧ s.isListed p n = false
        (answered → t.record p n = some { r with paused := false } ∧ ∀ b, r.body = .coll b → .coll p n ∈ t.pending)
        ∧ (¬ answered → t.record p n = some r))
    ∧ exec (.engineRefuse c num) s = .next s)
  ∧ (∀ (s : State) (c : Nat), let d := (s.ctx c).dbg
    exec (.halt c true) s = .next (s.setCtx c { s.ctx c with dbg := { d with halt := true } })
    ∧ ∃ t, exec (.halt c false) s = .next t
      ∧ t = { s with ctxs := t.ctxs, skeins := t.skeins, ports := t.ports, pending := t.pending }
      ∧ t.ctx c = { s.ctx c with dbg := { d with halt := false, listed := [] } } ∧ (∀ e, e ≠ c → t.ctx e = s.ctx e)
      ∧ t.skeins = s.skeins.map (fun k => (k.1, if k.2.ctx = c then { k.2 with halted := false } else k.2))
      ∧ (d.listed = [] → t.ports = s.ports)
      ∧ ∀ p q r, d.listed = [(p, q)] → s.record p q.num = some r → t.record p q.num = some { r with paused := false }
        ∧ (if r.started = true then .copyRow p r.num else startRow p r.num r.body) ∈ t.pending)
  ∧ (∀ (s : State) (c : Nat), let i := Instr.quiesce c
    let d := (s.ctx c).dbg
    let rs := s.hallRecs c
    let dbg := fun (t : State) (x : Debug) => t.setCtx c { t.ctx c with dbg := x }
    (d.halt = false → exec i s = .next (s.finished i))
    ∧ (d.halt = true → d.qmode = false → (∃ r ∈ rs, r.2.paused = false) →
        exec i s = .next (dbg (s.postOnce i) { d with qdone := false }))
    ∧ (d.halt = true → rs = [] → (∀ k ∈ s.cores, ∀ o ∈ k.2.loom, o.ctx ≠ c) → exec i s = .next
        { dbg s { d with qdone := true, listed := [] } with pending := s.pending.erase i })
    ∧ (d.halt = true → rs = [] → (∃ k ∈ s.cores, ∃ o ∈ k.2.loom, o.ctx = c) →
        exec i s = .next (dbg (s.postOnce i) { d with qdone := false }))
    ∧ (∀ p r q, d.halt = true → rs = [(p, r)] → r.paused = true ∨ d.qmode = true → (s.ports.map (·.port)).Nodup →
        (∀ y ∈ (s.port p).recs, y.num = r.num → y = r) →
        (∀ k ∈ s.cores, ∀ o ∈ k.2.loom, o.ctx ≠ c) →
        s.spanAt c ((s.ctx c).firstDie * 48) d.dbglist.toNat 96 .store q → ∃ t, exec i s = .next t
          ∧ t.record p r.num = some { r with paused := true }
          ∧ (∀ j, Stirred true (tget s.skeins j) (tget t.skeins j))
          ∧ (t.ctx c).dbg = { d with qdone := true, listed := [(p, { r with paused := true })] }
          ∧ wroteCells s.mem t.mem (cellsAt q.pa (s.copyBytes p r))))
  ∧ (∀ (s : State) (c : Nat) (v : DWord), let x := s.ctx c
    exec (.ttroot c v) s = .next (s.setCtx c { x with ttroot := BitVec.ofNat 64 (v.toNat / 2 ^ 16 % 2 ^ 36 * 2 ^ 16) })
    ∧ exec (.quantum c v) s = .next (s.setCtx c { x with quantum := max 100 (min (v.toNat % 2 ^ 32) 100000) })
    ∧ ∃ t, exec (.ringen c v) s = .next t ∧ t = { s with ctxs := t.ctxs, pending := t.pending }
      ∧ t.ctx c = { x with rings := x.rings.map fun r => (r.1, { r.2 with
          enabled := v.getLsbD r.1, fresh := r.2.fresh || (v.getLsbD r.1 && !r.2.enabled) }) }
      ∧ (∀ d, d ≠ c → t.ctx d = s.ctx d) ∧ ∀ r ∈ x.rings, v.getLsbD r.1 = true → .ringPoll c r.1 ∈ t.pending)
  ∧ ∀ (s : State) (cx va n cmd : DWord) (rest : List (DWord × DWord × DWord × DWord)), let i := Instr.invalidation
    let c := cx.toNat % 256
    let hits := fun e : TlbEntry => e.ctx = c ∧ e.vbase < va.toNat + n.toNat ∧ va.toNat < e.vbase + e.size
    (s.pkg.invalQ = [] → exec i s = .next (s.finished i))
    ∧ (s.pkg.invalQ = (cx, va, n, cmd) :: rest → ∃ t, exec i s = .next t
        ∧ (∀ k ∈ t.cores, ∀ e ∈ k.2.utlb, ¬ hits e) ∧ (∀ d ∈ t.dies, ∀ e ∈ d.2.tlb, ¬ hits e)
        ∧ (s.translating c = true → t.pkg = s.pkg)
        ∧ (s.translating c = false → t.pkg = { s.pkg with invalQ := rest, invalDone := cmd }
            ∧ ((∀ k ∈ s.cores, k.2.scb = [] ∧ k.2.acks = []) → s.mergeDir = [] →
                (∀ j ∈ s.pending, ∀ k, isWriteOf k j = false ∧ isWriteAckOf k j = false) → t.mem = s.mem
                  ∧ ∀ j k, tget s.skeins j = some k → k.ctx = c → (∃ u l p a x, k.park = .count u l p a x) →
                      (s.skeins.map Prod.fst).Nodup → ∃ k', tget t.skeins j = some k' ∧ k'.park = .no ∧ k'.pc = k.pc)))

/-! ## The host and peers from outside (spec 10 R287, R288; 14 R361; 16 R408 to R414) -/

/-- R287, R288, R361, R412 to R414: accesses from outside, firmware and bring-up. In service a host write is performed at its
homes, and what lies beyond the extents is dropped; a host read answers the bytes, those of a memory bolt line in normal form,
and all ones beyond the last extent; a peer's request is carried out inside an inbound window and refused outside. An image that verifies is stored and runs. Package reset
keeps the fuses, the serial number, the rollback count and the signature index. Bring-up takes its steps in order, and stops at
one that fails. -/
def Obligations.OutsideAccesses : Prop :=
  (∀ (s : State) (func pa len : Nat) (bytes : List Byte),
    let live := s.pkg.bringUp = 6 ∧ s.pkg.failed = false
    (¬ live → exec (.hostWrite func pa bytes) s = .next s ∧ exec (.hostRead func pa len) s = .next s)
    ∧ (live → (∀ j < bytes.length, s.inExtent (pa + j) = true ∧ s.bareLine ((pa + j) / 128) = true) →
        ∃ t, exec (.hostWrite func pa bytes) s = .next t ∧ Brought { s with pkg := t.pkg } t
          ∧ t.pkg = { s.pkg with hostLclk := t.pkg.hostLclk, hostTickAt := t.pkg.hostTickAt }
          ∧ wroteCells s.mem t.mem (cellsAt pa bytes))
    ∧ (live → (∀ j < bytes.length, s.inExtent (pa + j) = false) → ∃ t, exec (.hostWrite func pa bytes) s = .next t
        ∧ t = { s with pkg := { s.pkg with hostLclk := t.pkg.hostLclk, hostTickAt := t.pkg.hostTickAt } })
    ∧ (live → 0 < len → (∀ j < len, s.inExtent (pa + j) = true → s.bareLine ((pa + j) / 128) = true) →
        ∃ t bs, exec (.hostRead func pa len) s = .next t ∧ t.out = s.out ++ [.reply func bs]
          ∧ Brought { s with out := t.out } t ∧ t.mem = s.mem ∧ bs.length = len
          ∧ ∀ j < len, (0x7700000000 ≤ pa + j → bs[j]? = some 0xFF)
              ∧ (s.inExtent (pa + j) = true → bs[j]? = some (s.seenByte (pa + j)))))
  ∧ (∀ (s : State) (pod pa n : Nat) (bs : List Byte) (op : AOp) (ty : Ty) (b e : DWord),
    let width := accBytes ty
    let read := PeerReq.read pod pa n
    let write := PeerReq.write pod pa bs
    let atomic := PeerReq.atomic pod pa op ty b e
    let seen := fun m : Nat => (List.range m).map fun j => s.seenByte (pa + j)
    let bare := fun m : Nat => ∀ j < m, s.bareLine ((pa + j) / 128) = true
    let answers := fun (r : PeerReq) (t : State) (ok : Bool) (reply : List Byte) => exec (.peerRequest r) s = .next t
      ∧ t.out = s.out ++ [.peerReply pod ok reply] ∧ Brought { s with out := t.out } t
    (0 < n → n ≤ 256 → s.inWindow pa n = true → bare n → ∃ t, answers read t true (seen n) ∧ t.mem = s.mem)
    ∧ (n = 0 ∨ 256 < n ∨ s.inWindow pa n = false → answers read (s.emit (.peerReply pod false [])) false [])
    ∧ (bs ≠ [] → bs.length ≤ 256 → s.inWindow pa bs.length = true → bare bs.length →
        ∃ t, answers write t true [] ∧ wroteCells s.mem t.mem (cellsAt pa bs))
    ∧ (bs = [] ∨ 256 < bs.length ∨ s.inWindow pa bs.length = false →
        answers write (s.emit (.peerReply pod false [])) false [])
    ∧ (width = 4 ∨ width = 8 → pa % width = 0 → s.inWindow pa width = true → bare width →
        ∃ t, answers atomic t true (seen width) ∧ wroteCells s.mem t.mem (cellsAt pa (leBytes width
          (atomicNew op ty (ofLeBytes (seen width)) (b.toNat % 2 ^ Ty.bits ty) (e.toNat % 2 ^ Ty.bits ty)))))
    ∧ ((width ≠ 4 ∧ width ≠ 8) ∨ pa % width ≠ 0 ∨ s.inWindow pa width = false →
        answers atomic (s.emit (.peerReply pod false [])) false []))
  ∧ (∀ (s : State) (len version : Nat) (good : Bool),
    let x := { s.pkg with window := Mem.write s.pkg.window 8388600 (leBytes 8 len) }
    (s.pkg.fwstate ≠ 1 → exec (.firmwareLoad len good version) s = .next s)
    ∧ (s.pkg.fwstate = 1 → len ≤ 8388600 → good = true → s.pkg.rollback ≤ version → exec (.firmwareLoad len good version) s =
        .next { s with pkg := { x with fwstate := 0, fwversion := version, rollback := version, failed := false } })
    ∧ (s.pkg.fwstate = 1 → 8388600 < len ∨ good = false ∨ version < s.pkg.rollback →
        exec (.firmwareLoad len good version) s = .next { s with pkg := x }))
  ∧ (∀ (s : State) (good : Bool) (version : Nat), let x := s.pkg
    ∃ t p, exec (.packageReset good version) s = .next t
      ∧ t = { State.reset with
          pkg := p, mem := t.mem, sched := s.sched, free := s.free, nextId := s.nextId, out := s.out }
      ∧ p = { ({} : Package) with
          fuse := x.fuse, serial := x.serial, xmssIdx := x.xmssIdx, rollback := p.rollback, fwversion := p.fwversion
          fwstate := p.fwstate }
      ∧ (good = true → x.rollback ≤ version → p.rollback = version ∧ p.fwversion = version ∧ p.fwstate = 0)
      ∧ (good = false ∨ version < x.rollback → p.rollback = x.rollback ∧ p.fwversion = x.fwversion ∧ p.fwstate = 1)
      ∧ ∀ a, Mem.get t.mem a = if a / 2 ^ 50 % 4 = 0 then 0 else Mem.get s.mem a)
  ∧ ∀ (s : State) (ok : Bool), let n := s.pkg.bringUp + 1
    let good := ok = true ∧ (n = 1 → s.pkg.fuseValid = true) ∧ (n = 5 → s.pkg.fwstate = 0)
    (s.pkg.failed = true ∨ 6 < n → exec (.bringUpStep ok) s = .next s)
    ∧ (s.pkg.failed = false → n ≤ 6 → good → ∃ t, exec (.bringUpStep ok) s = .next t
        ∧ t = { s with stairs := t.stairs, pkg := { s.pkg with
            bringUp := n, fixedClass := if n = 6 then false else s.pkg.fixedClass } }
        ∧ (n ≠ 3 → t.stairs = s.stairs)
        ∧ (n = 3 → ∀ m < 64, t.stair m = { s.stair m with
            state := 0, rate := 32, width := 64, trainedAt := some s.gt, windowAt := s.gt }))
    ∧ (s.pkg.failed = false → n ≤ 6 → ¬ good → exec (.bringUpStep ok) s =
        .next (({ s with pkg := { s.pkg with failed := true, fwstate := if n = 5 then 1 else 3 } } : State).emit
          (.mgmt 0 (leBytes 1 n))))

/-- R262, R310, R333, R339, R348, R349, R377, R399, R409, R410, R413: registers as the PF writes them. A register keeps what its
fields allow, a read-only one keeps its value, and a register that commands something does what its row does. -/
def Obligations.RegisterWrites : Prop :=
  ∀ (s : State) (v : DWord), s.pkg.bringUp = 6 → s.pkg.failed = false →
    let wr := fun off : Nat => exec (.registerWrite off v) s
    let pkg := fun (off : Nat) (p : Package) => wr off = .next { s with pkg := p }
    let x := s.pkg
    let n := v.toNat
    pkg 0x10 { x with podnum := n % 1024 }
    ∧ pkg 0x18 { x with hostbase := v }
    ∧ pkg 0x20 { x with watts := max 600 (min (n % 4096) 2400), tjmax := min 110 (n / 2 ^ 16 % 256) }
    ∧ pkg 0x30 { x with inval := (v, x.inval.2.1, x.inval.2.2) }
    ∧ pkg 0x38 { x with inval := (x.inval.1, v, x.inval.2.2) }
    ∧ pkg 0x40 { x with inval := (x.inval.1, x.inval.2.1, v) }
    ∧ wr 0x48 = .next (({ s with pkg := { x with
        invalCmd := v, invalQ := x.invalQ ++ [(x.inval.1, x.inval.2.1, x.inval.2.2, v)] } } : State).postOnce .invalidation)
    ∧ (∀ off ∈ [0x00, 0x08, 0x28, 0x50, 0x58], wr off = .next s)
    ∧ (∀ off, off % 8 ≠ 0 → wr off = .next s)
    ∧ (∀ off, 0x1000 ≤ off → off < 0x2000 → wr off = .next s)
    ∧ (∀ m < 64, let o := 0x100000 + 0x80 * m
        wr o = exec (.stairRate m v) s
        ∧ wr (o + 8) = .next (s.setStair m { s.stair m with limit := max 1 (n % 2 ^ 16) })
        ∧ ∀ j, 2 ≤ j → j < 16 → wr (o + 8 * j) = .next s)
    ∧ (∀ off, 0x102000 ≤ off → off < 0x102400 → wr off = .next s)
    ∧ (∀ e < 476, let c := n / 8 % 4
        let f := n % 8
        let dies := if c = 1 then 8 else if c = 2 then 4 else 2
        let c' := if f % dies = 0 then c else 0
        pkg (0x110000 + 8 * e) { x with extents := tput x.extents e (c', f) })
    ∧ (∀ k < 192, wr (0x120000 + 8 * k) = .next (s.setCore k { s.core k with refill := max 1 (n % 2 ^ 32) }))
    ∧ (∀ o < 0x800000, o % 8 = 0 → pkg (0x800000 + o) { x with window := Mem.write x.window o (leBytes 8 n) })
    ∧ ∀ c < 256, let w := 0x1000000 + 0x10000 * c
      let y := s.ctx c
      let d := y.dbg
      let dbg := fun z : Debug => s.setCtx c { y with dbg := z }
      wr w = exec (.create c n 0) s
      ∧ (n = 1 → wr (w + 0x10) = exec (.retire c) s)
      ∧ (n ≠ 1 → wr (w + 0x10) = .next s)
      ∧ wr (w + 0x18) = exec (.meterreq c n) s
      ∧ (n % 8 = 0 → wr (w + 0x20) = exec (.faultRetry c (n / 256)) s)
      ∧ (n % 8 = 1 → wr (w + 0x20) = exec (.faultRefuse c (n / 256)) s)
      ∧ (n % 8 = 4 → wr (w + 0x20) = exec (.engineRetry c (n / 256 % 2 ^ 48)) s)
      ∧ (n % 8 = 5 → wr (w + 0x20) = exec (.engineRefuse c (n / 256 % 2 ^ 48)) s)
      ∧ (2 ≤ n % 4 → wr (w + 0x20) = .next s)
      ∧ (v.getLsbD 0 = d.halt → v.getLsbD 3 = false →
          wr (w + 0x28) = .next (dbg { d with brken := v.getLsbD 2, qmode := v.getLsbD 4 }))
      ∧ (v.getLsbD 0 ≠ d.halt → v.getLsbD 3 = false →
          wr (w + 0x28) = exec (.halt c (v.getLsbD 0)) (dbg { d with brken := v.getLsbD 2, qmode := v.getLsbD 4 }))
      ∧ (v.getLsbD 0 = true → d.halt = true → v.getLsbD 3 = true →
          wr (w + 0x28) = exec (.quiesce c) (dbg { d with brken := v.getLsbD 2, qmode := v.getLsbD 4 }))
      ∧ wr (w + 0x30) = .next (dbg { d with dbglist := v })
      ∧ wr (w + 0x38) = .next (s.setCtx c { y with areas := { y.areas with metOut := v } })
      ∧ (∀ j < 4, let e : EvRing := { (tget y.events j).getD {} with
              en := v.getLsbD 44, etime := n / 2 ^ 28 % 2 ^ 16, ecount := max 1 (n % 2 ^ 16) }
          (j < y.nDies → wr (w + 0x40 + 8 * j) =
            .next ((s.setCtx c { y with events := tput y.events j e }).postOnce (.eventInterrupt c j)))
          ∧ (y.nDies ≤ j → wr (w + 0x40 + 8 * j) = .next s))
      ∧ (∀ j < 8, let b := (tget y.buckets j).getD {}
          wr (w + 0x60 + 8 * j) = .next (s.setCtx c { y with buckets := tput y.buckets j { b.refill s.gt with
            next := some (n % 2 ^ 32, max 4096 (n / 2 ^ 32)) } }))
      ∧ wr (w + 0xA0) = exec (.join c n) s
      ∧ wr (w + 0xA8) = exec (.ttroot c v) s
      ∧ wr (w + 0xB0) = exec (.quantum c v) s
      ∧ wr (w + 0xB8) = exec (.ringen c v) s

/-! ## Decoding (spec 03 R86 to R107) -/

/-- R91, R92, R96, R97: every well-formed instruction that a word encodes is read back whole from its word. -/
def Obligations.DecodeEncode : Prop := ∀ (i : Instr) (w : IWord), i.wf = true → encode i = some w → decode w = .ok i

/-- R106: a word whose opcode the map does not use is ILLEGAL_OP, whatever else it holds; a word of a used opcode with a
reserved bit set, a SETF of 12, 13 or 14, or the guard `!pt` is ILLEGAL_ENC. -/
def Obligations.ReservedWords : Prop :=
  ∀ w : IWord,
    let op := (w.extractLsb' 0 8).toNat
    let used := op < 0x1F ∨ (0x20 ≤ op ∧ op ≤ 0x30) ∨ (0x40 ≤ op ∧ op ≤ 0x55) ∨ (0x60 ≤ op ∧ op ≤ 0x70)
      ∨ (0x80 ≤ op ∧ op ≤ 0x8A) ∨ (0xA0 ≤ op ∧ op ≤ 0xAB) ∨ (0xC0 ≤ op ∧ op ≤ 0xD1) ∨ (0xE0 ≤ op ∧ op ≤ 0xEB)
    (¬ used → decode w = .error .illegalOp)
    ∧ (used → (w.extractLsb' 92 4 ≠ 0 ∨ w.getLsbD 69 = true ∨ w.getLsbD 26 = true
        ∨ w.extractLsb' 82 4 = 12 ∨ w.extractLsb' 82 4 = 13 ∨ w.extractLsb' 82 4 = 14
        ∨ (w.getLsbD 68 = true ∧ w.extractLsb' 64 4 = 15)) →
      decode w = .error .illegalEnc)

/-- The worked encodings of the spec: the words that it prints, the first word first, are those of the statements beside
them. -/
def Obligations.WordsDecode : Prop :=
  let word := fun (w0 w1 w2 : BitVec 32) => (w2 ++ w1 ++ w0 : IWord)
  let pt : Ctl := { cls := false, yld := false, stall := 0, setf := 15, wait := 0, gn := false, gp := 15 }
  let v := fun (n : Nat) => Opnd.reg (BitVec.ofNat 10 n)
  decode (word 0xA0300862 0x00000B00 0x0CC80483) = .ok (.bmac
      { cls := true, yld := true, stall := 3, setf := 2, wait := 0x012, gn := false, gp := 3 }
      { ty := .f32, d := v 48, a := v 10, b := v 11 })
  ∧ decode (word 0x100B2208 0x00000300 0x003C000F) = .ok (.irem pt
      { ty := .i32, sat := false, d := v 11, a := v 1, b := .imm 3 })
  ∧ decode (word 0x2004461E 0x00000100 0x003C000F) = .ok (.lea pt
      { ty := .n32, sh := 1, d := v 4, a := v 2, b := .src (v 1) })
  ∧ decode (word 0x40050E53 0x02800000 0x003C000F) = .ok (.cvt pt
      { ty := .e4m3, rm := .rne, sat := true, sty := .f32, d := v 5, a := v 4 })
  ∧ decode (word 0x60180861 0x00000000 0x003C000F) = .ok (.badd pt { ty := .f32, d := v 24, a := v 6 })
  ∧ decode (word 0x40032E80 0x00000500 0x003C000F) = .ok (.mmap pt
      { ty := .e4m3, w := true, idx := false, m := v 3, a := v 4, b := v 5, c := v 0 })
  ∧ decode (word 0x20000081 0x00900300 0x0000000F) = .ok (.mma { pt with setf := 0 } { p := 1, kb := 2, a := v 2, b := v 3 })
  ∧ decode (word 0x200842A0 0x00304000 0x003C000F) = .ok (.ld pt
      { ord := .acq, scope := .device, promote := false, ty := .i32, d := v 8, a := v 2, off := .imm 64 })
  ∧ decode (word 0x200962A1 0x01300400 0x003C000F) = .ok (.st pt
      { ord := .rel, scope := .device, promote := false, ty := .i32, d := v 9, a := v 2, off := .vec (v 4) })
  ∧ decode (word 0xE01182A8 0x08301000 0x003C0002) = .ok (.amo { pt with gp := 2 }
      { op := .add, ord := .acqRel, scope := .device, ret := true, promote := false, ty := .i32, d := v 17, a := v 14,
        b := v 16 })
  ∧ decode (word 0x600024CB 0x00000101 0x003C020F) = .ok (.cntsig { pt with wait := 8 }
      { hall := false, scope := .system, promote := false, a := v 22, b := .imm 1 })
  ∧ decode (word 0x000000C0 0xFFFFF700 0x003C0002) = .ok (.bra { pt with gp := 2 } (-9))
  ∧ decode (word 0x100000C4 0x00500500 0x003C000F) = .ok (.shed pt false (v 1) 5 5)
  ∧ decode (word 0x100200E0 0x00000800 0x003C000F) = .ok (.submit pt (v 2) (v 1) (v 8))
  ∧ decode (word 0x001900E5 0x00000000 0x003C000F) = .ok (.sfrq pt (v 25))
  ∧ decode (word 0x000D00E1 0x00001100 0x003C000F) = .ok (.csrr pt (v 13) 0x11)

/-- R88, R97: the number of an instruction from its line and slot; the next PC of slot 9 is slot 0 of the next line; a
branch of offset `off` counts instructions across lines, modulo 10 × 2^48, its target has a slot of 0 to 9, and offset 0
names the branch itself. -/
def Obligations.PcArithmetic : Prop :=
  (∀ line slot : Nat, line < 2 ^ 48 → slot < 10 →
    let pc : Pc := BitVec.ofNat 55 (line * 128 + slot)
    (pc.extractLsb' 7 48).toNat = line ∧ (pc.extractLsb' 0 7).toNat = slot ∧ pcNum pc = line * 10 + slot
    ∧ pcNext pc = BitVec.ofNat 55 (if slot = 9 then (line + 1) % 2 ^ 48 * 128 else line * 128 + (slot + 1))
    ∧ pcOfNum (pcNum pc + (0 : BitVec 24).toInt) = pc
    ∧ ∀ off : BitVec 24,
        let target := pcOfNum (pcNum pc + off.toInt)
        (-(2 ^ 23 : Nat) : Int) ≤ off.toInt ∧ off.toInt ≤ (2 ^ 23 - 1 : Nat) ∧ (target.extractLsb' 0 7).toNat < 10
        ∧ (pcNum target : Int) = (((line * 10 + slot : Nat) : Int) + off.toInt) % (10 * 2 ^ 48 : Nat))
  ∧ pcOfNum ((pcNum 0x400008 : Int) + 5) = 0x400083 ∧ pcOfNum ((pcNum 0x400008 : Int) - 9) = 0x3FFF89

/-! ## The step (spec 01 R50, 03 R86, R107, 11 R302, 12 R317) -/

/-- R86, R107: a step in which a skein moves runs the instruction that the word at its PC decodes to. The skein is free to
issue, no boundary cause is due, and the line that holds its PC has been fetched. Time passes first, at least a clock where the
skein's core has acted at this one (log 2), and the quadrant notes its choice; what the instruction answers is the next state
where its flits meet no stair module out of service (R351, R356). -/
def Obligations.StepRunsDecoded : Prop :=
  ∀ (s : State) (sk : Nat) (k : Skein) (line : List Byte) (i : Instr) (ms : List Move),
    let t := { ((({ s with sched := ms } : State).tick (some k.core)).chose sk k) with cur := sk }
    let n := if (s.core k.core).actedAt = some s.clk then max 1 (Config.clocksOf s.free) else Config.clocksOf s.free
    let runs := (∀ u, exec i t = .next u → step s = .next (t.through u))
      ∧ ((∀ u, exec i t ≠ .next u) → step s = exec i t)
    tget s.skeins sk = some k → s.free? k = true → (k.hnd = true ∨ (k.sfInd = false ∧ k.held = [])) →
      tget k.lines (k.pc.toNat / 128) = some line → ofLeBytes (line.take 8) < 2 ^ 21 →
      (k.pc.toNat / 128, k.pc.toNat % 128) ∉ k.badWords →
      decode (wordOfBytes ((line.drop (8 + 12 * (k.pc.toNat % 128))).take 12)) = .ok i →
        (t.clk = s.clk + n ∧ t.gt = s.gt + Config.nsOf s.free ∧ t.free = s.free + 1 ∧ t.skeins = s.skeins ∧ t.mem = s.mem
          ∧ t.pending = s.pending)
        ∧ (s.sched = .now sk :: ms → runs)
        ∧ (s.sched = .issue sk :: ms → s.wins sk k = true → runs)
        ∧ (s.sched = [] → ms = [] → s.pending = [] → s.pick = some sk → runs)

/-- A step never refuses, and it stops only where an instruction word without a skein is put to it, which no step of a
machine does that begins without one under way. -/
def Obligations.StepAnswersNext : Prop :=
  ∀ s : State, (∃ t, step s = .next t) ∨ (step s = .fault (.noSkein s.cur) ∧ tget s.skeins s.cur = none)

/-- The model's canonical form of memory (log 4): whatever a step does, bytes of memory that hold 0 are not listed, and the
listed ones stand in rising order of address. -/
def Obligations.MemoryCanonical : Prop := ∀ s t : State, s.memWf = true → step s = .next t → t.memWf = true

/-- R10, R36, R37, R299, R348, R377, R399, R411, R414: what reset leaves. Memory lists nothing, every context is FREE, no
block, skein or record exists, and the registers hold the values that the spec gives for reset. -/
def Obligations.ResetState : Prop :=
  let s := State.reset
  s.memWf = true ∧ s.mem = [] ∧ s.skeins = [] ∧ s.blocks = [] ∧ s.grids = [] ∧ s.ports = [] ∧ s.pending = []
  ∧ (∀ c, (s.ctx c).state = .free ∧ (s.ctx c).lease = 10 ∧ (s.ctx c).ltick = 256 ∧ (s.ctx c).quantum = 1000
      ∧ (s.ctx c).meter = [] ∧ (s.ctx c).linkwatch = 0)
  ∧ (∀ k, (s.core k).lclk = 0 ∧ (s.core k).refill = 0x04000000 ∧ (s.core k).allow = 0x10000000 ∧ (s.core k).l1 = [])
  ∧ (∀ m, (s.stair m).code = 0 ∧ (s.stair m).limit = 4096 ∧ (s.stair m).state = 0)
  ∧ s.pkg.tjmax = 105 ∧ s.pkg.watts = 2400 ∧ s.pkg.bringUp = 0 ∧ s.pkg.xmssIdx = 0
end

