-- ==== Sys2Proof/Laws/Tables.lean ====
section
/-! SUPPORT. Laws of tables, of memory in its canonical form, and of lane masks: read after write, a write leaves every
other place alone, and every memory operation keeps the canonical form. -/

namespace Sys2Proof.Machine

/-! ## Tables -/

@[simp] theorem tget_nil {α : Type} (i : Nat) : tget ([] : Tbl α) i = none := rfl

theorem tget_tput {α : Type} (t : Tbl α) (i j : Nat) (x : α) :
    tget (tput t i x) j = if i = j then some x else tget t j := by
  induction t with
  | nil => simp [tput, tget]
  | cons p t ih =>
    obtain ⟨k, v⟩ := p
    simp only [tput]
    split
    · subst_vars; by_cases h : k = j <;> simp [tget, h]
    · split
      · simp [tget]
      · simp only [tget, ih]; by_cases h : k = j <;> by_cases h' : i = j <;> simp_all

@[simp] theorem tget_tput_same {α : Type} (t : Tbl α) (i : Nat) (x : α) : tget (tput t i x) i = some x := by
  simp [tget_tput]

theorem tget_tput_other {α : Type} (t : Tbl α) {i j : Nat} (x : α) (h : i ≠ j) : tget (tput t i x) j = tget t j := by
  simp [tget_tput, h]

theorem tget_tdel {α : Type} (t : Tbl α) (i j : Nat) : tget (tdel t i) j = if i = j then none else tget t j := by
  induction t with
  | nil => simp [tdel, tget]
  | cons p t ih =>
    obtain ⟨k, v⟩ := p
    simp only [tdel]
    split
    · subst_vars; rw [ih]; by_cases h : k = j <;> simp [tget, h]
    · simp only [tget, ih]; by_cases h : k = j <;> by_cases h' : i = j <;> simp_all

theorem tget_tmod {α : Type} (t : Tbl α) (i j : Nat) (f : α → α) :
    tget (tmod t i f) j = if i = j then (tget t j).map f else tget t j := by
  unfold tmod
  by_cases h : i = j
  · subst h; cases e : tget t i <;> simp [e]
  · cases e : tget t i <;> simp [h, tget_tput]

@[simp] theorem tget_tmod_same {α : Type} (t : Tbl α) (i : Nat) (f : α → α) :
    tget (tmod t i f) i = (tget t i).map f := by simp [tget_tmod]

theorem tget_tmod_other {α : Type} (t : Tbl α) {i j : Nat} (f : α → α) (h : i ≠ j) :
    tget (tmod t i f) j = tget t j := by simp [tget_tmod, h]

/-! ## Memory: read after write -/

/-- In a canonical memory an address below every listed one reads 0. -/
theorem Mem.get_below (m : Memory) (lo a : Nat) (h : Mem.wfFrom lo m = true) (ha : a < lo) : Mem.get m a = 0 := by
  induction m generalizing lo with
  | nil => rfl
  | cons p m ih =>
    obtain ⟨k, v⟩ := p
    simp only [Mem.wfFrom, Bool.and_eq_true, decide_eq_true_eq] at h
    have : k ≠ a := by omega
    simp only [Mem.get, this, if_false]
    exact ih (k + 1) h.2 (by omega)

theorem Mem.get_filter (m : Memory) (a x : Nat) :
    Mem.get (m.filter fun c => c.1 != a) x = if a = x then 0 else Mem.get m x := by
  induction m with
  | nil => simp [Mem.get]
  | cons p m ih =>
    obtain ⟨k, v⟩ := p
    by_cases hk : k = a
    · subst hk
      have : (((k, v) :: m).filter fun c => c.1 != k) = m.filter fun c => c.1 != k := by simp
      rw [this, ih, Mem.get]
      by_cases hx : k = x <;> simp [hx]
    · have : (((k, v) :: m).filter fun c => c.1 != a) = (k, v) :: m.filter fun c => c.1 != a := by simp [hk]
      rw [this, Mem.get, Mem.get, ih]
      by_cases hx : k = x
      · subst hx; simp [Ne.symm hk]
      · simp [hx]

/-- A byte read after a write: the value written at its address, the old value elsewhere. -/
theorem Mem.get_put (m : Memory) (a : Nat) (b : Byte) (x : Nat) :
    Mem.get (Mem.put m a b) x = if a = x then b else Mem.get m x := by
  induction m with
  | nil => by_cases hb : b = 0#8 <;> by_cases hx : a = x <;> simp [Mem.put, Mem.get, hb, hx]
  | cons p m ih =>
    obtain ⟨k, v⟩ := p
    rw [Mem.put]
    split
    · rename_i hb; subst hb; exact Mem.get_filter _ a x
    · split
      · rename_i hk; subst hk; rw [Mem.get, Mem.get]; split <;> rfl
      · rename_i hk
        split
        · rw [Mem.get]
        · rw [Mem.get, Mem.get, ih]
          by_cases hx : k = x
          · subst hx; simp [Ne.symm hk]
          · simp [hx]

/-! ## Memory: the canonical form is kept -/

theorem Mem.wfFrom_mono (m : Memory) (lo lo' : Nat) (h : Mem.wfFrom lo m = true) (hl : lo' ≤ lo) :
    Mem.wfFrom lo' m = true := by
  cases m with
  | nil => rfl
  | cons p m =>
    simp only [Mem.wfFrom, Bool.and_eq_true, decide_eq_true_eq] at h ⊢
    exact ⟨⟨by omega, h.1.2⟩, h.2⟩

theorem Mem.filter_wfFrom (m : Memory) (lo : Nat) (p : Nat × Byte → Bool) (h : Mem.wfFrom lo m = true) :
    Mem.wfFrom lo (m.filter p) = true := by
  induction m generalizing lo with
  | nil => rfl
  | cons c m ih =>
    obtain ⟨k, v⟩ := c
    simp only [Mem.wfFrom, Bool.and_eq_true, decide_eq_true_eq] at h
    by_cases hp : p (k, v) = true
    · have hv : v ≠ 0#8 := by simpa using h.1.2
      simp [hp, Mem.wfFrom, h.1.1, hv, ih (k + 1) h.2]
    · simpa [hp] using Mem.wfFrom_mono _ _ lo (ih (k + 1) h.2) (by omega)

theorem Mem.put_wfFrom (m : Memory) (lo a : Nat) (b : Byte) (h : Mem.wfFrom lo m = true) (hl : lo ≤ a) :
    Mem.wfFrom lo (Mem.put m a b) = true := by
  induction m generalizing lo with
  | nil => by_cases hb : b = 0#8 <;> simp [Mem.put, hb, Mem.wfFrom, hl]
  | cons p m ih =>
    obtain ⟨k, v⟩ := p
    rw [Mem.put]
    split
    · exact Mem.filter_wfFrom _ lo _ h
    · rename_i hb
      have hb : b ≠ 0#8 := hb
      simp only [Mem.wfFrom, Bool.and_eq_true, decide_eq_true_eq] at h
      have hv : v ≠ 0#8 := by simpa using h.1.2
      split
      · rename_i hk; subst hk; simp [hb, Mem.wfFrom, hl, h.2]
      · split
        · have : a + 1 ≤ k := by omega
          simp [hb, Mem.wfFrom, hl, this, hv, h.2]
        · simp [Mem.wfFrom, h.1.1, hv, ih (k + 1) h.2 (by omega)]

/-- A byte written keeps the canonical form. -/
theorem Mem.put_wf (m : Memory) (a : Nat) (b : Byte) (h : Mem.wf m = true) : Mem.wf (Mem.put m a b) = true :=
  Mem.put_wfFrom m 0 a b h (Nat.zero_le a)

/-- Bytes written from an address on keep the canonical form. -/
theorem Mem.write_wf (m : Memory) (a : Nat) (bs : List Byte) (h : Mem.wf m = true) : Mem.wf (Mem.write m a bs) = true := by
  induction bs generalizing m a with
  | nil => exact h
  | cons b bs ih => exact ih _ _ (Mem.put_wf m a b h)

/-- Bytes written each at its own address keep the canonical form. -/
theorem Mem.writeCells_wf (m : Memory) (cs : List (Nat × Byte)) (h : Mem.wf m = true) :
    Mem.wf (Mem.writeCells m cs) = true := by
  induction cs generalizing m with
  | nil => exact h
  | cons c cs ih => exact ih _ (Mem.put_wf m c.1 c.2 h)

/-- Cells left out keep the canonical form. -/
theorem Mem.filter_wf (m : Memory) (p : Nat × Byte → Bool) (h : Mem.wf m = true) : Mem.wf (m.filter p) = true :=
  Mem.filter_wfFrom m 0 p h

/-- Two canonical memories that read alike are equal. -/
theorem Mem.ext_from (m n : Memory) (lo : Nat) (hm : Mem.wfFrom lo m = true) (hn : Mem.wfFrom lo n = true)
    (h : ∀ a, Mem.get m a = Mem.get n a) : m = n := by
  induction m generalizing n lo with
  | nil =>
    cases n with
    | nil => rfl
    | cons q n =>
      have := h q.1
      simp only [Mem.wfFrom, Bool.and_eq_true] at hn
      simp_all [Mem.get]
  | cons p m ih =>
    obtain ⟨k, v⟩ := p
    have hm' := hm
    simp only [Mem.wfFrom, Bool.and_eq_true, decide_eq_true_eq] at hm
    have hv : v ≠ 0#8 := by simpa using hm.1.2
    cases n with
    | nil => have := h k; simp [Mem.get] at this; exact absurd this hv
    | cons q n =>
      obtain ⟨j, w⟩ := q
      have hn' := hn
      simp only [Mem.wfFrom, Bool.and_eq_true, decide_eq_true_eq] at hn
      have hw : w ≠ 0#8 := by simpa using hn.1.2
      have hjk : k = j := by
        rcases Nat.lt_trichotomy k j with hlt | heq | hgt
        · have := h k
          rw [Mem.get_below ((j, w) :: n) j k (by simp [Mem.wfFrom, hw, hn.2]) hlt] at this
          simp [Mem.get] at this; exact absurd this hv
        · exact heq
        · have := h j
          rw [Mem.get_below ((k, v) :: m) k j (by simp [Mem.wfFrom, hv, hm.2]) hgt] at this
          simp [Mem.get] at this; exact absurd this.symm hw
      subst hjk
      have hvw : v = w := by simpa [Mem.get] using h k
      subst hvw
      rw [ih n (k + 1) hm.2 hn.2]
      intro a
      by_cases ha : k = a
      · subst ha
        rw [Mem.get_below m (k + 1) k hm.2 (by omega), Mem.get_below n (k + 1) k hn.2 (by omega)]
      · simpa [Mem.get, ha] using h a

/-- A write of bytes leaves every address outside its range alone. -/
theorem Mem.get_write_outside (m : Memory) (a : Nat) (bs : List Byte) (x : Nat)
    (h : x < a ∨ a + bs.length ≤ x) : Mem.get (Mem.write m a bs) x = Mem.get m x := by
  induction bs generalizing m a with
  | nil => rfl
  | cons b bs ih =>
    simp only [List.length_cons] at h
    rw [Mem.write, ih _ _ (by omega), Mem.get_put m a b x, if_neg (by omega)]

/-- A write of bytes is read back. -/
theorem Mem.get_write_inside (m : Memory) (a : Nat) (bs : List Byte) (i : Nat)
    (h : i < bs.length) : Mem.get (Mem.write m a bs) (a + i) = bs[i] := by
  induction bs generalizing m a i with
  | nil => simp at h
  | cons b bs ih =>
    rw [Mem.write]
    cases i with
    | zero =>
      rw [Mem.get_write_outside _ _ _ _ (by omega), Mem.get_put m a b _]; simp
    | succ i =>
      have := ih (Mem.put m a b) (a + 1) i (by simpa using h)
      rw [← Nat.add_assoc, Nat.add_right_comm]; simpa using this

/-- Cells written leave every address that none of them names alone. -/
theorem Mem.get_writeCells_outside (m : Memory) (cs : List (Nat × Byte)) (x : Nat)
    (h : x ∉ cs.map Prod.fst) : Mem.get (Mem.writeCells m cs) x = Mem.get m x := by
  induction cs generalizing m with
  | nil => rfl
  | cons c cs ih =>
    simp only [List.map_cons, List.mem_cons, not_or] at h
    rw [Mem.writeCells, ih _ h.2, Mem.get_put m c.1 c.2 x, if_neg (Ne.symm h.1)]

/-! ## Lane masks -/

theorem Mask.has_ofFn_aux (p : Nat → Bool) (ls : List Nat) (m : Mask) (l : Nat) :
    Mask.has (ls.foldl (fun m j => if p j then m ||| (1#64 <<< j) else m) m) l
      = (Mask.has m l || decide (l < 64) && decide (l ∈ ls) && p l) := by
  induction ls generalizing m with
  | nil => simp
  | cons j ls ih =>
    rw [List.foldl_cons, ih]
    have one : (1#64 <<< j).getLsbD l = (decide (l < 64) && decide (l = j)) := by
      rw [BitVec.getLsbD_shiftLeft]
      by_cases hl : l < 64 <;> by_cases hj : l < j <;> by_cases he : l = j <;> simp [hl, hj, he, BitVec.getLsbD_one]
      all_goals omega
    by_cases hp : p j = true
    · simp only [hp, if_true, Mask.has, BitVec.getLsbD_or, one, List.mem_cons]
      by_cases he : l = j
      · subst he; by_cases hl : l < 64 <;> simp [hp, hl]
      · simp [he]
    · simp only [hp, List.mem_cons]
      by_cases he : l = j
      · subst he; simp [hp]
      · simp [he]

/-- Bit l of a mask given by a test on lanes. -/
theorem Mask.has_ofFn (w : Nat) (p : Nat → Bool) (l : Nat) :
    Mask.has (Mask.ofFn w p) l = (decide (l < 64) && decide (l < w) && p l) := by
  rw [Mask.ofFn, Mask.has_ofFn_aux]; simp [Mask.has]

theorem Mask.mem_lanes (m : Mask) (w l : Nat) : l ∈ Mask.lanes m w ↔ l < w ∧ Mask.has m l = true := by
  simp [Mask.lanes]

end Sys2Proof.Machine
end

