-- ==== Sys2Proof/Laws/State.lean ====
section
/-! SUPPORT. What each named update of the state does to each field of the state, by `rfl`, so that no proof unfolds a record
update; and what reading a part back gives. -/

namespace Sys2Proof.Machine

/-! ### State.setCtx -/

@[simp] theorem State.setCtx_shut (s : State) (i : Nat) (x : Context) : (s.setCtx i x).shut = s.shut := rfl
@[simp] theorem State.setCtx_cur (s : State) (i : Nat) (x : Context) : (s.setCtx i x).cur = s.cur := rfl
@[simp] theorem State.setCtx_sched (s : State) (i : Nat) (x : Context) : (s.setCtx i x).sched = s.sched := rfl
@[simp] theorem State.setCtx_pending (s : State) (i : Nat) (x : Context) : (s.setCtx i x).pending = s.pending := rfl
@[simp] theorem State.setCtx_free (s : State) (i : Nat) (x : Context) : (s.setCtx i x).free = s.free := rfl
@[simp] theorem State.setCtx_nextId (s : State) (i : Nat) (x : Context) : (s.setCtx i x).nextId = s.nextId := rfl
@[simp] theorem State.setCtx_out (s : State) (i : Nat) (x : Context) : (s.setCtx i x).out = s.out := rfl
@[simp] theorem State.setCtx_clk (s : State) (i : Nat) (x : Context) : (s.setCtx i x).clk = s.clk := rfl
@[simp] theorem State.setCtx_gt (s : State) (i : Nat) (x : Context) : (s.setCtx i x).gt = s.gt := rfl
@[simp] theorem State.setCtx_mem (s : State) (i : Nat) (x : Context) : (s.setCtx i x).mem = s.mem := rfl
@[simp] theorem State.setCtx_memPoison (s : State) (i : Nat) (x : Context) : (s.setCtx i x).memPoison = s.memPoison := rfl
@[simp] theorem State.setCtx_lines (s : State) (i : Nat) (x : Context) : (s.setCtx i x).lines = s.lines := rfl
@[simp] theorem State.setCtx_mergeDir (s : State) (i : Nat) (x : Context) : (s.setCtx i x).mergeDir = s.mergeDir := rfl
@[simp] theorem State.setCtx_slices (s : State) (i : Nat) (x : Context) : (s.setCtx i x).slices = s.slices := rfl
@[simp] theorem State.setCtx_pkg (s : State) (i : Nat) (x : Context) : (s.setCtx i x).pkg = s.pkg := rfl
@[simp] theorem State.setCtx_dies (s : State) (i : Nat) (x : Context) : (s.setCtx i x).dies = s.dies := rfl
@[simp] theorem State.setCtx_cores (s : State) (i : Nat) (x : Context) : (s.setCtx i x).cores = s.cores := rfl
@[simp] theorem State.setCtx_ctxs (s : State) (i : Nat) (x : Context) : (s.setCtx i x).ctxs = tput s.ctxs i x := rfl
@[simp] theorem State.setCtx_ports (s : State) (i : Nat) (x : Context) : (s.setCtx i x).ports = s.ports := rfl
@[simp] theorem State.setCtx_grids (s : State) (i : Nat) (x : Context) : (s.setCtx i x).grids = s.grids := rfl
@[simp] theorem State.setCtx_blocks (s : State) (i : Nat) (x : Context) : (s.setCtx i x).blocks = s.blocks := rfl
@[simp] theorem State.setCtx_skeins (s : State) (i : Nat) (x : Context) : (s.setCtx i x).skeins = s.skeins := rfl
@[simp] theorem State.setCtx_stairs (s : State) (i : Nat) (x : Context) : (s.setCtx i x).stairs = s.stairs := rfl
@[simp] theorem State.setCtx_ual (s : State) (i : Nat) (x : Context) : (s.setCtx i x).ual = s.ual := rfl
@[simp] theorem State.setCtx_colls (s : State) (i : Nat) (x : Context) : (s.setCtx i x).colls = s.colls := rfl
@[simp] theorem State.setCtx_saved (s : State) (i : Nat) (x : Context) : (s.setCtx i x).saved = s.saved := rfl
@[simp] theorem State.setCtx_savedC (s : State) (i : Nat) (x : Context) : (s.setCtx i x).savedC = s.savedC := rfl

/-! ### State.setCore -/

@[simp] theorem State.setCore_shut (s : State) (i : Nat) (x : CoreSt) : (s.setCore i x).shut = s.shut := rfl
@[simp] theorem State.setCore_cur (s : State) (i : Nat) (x : CoreSt) : (s.setCore i x).cur = s.cur := rfl
@[simp] theorem State.setCore_sched (s : State) (i : Nat) (x : CoreSt) : (s.setCore i x).sched = s.sched := rfl
@[simp] theorem State.setCore_pending (s : State) (i : Nat) (x : CoreSt) : (s.setCore i x).pending = s.pending := rfl
@[simp] theorem State.setCore_free (s : State) (i : Nat) (x : CoreSt) : (s.setCore i x).free = s.free := rfl
@[simp] theorem State.setCore_nextId (s : State) (i : Nat) (x : CoreSt) : (s.setCore i x).nextId = s.nextId := rfl
@[simp] theorem State.setCore_out (s : State) (i : Nat) (x : CoreSt) : (s.setCore i x).out = s.out := rfl
@[simp] theorem State.setCore_clk (s : State) (i : Nat) (x : CoreSt) : (s.setCore i x).clk = s.clk := rfl
@[simp] theorem State.setCore_gt (s : State) (i : Nat) (x : CoreSt) : (s.setCore i x).gt = s.gt := rfl
@[simp] theorem State.setCore_mem (s : State) (i : Nat) (x : CoreSt) : (s.setCore i x).mem = s.mem := rfl
@[simp] theorem State.setCore_memPoison (s : State) (i : Nat) (x : CoreSt) : (s.setCore i x).memPoison = s.memPoison := rfl
@[simp] theorem State.setCore_lines (s : State) (i : Nat) (x : CoreSt) : (s.setCore i x).lines = s.lines := rfl
@[simp] theorem State.setCore_mergeDir (s : State) (i : Nat) (x : CoreSt) : (s.setCore i x).mergeDir = s.mergeDir := rfl
@[simp] theorem State.setCore_slices (s : State) (i : Nat) (x : CoreSt) : (s.setCore i x).slices = s.slices := rfl
@[simp] theorem State.setCore_pkg (s : State) (i : Nat) (x : CoreSt) : (s.setCore i x).pkg = s.pkg := rfl
@[simp] theorem State.setCore_dies (s : State) (i : Nat) (x : CoreSt) : (s.setCore i x).dies = s.dies := rfl
@[simp] theorem State.setCore_cores (s : State) (i : Nat) (x : CoreSt) : (s.setCore i x).cores = tput s.cores i x := rfl
@[simp] theorem State.setCore_ctxs (s : State) (i : Nat) (x : CoreSt) : (s.setCore i x).ctxs = s.ctxs := rfl
@[simp] theorem State.setCore_ports (s : State) (i : Nat) (x : CoreSt) : (s.setCore i x).ports = s.ports := rfl
@[simp] theorem State.setCore_grids (s : State) (i : Nat) (x : CoreSt) : (s.setCore i x).grids = s.grids := rfl
@[simp] theorem State.setCore_blocks (s : State) (i : Nat) (x : CoreSt) : (s.setCore i x).blocks = s.blocks := rfl
@[simp] theorem State.setCore_skeins (s : State) (i : Nat) (x : CoreSt) : (s.setCore i x).skeins = s.skeins := rfl
@[simp] theorem State.setCore_stairs (s : State) (i : Nat) (x : CoreSt) : (s.setCore i x).stairs = s.stairs := rfl
@[simp] theorem State.setCore_ual (s : State) (i : Nat) (x : CoreSt) : (s.setCore i x).ual = s.ual := rfl
@[simp] theorem State.setCore_colls (s : State) (i : Nat) (x : CoreSt) : (s.setCore i x).colls = s.colls := rfl
@[simp] theorem State.setCore_saved (s : State) (i : Nat) (x : CoreSt) : (s.setCore i x).saved = s.saved := rfl
@[simp] theorem State.setCore_savedC (s : State) (i : Nat) (x : CoreSt) : (s.setCore i x).savedC = s.savedC := rfl

/-! ### State.setDie -/

@[simp] theorem State.setDie_shut (s : State) (i : Nat) (x : Die) : (s.setDie i x).shut = s.shut := rfl
@[simp] theorem State.setDie_cur (s : State) (i : Nat) (x : Die) : (s.setDie i x).cur = s.cur := rfl
@[simp] theorem State.setDie_sched (s : State) (i : Nat) (x : Die) : (s.setDie i x).sched = s.sched := rfl
@[simp] theorem State.setDie_pending (s : State) (i : Nat) (x : Die) : (s.setDie i x).pending = s.pending := rfl
@[simp] theorem State.setDie_free (s : State) (i : Nat) (x : Die) : (s.setDie i x).free = s.free := rfl
@[simp] theorem State.setDie_nextId (s : State) (i : Nat) (x : Die) : (s.setDie i x).nextId = s.nextId := rfl
@[simp] theorem State.setDie_out (s : State) (i : Nat) (x : Die) : (s.setDie i x).out = s.out := rfl
@[simp] theorem State.setDie_clk (s : State) (i : Nat) (x : Die) : (s.setDie i x).clk = s.clk := rfl
@[simp] theorem State.setDie_gt (s : State) (i : Nat) (x : Die) : (s.setDie i x).gt = s.gt := rfl
@[simp] theorem State.setDie_mem (s : State) (i : Nat) (x : Die) : (s.setDie i x).mem = s.mem := rfl
@[simp] theorem State.setDie_memPoison (s : State) (i : Nat) (x : Die) : (s.setDie i x).memPoison = s.memPoison := rfl
@[simp] theorem State.setDie_lines (s : State) (i : Nat) (x : Die) : (s.setDie i x).lines = s.lines := rfl
@[simp] theorem State.setDie_mergeDir (s : State) (i : Nat) (x : Die) : (s.setDie i x).mergeDir = s.mergeDir := rfl
@[simp] theorem State.setDie_slices (s : State) (i : Nat) (x : Die) : (s.setDie i x).slices = s.slices := rfl
@[simp] theorem State.setDie_pkg (s : State) (i : Nat) (x : Die) : (s.setDie i x).pkg = s.pkg := rfl
@[simp] theorem State.setDie_dies (s : State) (i : Nat) (x : Die) : (s.setDie i x).dies = tput s.dies i x := rfl
@[simp] theorem State.setDie_cores (s : State) (i : Nat) (x : Die) : (s.setDie i x).cores = s.cores := rfl
@[simp] theorem State.setDie_ctxs (s : State) (i : Nat) (x : Die) : (s.setDie i x).ctxs = s.ctxs := rfl
@[simp] theorem State.setDie_ports (s : State) (i : Nat) (x : Die) : (s.setDie i x).ports = s.ports := rfl
@[simp] theorem State.setDie_grids (s : State) (i : Nat) (x : Die) : (s.setDie i x).grids = s.grids := rfl
@[simp] theorem State.setDie_blocks (s : State) (i : Nat) (x : Die) : (s.setDie i x).blocks = s.blocks := rfl
@[simp] theorem State.setDie_skeins (s : State) (i : Nat) (x : Die) : (s.setDie i x).skeins = s.skeins := rfl
@[simp] theorem State.setDie_stairs (s : State) (i : Nat) (x : Die) : (s.setDie i x).stairs = s.stairs := rfl
@[simp] theorem State.setDie_ual (s : State) (i : Nat) (x : Die) : (s.setDie i x).ual = s.ual := rfl
@[simp] theorem State.setDie_colls (s : State) (i : Nat) (x : Die) : (s.setDie i x).colls = s.colls := rfl
@[simp] theorem State.setDie_saved (s : State) (i : Nat) (x : Die) : (s.setDie i x).saved = s.saved := rfl
@[simp] theorem State.setDie_savedC (s : State) (i : Nat) (x : Die) : (s.setDie i x).savedC = s.savedC := rfl

/-! ### State.setSlice -/

@[simp] theorem State.setSlice_shut (s : State) (i : Nat) (x : Slice) : (s.setSlice i x).shut = s.shut := rfl
@[simp] theorem State.setSlice_cur (s : State) (i : Nat) (x : Slice) : (s.setSlice i x).cur = s.cur := rfl
@[simp] theorem State.setSlice_sched (s : State) (i : Nat) (x : Slice) : (s.setSlice i x).sched = s.sched := rfl
@[simp] theorem State.setSlice_pending (s : State) (i : Nat) (x : Slice) : (s.setSlice i x).pending = s.pending := rfl
@[simp] theorem State.setSlice_free (s : State) (i : Nat) (x : Slice) : (s.setSlice i x).free = s.free := rfl
@[simp] theorem State.setSlice_nextId (s : State) (i : Nat) (x : Slice) : (s.setSlice i x).nextId = s.nextId := rfl
@[simp] theorem State.setSlice_out (s : State) (i : Nat) (x : Slice) : (s.setSlice i x).out = s.out := rfl
@[simp] theorem State.setSlice_clk (s : State) (i : Nat) (x : Slice) : (s.setSlice i x).clk = s.clk := rfl
@[simp] theorem State.setSlice_gt (s : State) (i : Nat) (x : Slice) : (s.setSlice i x).gt = s.gt := rfl
@[simp] theorem State.setSlice_mem (s : State) (i : Nat) (x : Slice) : (s.setSlice i x).mem = s.mem := rfl
@[simp] theorem State.setSlice_memPoison (s : State) (i : Nat) (x : Slice) : (s.setSlice i x).memPoison = s.memPoison := rfl
@[simp] theorem State.setSlice_lines (s : State) (i : Nat) (x : Slice) : (s.setSlice i x).lines = s.lines := rfl
@[simp] theorem State.setSlice_mergeDir (s : State) (i : Nat) (x : Slice) : (s.setSlice i x).mergeDir = s.mergeDir := rfl
@[simp] theorem State.setSlice_slices (s : State) (i : Nat) (x : Slice) : (s.setSlice i x).slices = tput s.slices i x := rfl
@[simp] theorem State.setSlice_pkg (s : State) (i : Nat) (x : Slice) : (s.setSlice i x).pkg = s.pkg := rfl
@[simp] theorem State.setSlice_dies (s : State) (i : Nat) (x : Slice) : (s.setSlice i x).dies = s.dies := rfl
@[simp] theorem State.setSlice_cores (s : State) (i : Nat) (x : Slice) : (s.setSlice i x).cores = s.cores := rfl
@[simp] theorem State.setSlice_ctxs (s : State) (i : Nat) (x : Slice) : (s.setSlice i x).ctxs = s.ctxs := rfl
@[simp] theorem State.setSlice_ports (s : State) (i : Nat) (x : Slice) : (s.setSlice i x).ports = s.ports := rfl
@[simp] theorem State.setSlice_grids (s : State) (i : Nat) (x : Slice) : (s.setSlice i x).grids = s.grids := rfl
@[simp] theorem State.setSlice_blocks (s : State) (i : Nat) (x : Slice) : (s.setSlice i x).blocks = s.blocks := rfl
@[simp] theorem State.setSlice_skeins (s : State) (i : Nat) (x : Slice) : (s.setSlice i x).skeins = s.skeins := rfl
@[simp] theorem State.setSlice_stairs (s : State) (i : Nat) (x : Slice) : (s.setSlice i x).stairs = s.stairs := rfl
@[simp] theorem State.setSlice_ual (s : State) (i : Nat) (x : Slice) : (s.setSlice i x).ual = s.ual := rfl
@[simp] theorem State.setSlice_colls (s : State) (i : Nat) (x : Slice) : (s.setSlice i x).colls = s.colls := rfl
@[simp] theorem State.setSlice_saved (s : State) (i : Nat) (x : Slice) : (s.setSlice i x).saved = s.saved := rfl
@[simp] theorem State.setSlice_savedC (s : State) (i : Nat) (x : Slice) : (s.setSlice i x).savedC = s.savedC := rfl

/-! ### State.setStair -/

@[simp] theorem State.setStair_shut (s : State) (i : Nat) (x : Stair) : (s.setStair i x).shut = s.shut := rfl
@[simp] theorem State.setStair_cur (s : State) (i : Nat) (x : Stair) : (s.setStair i x).cur = s.cur := rfl
@[simp] theorem State.setStair_sched (s : State) (i : Nat) (x : Stair) : (s.setStair i x).sched = s.sched := rfl
@[simp] theorem State.setStair_pending (s : State) (i : Nat) (x : Stair) : (s.setStair i x).pending = s.pending := rfl
@[simp] theorem State.setStair_free (s : State) (i : Nat) (x : Stair) : (s.setStair i x).free = s.free := rfl
@[simp] theorem State.setStair_nextId (s : State) (i : Nat) (x : Stair) : (s.setStair i x).nextId = s.nextId := rfl
@[simp] theorem State.setStair_out (s : State) (i : Nat) (x : Stair) : (s.setStair i x).out = s.out := rfl
@[simp] theorem State.setStair_clk (s : State) (i : Nat) (x : Stair) : (s.setStair i x).clk = s.clk := rfl
@[simp] theorem State.setStair_gt (s : State) (i : Nat) (x : Stair) : (s.setStair i x).gt = s.gt := rfl
@[simp] theorem State.setStair_mem (s : State) (i : Nat) (x : Stair) : (s.setStair i x).mem = s.mem := rfl
@[simp] theorem State.setStair_memPoison (s : State) (i : Nat) (x : Stair) : (s.setStair i x).memPoison = s.memPoison := rfl
@[simp] theorem State.setStair_lines (s : State) (i : Nat) (x : Stair) : (s.setStair i x).lines = s.lines := rfl
@[simp] theorem State.setStair_mergeDir (s : State) (i : Nat) (x : Stair) : (s.setStair i x).mergeDir = s.mergeDir := rfl
@[simp] theorem State.setStair_slices (s : State) (i : Nat) (x : Stair) : (s.setStair i x).slices = s.slices := rfl
@[simp] theorem State.setStair_pkg (s : State) (i : Nat) (x : Stair) : (s.setStair i x).pkg = s.pkg := rfl
@[simp] theorem State.setStair_dies (s : State) (i : Nat) (x : Stair) : (s.setStair i x).dies = s.dies := rfl
@[simp] theorem State.setStair_cores (s : State) (i : Nat) (x : Stair) : (s.setStair i x).cores = s.cores := rfl
@[simp] theorem State.setStair_ctxs (s : State) (i : Nat) (x : Stair) : (s.setStair i x).ctxs = s.ctxs := rfl
@[simp] theorem State.setStair_ports (s : State) (i : Nat) (x : Stair) : (s.setStair i x).ports = s.ports := rfl
@[simp] theorem State.setStair_grids (s : State) (i : Nat) (x : Stair) : (s.setStair i x).grids = s.grids := rfl
@[simp] theorem State.setStair_blocks (s : State) (i : Nat) (x : Stair) : (s.setStair i x).blocks = s.blocks := rfl
@[simp] theorem State.setStair_skeins (s : State) (i : Nat) (x : Stair) : (s.setStair i x).skeins = s.skeins := rfl
@[simp] theorem State.setStair_stairs (s : State) (i : Nat) (x : Stair) : (s.setStair i x).stairs = tput s.stairs i x := rfl
@[simp] theorem State.setStair_ual (s : State) (i : Nat) (x : Stair) : (s.setStair i x).ual = s.ual := rfl
@[simp] theorem State.setStair_colls (s : State) (i : Nat) (x : Stair) : (s.setStair i x).colls = s.colls := rfl
@[simp] theorem State.setStair_saved (s : State) (i : Nat) (x : Stair) : (s.setStair i x).saved = s.saved := rfl
@[simp] theorem State.setStair_savedC (s : State) (i : Nat) (x : Stair) : (s.setStair i x).savedC = s.savedC := rfl

/-! ### State.setUal -/

@[simp] theorem State.setUal_shut (s : State) (i : Nat) (x : UalPort) : (s.setUal i x).shut = s.shut := rfl
@[simp] theorem State.setUal_cur (s : State) (i : Nat) (x : UalPort) : (s.setUal i x).cur = s.cur := rfl
@[simp] theorem State.setUal_sched (s : State) (i : Nat) (x : UalPort) : (s.setUal i x).sched = s.sched := rfl
@[simp] theorem State.setUal_pending (s : State) (i : Nat) (x : UalPort) : (s.setUal i x).pending = s.pending := rfl
@[simp] theorem State.setUal_free (s : State) (i : Nat) (x : UalPort) : (s.setUal i x).free = s.free := rfl
@[simp] theorem State.setUal_nextId (s : State) (i : Nat) (x : UalPort) : (s.setUal i x).nextId = s.nextId := rfl
@[simp] theorem State.setUal_out (s : State) (i : Nat) (x : UalPort) : (s.setUal i x).out = s.out := rfl
@[simp] theorem State.setUal_clk (s : State) (i : Nat) (x : UalPort) : (s.setUal i x).clk = s.clk := rfl
@[simp] theorem State.setUal_gt (s : State) (i : Nat) (x : UalPort) : (s.setUal i x).gt = s.gt := rfl
@[simp] theorem State.setUal_mem (s : State) (i : Nat) (x : UalPort) : (s.setUal i x).mem = s.mem := rfl
@[simp] theorem State.setUal_memPoison (s : State) (i : Nat) (x : UalPort) : (s.setUal i x).memPoison = s.memPoison := rfl
@[simp] theorem State.setUal_lines (s : State) (i : Nat) (x : UalPort) : (s.setUal i x).lines = s.lines := rfl
@[simp] theorem State.setUal_mergeDir (s : State) (i : Nat) (x : UalPort) : (s.setUal i x).mergeDir = s.mergeDir := rfl
@[simp] theorem State.setUal_slices (s : State) (i : Nat) (x : UalPort) : (s.setUal i x).slices = s.slices := rfl
@[simp] theorem State.setUal_pkg (s : State) (i : Nat) (x : UalPort) : (s.setUal i x).pkg = s.pkg := rfl
@[simp] theorem State.setUal_dies (s : State) (i : Nat) (x : UalPort) : (s.setUal i x).dies = s.dies := rfl
@[simp] theorem State.setUal_cores (s : State) (i : Nat) (x : UalPort) : (s.setUal i x).cores = s.cores := rfl
@[simp] theorem State.setUal_ctxs (s : State) (i : Nat) (x : UalPort) : (s.setUal i x).ctxs = s.ctxs := rfl
@[simp] theorem State.setUal_ports (s : State) (i : Nat) (x : UalPort) : (s.setUal i x).ports = s.ports := rfl
@[simp] theorem State.setUal_grids (s : State) (i : Nat) (x : UalPort) : (s.setUal i x).grids = s.grids := rfl
@[simp] theorem State.setUal_blocks (s : State) (i : Nat) (x : UalPort) : (s.setUal i x).blocks = s.blocks := rfl
@[simp] theorem State.setUal_skeins (s : State) (i : Nat) (x : UalPort) : (s.setUal i x).skeins = s.skeins := rfl
@[simp] theorem State.setUal_stairs (s : State) (i : Nat) (x : UalPort) : (s.setUal i x).stairs = s.stairs := rfl
@[simp] theorem State.setUal_ual (s : State) (i : Nat) (x : UalPort) : (s.setUal i x).ual = tput s.ual i x := rfl
@[simp] theorem State.setUal_colls (s : State) (i : Nat) (x : UalPort) : (s.setUal i x).colls = s.colls := rfl
@[simp] theorem State.setUal_saved (s : State) (i : Nat) (x : UalPort) : (s.setUal i x).saved = s.saved := rfl
@[simp] theorem State.setUal_savedC (s : State) (i : Nat) (x : UalPort) : (s.setUal i x).savedC = s.savedC := rfl

/-! ### State.setSkein -/

@[simp] theorem State.setSkein_shut (s : State) (i : Nat) (x : Skein) : (s.setSkein i x).shut = s.shut := rfl
@[simp] theorem State.setSkein_cur (s : State) (i : Nat) (x : Skein) : (s.setSkein i x).cur = s.cur := rfl
@[simp] theorem State.setSkein_sched (s : State) (i : Nat) (x : Skein) : (s.setSkein i x).sched = s.sched := rfl
@[simp] theorem State.setSkein_pending (s : State) (i : Nat) (x : Skein) : (s.setSkein i x).pending = s.pending := rfl
@[simp] theorem State.setSkein_free (s : State) (i : Nat) (x : Skein) : (s.setSkein i x).free = s.free := rfl
@[simp] theorem State.setSkein_nextId (s : State) (i : Nat) (x : Skein) : (s.setSkein i x).nextId = s.nextId := rfl
@[simp] theorem State.setSkein_out (s : State) (i : Nat) (x : Skein) : (s.setSkein i x).out = s.out := rfl
@[simp] theorem State.setSkein_clk (s : State) (i : Nat) (x : Skein) : (s.setSkein i x).clk = s.clk := rfl
@[simp] theorem State.setSkein_gt (s : State) (i : Nat) (x : Skein) : (s.setSkein i x).gt = s.gt := rfl
@[simp] theorem State.setSkein_mem (s : State) (i : Nat) (x : Skein) : (s.setSkein i x).mem = s.mem := rfl
@[simp] theorem State.setSkein_memPoison (s : State) (i : Nat) (x : Skein) : (s.setSkein i x).memPoison = s.memPoison := rfl
@[simp] theorem State.setSkein_lines (s : State) (i : Nat) (x : Skein) : (s.setSkein i x).lines = s.lines := rfl
@[simp] theorem State.setSkein_mergeDir (s : State) (i : Nat) (x : Skein) : (s.setSkein i x).mergeDir = s.mergeDir := rfl
@[simp] theorem State.setSkein_slices (s : State) (i : Nat) (x : Skein) : (s.setSkein i x).slices = s.slices := rfl
@[simp] theorem State.setSkein_pkg (s : State) (i : Nat) (x : Skein) : (s.setSkein i x).pkg = s.pkg := rfl
@[simp] theorem State.setSkein_dies (s : State) (i : Nat) (x : Skein) : (s.setSkein i x).dies = s.dies := rfl
@[simp] theorem State.setSkein_cores (s : State) (i : Nat) (x : Skein) : (s.setSkein i x).cores = s.cores := rfl
@[simp] theorem State.setSkein_ctxs (s : State) (i : Nat) (x : Skein) : (s.setSkein i x).ctxs = s.ctxs := rfl
@[simp] theorem State.setSkein_ports (s : State) (i : Nat) (x : Skein) : (s.setSkein i x).ports = s.ports := rfl
@[simp] theorem State.setSkein_grids (s : State) (i : Nat) (x : Skein) : (s.setSkein i x).grids = s.grids := rfl
@[simp] theorem State.setSkein_blocks (s : State) (i : Nat) (x : Skein) : (s.setSkein i x).blocks = s.blocks := rfl
@[simp] theorem State.setSkein_skeins (s : State) (i : Nat) (x : Skein) : (s.setSkein i x).skeins = tput s.skeins i x := rfl
@[simp] theorem State.setSkein_stairs (s : State) (i : Nat) (x : Skein) : (s.setSkein i x).stairs = s.stairs := rfl
@[simp] theorem State.setSkein_ual (s : State) (i : Nat) (x : Skein) : (s.setSkein i x).ual = s.ual := rfl
@[simp] theorem State.setSkein_colls (s : State) (i : Nat) (x : Skein) : (s.setSkein i x).colls = s.colls := rfl
@[simp] theorem State.setSkein_saved (s : State) (i : Nat) (x : Skein) : (s.setSkein i x).saved = s.saved := rfl
@[simp] theorem State.setSkein_savedC (s : State) (i : Nat) (x : Skein) : (s.setSkein i x).savedC = s.savedC := rfl

/-! ### State.setBlock -/

@[simp] theorem State.setBlock_shut (s : State) (i : Nat) (x : Block) : (s.setBlock i x).shut = s.shut := rfl
@[simp] theorem State.setBlock_cur (s : State) (i : Nat) (x : Block) : (s.setBlock i x).cur = s.cur := rfl
@[simp] theorem State.setBlock_sched (s : State) (i : Nat) (x : Block) : (s.setBlock i x).sched = s.sched := rfl
@[simp] theorem State.setBlock_pending (s : State) (i : Nat) (x : Block) : (s.setBlock i x).pending = s.pending := rfl
@[simp] theorem State.setBlock_free (s : State) (i : Nat) (x : Block) : (s.setBlock i x).free = s.free := rfl
@[simp] theorem State.setBlock_nextId (s : State) (i : Nat) (x : Block) : (s.setBlock i x).nextId = s.nextId := rfl
@[simp] theorem State.setBlock_out (s : State) (i : Nat) (x : Block) : (s.setBlock i x).out = s.out := rfl
@[simp] theorem State.setBlock_clk (s : State) (i : Nat) (x : Block) : (s.setBlock i x).clk = s.clk := rfl
@[simp] theorem State.setBlock_gt (s : State) (i : Nat) (x : Block) : (s.setBlock i x).gt = s.gt := rfl
@[simp] theorem State.setBlock_mem (s : State) (i : Nat) (x : Block) : (s.setBlock i x).mem = s.mem := rfl
@[simp] theorem State.setBlock_memPoison (s : State) (i : Nat) (x : Block) : (s.setBlock i x).memPoison = s.memPoison := rfl
@[simp] theorem State.setBlock_lines (s : State) (i : Nat) (x : Block) : (s.setBlock i x).lines = s.lines := rfl
@[simp] theorem State.setBlock_mergeDir (s : State) (i : Nat) (x : Block) : (s.setBlock i x).mergeDir = s.mergeDir := rfl
@[simp] theorem State.setBlock_slices (s : State) (i : Nat) (x : Block) : (s.setBlock i x).slices = s.slices := rfl
@[simp] theorem State.setBlock_pkg (s : State) (i : Nat) (x : Block) : (s.setBlock i x).pkg = s.pkg := rfl
@[simp] theorem State.setBlock_dies (s : State) (i : Nat) (x : Block) : (s.setBlock i x).dies = s.dies := rfl
@[simp] theorem State.setBlock_cores (s : State) (i : Nat) (x : Block) : (s.setBlock i x).cores = s.cores := rfl
@[simp] theorem State.setBlock_ctxs (s : State) (i : Nat) (x : Block) : (s.setBlock i x).ctxs = s.ctxs := rfl
@[simp] theorem State.setBlock_ports (s : State) (i : Nat) (x : Block) : (s.setBlock i x).ports = s.ports := rfl
@[simp] theorem State.setBlock_grids (s : State) (i : Nat) (x : Block) : (s.setBlock i x).grids = s.grids := rfl
@[simp] theorem State.setBlock_blocks (s : State) (i : Nat) (x : Block) : (s.setBlock i x).blocks = tput s.blocks i x := rfl
@[simp] theorem State.setBlock_skeins (s : State) (i : Nat) (x : Block) : (s.setBlock i x).skeins = s.skeins := rfl
@[simp] theorem State.setBlock_stairs (s : State) (i : Nat) (x : Block) : (s.setBlock i x).stairs = s.stairs := rfl
@[simp] theorem State.setBlock_ual (s : State) (i : Nat) (x : Block) : (s.setBlock i x).ual = s.ual := rfl
@[simp] theorem State.setBlock_colls (s : State) (i : Nat) (x : Block) : (s.setBlock i x).colls = s.colls := rfl
@[simp] theorem State.setBlock_saved (s : State) (i : Nat) (x : Block) : (s.setBlock i x).saved = s.saved := rfl
@[simp] theorem State.setBlock_savedC (s : State) (i : Nat) (x : Block) : (s.setBlock i x).savedC = s.savedC := rfl

/-! ### State.setGrid -/

@[simp] theorem State.setGrid_shut (s : State) (i : Nat) (x : Grid) : (s.setGrid i x).shut = s.shut := rfl
@[simp] theorem State.setGrid_cur (s : State) (i : Nat) (x : Grid) : (s.setGrid i x).cur = s.cur := rfl
@[simp] theorem State.setGrid_sched (s : State) (i : Nat) (x : Grid) : (s.setGrid i x).sched = s.sched := rfl
@[simp] theorem State.setGrid_pending (s : State) (i : Nat) (x : Grid) : (s.setGrid i x).pending = s.pending := rfl
@[simp] theorem State.setGrid_free (s : State) (i : Nat) (x : Grid) : (s.setGrid i x).free = s.free := rfl
@[simp] theorem State.setGrid_nextId (s : State) (i : Nat) (x : Grid) : (s.setGrid i x).nextId = s.nextId := rfl
@[simp] theorem State.setGrid_out (s : State) (i : Nat) (x : Grid) : (s.setGrid i x).out = s.out := rfl
@[simp] theorem State.setGrid_clk (s : State) (i : Nat) (x : Grid) : (s.setGrid i x).clk = s.clk := rfl
@[simp] theorem State.setGrid_gt (s : State) (i : Nat) (x : Grid) : (s.setGrid i x).gt = s.gt := rfl
@[simp] theorem State.setGrid_mem (s : State) (i : Nat) (x : Grid) : (s.setGrid i x).mem = s.mem := rfl
@[simp] theorem State.setGrid_memPoison (s : State) (i : Nat) (x : Grid) : (s.setGrid i x).memPoison = s.memPoison := rfl
@[simp] theorem State.setGrid_lines (s : State) (i : Nat) (x : Grid) : (s.setGrid i x).lines = s.lines := rfl
@[simp] theorem State.setGrid_mergeDir (s : State) (i : Nat) (x : Grid) : (s.setGrid i x).mergeDir = s.mergeDir := rfl
@[simp] theorem State.setGrid_slices (s : State) (i : Nat) (x : Grid) : (s.setGrid i x).slices = s.slices := rfl
@[simp] theorem State.setGrid_pkg (s : State) (i : Nat) (x : Grid) : (s.setGrid i x).pkg = s.pkg := rfl
@[simp] theorem State.setGrid_dies (s : State) (i : Nat) (x : Grid) : (s.setGrid i x).dies = s.dies := rfl
@[simp] theorem State.setGrid_cores (s : State) (i : Nat) (x : Grid) : (s.setGrid i x).cores = s.cores := rfl
@[simp] theorem State.setGrid_ctxs (s : State) (i : Nat) (x : Grid) : (s.setGrid i x).ctxs = s.ctxs := rfl
@[simp] theorem State.setGrid_ports (s : State) (i : Nat) (x : Grid) : (s.setGrid i x).ports = s.ports := rfl
@[simp] theorem State.setGrid_grids (s : State) (i : Nat) (x : Grid) : (s.setGrid i x).grids = tput s.grids i x := rfl
@[simp] theorem State.setGrid_blocks (s : State) (i : Nat) (x : Grid) : (s.setGrid i x).blocks = s.blocks := rfl
@[simp] theorem State.setGrid_skeins (s : State) (i : Nat) (x : Grid) : (s.setGrid i x).skeins = s.skeins := rfl
@[simp] theorem State.setGrid_stairs (s : State) (i : Nat) (x : Grid) : (s.setGrid i x).stairs = s.stairs := rfl
@[simp] theorem State.setGrid_ual (s : State) (i : Nat) (x : Grid) : (s.setGrid i x).ual = s.ual := rfl
@[simp] theorem State.setGrid_colls (s : State) (i : Nat) (x : Grid) : (s.setGrid i x).colls = s.colls := rfl
@[simp] theorem State.setGrid_saved (s : State) (i : Nat) (x : Grid) : (s.setGrid i x).saved = s.saved := rfl
@[simp] theorem State.setGrid_savedC (s : State) (i : Nat) (x : Grid) : (s.setGrid i x).savedC = s.savedC := rfl

/-! ### State.setLine -/

@[simp] theorem State.setLine_shut (s : State) (i : Nat) (x : HomeLine) : (s.setLine i x).shut = s.shut := rfl
@[simp] theorem State.setLine_cur (s : State) (i : Nat) (x : HomeLine) : (s.setLine i x).cur = s.cur := rfl
@[simp] theorem State.setLine_sched (s : State) (i : Nat) (x : HomeLine) : (s.setLine i x).sched = s.sched := rfl
@[simp] theorem State.setLine_pending (s : State) (i : Nat) (x : HomeLine) : (s.setLine i x).pending = s.pending := rfl
@[simp] theorem State.setLine_free (s : State) (i : Nat) (x : HomeLine) : (s.setLine i x).free = s.free := rfl
@[simp] theorem State.setLine_nextId (s : State) (i : Nat) (x : HomeLine) : (s.setLine i x).nextId = s.nextId := rfl
@[simp] theorem State.setLine_out (s : State) (i : Nat) (x : HomeLine) : (s.setLine i x).out = s.out := rfl
@[simp] theorem State.setLine_clk (s : State) (i : Nat) (x : HomeLine) : (s.setLine i x).clk = s.clk := rfl
@[simp] theorem State.setLine_gt (s : State) (i : Nat) (x : HomeLine) : (s.setLine i x).gt = s.gt := rfl
@[simp] theorem State.setLine_mem (s : State) (i : Nat) (x : HomeLine) : (s.setLine i x).mem = s.mem := rfl
@[simp] theorem State.setLine_memPoison (s : State) (i : Nat) (x : HomeLine) : (s.setLine i x).memPoison = s.memPoison := rfl
@[simp] theorem State.setLine_lines (s : State) (i : Nat) (x : HomeLine) : (s.setLine i x).lines = tput s.lines i x := rfl
@[simp] theorem State.setLine_mergeDir (s : State) (i : Nat) (x : HomeLine) : (s.setLine i x).mergeDir = s.mergeDir := rfl
@[simp] theorem State.setLine_slices (s : State) (i : Nat) (x : HomeLine) : (s.setLine i x).slices = s.slices := rfl
@[simp] theorem State.setLine_pkg (s : State) (i : Nat) (x : HomeLine) : (s.setLine i x).pkg = s.pkg := rfl
@[simp] theorem State.setLine_dies (s : State) (i : Nat) (x : HomeLine) : (s.setLine i x).dies = s.dies := rfl
@[simp] theorem State.setLine_cores (s : State) (i : Nat) (x : HomeLine) : (s.setLine i x).cores = s.cores := rfl
@[simp] theorem State.setLine_ctxs (s : State) (i : Nat) (x : HomeLine) : (s.setLine i x).ctxs = s.ctxs := rfl
@[simp] theorem State.setLine_ports (s : State) (i : Nat) (x : HomeLine) : (s.setLine i x).ports = s.ports := rfl
@[simp] theorem State.setLine_grids (s : State) (i : Nat) (x : HomeLine) : (s.setLine i x).grids = s.grids := rfl
@[simp] theorem State.setLine_blocks (s : State) (i : Nat) (x : HomeLine) : (s.setLine i x).blocks = s.blocks := rfl
@[simp] theorem State.setLine_skeins (s : State) (i : Nat) (x : HomeLine) : (s.setLine i x).skeins = s.skeins := rfl
@[simp] theorem State.setLine_stairs (s : State) (i : Nat) (x : HomeLine) : (s.setLine i x).stairs = s.stairs := rfl
@[simp] theorem State.setLine_ual (s : State) (i : Nat) (x : HomeLine) : (s.setLine i x).ual = s.ual := rfl
@[simp] theorem State.setLine_colls (s : State) (i : Nat) (x : HomeLine) : (s.setLine i x).colls = s.colls := rfl
@[simp] theorem State.setLine_saved (s : State) (i : Nat) (x : HomeLine) : (s.setLine i x).saved = s.saved := rfl
@[simp] theorem State.setLine_savedC (s : State) (i : Nat) (x : HomeLine) : (s.setLine i x).savedC = s.savedC := rfl

/-! ### State.modCtx -/

@[simp] theorem State.modCtx_shut (s : State) (i : Nat) (g : Context → Context) : (s.modCtx i g).shut = s.shut := rfl
@[simp] theorem State.modCtx_cur (s : State) (i : Nat) (g : Context → Context) : (s.modCtx i g).cur = s.cur := rfl
@[simp] theorem State.modCtx_sched (s : State) (i : Nat) (g : Context → Context) : (s.modCtx i g).sched = s.sched := rfl
@[simp] theorem State.modCtx_pending (s : State) (i : Nat) (g : Context → Context) : (s.modCtx i g).pending = s.pending := rfl
@[simp] theorem State.modCtx_free (s : State) (i : Nat) (g : Context → Context) : (s.modCtx i g).free = s.free := rfl
@[simp] theorem State.modCtx_nextId (s : State) (i : Nat) (g : Context → Context) : (s.modCtx i g).nextId = s.nextId := rfl
@[simp] theorem State.modCtx_out (s : State) (i : Nat) (g : Context → Context) : (s.modCtx i g).out = s.out := rfl
@[simp] theorem State.modCtx_clk (s : State) (i : Nat) (g : Context → Context) : (s.modCtx i g).clk = s.clk := rfl
@[simp] theorem State.modCtx_gt (s : State) (i : Nat) (g : Context → Context) : (s.modCtx i g).gt = s.gt := rfl
@[simp] theorem State.modCtx_mem (s : State) (i : Nat) (g : Context → Context) : (s.modCtx i g).mem = s.mem := rfl
@[simp] theorem State.modCtx_memPoison (s : State) (i : Nat) (g : Context → Context) : (s.modCtx i g).memPoison = s.memPoison := rfl
@[simp] theorem State.modCtx_lines (s : State) (i : Nat) (g : Context → Context) : (s.modCtx i g).lines = s.lines := rfl
@[simp] theorem State.modCtx_mergeDir (s : State) (i : Nat) (g : Context → Context) : (s.modCtx i g).mergeDir = s.mergeDir := rfl
@[simp] theorem State.modCtx_slices (s : State) (i : Nat) (g : Context → Context) : (s.modCtx i g).slices = s.slices := rfl
@[simp] theorem State.modCtx_pkg (s : State) (i : Nat) (g : Context → Context) : (s.modCtx i g).pkg = s.pkg := rfl
@[simp] theorem State.modCtx_dies (s : State) (i : Nat) (g : Context → Context) : (s.modCtx i g).dies = s.dies := rfl
@[simp] theorem State.modCtx_cores (s : State) (i : Nat) (g : Context → Context) : (s.modCtx i g).cores = s.cores := rfl
@[simp] theorem State.modCtx_ctxs (s : State) (i : Nat) (g : Context → Context) : (s.modCtx i g).ctxs = tput s.ctxs i (g (s.ctx i)) := rfl
@[simp] theorem State.modCtx_ports (s : State) (i : Nat) (g : Context → Context) : (s.modCtx i g).ports = s.ports := rfl
@[simp] theorem State.modCtx_grids (s : State) (i : Nat) (g : Context → Context) : (s.modCtx i g).grids = s.grids := rfl
@[simp] theorem State.modCtx_blocks (s : State) (i : Nat) (g : Context → Context) : (s.modCtx i g).blocks = s.blocks := rfl
@[simp] theorem State.modCtx_skeins (s : State) (i : Nat) (g : Context → Context) : (s.modCtx i g).skeins = s.skeins := rfl
@[simp] theorem State.modCtx_stairs (s : State) (i : Nat) (g : Context → Context) : (s.modCtx i g).stairs = s.stairs := rfl
@[simp] theorem State.modCtx_ual (s : State) (i : Nat) (g : Context → Context) : (s.modCtx i g).ual = s.ual := rfl
@[simp] theorem State.modCtx_colls (s : State) (i : Nat) (g : Context → Context) : (s.modCtx i g).colls = s.colls := rfl
@[simp] theorem State.modCtx_saved (s : State) (i : Nat) (g : Context → Context) : (s.modCtx i g).saved = s.saved := rfl
@[simp] theorem State.modCtx_savedC (s : State) (i : Nat) (g : Context → Context) : (s.modCtx i g).savedC = s.savedC := rfl

/-! ### State.modCore -/

@[simp] theorem State.modCore_shut (s : State) (i : Nat) (g : CoreSt → CoreSt) : (s.modCore i g).shut = s.shut := rfl
@[simp] theorem State.modCore_cur (s : State) (i : Nat) (g : CoreSt → CoreSt) : (s.modCore i g).cur = s.cur := rfl
@[simp] theorem State.modCore_sched (s : State) (i : Nat) (g : CoreSt → CoreSt) : (s.modCore i g).sched = s.sched := rfl
@[simp] theorem State.modCore_pending (s : State) (i : Nat) (g : CoreSt → CoreSt) : (s.modCore i g).pending = s.pending := rfl
@[simp] theorem State.modCore_free (s : State) (i : Nat) (g : CoreSt → CoreSt) : (s.modCore i g).free = s.free := rfl
@[simp] theorem State.modCore_nextId (s : State) (i : Nat) (g : CoreSt → CoreSt) : (s.modCore i g).nextId = s.nextId := rfl
@[simp] theorem State.modCore_out (s : State) (i : Nat) (g : CoreSt → CoreSt) : (s.modCore i g).out = s.out := rfl
@[simp] theorem State.modCore_clk (s : State) (i : Nat) (g : CoreSt → CoreSt) : (s.modCore i g).clk = s.clk := rfl
@[simp] theorem State.modCore_gt (s : State) (i : Nat) (g : CoreSt → CoreSt) : (s.modCore i g).gt = s.gt := rfl
@[simp] theorem State.modCore_mem (s : State) (i : Nat) (g : CoreSt → CoreSt) : (s.modCore i g).mem = s.mem := rfl
@[simp] theorem State.modCore_memPoison (s : State) (i : Nat) (g : CoreSt → CoreSt) : (s.modCore i g).memPoison = s.memPoison := rfl
@[simp] theorem State.modCore_lines (s : State) (i : Nat) (g : CoreSt → CoreSt) : (s.modCore i g).lines = s.lines := rfl
@[simp] theorem State.modCore_mergeDir (s : State) (i : Nat) (g : CoreSt → CoreSt) : (s.modCore i g).mergeDir = s.mergeDir := rfl
@[simp] theorem State.modCore_slices (s : State) (i : Nat) (g : CoreSt → CoreSt) : (s.modCore i g).slices = s.slices := rfl
@[simp] theorem State.modCore_pkg (s : State) (i : Nat) (g : CoreSt → CoreSt) : (s.modCore i g).pkg = s.pkg := rfl
@[simp] theorem State.modCore_dies (s : State) (i : Nat) (g : CoreSt → CoreSt) : (s.modCore i g).dies = s.dies := rfl
@[simp] theorem State.modCore_cores (s : State) (i : Nat) (g : CoreSt → CoreSt) : (s.modCore i g).cores = tput s.cores i (g (s.core i)) := rfl
@[simp] theorem State.modCore_ctxs (s : State) (i : Nat) (g : CoreSt → CoreSt) : (s.modCore i g).ctxs = s.ctxs := rfl
@[simp] theorem State.modCore_ports (s : State) (i : Nat) (g : CoreSt → CoreSt) : (s.modCore i g).ports = s.ports := rfl
@[simp] theorem State.modCore_grids (s : State) (i : Nat) (g : CoreSt → CoreSt) : (s.modCore i g).grids = s.grids := rfl
@[simp] theorem State.modCore_blocks (s : State) (i : Nat) (g : CoreSt → CoreSt) : (s.modCore i g).blocks = s.blocks := rfl
@[simp] theorem State.modCore_skeins (s : State) (i : Nat) (g : CoreSt → CoreSt) : (s.modCore i g).skeins = s.skeins := rfl
@[simp] theorem State.modCore_stairs (s : State) (i : Nat) (g : CoreSt → CoreSt) : (s.modCore i g).stairs = s.stairs := rfl
@[simp] theorem State.modCore_ual (s : State) (i : Nat) (g : CoreSt → CoreSt) : (s.modCore i g).ual = s.ual := rfl
@[simp] theorem State.modCore_colls (s : State) (i : Nat) (g : CoreSt → CoreSt) : (s.modCore i g).colls = s.colls := rfl
@[simp] theorem State.modCore_saved (s : State) (i : Nat) (g : CoreSt → CoreSt) : (s.modCore i g).saved = s.saved := rfl
@[simp] theorem State.modCore_savedC (s : State) (i : Nat) (g : CoreSt → CoreSt) : (s.modCore i g).savedC = s.savedC := rfl

/-! ### State.modDie -/

@[simp] theorem State.modDie_shut (s : State) (i : Nat) (g : Die → Die) : (s.modDie i g).shut = s.shut := rfl
@[simp] theorem State.modDie_cur (s : State) (i : Nat) (g : Die → Die) : (s.modDie i g).cur = s.cur := rfl
@[simp] theorem State.modDie_sched (s : State) (i : Nat) (g : Die → Die) : (s.modDie i g).sched = s.sched := rfl
@[simp] theorem State.modDie_pending (s : State) (i : Nat) (g : Die → Die) : (s.modDie i g).pending = s.pending := rfl
@[simp] theorem State.modDie_free (s : State) (i : Nat) (g : Die → Die) : (s.modDie i g).free = s.free := rfl
@[simp] theorem State.modDie_nextId (s : State) (i : Nat) (g : Die → Die) : (s.modDie i g).nextId = s.nextId := rfl
@[simp] theorem State.modDie_out (s : State) (i : Nat) (g : Die → Die) : (s.modDie i g).out = s.out := rfl
@[simp] theorem State.modDie_clk (s : State) (i : Nat) (g : Die → Die) : (s.modDie i g).clk = s.clk := rfl
@[simp] theorem State.modDie_gt (s : State) (i : Nat) (g : Die → Die) : (s.modDie i g).gt = s.gt := rfl
@[simp] theorem State.modDie_mem (s : State) (i : Nat) (g : Die → Die) : (s.modDie i g).mem = s.mem := rfl
@[simp] theorem State.modDie_memPoison (s : State) (i : Nat) (g : Die → Die) : (s.modDie i g).memPoison = s.memPoison := rfl
@[simp] theorem State.modDie_lines (s : State) (i : Nat) (g : Die → Die) : (s.modDie i g).lines = s.lines := rfl
@[simp] theorem State.modDie_mergeDir (s : State) (i : Nat) (g : Die → Die) : (s.modDie i g).mergeDir = s.mergeDir := rfl
@[simp] theorem State.modDie_slices (s : State) (i : Nat) (g : Die → Die) : (s.modDie i g).slices = s.slices := rfl
@[simp] theorem State.modDie_pkg (s : State) (i : Nat) (g : Die → Die) : (s.modDie i g).pkg = s.pkg := rfl
@[simp] theorem State.modDie_dies (s : State) (i : Nat) (g : Die → Die) : (s.modDie i g).dies = tput s.dies i (g (s.die i)) := rfl
@[simp] theorem State.modDie_cores (s : State) (i : Nat) (g : Die → Die) : (s.modDie i g).cores = s.cores := rfl
@[simp] theorem State.modDie_ctxs (s : State) (i : Nat) (g : Die → Die) : (s.modDie i g).ctxs = s.ctxs := rfl
@[simp] theorem State.modDie_ports (s : State) (i : Nat) (g : Die → Die) : (s.modDie i g).ports = s.ports := rfl
@[simp] theorem State.modDie_grids (s : State) (i : Nat) (g : Die → Die) : (s.modDie i g).grids = s.grids := rfl
@[simp] theorem State.modDie_blocks (s : State) (i : Nat) (g : Die → Die) : (s.modDie i g).blocks = s.blocks := rfl
@[simp] theorem State.modDie_skeins (s : State) (i : Nat) (g : Die → Die) : (s.modDie i g).skeins = s.skeins := rfl
@[simp] theorem State.modDie_stairs (s : State) (i : Nat) (g : Die → Die) : (s.modDie i g).stairs = s.stairs := rfl
@[simp] theorem State.modDie_ual (s : State) (i : Nat) (g : Die → Die) : (s.modDie i g).ual = s.ual := rfl
@[simp] theorem State.modDie_colls (s : State) (i : Nat) (g : Die → Die) : (s.modDie i g).colls = s.colls := rfl
@[simp] theorem State.modDie_saved (s : State) (i : Nat) (g : Die → Die) : (s.modDie i g).saved = s.saved := rfl
@[simp] theorem State.modDie_savedC (s : State) (i : Nat) (g : Die → Die) : (s.modDie i g).savedC = s.savedC := rfl

/-! ### State.modSlice -/

@[simp] theorem State.modSlice_shut (s : State) (i : Nat) (g : Slice → Slice) : (s.modSlice i g).shut = s.shut := rfl
@[simp] theorem State.modSlice_cur (s : State) (i : Nat) (g : Slice → Slice) : (s.modSlice i g).cur = s.cur := rfl
@[simp] theorem State.modSlice_sched (s : State) (i : Nat) (g : Slice → Slice) : (s.modSlice i g).sched = s.sched := rfl
@[simp] theorem State.modSlice_pending (s : State) (i : Nat) (g : Slice → Slice) : (s.modSlice i g).pending = s.pending := rfl
@[simp] theorem State.modSlice_free (s : State) (i : Nat) (g : Slice → Slice) : (s.modSlice i g).free = s.free := rfl
@[simp] theorem State.modSlice_nextId (s : State) (i : Nat) (g : Slice → Slice) : (s.modSlice i g).nextId = s.nextId := rfl
@[simp] theorem State.modSlice_out (s : State) (i : Nat) (g : Slice → Slice) : (s.modSlice i g).out = s.out := rfl
@[simp] theorem State.modSlice_clk (s : State) (i : Nat) (g : Slice → Slice) : (s.modSlice i g).clk = s.clk := rfl
@[simp] theorem State.modSlice_gt (s : State) (i : Nat) (g : Slice → Slice) : (s.modSlice i g).gt = s.gt := rfl
@[simp] theorem State.modSlice_mem (s : State) (i : Nat) (g : Slice → Slice) : (s.modSlice i g).mem = s.mem := rfl
@[simp] theorem State.modSlice_memPoison (s : State) (i : Nat) (g : Slice → Slice) : (s.modSlice i g).memPoison = s.memPoison := rfl
@[simp] theorem State.modSlice_lines (s : State) (i : Nat) (g : Slice → Slice) : (s.modSlice i g).lines = s.lines := rfl
@[simp] theorem State.modSlice_mergeDir (s : State) (i : Nat) (g : Slice → Slice) : (s.modSlice i g).mergeDir = s.mergeDir := rfl
@[simp] theorem State.modSlice_slices (s : State) (i : Nat) (g : Slice → Slice) : (s.modSlice i g).slices = tput s.slices i (g (s.slice i)) := rfl
@[simp] theorem State.modSlice_pkg (s : State) (i : Nat) (g : Slice → Slice) : (s.modSlice i g).pkg = s.pkg := rfl
@[simp] theorem State.modSlice_dies (s : State) (i : Nat) (g : Slice → Slice) : (s.modSlice i g).dies = s.dies := rfl
@[simp] theorem State.modSlice_cores (s : State) (i : Nat) (g : Slice → Slice) : (s.modSlice i g).cores = s.cores := rfl
@[simp] theorem State.modSlice_ctxs (s : State) (i : Nat) (g : Slice → Slice) : (s.modSlice i g).ctxs = s.ctxs := rfl
@[simp] theorem State.modSlice_ports (s : State) (i : Nat) (g : Slice → Slice) : (s.modSlice i g).ports = s.ports := rfl
@[simp] theorem State.modSlice_grids (s : State) (i : Nat) (g : Slice → Slice) : (s.modSlice i g).grids = s.grids := rfl
@[simp] theorem State.modSlice_blocks (s : State) (i : Nat) (g : Slice → Slice) : (s.modSlice i g).blocks = s.blocks := rfl
@[simp] theorem State.modSlice_skeins (s : State) (i : Nat) (g : Slice → Slice) : (s.modSlice i g).skeins = s.skeins := rfl
@[simp] theorem State.modSlice_stairs (s : State) (i : Nat) (g : Slice → Slice) : (s.modSlice i g).stairs = s.stairs := rfl
@[simp] theorem State.modSlice_ual (s : State) (i : Nat) (g : Slice → Slice) : (s.modSlice i g).ual = s.ual := rfl
@[simp] theorem State.modSlice_colls (s : State) (i : Nat) (g : Slice → Slice) : (s.modSlice i g).colls = s.colls := rfl
@[simp] theorem State.modSlice_saved (s : State) (i : Nat) (g : Slice → Slice) : (s.modSlice i g).saved = s.saved := rfl
@[simp] theorem State.modSlice_savedC (s : State) (i : Nat) (g : Slice → Slice) : (s.modSlice i g).savedC = s.savedC := rfl

/-! ### State.modStair -/

@[simp] theorem State.modStair_shut (s : State) (i : Nat) (g : Stair → Stair) : (s.modStair i g).shut = s.shut := rfl
@[simp] theorem State.modStair_cur (s : State) (i : Nat) (g : Stair → Stair) : (s.modStair i g).cur = s.cur := rfl
@[simp] theorem State.modStair_sched (s : State) (i : Nat) (g : Stair → Stair) : (s.modStair i g).sched = s.sched := rfl
@[simp] theorem State.modStair_pending (s : State) (i : Nat) (g : Stair → Stair) : (s.modStair i g).pending = s.pending := rfl
@[simp] theorem State.modStair_free (s : State) (i : Nat) (g : Stair → Stair) : (s.modStair i g).free = s.free := rfl
@[simp] theorem State.modStair_nextId (s : State) (i : Nat) (g : Stair → Stair) : (s.modStair i g).nextId = s.nextId := rfl
@[simp] theorem State.modStair_out (s : State) (i : Nat) (g : Stair → Stair) : (s.modStair i g).out = s.out := rfl
@[simp] theorem State.modStair_clk (s : State) (i : Nat) (g : Stair → Stair) : (s.modStair i g).clk = s.clk := rfl
@[simp] theorem State.modStair_gt (s : State) (i : Nat) (g : Stair → Stair) : (s.modStair i g).gt = s.gt := rfl
@[simp] theorem State.modStair_mem (s : State) (i : Nat) (g : Stair → Stair) : (s.modStair i g).mem = s.mem := rfl
@[simp] theorem State.modStair_memPoison (s : State) (i : Nat) (g : Stair → Stair) : (s.modStair i g).memPoison = s.memPoison := rfl
@[simp] theorem State.modStair_lines (s : State) (i : Nat) (g : Stair → Stair) : (s.modStair i g).lines = s.lines := rfl
@[simp] theorem State.modStair_mergeDir (s : State) (i : Nat) (g : Stair → Stair) : (s.modStair i g).mergeDir = s.mergeDir := rfl
@[simp] theorem State.modStair_slices (s : State) (i : Nat) (g : Stair → Stair) : (s.modStair i g).slices = s.slices := rfl
@[simp] theorem State.modStair_pkg (s : State) (i : Nat) (g : Stair → Stair) : (s.modStair i g).pkg = s.pkg := rfl
@[simp] theorem State.modStair_dies (s : State) (i : Nat) (g : Stair → Stair) : (s.modStair i g).dies = s.dies := rfl
@[simp] theorem State.modStair_cores (s : State) (i : Nat) (g : Stair → Stair) : (s.modStair i g).cores = s.cores := rfl
@[simp] theorem State.modStair_ctxs (s : State) (i : Nat) (g : Stair → Stair) : (s.modStair i g).ctxs = s.ctxs := rfl
@[simp] theorem State.modStair_ports (s : State) (i : Nat) (g : Stair → Stair) : (s.modStair i g).ports = s.ports := rfl
@[simp] theorem State.modStair_grids (s : State) (i : Nat) (g : Stair → Stair) : (s.modStair i g).grids = s.grids := rfl
@[simp] theorem State.modStair_blocks (s : State) (i : Nat) (g : Stair → Stair) : (s.modStair i g).blocks = s.blocks := rfl
@[simp] theorem State.modStair_skeins (s : State) (i : Nat) (g : Stair → Stair) : (s.modStair i g).skeins = s.skeins := rfl
@[simp] theorem State.modStair_stairs (s : State) (i : Nat) (g : Stair → Stair) : (s.modStair i g).stairs = tput s.stairs i (g (s.stair i)) := rfl
@[simp] theorem State.modStair_ual (s : State) (i : Nat) (g : Stair → Stair) : (s.modStair i g).ual = s.ual := rfl
@[simp] theorem State.modStair_colls (s : State) (i : Nat) (g : Stair → Stair) : (s.modStair i g).colls = s.colls := rfl
@[simp] theorem State.modStair_saved (s : State) (i : Nat) (g : Stair → Stair) : (s.modStair i g).saved = s.saved := rfl
@[simp] theorem State.modStair_savedC (s : State) (i : Nat) (g : Stair → Stair) : (s.modStair i g).savedC = s.savedC := rfl

/-! ### State.modUal -/

@[simp] theorem State.modUal_shut (s : State) (i : Nat) (g : UalPort → UalPort) : (s.modUal i g).shut = s.shut := rfl
@[simp] theorem State.modUal_cur (s : State) (i : Nat) (g : UalPort → UalPort) : (s.modUal i g).cur = s.cur := rfl
@[simp] theorem State.modUal_sched (s : State) (i : Nat) (g : UalPort → UalPort) : (s.modUal i g).sched = s.sched := rfl
@[simp] theorem State.modUal_pending (s : State) (i : Nat) (g : UalPort → UalPort) : (s.modUal i g).pending = s.pending := rfl
@[simp] theorem State.modUal_free (s : State) (i : Nat) (g : UalPort → UalPort) : (s.modUal i g).free = s.free := rfl
@[simp] theorem State.modUal_nextId (s : State) (i : Nat) (g : UalPort → UalPort) : (s.modUal i g).nextId = s.nextId := rfl
@[simp] theorem State.modUal_out (s : State) (i : Nat) (g : UalPort → UalPort) : (s.modUal i g).out = s.out := rfl
@[simp] theorem State.modUal_clk (s : State) (i : Nat) (g : UalPort → UalPort) : (s.modUal i g).clk = s.clk := rfl
@[simp] theorem State.modUal_gt (s : State) (i : Nat) (g : UalPort → UalPort) : (s.modUal i g).gt = s.gt := rfl
@[simp] theorem State.modUal_mem (s : State) (i : Nat) (g : UalPort → UalPort) : (s.modUal i g).mem = s.mem := rfl
@[simp] theorem State.modUal_memPoison (s : State) (i : Nat) (g : UalPort → UalPort) : (s.modUal i g).memPoison = s.memPoison := rfl
@[simp] theorem State.modUal_lines (s : State) (i : Nat) (g : UalPort → UalPort) : (s.modUal i g).lines = s.lines := rfl
@[simp] theorem State.modUal_mergeDir (s : State) (i : Nat) (g : UalPort → UalPort) : (s.modUal i g).mergeDir = s.mergeDir := rfl
@[simp] theorem State.modUal_slices (s : State) (i : Nat) (g : UalPort → UalPort) : (s.modUal i g).slices = s.slices := rfl
@[simp] theorem State.modUal_pkg (s : State) (i : Nat) (g : UalPort → UalPort) : (s.modUal i g).pkg = s.pkg := rfl
@[simp] theorem State.modUal_dies (s : State) (i : Nat) (g : UalPort → UalPort) : (s.modUal i g).dies = s.dies := rfl
@[simp] theorem State.modUal_cores (s : State) (i : Nat) (g : UalPort → UalPort) : (s.modUal i g).cores = s.cores := rfl
@[simp] theorem State.modUal_ctxs (s : State) (i : Nat) (g : UalPort → UalPort) : (s.modUal i g).ctxs = s.ctxs := rfl
@[simp] theorem State.modUal_ports (s : State) (i : Nat) (g : UalPort → UalPort) : (s.modUal i g).ports = s.ports := rfl
@[simp] theorem State.modUal_grids (s : State) (i : Nat) (g : UalPort → UalPort) : (s.modUal i g).grids = s.grids := rfl
@[simp] theorem State.modUal_blocks (s : State) (i : Nat) (g : UalPort → UalPort) : (s.modUal i g).blocks = s.blocks := rfl
@[simp] theorem State.modUal_skeins (s : State) (i : Nat) (g : UalPort → UalPort) : (s.modUal i g).skeins = s.skeins := rfl
@[simp] theorem State.modUal_stairs (s : State) (i : Nat) (g : UalPort → UalPort) : (s.modUal i g).stairs = s.stairs := rfl
@[simp] theorem State.modUal_ual (s : State) (i : Nat) (g : UalPort → UalPort) : (s.modUal i g).ual = tput s.ual i (g (s.ualPort i)) := rfl
@[simp] theorem State.modUal_colls (s : State) (i : Nat) (g : UalPort → UalPort) : (s.modUal i g).colls = s.colls := rfl
@[simp] theorem State.modUal_saved (s : State) (i : Nat) (g : UalPort → UalPort) : (s.modUal i g).saved = s.saved := rfl
@[simp] theorem State.modUal_savedC (s : State) (i : Nat) (g : UalPort → UalPort) : (s.modUal i g).savedC = s.savedC := rfl

/-! ### State.modSkein -/

@[simp] theorem State.modSkein_shut (s : State) (i : Nat) (g : Skein → Skein) : (s.modSkein i g).shut = s.shut := rfl
@[simp] theorem State.modSkein_cur (s : State) (i : Nat) (g : Skein → Skein) : (s.modSkein i g).cur = s.cur := rfl
@[simp] theorem State.modSkein_sched (s : State) (i : Nat) (g : Skein → Skein) : (s.modSkein i g).sched = s.sched := rfl
@[simp] theorem State.modSkein_pending (s : State) (i : Nat) (g : Skein → Skein) : (s.modSkein i g).pending = s.pending := rfl
@[simp] theorem State.modSkein_free (s : State) (i : Nat) (g : Skein → Skein) : (s.modSkein i g).free = s.free := rfl
@[simp] theorem State.modSkein_nextId (s : State) (i : Nat) (g : Skein → Skein) : (s.modSkein i g).nextId = s.nextId := rfl
@[simp] theorem State.modSkein_out (s : State) (i : Nat) (g : Skein → Skein) : (s.modSkein i g).out = s.out := rfl
@[simp] theorem State.modSkein_clk (s : State) (i : Nat) (g : Skein → Skein) : (s.modSkein i g).clk = s.clk := rfl
@[simp] theorem State.modSkein_gt (s : State) (i : Nat) (g : Skein → Skein) : (s.modSkein i g).gt = s.gt := rfl
@[simp] theorem State.modSkein_mem (s : State) (i : Nat) (g : Skein → Skein) : (s.modSkein i g).mem = s.mem := rfl
@[simp] theorem State.modSkein_memPoison (s : State) (i : Nat) (g : Skein → Skein) : (s.modSkein i g).memPoison = s.memPoison := rfl
@[simp] theorem State.modSkein_lines (s : State) (i : Nat) (g : Skein → Skein) : (s.modSkein i g).lines = s.lines := rfl
@[simp] theorem State.modSkein_mergeDir (s : State) (i : Nat) (g : Skein → Skein) : (s.modSkein i g).mergeDir = s.mergeDir := rfl
@[simp] theorem State.modSkein_slices (s : State) (i : Nat) (g : Skein → Skein) : (s.modSkein i g).slices = s.slices := rfl
@[simp] theorem State.modSkein_pkg (s : State) (i : Nat) (g : Skein → Skein) : (s.modSkein i g).pkg = s.pkg := rfl
@[simp] theorem State.modSkein_dies (s : State) (i : Nat) (g : Skein → Skein) : (s.modSkein i g).dies = s.dies := rfl
@[simp] theorem State.modSkein_cores (s : State) (i : Nat) (g : Skein → Skein) : (s.modSkein i g).cores = s.cores := rfl
@[simp] theorem State.modSkein_ctxs (s : State) (i : Nat) (g : Skein → Skein) : (s.modSkein i g).ctxs = s.ctxs := rfl
@[simp] theorem State.modSkein_ports (s : State) (i : Nat) (g : Skein → Skein) : (s.modSkein i g).ports = s.ports := rfl
@[simp] theorem State.modSkein_grids (s : State) (i : Nat) (g : Skein → Skein) : (s.modSkein i g).grids = s.grids := rfl
@[simp] theorem State.modSkein_blocks (s : State) (i : Nat) (g : Skein → Skein) : (s.modSkein i g).blocks = s.blocks := rfl
@[simp] theorem State.modSkein_skeins (s : State) (i : Nat) (g : Skein → Skein) : (s.modSkein i g).skeins = tmod s.skeins i g := rfl
@[simp] theorem State.modSkein_stairs (s : State) (i : Nat) (g : Skein → Skein) : (s.modSkein i g).stairs = s.stairs := rfl
@[simp] theorem State.modSkein_ual (s : State) (i : Nat) (g : Skein → Skein) : (s.modSkein i g).ual = s.ual := rfl
@[simp] theorem State.modSkein_colls (s : State) (i : Nat) (g : Skein → Skein) : (s.modSkein i g).colls = s.colls := rfl
@[simp] theorem State.modSkein_saved (s : State) (i : Nat) (g : Skein → Skein) : (s.modSkein i g).saved = s.saved := rfl
@[simp] theorem State.modSkein_savedC (s : State) (i : Nat) (g : Skein → Skein) : (s.modSkein i g).savedC = s.savedC := rfl

/-! ### State.modBlock -/

@[simp] theorem State.modBlock_shut (s : State) (i : Nat) (g : Block → Block) : (s.modBlock i g).shut = s.shut := rfl
@[simp] theorem State.modBlock_cur (s : State) (i : Nat) (g : Block → Block) : (s.modBlock i g).cur = s.cur := rfl
@[simp] theorem State.modBlock_sched (s : State) (i : Nat) (g : Block → Block) : (s.modBlock i g).sched = s.sched := rfl
@[simp] theorem State.modBlock_pending (s : State) (i : Nat) (g : Block → Block) : (s.modBlock i g).pending = s.pending := rfl
@[simp] theorem State.modBlock_free (s : State) (i : Nat) (g : Block → Block) : (s.modBlock i g).free = s.free := rfl
@[simp] theorem State.modBlock_nextId (s : State) (i : Nat) (g : Block → Block) : (s.modBlock i g).nextId = s.nextId := rfl
@[simp] theorem State.modBlock_out (s : State) (i : Nat) (g : Block → Block) : (s.modBlock i g).out = s.out := rfl
@[simp] theorem State.modBlock_clk (s : State) (i : Nat) (g : Block → Block) : (s.modBlock i g).clk = s.clk := rfl
@[simp] theorem State.modBlock_gt (s : State) (i : Nat) (g : Block → Block) : (s.modBlock i g).gt = s.gt := rfl
@[simp] theorem State.modBlock_mem (s : State) (i : Nat) (g : Block → Block) : (s.modBlock i g).mem = s.mem := rfl
@[simp] theorem State.modBlock_memPoison (s : State) (i : Nat) (g : Block → Block) : (s.modBlock i g).memPoison = s.memPoison := rfl
@[simp] theorem State.modBlock_lines (s : State) (i : Nat) (g : Block → Block) : (s.modBlock i g).lines = s.lines := rfl
@[simp] theorem State.modBlock_mergeDir (s : State) (i : Nat) (g : Block → Block) : (s.modBlock i g).mergeDir = s.mergeDir := rfl
@[simp] theorem State.modBlock_slices (s : State) (i : Nat) (g : Block → Block) : (s.modBlock i g).slices = s.slices := rfl
@[simp] theorem State.modBlock_pkg (s : State) (i : Nat) (g : Block → Block) : (s.modBlock i g).pkg = s.pkg := rfl
@[simp] theorem State.modBlock_dies (s : State) (i : Nat) (g : Block → Block) : (s.modBlock i g).dies = s.dies := rfl
@[simp] theorem State.modBlock_cores (s : State) (i : Nat) (g : Block → Block) : (s.modBlock i g).cores = s.cores := rfl
@[simp] theorem State.modBlock_ctxs (s : State) (i : Nat) (g : Block → Block) : (s.modBlock i g).ctxs = s.ctxs := rfl
@[simp] theorem State.modBlock_ports (s : State) (i : Nat) (g : Block → Block) : (s.modBlock i g).ports = s.ports := rfl
@[simp] theorem State.modBlock_grids (s : State) (i : Nat) (g : Block → Block) : (s.modBlock i g).grids = s.grids := rfl
@[simp] theorem State.modBlock_blocks (s : State) (i : Nat) (g : Block → Block) : (s.modBlock i g).blocks = tmod s.blocks i g := rfl
@[simp] theorem State.modBlock_skeins (s : State) (i : Nat) (g : Block → Block) : (s.modBlock i g).skeins = s.skeins := rfl
@[simp] theorem State.modBlock_stairs (s : State) (i : Nat) (g : Block → Block) : (s.modBlock i g).stairs = s.stairs := rfl
@[simp] theorem State.modBlock_ual (s : State) (i : Nat) (g : Block → Block) : (s.modBlock i g).ual = s.ual := rfl
@[simp] theorem State.modBlock_colls (s : State) (i : Nat) (g : Block → Block) : (s.modBlock i g).colls = s.colls := rfl
@[simp] theorem State.modBlock_saved (s : State) (i : Nat) (g : Block → Block) : (s.modBlock i g).saved = s.saved := rfl
@[simp] theorem State.modBlock_savedC (s : State) (i : Nat) (g : Block → Block) : (s.modBlock i g).savedC = s.savedC := rfl

/-! ### State.modGrid -/

@[simp] theorem State.modGrid_shut (s : State) (i : Nat) (g : Grid → Grid) : (s.modGrid i g).shut = s.shut := rfl
@[simp] theorem State.modGrid_cur (s : State) (i : Nat) (g : Grid → Grid) : (s.modGrid i g).cur = s.cur := rfl
@[simp] theorem State.modGrid_sched (s : State) (i : Nat) (g : Grid → Grid) : (s.modGrid i g).sched = s.sched := rfl
@[simp] theorem State.modGrid_pending (s : State) (i : Nat) (g : Grid → Grid) : (s.modGrid i g).pending = s.pending := rfl
@[simp] theorem State.modGrid_free (s : State) (i : Nat) (g : Grid → Grid) : (s.modGrid i g).free = s.free := rfl
@[simp] theorem State.modGrid_nextId (s : State) (i : Nat) (g : Grid → Grid) : (s.modGrid i g).nextId = s.nextId := rfl
@[simp] theorem State.modGrid_out (s : State) (i : Nat) (g : Grid → Grid) : (s.modGrid i g).out = s.out := rfl
@[simp] theorem State.modGrid_clk (s : State) (i : Nat) (g : Grid → Grid) : (s.modGrid i g).clk = s.clk := rfl
@[simp] theorem State.modGrid_gt (s : State) (i : Nat) (g : Grid → Grid) : (s.modGrid i g).gt = s.gt := rfl
@[simp] theorem State.modGrid_mem (s : State) (i : Nat) (g : Grid → Grid) : (s.modGrid i g).mem = s.mem := rfl
@[simp] theorem State.modGrid_memPoison (s : State) (i : Nat) (g : Grid → Grid) : (s.modGrid i g).memPoison = s.memPoison := rfl
@[simp] theorem State.modGrid_lines (s : State) (i : Nat) (g : Grid → Grid) : (s.modGrid i g).lines = s.lines := rfl
@[simp] theorem State.modGrid_mergeDir (s : State) (i : Nat) (g : Grid → Grid) : (s.modGrid i g).mergeDir = s.mergeDir := rfl
@[simp] theorem State.modGrid_slices (s : State) (i : Nat) (g : Grid → Grid) : (s.modGrid i g).slices = s.slices := rfl
@[simp] theorem State.modGrid_pkg (s : State) (i : Nat) (g : Grid → Grid) : (s.modGrid i g).pkg = s.pkg := rfl
@[simp] theorem State.modGrid_dies (s : State) (i : Nat) (g : Grid → Grid) : (s.modGrid i g).dies = s.dies := rfl
@[simp] theorem State.modGrid_cores (s : State) (i : Nat) (g : Grid → Grid) : (s.modGrid i g).cores = s.cores := rfl
@[simp] theorem State.modGrid_ctxs (s : State) (i : Nat) (g : Grid → Grid) : (s.modGrid i g).ctxs = s.ctxs := rfl
@[simp] theorem State.modGrid_ports (s : State) (i : Nat) (g : Grid → Grid) : (s.modGrid i g).ports = s.ports := rfl
@[simp] theorem State.modGrid_grids (s : State) (i : Nat) (g : Grid → Grid) : (s.modGrid i g).grids = tmod s.grids i g := rfl
@[simp] theorem State.modGrid_blocks (s : State) (i : Nat) (g : Grid → Grid) : (s.modGrid i g).blocks = s.blocks := rfl
@[simp] theorem State.modGrid_skeins (s : State) (i : Nat) (g : Grid → Grid) : (s.modGrid i g).skeins = s.skeins := rfl
@[simp] theorem State.modGrid_stairs (s : State) (i : Nat) (g : Grid → Grid) : (s.modGrid i g).stairs = s.stairs := rfl
@[simp] theorem State.modGrid_ual (s : State) (i : Nat) (g : Grid → Grid) : (s.modGrid i g).ual = s.ual := rfl
@[simp] theorem State.modGrid_colls (s : State) (i : Nat) (g : Grid → Grid) : (s.modGrid i g).colls = s.colls := rfl
@[simp] theorem State.modGrid_saved (s : State) (i : Nat) (g : Grid → Grid) : (s.modGrid i g).saved = s.saved := rfl
@[simp] theorem State.modGrid_savedC (s : State) (i : Nat) (g : Grid → Grid) : (s.modGrid i g).savedC = s.savedC := rfl

/-! ### State.post -/

@[simp] theorem State.post_shut (s : State) (i : Instr) : (s.post i).shut = s.shut := rfl
@[simp] theorem State.post_cur (s : State) (i : Instr) : (s.post i).cur = s.cur := rfl
@[simp] theorem State.post_sched (s : State) (i : Instr) : (s.post i).sched = s.sched := rfl
@[simp] theorem State.post_pending (s : State) (i : Instr) : (s.post i).pending = s.pending ++ [i] := rfl
@[simp] theorem State.post_free (s : State) (i : Instr) : (s.post i).free = s.free := rfl
@[simp] theorem State.post_nextId (s : State) (i : Instr) : (s.post i).nextId = s.nextId := rfl
@[simp] theorem State.post_out (s : State) (i : Instr) : (s.post i).out = s.out := rfl
@[simp] theorem State.post_clk (s : State) (i : Instr) : (s.post i).clk = s.clk := rfl
@[simp] theorem State.post_gt (s : State) (i : Instr) : (s.post i).gt = s.gt := rfl
@[simp] theorem State.post_mem (s : State) (i : Instr) : (s.post i).mem = s.mem := rfl
@[simp] theorem State.post_memPoison (s : State) (i : Instr) : (s.post i).memPoison = s.memPoison := rfl
@[simp] theorem State.post_lines (s : State) (i : Instr) : (s.post i).lines = s.lines := rfl
@[simp] theorem State.post_mergeDir (s : State) (i : Instr) : (s.post i).mergeDir = s.mergeDir := rfl
@[simp] theorem State.post_slices (s : State) (i : Instr) : (s.post i).slices = s.slices := rfl
@[simp] theorem State.post_pkg (s : State) (i : Instr) : (s.post i).pkg = s.pkg := rfl
@[simp] theorem State.post_dies (s : State) (i : Instr) : (s.post i).dies = s.dies := rfl
@[simp] theorem State.post_cores (s : State) (i : Instr) : (s.post i).cores = s.cores := rfl
@[simp] theorem State.post_ctxs (s : State) (i : Instr) : (s.post i).ctxs = s.ctxs := rfl
@[simp] theorem State.post_ports (s : State) (i : Instr) : (s.post i).ports = s.ports := rfl
@[simp] theorem State.post_grids (s : State) (i : Instr) : (s.post i).grids = s.grids := rfl
@[simp] theorem State.post_blocks (s : State) (i : Instr) : (s.post i).blocks = s.blocks := rfl
@[simp] theorem State.post_skeins (s : State) (i : Instr) : (s.post i).skeins = s.skeins := rfl
@[simp] theorem State.post_stairs (s : State) (i : Instr) : (s.post i).stairs = s.stairs := rfl
@[simp] theorem State.post_ual (s : State) (i : Instr) : (s.post i).ual = s.ual := rfl
@[simp] theorem State.post_colls (s : State) (i : Instr) : (s.post i).colls = s.colls := rfl
@[simp] theorem State.post_saved (s : State) (i : Instr) : (s.post i).saved = s.saved := rfl
@[simp] theorem State.post_savedC (s : State) (i : Instr) : (s.post i).savedC = s.savedC := rfl

/-! ### State.emit -/

@[simp] theorem State.emit_shut (s : State) (i : Outward) : (s.emit i).shut = s.shut := rfl
@[simp] theorem State.emit_cur (s : State) (i : Outward) : (s.emit i).cur = s.cur := rfl
@[simp] theorem State.emit_sched (s : State) (i : Outward) : (s.emit i).sched = s.sched := rfl
@[simp] theorem State.emit_pending (s : State) (i : Outward) : (s.emit i).pending = s.pending := rfl
@[simp] theorem State.emit_free (s : State) (i : Outward) : (s.emit i).free = s.free := rfl
@[simp] theorem State.emit_nextId (s : State) (i : Outward) : (s.emit i).nextId = s.nextId := rfl
@[simp] theorem State.emit_out (s : State) (i : Outward) : (s.emit i).out = s.out ++ [i] := rfl
@[simp] theorem State.emit_clk (s : State) (i : Outward) : (s.emit i).clk = s.clk := rfl
@[simp] theorem State.emit_gt (s : State) (i : Outward) : (s.emit i).gt = s.gt := rfl
@[simp] theorem State.emit_mem (s : State) (i : Outward) : (s.emit i).mem = s.mem := rfl
@[simp] theorem State.emit_memPoison (s : State) (i : Outward) : (s.emit i).memPoison = s.memPoison := rfl
@[simp] theorem State.emit_lines (s : State) (i : Outward) : (s.emit i).lines = s.lines := rfl
@[simp] theorem State.emit_mergeDir (s : State) (i : Outward) : (s.emit i).mergeDir = s.mergeDir := rfl
@[simp] theorem State.emit_slices (s : State) (i : Outward) : (s.emit i).slices = s.slices := rfl
@[simp] theorem State.emit_pkg (s : State) (i : Outward) : (s.emit i).pkg = s.pkg := rfl
@[simp] theorem State.emit_dies (s : State) (i : Outward) : (s.emit i).dies = s.dies := rfl
@[simp] theorem State.emit_cores (s : State) (i : Outward) : (s.emit i).cores = s.cores := rfl
@[simp] theorem State.emit_ctxs (s : State) (i : Outward) : (s.emit i).ctxs = s.ctxs := rfl
@[simp] theorem State.emit_ports (s : State) (i : Outward) : (s.emit i).ports = s.ports := rfl
@[simp] theorem State.emit_grids (s : State) (i : Outward) : (s.emit i).grids = s.grids := rfl
@[simp] theorem State.emit_blocks (s : State) (i : Outward) : (s.emit i).blocks = s.blocks := rfl
@[simp] theorem State.emit_skeins (s : State) (i : Outward) : (s.emit i).skeins = s.skeins := rfl
@[simp] theorem State.emit_stairs (s : State) (i : Outward) : (s.emit i).stairs = s.stairs := rfl
@[simp] theorem State.emit_ual (s : State) (i : Outward) : (s.emit i).ual = s.ual := rfl
@[simp] theorem State.emit_colls (s : State) (i : Outward) : (s.emit i).colls = s.colls := rfl
@[simp] theorem State.emit_saved (s : State) (i : Outward) : (s.emit i).saved = s.saved := rfl
@[simp] theorem State.emit_savedC (s : State) (i : Outward) : (s.emit i).savedC = s.savedC := rfl

/-! ### State.postOnce: only the list of steps under way changes -/

@[simp] theorem State.postOnce_shut (s : State) (i : Instr) : (s.postOnce i).shut = s.shut := by
  unfold State.postOnce; split <;> rfl
@[simp] theorem State.postOnce_cur (s : State) (i : Instr) : (s.postOnce i).cur = s.cur := by
  unfold State.postOnce; split <;> rfl
@[simp] theorem State.postOnce_sched (s : State) (i : Instr) : (s.postOnce i).sched = s.sched := by
  unfold State.postOnce; split <;> rfl
@[simp] theorem State.postOnce_free (s : State) (i : Instr) : (s.postOnce i).free = s.free := by
  unfold State.postOnce; split <;> rfl
@[simp] theorem State.postOnce_nextId (s : State) (i : Instr) : (s.postOnce i).nextId = s.nextId := by
  unfold State.postOnce; split <;> rfl
@[simp] theorem State.postOnce_out (s : State) (i : Instr) : (s.postOnce i).out = s.out := by
  unfold State.postOnce; split <;> rfl
@[simp] theorem State.postOnce_clk (s : State) (i : Instr) : (s.postOnce i).clk = s.clk := by
  unfold State.postOnce; split <;> rfl
@[simp] theorem State.postOnce_gt (s : State) (i : Instr) : (s.postOnce i).gt = s.gt := by
  unfold State.postOnce; split <;> rfl
@[simp] theorem State.postOnce_mem (s : State) (i : Instr) : (s.postOnce i).mem = s.mem := by
  unfold State.postOnce; split <;> rfl
@[simp] theorem State.postOnce_memPoison (s : State) (i : Instr) : (s.postOnce i).memPoison = s.memPoison := by
  unfold State.postOnce; split <;> rfl
@[simp] theorem State.postOnce_lines (s : State) (i : Instr) : (s.postOnce i).lines = s.lines := by
  unfold State.postOnce; split <;> rfl
@[simp] theorem State.postOnce_mergeDir (s : State) (i : Instr) : (s.postOnce i).mergeDir = s.mergeDir := by
  unfold State.postOnce; split <;> rfl
@[simp] theorem State.postOnce_slices (s : State) (i : Instr) : (s.postOnce i).slices = s.slices := by
  unfold State.postOnce; split <;> rfl
@[simp] theorem State.postOnce_pkg (s : State) (i : Instr) : (s.postOnce i).pkg = s.pkg := by
  unfold State.postOnce; split <;> rfl
@[simp] theorem State.postOnce_dies (s : State) (i : Instr) : (s.postOnce i).dies = s.dies := by
  unfold State.postOnce; split <;> rfl
@[simp] theorem State.postOnce_cores (s : State) (i : Instr) : (s.postOnce i).cores = s.cores := by
  unfold State.postOnce; split <;> rfl
@[simp] theorem State.postOnce_ctxs (s : State) (i : Instr) : (s.postOnce i).ctxs = s.ctxs := by
  unfold State.postOnce; split <;> rfl
@[simp] theorem State.postOnce_ports (s : State) (i : Instr) : (s.postOnce i).ports = s.ports := by
  unfold State.postOnce; split <;> rfl
@[simp] theorem State.postOnce_grids (s : State) (i : Instr) : (s.postOnce i).grids = s.grids := by
  unfold State.postOnce; split <;> rfl
@[simp] theorem State.postOnce_blocks (s : State) (i : Instr) : (s.postOnce i).blocks = s.blocks := by
  unfold State.postOnce; split <;> rfl
@[simp] theorem State.postOnce_skeins (s : State) (i : Instr) : (s.postOnce i).skeins = s.skeins := by
  unfold State.postOnce; split <;> rfl
@[simp] theorem State.postOnce_stairs (s : State) (i : Instr) : (s.postOnce i).stairs = s.stairs := by
  unfold State.postOnce; split <;> rfl
@[simp] theorem State.postOnce_ual (s : State) (i : Instr) : (s.postOnce i).ual = s.ual := by
  unfold State.postOnce; split <;> rfl
@[simp] theorem State.postOnce_colls (s : State) (i : Instr) : (s.postOnce i).colls = s.colls := by
  unfold State.postOnce; split <;> rfl
@[simp] theorem State.postOnce_saved (s : State) (i : Instr) : (s.postOnce i).saved = s.saved := by
  unfold State.postOnce; split <;> rfl
@[simp] theorem State.postOnce_savedC (s : State) (i : Instr) : (s.postOnce i).savedC = s.savedC := by
  unfold State.postOnce; split <;> rfl

/-! ### Parts read back -/

theorem State.ctx_setCtx (s : State) (i j : Nat) (x : Context) : (s.setCtx i x).ctx j = if i = j then x else s.ctx j := by
  simp only [State.ctx, State.setCtx_ctxs, tget_tput]; split <;> rfl
@[simp] theorem State.ctx_setCtx_same (s : State) (i : Nat) (x : Context) : (s.setCtx i x).ctx i = x := by
  simp [State.ctx_setCtx]
theorem State.core_setCore (s : State) (i j : Nat) (x : CoreSt) : (s.setCore i x).core j = if i = j then x else s.core j := by
  simp only [State.core, State.setCore_cores, tget_tput]; split <;> rfl
@[simp] theorem State.core_setCore_same (s : State) (i : Nat) (x : CoreSt) : (s.setCore i x).core i = x := by
  simp [State.core_setCore]
theorem State.die_setDie (s : State) (i j : Nat) (x : Die) : (s.setDie i x).die j = if i = j then x else s.die j := by
  simp only [State.die, State.setDie_dies, tget_tput]; split <;> rfl
@[simp] theorem State.die_setDie_same (s : State) (i : Nat) (x : Die) : (s.setDie i x).die i = x := by
  simp [State.die_setDie]
theorem State.slice_setSlice (s : State) (i j : Nat) (x : Slice) : (s.setSlice i x).slice j = if i = j then x else s.slice j := by
  simp only [State.slice, State.setSlice_slices, tget_tput]; split <;> rfl
@[simp] theorem State.slice_setSlice_same (s : State) (i : Nat) (x : Slice) : (s.setSlice i x).slice i = x := by
  simp [State.slice_setSlice]
theorem State.stair_setStair (s : State) (i j : Nat) (x : Stair) : (s.setStair i x).stair j = if i = j then x else s.stair j := by
  simp only [State.stair, State.setStair_stairs, tget_tput]; split <;> rfl
@[simp] theorem State.stair_setStair_same (s : State) (i : Nat) (x : Stair) : (s.setStair i x).stair i = x := by
  simp [State.stair_setStair]
theorem State.ualPort_setUal (s : State) (i j : Nat) (x : UalPort) : (s.setUal i x).ualPort j = if i = j then x else s.ualPort j := by
  simp only [State.ualPort, State.setUal_ual, tget_tput]; split <;> rfl
@[simp] theorem State.ualPort_setUal_same (s : State) (i : Nat) (x : UalPort) : (s.setUal i x).ualPort i = x := by
  simp [State.ualPort_setUal]
theorem State.ctx_modCtx (s : State) (i j : Nat) (g : Context → Context) :
    (s.modCtx i g).ctx j = if i = j then g (s.ctx i) else s.ctx j := State.ctx_setCtx s i j _
theorem State.core_modCore (s : State) (i j : Nat) (g : CoreSt → CoreSt) :
    (s.modCore i g).core j = if i = j then g (s.core i) else s.core j := State.core_setCore s i j _
theorem State.die_modDie (s : State) (i j : Nat) (g : Die → Die) :
    (s.modDie i g).die j = if i = j then g (s.die i) else s.die j := State.die_setDie s i j _
theorem State.slice_modSlice (s : State) (i j : Nat) (g : Slice → Slice) :
    (s.modSlice i g).slice j = if i = j then g (s.slice i) else s.slice j := State.slice_setSlice s i j _
theorem State.stair_modStair (s : State) (i j : Nat) (g : Stair → Stair) :
    (s.modStair i g).stair j = if i = j then g (s.stair i) else s.stair j := State.stair_setStair s i j _
theorem State.ualPort_modUal (s : State) (i j : Nat) (g : UalPort → UalPort) :
    (s.modUal i g).ualPort j = if i = j then g (s.ualPort i) else s.ualPort j := State.ualPort_setUal s i j _
@[simp] theorem State.ctx_setCore (s : State) (i j : Nat) (x : CoreSt) : (s.setCore i x).ctx j = s.ctx j := rfl
@[simp] theorem State.ctx_setDie (s : State) (i j : Nat) (x : Die) : (s.setDie i x).ctx j = s.ctx j := rfl
@[simp] theorem State.ctx_setSlice (s : State) (i j : Nat) (x : Slice) : (s.setSlice i x).ctx j = s.ctx j := rfl
@[simp] theorem State.ctx_setStair (s : State) (i j : Nat) (x : Stair) : (s.setStair i x).ctx j = s.ctx j := rfl
@[simp] theorem State.ctx_setUal (s : State) (i j : Nat) (x : UalPort) : (s.setUal i x).ctx j = s.ctx j := rfl
@[simp] theorem State.ctx_setSkein (s : State) (i j : Nat) (x : Skein) : (s.setSkein i x).ctx j = s.ctx j := rfl
@[simp] theorem State.ctx_setBlock (s : State) (i j : Nat) (x : Block) : (s.setBlock i x).ctx j = s.ctx j := rfl
@[simp] theorem State.ctx_setGrid (s : State) (i j : Nat) (x : Grid) : (s.setGrid i x).ctx j = s.ctx j := rfl
@[simp] theorem State.ctx_setLine (s : State) (i j : Nat) (x : HomeLine) : (s.setLine i x).ctx j = s.ctx j := rfl
@[simp] theorem State.ctx_modCore (s : State) (i j : Nat) (f : CoreSt → CoreSt) : (s.modCore i f).ctx j = s.ctx j := rfl
@[simp] theorem State.ctx_modDie (s : State) (i j : Nat) (f : Die → Die) : (s.modDie i f).ctx j = s.ctx j := rfl
@[simp] theorem State.ctx_modSlice (s : State) (i j : Nat) (f : Slice → Slice) : (s.modSlice i f).ctx j = s.ctx j := rfl
@[simp] theorem State.ctx_modStair (s : State) (i j : Nat) (f : Stair → Stair) : (s.modStair i f).ctx j = s.ctx j := rfl
@[simp] theorem State.ctx_modUal (s : State) (i j : Nat) (f : UalPort → UalPort) : (s.modUal i f).ctx j = s.ctx j := rfl
@[simp] theorem State.ctx_modSkein (s : State) (i j : Nat) (f : Skein → Skein) : (s.modSkein i f).ctx j = s.ctx j := rfl
@[simp] theorem State.ctx_modBlock (s : State) (i j : Nat) (f : Block → Block) : (s.modBlock i f).ctx j = s.ctx j := rfl
@[simp] theorem State.ctx_modGrid (s : State) (i j : Nat) (f : Grid → Grid) : (s.modGrid i f).ctx j = s.ctx j := rfl
@[simp] theorem State.ctx_post (s : State) (i : Instr) (j : Nat) : (s.post i).ctx j = s.ctx j := rfl
@[simp] theorem State.core_setCtx (s : State) (i j : Nat) (x : Context) : (s.setCtx i x).core j = s.core j := rfl
@[simp] theorem State.core_setDie (s : State) (i j : Nat) (x : Die) : (s.setDie i x).core j = s.core j := rfl
@[simp] theorem State.core_setSlice (s : State) (i j : Nat) (x : Slice) : (s.setSlice i x).core j = s.core j := rfl
@[simp] theorem State.core_setStair (s : State) (i j : Nat) (x : Stair) : (s.setStair i x).core j = s.core j := rfl
@[simp] theorem State.core_setUal (s : State) (i j : Nat) (x : UalPort) : (s.setUal i x).core j = s.core j := rfl
@[simp] theorem State.core_setSkein (s : State) (i j : Nat) (x : Skein) : (s.setSkein i x).core j = s.core j := rfl
@[simp] theorem State.core_setBlock (s : State) (i j : Nat) (x : Block) : (s.setBlock i x).core j = s.core j := rfl
@[simp] theorem State.core_setGrid (s : State) (i j : Nat) (x : Grid) : (s.setGrid i x).core j = s.core j := rfl
@[simp] theorem State.core_setLine (s : State) (i j : Nat) (x : HomeLine) : (s.setLine i x).core j = s.core j := rfl
@[simp] theorem State.core_modCtx (s : State) (i j : Nat) (f : Context → Context) : (s.modCtx i f).core j = s.core j := rfl
@[simp] theorem State.core_modDie (s : State) (i j : Nat) (f : Die → Die) : (s.modDie i f).core j = s.core j := rfl
@[simp] theorem State.core_modSlice (s : State) (i j : Nat) (f : Slice → Slice) : (s.modSlice i f).core j = s.core j := rfl
@[simp] theorem State.core_modStair (s : State) (i j : Nat) (f : Stair → Stair) : (s.modStair i f).core j = s.core j := rfl
@[simp] theorem State.core_modUal (s : State) (i j : Nat) (f : UalPort → UalPort) : (s.modUal i f).core j = s.core j := rfl
@[simp] theorem State.core_modSkein (s : State) (i j : Nat) (f : Skein → Skein) : (s.modSkein i f).core j = s.core j := rfl
@[simp] theorem State.core_modBlock (s : State) (i j : Nat) (f : Block → Block) : (s.modBlock i f).core j = s.core j := rfl
@[simp] theorem State.core_modGrid (s : State) (i j : Nat) (f : Grid → Grid) : (s.modGrid i f).core j = s.core j := rfl
@[simp] theorem State.core_post (s : State) (i : Instr) (j : Nat) : (s.post i).core j = s.core j := rfl
@[simp] theorem State.die_setCtx (s : State) (i j : Nat) (x : Context) : (s.setCtx i x).die j = s.die j := rfl
@[simp] theorem State.die_setCore (s : State) (i j : Nat) (x : CoreSt) : (s.setCore i x).die j = s.die j := rfl
@[simp] theorem State.die_setSlice (s : State) (i j : Nat) (x : Slice) : (s.setSlice i x).die j = s.die j := rfl
@[simp] theorem State.die_setStair (s : State) (i j : Nat) (x : Stair) : (s.setStair i x).die j = s.die j := rfl
@[simp] theorem State.die_setUal (s : State) (i j : Nat) (x : UalPort) : (s.setUal i x).die j = s.die j := rfl
@[simp] theorem State.die_setSkein (s : State) (i j : Nat) (x : Skein) : (s.setSkein i x).die j = s.die j := rfl
@[simp] theorem State.die_setBlock (s : State) (i j : Nat) (x : Block) : (s.setBlock i x).die j = s.die j := rfl
@[simp] theorem State.die_setGrid (s : State) (i j : Nat) (x : Grid) : (s.setGrid i x).die j = s.die j := rfl
@[simp] theorem State.die_setLine (s : State) (i j : Nat) (x : HomeLine) : (s.setLine i x).die j = s.die j := rfl
@[simp] theorem State.die_modCtx (s : State) (i j : Nat) (f : Context → Context) : (s.modCtx i f).die j = s.die j := rfl
@[simp] theorem State.die_modCore (s : State) (i j : Nat) (f : CoreSt → CoreSt) : (s.modCore i f).die j = s.die j := rfl
@[simp] theorem State.die_modSlice (s : State) (i j : Nat) (f : Slice → Slice) : (s.modSlice i f).die j = s.die j := rfl
@[simp] theorem State.die_modStair (s : State) (i j : Nat) (f : Stair → Stair) : (s.modStair i f).die j = s.die j := rfl
@[simp] theorem State.die_modUal (s : State) (i j : Nat) (f : UalPort → UalPort) : (s.modUal i f).die j = s.die j := rfl
@[simp] theorem State.die_modSkein (s : State) (i j : Nat) (f : Skein → Skein) : (s.modSkein i f).die j = s.die j := rfl
@[simp] theorem State.die_modBlock (s : State) (i j : Nat) (f : Block → Block) : (s.modBlock i f).die j = s.die j := rfl
@[simp] theorem State.die_modGrid (s : State) (i j : Nat) (f : Grid → Grid) : (s.modGrid i f).die j = s.die j := rfl
@[simp] theorem State.die_post (s : State) (i : Instr) (j : Nat) : (s.post i).die j = s.die j := rfl
@[simp] theorem State.slice_setCtx (s : State) (i j : Nat) (x : Context) : (s.setCtx i x).slice j = s.slice j := rfl
@[simp] theorem State.slice_setCore (s : State) (i j : Nat) (x : CoreSt) : (s.setCore i x).slice j = s.slice j := rfl
@[simp] theorem State.slice_setDie (s : State) (i j : Nat) (x : Die) : (s.setDie i x).slice j = s.slice j := rfl
@[simp] theorem State.slice_setStair (s : State) (i j : Nat) (x : Stair) : (s.setStair i x).slice j = s.slice j := rfl
@[simp] theorem State.slice_setUal (s : State) (i j : Nat) (x : UalPort) : (s.setUal i x).slice j = s.slice j := rfl
@[simp] theorem State.slice_setSkein (s : State) (i j : Nat) (x : Skein) : (s.setSkein i x).slice j = s.slice j := rfl
@[simp] theorem State.slice_setBlock (s : State) (i j : Nat) (x : Block) : (s.setBlock i x).slice j = s.slice j := rfl
@[simp] theorem State.slice_setGrid (s : State) (i j : Nat) (x : Grid) : (s.setGrid i x).slice j = s.slice j := rfl
@[simp] theorem State.slice_setLine (s : State) (i j : Nat) (x : HomeLine) : (s.setLine i x).slice j = s.slice j := rfl
@[simp] theorem State.slice_modCtx (s : State) (i j : Nat) (f : Context → Context) : (s.modCtx i f).slice j = s.slice j := rfl
@[simp] theorem State.slice_modCore (s : State) (i j : Nat) (f : CoreSt → CoreSt) : (s.modCore i f).slice j = s.slice j := rfl
@[simp] theorem State.slice_modDie (s : State) (i j : Nat) (f : Die → Die) : (s.modDie i f).slice j = s.slice j := rfl
@[simp] theorem State.slice_modStair (s : State) (i j : Nat) (f : Stair → Stair) : (s.modStair i f).slice j = s.slice j := rfl
@[simp] theorem State.slice_modUal (s : State) (i j : Nat) (f : UalPort → UalPort) : (s.modUal i f).slice j = s.slice j := rfl
@[simp] theorem State.slice_modSkein (s : State) (i j : Nat) (f : Skein → Skein) : (s.modSkein i f).slice j = s.slice j := rfl
@[simp] theorem State.slice_modBlock (s : State) (i j : Nat) (f : Block → Block) : (s.modBlock i f).slice j = s.slice j := rfl
@[simp] theorem State.slice_modGrid (s : State) (i j : Nat) (f : Grid → Grid) : (s.modGrid i f).slice j = s.slice j := rfl
@[simp] theorem State.slice_post (s : State) (i : Instr) (j : Nat) : (s.post i).slice j = s.slice j := rfl
@[simp] theorem State.stair_setCtx (s : State) (i j : Nat) (x : Context) : (s.setCtx i x).stair j = s.stair j := rfl
@[simp] theorem State.stair_setCore (s : State) (i j : Nat) (x : CoreSt) : (s.setCore i x).stair j = s.stair j := rfl
@[simp] theorem State.stair_setDie (s : State) (i j : Nat) (x : Die) : (s.setDie i x).stair j = s.stair j := rfl
@[simp] theorem State.stair_setSlice (s : State) (i j : Nat) (x : Slice) : (s.setSlice i x).stair j = s.stair j := rfl
@[simp] theorem State.stair_setUal (s : State) (i j : Nat) (x : UalPort) : (s.setUal i x).stair j = s.stair j := rfl
@[simp] theorem State.stair_setSkein (s : State) (i j : Nat) (x : Skein) : (s.setSkein i x).stair j = s.stair j := rfl
@[simp] theorem State.stair_setBlock (s : State) (i j : Nat) (x : Block) : (s.setBlock i x).stair j = s.stair j := rfl
@[simp] theorem State.stair_setGrid (s : State) (i j : Nat) (x : Grid) : (s.setGrid i x).stair j = s.stair j := rfl
@[simp] theorem State.stair_setLine (s : State) (i j : Nat) (x : HomeLine) : (s.setLine i x).stair j = s.stair j := rfl
@[simp] theorem State.stair_modCtx (s : State) (i j : Nat) (f : Context → Context) : (s.modCtx i f).stair j = s.stair j := rfl
@[simp] theorem State.stair_modCore (s : State) (i j : Nat) (f : CoreSt → CoreSt) : (s.modCore i f).stair j = s.stair j := rfl
@[simp] theorem State.stair_modDie (s : State) (i j : Nat) (f : Die → Die) : (s.modDie i f).stair j = s.stair j := rfl
@[simp] theorem State.stair_modSlice (s : State) (i j : Nat) (f : Slice → Slice) : (s.modSlice i f).stair j = s.stair j := rfl
@[simp] theorem State.stair_modUal (s : State) (i j : Nat) (f : UalPort → UalPort) : (s.modUal i f).stair j = s.stair j := rfl
@[simp] theorem State.stair_modSkein (s : State) (i j : Nat) (f : Skein → Skein) : (s.modSkein i f).stair j = s.stair j := rfl
@[simp] theorem State.stair_modBlock (s : State) (i j : Nat) (f : Block → Block) : (s.modBlock i f).stair j = s.stair j := rfl
@[simp] theorem State.stair_modGrid (s : State) (i j : Nat) (f : Grid → Grid) : (s.modGrid i f).stair j = s.stair j := rfl
@[simp] theorem State.stair_post (s : State) (i : Instr) (j : Nat) : (s.post i).stair j = s.stair j := rfl
@[simp] theorem State.ualPort_setCtx (s : State) (i j : Nat) (x : Context) : (s.setCtx i x).ualPort j = s.ualPort j := rfl
@[simp] theorem State.ualPort_setCore (s : State) (i j : Nat) (x : CoreSt) : (s.setCore i x).ualPort j = s.ualPort j := rfl
@[simp] theorem State.ualPort_setDie (s : State) (i j : Nat) (x : Die) : (s.setDie i x).ualPort j = s.ualPort j := rfl
@[simp] theorem State.ualPort_setSlice (s : State) (i j : Nat) (x : Slice) : (s.setSlice i x).ualPort j = s.ualPort j := rfl
@[simp] theorem State.ualPort_setStair (s : State) (i j : Nat) (x : Stair) : (s.setStair i x).ualPort j = s.ualPort j := rfl
@[simp] theorem State.ualPort_setSkein (s : State) (i j : Nat) (x : Skein) : (s.setSkein i x).ualPort j = s.ualPort j := rfl
@[simp] theorem State.ualPort_setBlock (s : State) (i j : Nat) (x : Block) : (s.setBlock i x).ualPort j = s.ualPort j := rfl
@[simp] theorem State.ualPort_setGrid (s : State) (i j : Nat) (x : Grid) : (s.setGrid i x).ualPort j = s.ualPort j := rfl
@[simp] theorem State.ualPort_setLine (s : State) (i j : Nat) (x : HomeLine) : (s.setLine i x).ualPort j = s.ualPort j := rfl
@[simp] theorem State.ualPort_modCtx (s : State) (i j : Nat) (f : Context → Context) : (s.modCtx i f).ualPort j = s.ualPort j := rfl
@[simp] theorem State.ualPort_modCore (s : State) (i j : Nat) (f : CoreSt → CoreSt) : (s.modCore i f).ualPort j = s.ualPort j := rfl
@[simp] theorem State.ualPort_modDie (s : State) (i j : Nat) (f : Die → Die) : (s.modDie i f).ualPort j = s.ualPort j := rfl
@[simp] theorem State.ualPort_modSlice (s : State) (i j : Nat) (f : Slice → Slice) : (s.modSlice i f).ualPort j = s.ualPort j := rfl
@[simp] theorem State.ualPort_modStair (s : State) (i j : Nat) (f : Stair → Stair) : (s.modStair i f).ualPort j = s.ualPort j := rfl
@[simp] theorem State.ualPort_modSkein (s : State) (i j : Nat) (f : Skein → Skein) : (s.modSkein i f).ualPort j = s.ualPort j := rfl
@[simp] theorem State.ualPort_modBlock (s : State) (i j : Nat) (f : Block → Block) : (s.modBlock i f).ualPort j = s.ualPort j := rfl
@[simp] theorem State.ualPort_modGrid (s : State) (i j : Nat) (f : Grid → Grid) : (s.modGrid i f).ualPort j = s.ualPort j := rfl
@[simp] theorem State.ualPort_post (s : State) (i : Instr) (j : Nat) : (s.post i).ualPort j = s.ualPort j := rfl

end Sys2Proof.Machine
end

