-- ==== Sys2Proof/Laws/Issue.lean ====
section
/-! SUPPORT. What the issue of an instruction can do (R95, R98, R99, R107): a word that may issue runs its meaning, and a
meaning that completes leaves the frame of `LaneStep`. The lemmas on operands and results say what each write does. -/

namespace Sys2Proof.Machine

/-! ## The checks -/

theorem bits_zero (ls : List Nat) (os : List (Nat × (Nat → Bool))) (n : Nat) :
    os.foldl (fun a o => if ls.any o.2 then a + 2 ^ o.1 else a) n = 0 ↔ n = 0 ∧ os.all (fun o => !ls.any o.2) := by
  induction os generalizing n with
  | nil => simp
  | cons o os ih =>
    rw [List.foldl_cons, ih]
    have : 0 < 2 ^ o.1 := Nat.two_pow_pos _
    by_cases h : ls.any o.2 = true
    · simp only [h, if_true, List.all_cons, Bool.not_true, Bool.false_and]
      constructor
      · rintro ⟨h1, -⟩; omega
      · rintro ⟨-, h2⟩; exact absurd h2 (by simp)
    · simp [h]

/-- Operands that are clean give no POISON trap. -/
theorem Iss.poisoned_none (c : Iss) (os : List (Nat × (Nat → Bool))) :
    c.poisoned os = none ↔ c.clean (os.map Prod.snd) = true := by
  have hc : c.clean (os.map Prod.snd) = os.all (fun o => c.lanes.all fun l => !o.2 l) := by
    simp only [Iss.clean, List.all_map, Function.comp_def]
  rw [hc]
  unfold Iss.poisoned
  have := bits_zero c.lanes os 0
  simp only [true_and] at this
  have e : (os.all fun o => !c.lanes.any o.2) = os.all (fun o => c.lanes.all fun l => !o.2 l) := by
    congr; funext o; rw [List.not_any_eq_all_not]
  rw [e] at this
  by_cases h : (os.all fun o => c.lanes.all fun l => !o.2 l) = true
  · simp only [this.2 h, if_true, h]
  · have h' : ¬ (os.foldl (fun a o => if c.lanes.any o.2 then a + 2 ^ o.1 else a) 0 = 0) := fun q => h (this.1 q)
    simp only [h', if_false, h, reduceCtorEq]

/-- What `mayIssue` says. -/
theorem State.mayIssue_iff (s : State) (h : Ctl) (u : Uses) (k : Skein) :
    s.mayIssue h u k = true ↔ tget s.skeins s.cur = some k ∧ k.park = .no ∧ u.outOfRange k.regCount = none
      ∧ u.unbound (s.iss h k).b = none ∧ flagsReady k h = true ∧ u.locked k = false
      ∧ (u.touchesHall && k.loads.any (·.acq)) = false ∧ k.active h ≠ 0 ∧ u.blocked (s.iss h k).b = none
      ∧ (u.push.isNone || s.settled k) = true := by
  simp only [State.mayIssue, Bool.and_eq_true, beq_iff_eq, Bool.not_eq_true', bne_iff_ne, ne_eq, and_assoc]

/-- Where a skein has nothing outstanding, a release goes on in the state as it stands (R196). -/
theorem Iss.release_settled {c : Iss} (hid : c.id = c.s.cur) (h : c.s.settled c.k = true) :
    c.release = .ok (c.at (c.s.flush c.k.core c.id)) ∧ c.s.flush c.k.core c.id = c.s := by
  simp only [State.settled, State.quiet, Bool.and_eq_true, Bool.not_eq_true', List.any_eq_false] at h
  obtain ⟨⟨hl, hf, hp⟩, ho⟩ := h
  have hp1 : c.s.pending.filter (isWriteAckOf c.k.core) = [] := List.filter_eq_nil_iff.2 fun i hi => by
    have := hp i hi; simp only [Bool.or_eq_true, not_or] at this; exact this.2
  have hp2 : c.s.pending.filter (isWriteOf c.k.core) = [] := List.filter_eq_nil_iff.2 fun i hi => by
    have := hp i hi; simp only [Bool.or_eq_true, not_or] at this; exact this.1
  have hp3 : (c.s.pending.filter fun i => !(isWriteAckOf c.k.core i || isWriteOf c.k.core i)) = c.s.pending :=
    List.filter_eq_self.2 fun i hi => by
      have := hp i hi; simp only [Bool.or_eq_true, not_or] at this; simp [this.1, this.2]
  have hf' := hf
  simp only [State.flushed, Bool.and_eq_true, Bool.not_eq_true', List.any_eq_false] at hf'
  have hs : (c.s.core c.k.core).scb.filter (fun e => !e.sent && e.writers.contains c.id) = [] :=
    List.filter_eq_nil_iff.2 fun e he => by
      have := hf'.1.1 e he
      rw [hid, Bool.and_eq_true, not_and]
      exact fun _ => this
  have hr : (c.s.core c.k.core).recWait.filter (fun r => r.sk == c.id) = [] :=
    List.filter_eq_nil_iff.2 fun r hr => by have := hf'.1.2 r hr; rw [hid]; exact this
  have e : c.s.flush c.k.core c.id = c.s := by
    simp only [State.flush, State.landWrites, hp1, hp2, hp3, List.nil_append, List.foldl_nil, hs, State.enterRecords, hr,
      List.take_nil, List.isEmpty_nil, if_true]
  refine ⟨?_, e⟩
  simp only [Iss.release, e]
  simp only [State.performed, hid, hf, hl, ho, Bool.not_true, Bool.not_false, Bool.and_self, Bool.or_self,
    Bool.false_eq_true, if_false]

/-- A push finds nothing outstanding where the word may issue. -/
theorem Iss.beforePush_ready {c : Iss} {u : Uses} (hid : c.id = c.s.cur) (h : (u.push.isNone || c.s.settled c.k) = true)
    (hat : c.at c.s = c) : c.beforePush u = .ok c := by
  unfold Iss.beforePush
  cases hu : u.push with
  | none => simp
  | some n =>
    have hs : c.s.settled c.k = true := by simpa [hu] using h
    obtain ⟨h1, h2⟩ := Iss.release_settled hid hs
    simp [h1, h2, hat]

/-- A word that may issue, and that is not privileged where it stands, runs its meaning. -/
theorem issue_ready {h : Ctl} {u : Uses} {body : Iss → Act} {s : State} {k : Skein} {priv : Skein → Option Trap}
    {whole : Bool} (hr : s.mayIssue h u k = true) (hp : priv k = none) :
    issue h u body s priv whole = .next (settleAct (s.iss h k) u (body (s.iss h k))) := by
  obtain ⟨h1, -, h2, h3, h4, h5, ha, h6, h7, hq⟩ := (State.mayIssue_iff s h u k).1 hr
  have h3' : u.unbound ((tget s.blocks k.blk).getD {}) = none := h3
  have h7' : u.blocked ((tget s.blocks k.blk).getD {}) = none := h7
  have h6' : (k.active h == 0) = false := by simpa using h6
  have hb := Iss.beforePush_ready (c := s.iss h k) (u := u) rfl hq (by
    simp only [Iss.at, State.iss, h1, Option.getD_some]
    cases tget s.blocks k.blk <;> rfl)
  simp only [State.iss] at hb
  simp only [issue, h1, hp, h2, h3', h4, h5, h7', h6', ha, State.iss, hb]
  simp

/-! ## What has been touched while the meaning runs -/

/-- What the lane operations of a meaning leave alone. -/
structure Touched (s s' : State) (k k' : Skein) (pb : Block → Block) (gains : List (Nat × Nat)) : Prop where
  here : tget s'.skeins s.cur = some k'
  same : k' = { k with clockh := k'.clockh, regs := k'.regs, preds := k'.preds, fpcsr := k'.fpcsr }
  skeins : ∀ i, i ≠ s.cur → tget s'.skeins i = tget s.skeins i
  block : ∀ b, tget s.blocks k.blk = some b → tget s'.blocks k.blk = some (pb b)
  blocks : ∀ i, i ≠ k.blk → tget s'.blocks i = tget s.blocks i
  counts : k.ctx < 256 → ∀ i, s'.count k.ctx i = s.count k.ctx i + gainOf gains i
  ctx : { s'.ctx k.ctx with meter := [] } = { s.ctx k.ctx with meter := [] }
  ctxs : ∀ c, c ≠ k.ctx → s'.ctx c = s.ctx c
  rest : s' = { s with skeins := s'.skeins, blocks := s'.blocks, ctxs := s'.ctxs }

theorem Touched.refl {s : State} {k : Skein} (h : tget s.skeins s.cur = some k) : Touched s s k k id [] :=
  { here := h, same := rfl, skeins := fun _ _ => rfl, block := fun _ h => h, blocks := fun _ _ => rfl,
    counts := fun _ _ => by simp [gainOf], ctx := rfl, ctxs := fun _ _ => rfl, rest := rfl }

theorem Touched.cur {s s' : State} {k k' : Skein} {pb : Block → Block} {gs : List (Nat × Nat)}
    (h : Touched s s' k k' pb gs) : s'.cur = s.cur := by rw [h.rest]

/-- The skein replaced by one that differs in what a lane instruction may write. -/
theorem Touched.skein {s s' : State} {k k' k'' : Skein} {pb : Block → Block} {gs : List (Nat × Nat)}
    (h : Touched s s' k k' pb gs)
    (e : k'' = { k' with clockh := k''.clockh, regs := k''.regs, preds := k''.preds, fpcsr := k''.fpcsr }) :
    Touched s (s'.setSkein s.cur k'') k k'' pb gs where
  here := by simp
  same := by rw [e, h.same]
  skeins i hi := by simp [tget_tput_other _ _ (Ne.symm hi), h.skeins i hi]
  block := h.block
  blocks := h.blocks
  counts := h.counts
  ctx := h.ctx
  ctxs := h.ctxs
  rest := by simp only [State.setSkein]; rw [h.rest]

/-- The block replaced. -/
theorem Touched.setBlock {s s' : State} {k k' : Skein} {pb : Block → Block} {gs : List (Nat × Nat)}
    (h : Touched s s' k k' pb gs) (f : Block → Block) (x : Block)
    (hx : ∀ b, tget s.blocks k.blk = some b → x = f (pb b)) :
    Touched s (s'.setBlock k.blk x) k k' (fun b => f (pb b)) gs where
  here := h.here
  same := h.same
  skeins := h.skeins
  block b hb := by simp [← hx b hb]
  blocks i hi := by simp [tget_tput_other _ _ (Ne.symm hi), h.blocks i hi]
  counts := h.counts
  ctx := h.ctx
  ctxs := h.ctxs
  rest := by simp only [State.setBlock]; rw [h.rest]

/-! ## The meter -/

theorem gainOf_append (a b : List (Nat × Nat)) (i : Nat) : gainOf (a ++ b) i = gainOf a i + gainOf b i := by
  simp [gainOf, List.filter_append]

/-- One gain. -/
theorem State.meterAdd_count (s : State) (c i n c' j : Nat) :
    (s.meterAdd c i n).count c' j = s.count c' j + if c = c' ∧ c < 256 ∧ i = j then n else 0 := by
  unfold State.meterAdd
  by_cases h : n = 0 ∨ 256 ≤ c
  · rcases h with h | h
    · simp [h]
    · have : ¬ c < 256 := by omega
      simp [h, this]
  · rw [not_or] at h
    have h2 : c < 256 := by omega
    simp only [h.1, h.2, decide_false, Bool.or_self, if_false, State.count, State.ctx_modCtx, h2, true_and, Bool.false_eq_true]
    by_cases hc : c = c'
    · subst hc
      by_cases hi : i = j
      · subst hi; simp
      · simp [tget_tput_other _ _ hi, hi]
    · simp [hc]

theorem State.meterAdd_ctx (s : State) (c i n c' : Nat) :
    { (s.meterAdd c i n).ctx c' with meter := [] } = { s.ctx c' with meter := [] } := by
  unfold State.meterAdd
  split
  · rfl
  · rw [State.ctx_modCtx]; split
    · subst_vars; rfl
    · rfl

theorem State.meterAdd_ctx_other (s : State) (c i n c' : Nat) (h : c' ≠ c) : (s.meterAdd c i n).ctx c' = s.ctx c' := by
  unfold State.meterAdd
  split
  · rfl
  · rw [State.ctx_modCtx, if_neg (Ne.symm h)]

/-- A gain changes nothing but contexts. -/
theorem State.meterAdd_rest (s : State) (c i n : Nat) : s.meterAdd c i n = { s with ctxs := (s.meterAdd c i n).ctxs } := by
  unfold State.meterAdd; split <;> rfl

theorem Touched.meterAdd {s s' : State} {k k' : Skein} {pb : Block → Block} {gs : List (Nat × Nat)}
    (h : Touched s s' k k' pb gs) (i n : Nat) : Touched s (s'.meterAdd k.ctx i n) k k' pb (gs ++ [(i, n)]) := by
  have e := State.meterAdd_rest s' k.ctx i n
  refine { here := ?_, same := h.same, skeins := ?_, block := ?_, blocks := ?_, counts := ?_, ctx := ?_, ctxs := ?_,
           rest := ?_ }
  · rw [e]; exact h.here
  · rw [e]; exact h.skeins
  · rw [e]; exact h.block
  · rw [e]; exact h.blocks
  · intro hc j
    rw [State.meterAdd_count, h.counts hc, gainOf_append]
    by_cases hj : i = j <;> simp [gainOf, hj, hc, Nat.add_assoc]
  · rw [State.meterAdd_ctx, h.ctx]
  · intro c hc; rw [State.meterAdd_ctx_other _ _ _ _ _ hc, h.ctxs c hc]
  · rw [e, h.rest]

theorem Touched.meterAll {s s' : State} {k k' : Skein} {pb : Block → Block} {gs : List (Nat × Nat)}
    (h : Touched s s' k k' pb gs) (ns : List (Nat × Nat)) : Touched s (s'.meterAll k.ctx ns) k k' pb (gs ++ ns) := by
  induction ns generalizing s' gs with
  | nil => simpa [State.meterAll] using h
  | cons n ns ih =>
    obtain ⟨i, m⟩ := n
    simpa [State.meterAll] using ih (h.meterAdd i m)

/-! ## Posts -/

theorem State.postOnce_pending (s : State) (i : Instr) : ∃ l, (s.postOnce i).pending = s.pending ++ l := by
  unfold State.postOnce
  split
  · exact ⟨[], by simp⟩
  · exact ⟨[i], rfl⟩

theorem State.postOnce_rest (s : State) (i : Instr) : s.postOnce i = { s with pending := (s.postOnce i).pending } := by
  unfold State.postOnce; split <;> rfl

/-- A loop of updates that only post has only posted. -/
theorem foldl_posts {α : Type} (f : State → α → State) (xs : List α)
    (hf : ∀ s x, (∃ l, (f s x).pending = s.pending ++ l) ∧ f s x = { s with pending := (f s x).pending }) (s : State) :
    (∃ l, (xs.foldl f s).pending = s.pending ++ l) ∧ xs.foldl f s = { s with pending := (xs.foldl f s).pending } := by
  induction xs generalizing s with
  | nil => exact ⟨⟨[], by simp⟩, rfl⟩
  | cons x xs ih =>
    obtain ⟨⟨l, hl⟩, he⟩ := hf s x
    obtain ⟨⟨m, hm⟩, hn⟩ := ih (f s x)
    refine ⟨⟨l ++ m, ?_⟩, ?_⟩
    · rw [List.foldl_cons, hm, hl, List.append_assoc]
    · rw [List.foldl_cons, hn, he]

/-- A count wait that is noted over stays so. -/
theorem Stirred.trans {m : Bool} {a b c : Option Skein} (h : Stirred m a b) (h' : Stirred m b c) : Stirred m a c := by
  rcases h with rfl | ⟨hm, k, rfl, hk, rfl⟩
  · exact h'
  · rcases h' with rfl | ⟨-, k', hk', -, rfl⟩
    · exact .inr ⟨hm, k, rfl, hk, rfl⟩
    · cases hk'; exact .inr ⟨hm, k, rfl, hk, rfl⟩

/-- A skein that is not parked is as it was. -/
theorem Stirred.here {m : Bool} {k : Skein} {b : Option Skein} (h : Stirred m (some k) b) (hk : k.park = .no) :
    b = some k := by
  rcases h with h | ⟨-, k', he, hp, -⟩
  · exact h
  · cases he; exact absurd hk hp

/-- What stirring the skeins of a block may change: posts, and which count waits are noted over. -/
def Roused (s t : State) : Prop :=
  (∃ l, t.pending = s.pending ++ l) ∧ t = { s with skeins := t.skeins, pending := t.pending }
    ∧ ∀ i, Stirred true (tget s.skeins i) (tget t.skeins i)

theorem Roused.refl (s : State) : Roused s s := ⟨⟨[], by simp⟩, rfl, fun _ => .inl rfl⟩

theorem Roused.trans {a b c : State} (h : Roused a b) (h' : Roused b c) : Roused a c := by
  obtain ⟨⟨l, hl⟩, he, hs⟩ := h
  obtain ⟨⟨m, hm⟩, hn, ht⟩ := h'
  refine ⟨⟨l ++ m, by rw [hm, hl, List.append_assoc]⟩, ?_, fun i => (hs i).trans (ht i)⟩
  rw [hn, he]

theorem Roused.post (s : State) (i : Instr) : Roused s (s.postOnce i) :=
  ⟨State.postOnce_pending s i, by rw [State.postOnce_rest], fun _ => .inl (by rw [State.postOnce_rest])⟩

theorem Roused.meet {s : State} {i : Nat} {k : Skein} (h : tget s.skeins i = some k) (hk : k.park ≠ .no) :
    Roused s (s.modSkein i fun k => { k with met := true }) := by
  refine ⟨⟨[], by simp⟩, rfl, fun j => ?_⟩
  by_cases hj : i = j
  · subst hj; exact .inr ⟨rfl, k, h, hk, by simp [h]⟩
  · exact .inl (by simp [tget_tmod_other _ _ hj])

/-- The skeins of a block are asked to look again. -/
theorem State.stir_roused (s : State) (b : Nat) : Roused s (s.stir b) := by
  unfold State.stir
  split
  · exact .refl s
  · rename_i x _
    have step : ∀ (t : State) (i : Nat), Roused t (match tget t.skeins i with
      | some k => (match k.park with
        | .word _ _ _ _ | .chan _ _ _ => t.postOnce (.skeinWake i)
        | .countHall _ _ off n =>
          if n.toNat ≤ x.hallNat false off 8 then (t.modSkein i fun k => { k with met := true }).postOnce (.skeinWake i)
          else t
        | _ => t)
      | none => t) := by
      intro t i
      split
      · rename_i k hk
        split
        · exact .post _ _
        · exact .post _ _
        · rename_i hp
          split
          · exact (Roused.meet hk (by simp [hp])).trans (.post _ _)
          · exact .refl _
        · exact .refl _
      · exact .refl _
    clear * - step
    generalize x.skeins = xs
    induction xs generalizing s with
    | nil => exact .refl s
    | cons i xs ih => rw [List.foldl_cons]; exact (step s i).trans (ih _)

theorem State.postStall_posts (s : State) (sk : Nat) (h : Ctl) :
    (∃ l, (s.postStall sk h).pending = s.pending ++ l) ∧ s.postStall sk h = { s with pending := (s.postStall sk h).pending } := by
  unfold State.postStall
  split
  · exact ⟨⟨[], by simp⟩, rfl⟩
  · exact ⟨⟨_, rfl⟩, rfl⟩

/-! ## A meaning that completes -/

/-- Posts alone keep what has been touched, and are what has been posted. -/
theorem posts_trans {a b c : State} (h : ∃ l, b.pending = a.pending ++ l) (h' : ∃ l, c.pending = b.pending ++ l) :
    ∃ l, c.pending = a.pending ++ l := by
  obtain ⟨l, hl⟩ := h
  obtain ⟨m, hm⟩ := h'
  exact ⟨l ++ m, by rw [hm, hl, List.append_assoc]⟩

theorem Skein.flag_flagUp (k : Skein) (f g : Nat) : (k.flagUp f).flag g = k.flag g + if f = g then 1 else 0 := by
  simp only [Skein.flagUp, Skein.flag, tget_tput]
  by_cases h : f = g
  · subst h; simp
  · simp [h]

/-- What `finish` does to the skein. -/
def finishSkein (h : Ctl) (u : Uses) (clk : Nat) (late : Bool) (k : Skein) : Skein :=
  let k := (k.step h).issued clk h.yld
  let k := if u.readsClock then { k with clockh := BitVec.ofNat 32 (clk / 2 ^ 32) } else k
  match late, Ctl.flag h with
  | true, some f => k.flagUp f
  | _, _ => k

/-- What `finish` posts for a result that lands later. -/
def finishLate (c : Iss) (late : Bool) (op : Option Nat) (s : State) : State :=
  match late, Ctl.flag c.h, op with
  | true, some f, o => (s.modSkein c.id fun k => k.flagUp f).post (.resultLand c.id ⟨some f, o⟩)
  | true, none, some i => s.post (.resultLand c.id ⟨none, some i⟩)
  | _, _, _ => s

theorem finishSkein_keeps (h : Ctl) (u : Uses) (clk : Nat) (late : Bool) (k : Skein) :
    finishSkein h u clk late k = { k with
      pc := pcNext k.pc, stall := h.stall.toNat, readyAt := clk, waited := none, promoted := none, leave := .no,
      met := false, yielded := h.yld, clockh := if u.readsClock then BitVec.ofNat 32 (clk / 2 ^ 32) else k.clockh,
      flags := (finishSkein h u clk late k).flags } := by
  unfold finishSkein
  cases late <;> cases e : Ctl.flag h <;> by_cases hr : u.readsClock = true <;>
    simp [hr, Skein.flagUp, Skein.issued, Skein.step]

theorem finishSkein_flag (h : Ctl) (u : Uses) (clk : Nat) (late : Bool) (k : Skein) (f : Nat) :
    (finishSkein h u clk late k).flag f = k.flag f + if late && Ctl.flag h == some f then 1 else 0 := by
  unfold finishSkein
  cases late <;> cases e : Ctl.flag h <;> by_cases hr : u.readsClock = true <;>
    simp [hr, Skein.issued, Skein.step, Skein.flag]
  all_goals (rename_i g; by_cases hf : g = f <;> simp [hf, Skein.flagUp, Skein.flag, tget_tput])

/-- The frame of `finish`. -/
theorem finish_lane {s : State} {k k' : Skein} {pb : Block → Block} {gs : List (Nat × Nat)} {c : Iss} {u : Uses}
    {clocked late : Bool} {op : Option Nat} (h : Touched s c.s k k' pb gs) (hpark : k.park = .no) (hid : c.id = s.cur) (hb : c.k.blk = k.blk) (hc : c.k.ctx = k.ctx)
    (hclk : clocked = (u.readsClock || clocked))
    (hk : u.readsClock = false → k'.clockh = if clocked then BitVec.ofNat 32 (s.clk / 2 ^ 32) else k.clockh) :
    ∃ k'', LaneStep s (finish c u late op) c.h u clocked late pb gs k k''
      ∧ k''.regs = k'.regs ∧ k''.preds = k'.preds ∧ k''.fpcsr = k'.fpcsr := by
  have hck : c.s.clk = s.clk := by rw [h.rest]
  let f : Skein → Skein := fun k =>
    let k := (k.step c.h).issued c.s.clk c.h.yld
    if u.readsClock then { k with clockh := BitVec.ofNat 32 (c.s.clk / 2 ^ 32) } else k
  let s0 := (c.s.modBlock c.k.blk fun b => { popChans b u.reads with stalled := false }).modSkein c.id f
  let s1 := finishLate c late op s0
  have e1 : (∃ l, s1.pending = s0.pending ++ l) ∧ s1 = { s0 with skeins := s1.skeins, pending := s1.pending }
      ∧ ∀ i, tget s1.skeins i = if c.id = i then (tget c.s.skeins i).map (finishSkein c.h u c.s.clk late)
          else tget c.s.skeins i := by
    simp only [s1, finishLate]
    cases late with
    | false =>
      refine ⟨⟨[], by simp⟩, rfl, ?_⟩
      intro i
      by_cases hi : c.id = i
      · subst hi; simp only [s0, State.modSkein_skeins, State.modBlock_skeins, tget_tmod_same, if_true]; rfl
      · simp [s0, tget_tmod_other _ _ hi, hi]
    | true =>
      cases e : Ctl.flag c.h with
      | none =>
        have hs : ∀ i, tget s0.skeins i = if c.id = i then (tget c.s.skeins i).map (finishSkein c.h u c.s.clk true)
            else tget c.s.skeins i := by
          intro i
          by_cases hi : c.id = i
          · subst hi; simp only [s0, State.modSkein_skeins, State.modBlock_skeins, tget_tmod_same, if_true]
            congr; funext k; simp [finishSkein, e, f]
          · simp [s0, tget_tmod_other _ _ hi, hi]
        cases op with
        | none => exact ⟨⟨[], by simp⟩, rfl, hs⟩
        | some n => exact ⟨⟨[.resultLand c.id ⟨none, some n⟩], rfl⟩, rfl, hs⟩
      | some g =>
        refine ⟨⟨[.resultLand c.id ⟨some g, op⟩], rfl⟩, rfl, ?_⟩
        intro i
        by_cases hi : c.id = i
        · subst hi
          simp only [s0, State.post_skeins, State.modSkein_skeins, State.modBlock_skeins, tget_tmod_same, if_true,
            Option.map_map]
          congr; funext k; simp [finishSkein, e, f]
        · simp [s0, tget_tmod_other _ _ hi, hi]
  let s2 := if u.moves then s1.stir c.k.blk else s1
  have e2 : Roused s1 s2 := by
    simp only [s2]; split
    · exact State.stir_roused _ _
    · exact .refl _
  have e2m : ∀ i, Stirred u.touchesHall (tget s1.skeins i) (tget s2.skeins i) := by
    by_cases hm : u.moves = true
    · have : u.touchesHall = true := by simp [Uses.touchesHall, hm]
      rw [this]; exact e2.2.2
    · intro i; exact .inl (by simp [s2, hm])
  let s3 := s2.meterAdd c.k.ctx 24 1
  have e3 : s3 = { s2 with ctxs := s3.ctxs } := State.meterAdd_rest _ _ _ _
  have e4 := State.postStall_posts s3 c.id c.h
  have ef : finish c u late op = s3.postStall c.id c.h := rfl
  have bl2 : s2.blocks = s0.blocks := by rw [e2.2.1, e1.2.1]
  have cx2 : s2.ctxs = c.s.ctxs := by rw [e2.2.1, e1.2.1]; rfl
  have sk : (finish c u late op).skeins = s2.skeins := by rw [ef, e4.2]; show s3.skeins = _; rw [e3]
  have bl : (finish c u late op).blocks = tmod c.s.blocks c.k.blk (fun b => { popChans b u.reads with stalled := false }) := by
    rw [ef, e4.2]; show s3.blocks = _; rw [e3]; exact bl2
  have cx : (finish c u late op).ctxs = s3.ctxs := by rw [ef, e4.2]
  have ctxOf : ∀ n, (finish c u late op).ctx n = s3.ctx n := fun n => by simp only [State.ctx, cx]
  have ctx2 : ∀ n, s2.ctx n = c.s.ctx n := fun n => by simp only [State.ctx, cx2]
  have keeps := finishSkein_keeps c.h u c.s.clk late k'
  refine ⟨finishSkein c.h u c.s.clk late k', ⟨?_, ?_, ?_, ?_, ?_, ?_, ?_, ?_, ?_, ?_, ?_, ?_, ?_⟩, ?_, ?_, ?_⟩
  · have hm := e2m s.cur
    rw [e1.2.2, if_pos hid, h.here] at hm
    rw [sk]
    exact hm.here (by rw [keeps, h.same]; exact hpark)
  · rw [keeps, hck, h.same]
  · intro g
    rw [finishSkein_flag]
    have : k'.flag g = k.flag g := by rw [h.same]; rfl
    rw [this]
  · rw [keeps]
    by_cases hr : u.readsClock = true
    · have ht : clocked = true := by rw [hclk, hr]; rfl
      simp [hr, ht, hck]
    · simp [hr, hk (by simpa using hr)]
  · intro i hi
    have hm := e2m i
    rw [e1.2.2, if_neg (by rw [hid]; exact Ne.symm hi), h.skeins i hi] at hm
    rw [sk]; exact hm
  · intro b hbb
    rw [bl, hb]; simp [h.block b hbb]
  · intro i hi
    rw [bl, hb, tget_tmod_other _ _ (Ne.symm hi), h.blocks i hi]
  · intro hlt i
    have : (finish c u late op).count k.ctx i = s3.count k.ctx i := by simp only [State.count, ctxOf]
    rw [this]
    simp only [s3, State.meterAdd_count]
    have : s2.count k.ctx i = c.s.count k.ctx i := by simp only [State.count, ctx2]
    rw [this, h.counts hlt, gainOf_append]
    by_cases hi : 24 = i <;> simp [gainOf, hi, hc, hlt, Nat.add_assoc]
  · rw [ctxOf]; simp only [s3]; rw [State.meterAdd_ctx, ctx2, h.ctx]
  · intro x hx
    rw [ctxOf]; simp only [s3]; rw [State.meterAdd_ctx_other _ _ _ _ _ (by rw [hc]; exact hx), ctx2, h.ctxs x hx]
  · have p0 : s0.pending = s.pending := by show c.s.pending = _; rw [h.rest]
    have p3 : s3.pending = s2.pending := by rw [e3]
    obtain ⟨j, hj⟩ := e1.1
    obtain ⟨l, hl⟩ := e2.1
    obtain ⟨m, hm⟩ := e4.1
    exact ⟨j ++ (l ++ m), by rw [ef, hm, p3, hl, hj, p0, List.append_assoc, List.append_assoc]⟩
  · rw [ef, e4.2]
    rw [show s3 = { s2 with ctxs := s3.ctxs } from e3, show s2 = { s1 with skeins := s2.skeins, pending := s2.pending } from e2.2.1]
    rw [show s1 = { s0 with skeins := s1.skeins, pending := s1.pending } from e1.2.1]
    simp only [s0, State.modSkein, State.modBlock]
    rw [h.rest]
  · intro a
    have : (finish c u late op).mem = s.mem := by
      rw [ef, e4.2]; show s3.mem = _; rw [e3]; show s2.mem = _; rw [e2.2.1]; show s1.mem = _; rw [e1.2.1]
      show c.s.mem = _; rw [h.rest]
    rw [this]
  · rw [keeps]
  · rw [keeps]
  · rw [keeps]

/-! ## Evictions -/

/-- An eviction touches the caches alone: memory, home lines, halls, contexts and steps under way stand. -/
theorem State.evict_frame (s : State) (e : Evicted) :
    (s.evict e).mem = s.mem ∧ (s.evict e).lines = s.lines ∧ (s.evict e).blocks = s.blocks ∧ (s.evict e).ctxs = s.ctxs
    ∧ (s.evict e).pending = s.pending ∧ (s.evict e).pkg = s.pkg := by
  cases e <;> exact ⟨rfl, rfl, rfl, rfl, rfl, rfl⟩

end Sys2Proof.Machine
end

