-- ==== Sys2Proof/Laws/Results.lean ====
section
/-! SUPPORT. What each write of a result does (R15 to R18, R21, R22, R94): registers, pairs, bolt groups, predicates and
channel pushes; and the completion of a lane instruction from them. -/

namespace Sys2Proof.Machine

/-! ## One register -/

theorem VReg.write_lane (r : VReg) (w : Nat) (act : Mask) (tag : Shape) (val : Nat → Word) (poi : Nat → Bool) (l : Nat)
    (hl : l < w) : (r.write w act tag val poi).lane l = if Mask.has act l then val l else r.lane l := by
  simp [VReg.write, VReg.lane, List.getD_eq_getElem?_getD, hl]

theorem VReg.write_poison (r : VReg) (w : Nat) (act : Mask) (tag : Shape) (val : Nat → Word) (poi : Nat → Bool) (l : Nat) :
    Mask.has (r.write w act tag val poi).poison l
      = (decide (l < 64) && decide (l < w) && if Mask.has act l then poi l else Mask.has r.poison l) := by
  simp [VReg.write, Mask.has_ofFn]

/-- A mask with no lane is 0. -/
theorem Mask.eq_zero (m : Mask) (h : ∀ l, Mask.has m l = false) : m = 0 := by
  apply BitVec.eq_of_getLsbD_eq
  intro i _
  simpa [Mask.has] using h i

theorem Mask.has_lt (m : Mask) (l : Nat) (h : Mask.has m l = true) : l < 64 := by
  by_contra hc
  have : Mask.has m l = false := BitVec.getLsbD_of_ge m l (by omega)
  simp [this] at h

theorem Mask.has_full (w l : Nat) : Mask.has (Mask.full w) l = (decide (l < 64) && decide (l < w)) := by
  simp only [Mask.has, Mask.full, BitVec.getLsbD_ofNat, Nat.testBit_two_pow_sub_one]

/-- The tag of a written register: general where lanes are left out or poisoned. -/
theorem VReg.write_tag (r : VReg) (w : Nat) (act : Mask) (tag : Shape) (val : Nat → Word) (poi : Nat → Bool) :
    (r.write w act tag val poi).tag =
      if (act == Mask.full w) && (List.range w).all (fun l => !(Mask.has act l && poi l)) then tag else .general := by
  by_cases ha : act = Mask.full w
  · have key : (Mask.ofFn w (fun l => if Mask.has act l then poi l else Mask.has r.poison l) == 0)
        = (List.range w).all (fun l => !(Mask.has act l && poi l)) := by
      rw [Bool.eq_iff_iff]
      simp only [beq_iff_eq, List.all_eq_true, List.mem_range, Bool.not_eq_true', Bool.and_eq_false_iff]
      constructor
      · intro h0 l hl
        have := congrArg (fun m => Mask.has m l) h0
        simp only [Mask.has_ofFn] at this
        have z : Mask.has (0 : Mask) l = false := by simp [Mask.has]
        rw [z] at this
        by_cases hh : Mask.has act l = true
        · have h64 := Mask.has_lt _ _ hh
          simp [hh, h64, hl] at this
          exact Or.inr this
        · exact Or.inl (by simpa using hh)
      · intro hall
        apply Mask.eq_zero
        intro l
        rw [Mask.has_ofFn]
        by_cases h64 : l < 64 <;> by_cases hl : l < w <;> simp [h64, hl]
        have hf : Mask.has act l = true := by rw [ha, Mask.has_full]; simp [h64, hl]
        rcases hall l hl with h | h
        · rw [hf] at h; cases h
        · simp [hf, h]
    simp only [VReg.write]
    rw [key, ha]
  · have : (act == Mask.full w) = false := by simpa using ha
    simp [VReg.write, this]

/-! ## Registers of a skein -/

theorem Skein.reg_setReg (k : Skein) (n m : Nat) (act : Mask) (tag : Shape) (val : Nat → Word) (poi : Nat → Bool) :
    (k.setReg n act tag val poi).reg m = if n = m then (k.reg n).write k.width act tag val poi else k.reg m := by
  simp only [Skein.setReg, Skein.reg, tget_tput]
  split <;> rfl

/-- A list of registers written one after another, tag and poison given by register. -/
def Skein.setRegs (k : Skein) (act : Mask) (tag : Nat → Shape) (poi : Nat → Nat → Bool) :
    List (Nat × (Nat → Word)) → Skein
  | [] => k
  | w :: ws => Skein.setRegs (k.setReg w.1 act (tag w.1) w.2 (poi w.1)) act tag poi ws

theorem Skein.reg_setRegs_other (k : Skein) (act : Mask) (tag : Nat → Shape) (poi : Nat → Nat → Bool)
    (ws : List (Nat × (Nat → Word))) (r : Nat) (h : r ∉ ws.map Prod.fst) : (k.setRegs act tag poi ws).reg r = k.reg r := by
  induction ws generalizing k with
  | nil => rfl
  | cons w ws ih =>
    simp only [List.map_cons, List.mem_cons, not_or] at h
    rw [Skein.setRegs, ih _ h.2, Skein.reg_setReg, if_neg (Ne.symm h.1)]

theorem Skein.reg_setRegs (k : Skein) (act : Mask) (tag : Nat → Shape) (poi : Nat → Nat → Bool)
    (ws : List (Nat × (Nat → Word))) (hn : (ws.map Prod.fst).Nodup) (w : Nat × (Nat → Word)) (hw : w ∈ ws) :
    (k.setRegs act tag poi ws).reg w.1 = (k.reg w.1).write k.width act (tag w.1) w.2 (poi w.1) := by
  induction ws generalizing k with
  | nil => cases hw
  | cons x ws ih =>
    simp only [List.map_cons, List.nodup_cons] at hn
    rcases List.mem_cons.1 hw with rfl | hm
    · rw [Skein.setRegs, Skein.reg_setRegs_other _ _ _ _ _ _ hn.1, Skein.reg_setReg, if_pos rfl]
    · have hne : x.1 ≠ w.1 := fun e => hn.1 (e ▸ List.mem_map_of_mem hm)
      rw [Skein.setRegs, ih _ hn.2 hm, Skein.reg_setReg, if_neg hne]
      rfl

/-- Registers written one after another are exactly the registers written. -/
theorem Skein.setRegs_written (c : Iss) (tag : Nat → Shape) (poi : Nat → Nat → Bool) (ws : List (Nat × (Nat → Word)))
    (hn : (ws.map Prod.fst).Nodup) : RegsWritten c (c.k.setRegs c.act tag poi ws) tag poi ws where
  active w hw l hl ha := by
    rw [Skein.reg_setRegs _ _ _ _ _ hn w hw, VReg.write_lane _ _ _ _ _ _ _ hl, VReg.write_poison]
    have := Mask.has_lt _ _ ha
    simp [ha, this, hl]
  inactive w hw l hl h64 ha := by
    rw [Skein.reg_setRegs _ _ _ _ _ hn w hw, VReg.write_lane _ _ _ _ _ _ _ hl, VReg.write_poison]
    simp [ha, h64, hl]
  tags w hw := by
    rw [Skein.reg_setRegs _ _ _ _ _ hn w hw, VReg.write_tag]
    rfl
  others r hr := Skein.reg_setRegs_other _ _ _ _ _ _ hr

theorem Skein.setReg_list (k : Skein) (n : Nat) (act : Mask) (tag : Shape) (val : Nat → Word) (poi : Nat → Bool) :
    k.setReg n act tag val poi = k.setRegs act (fun _ => tag) (fun _ => poi) [(n, val)] := rfl

theorem Skein.setPair_list (k : Skein) (n : Nat) (act : Mask) (tag : Shape) (val : Nat → DWord) (poi : Nat → Bool) :
    k.setPair n act tag val poi = k.setRegs act (fun _ => tag) (fun _ => poi) (resultRegs true n val) := rfl

theorem Skein.setRegs_append (k : Skein) (act : Mask) (tag : Nat → Shape) (poi : Nat → Nat → Bool)
    (a b : List (Nat × (Nat → Word))) :
    k.setRegs act tag poi (a ++ b) = (k.setRegs act tag poi a).setRegs act tag poi b := by
  induction a generalizing k with
  | nil => rfl
  | cons w ws ih => exact ih _

/-- The registers of a bolt group. -/
def boltRegs (n m : Nat) (f : Nat → Bolt) : List (Nat × (Nat → Word)) :=
  (List.range m).map fun i => (n + i, fun l => boltWord (f l) i)

theorem Skein.setBolt_list (k : Skein) (n : Nat) (act : Mask) (tag : Shape) (f : Nat → Bolt) (poi : Nat → Bool) (m : Nat) :
    Skein.setBolt k n act tag f poi m = k.setRegs act (fun _ => tag) (fun _ => poi) (boltRegs n m f) := by
  induction m with
  | zero => rfl
  | succ m ih => rw [Skein.setBolt, ih, boltRegs, boltRegs, List.range_succ, List.map_append, Skein.setRegs_append]; rfl

theorem boltRegs_nodup (n m : Nat) (f : Nat → Bolt) : ((boltRegs n m f).map Prod.fst).Nodup := by
  have : (boltRegs n m f).map Prod.fst = (List.range m).map (n + ·) := by simp [boltRegs, Function.comp_def]
  rw [this]
  exact List.Nodup.map (fun a b h => by simpa using h) List.nodup_range

/-- Writing registers leaves everything else of the skein. -/
theorem Skein.setRegs_same (k : Skein) (act : Mask) (tag : Nat → Shape) (poi : Nat → Nat → Bool)
    (ws : List (Nat × (Nat → Word))) : k.setRegs act tag poi ws = { k with regs := (k.setRegs act tag poi ws).regs } := by
  induction ws generalizing k with
  | nil => rfl
  | cons w ws ih => rw [Skein.setRegs, ih]; rfl

/-! ## Predicates -/

theorem Skein.pred_setPred (k : Skein) (p q : Nat) (act : Mask) (val : Nat → Bool) (hp : p ≠ 15) (l : Nat) (hl : l < 64) :
    Mask.has ((k.setPred p act val).pred q) l
      = if p = q then (if Mask.has act l then val l else Mask.has (k.pred p) l) else Mask.has (k.pred q) l := by
  by_cases hpq : p = q
  · subst hpq
    simp [Skein.pred, Skein.setPred, hp, Mask.has_ofFn, hl]
  · by_cases hq : q = 15
    · simp [Skein.pred, hq, hp]
    · simp [Skein.pred, Skein.setPred, hq, tget_tput_other _ _ hpq, hpq]

/-- A predicate written is exactly the predicate written. -/
theorem Skein.setPred_written (c : Iss) (p : Nat) (val : Nat → Bool) (hp : p ≠ 15) :
    PredWritten c (c.k.setPred p c.act val) p val where
  active l hl ha := by rw [Skein.pred_setPred _ _ _ _ _ hp _ hl]; simp [ha]
  inactive l hl ha := by rw [Skein.pred_setPred _ _ _ _ _ hp _ hl]; simp [ha]
  others q hq := by
    by_cases h15 : q = 15
    · simp [Skein.pred, h15]
    · simp [Skein.pred, Skein.setPred, h15, tget_tput_other _ _ (Ne.symm hq)]

/-! ## The completion of a lane instruction -/

/-- What is at hand before an instruction has been touched by nothing. -/
theorem Touched.start {s : State} {h : Ctl} {u : Uses} {k : Skein} (hr : s.mayIssue h u k = true) :
    Touched s (s.iss h k).s k k id [] := Touched.refl ((State.mayIssue_iff s h u k).1 hr).1

/-- Registers written in the skein at hand: what has been touched, and what the registers hold. -/
theorem Iss.regs_touched {s : State} {h : Ctl} {u : Uses} {k : Skein} (hr : s.mayIssue h u k = true) (tag : Nat → Shape)
    (poi : Nat → Nat → Bool) (ws : List (Nat × (Nat → Word))) (hn : (ws.map Prod.fst).Nodup) :
    let c := s.iss h k
    let c' := c.withSkein (k.setRegs (k.active h) tag poi ws)
    Touched s c'.s k c'.k (fun b => b) [] ∧ c'.k.blk = k.blk ∧ c'.k.ctx = k.ctx ∧ c'.k.clockh = k.clockh ∧ c'.k.preds = k.preds
      ∧ c'.k.fpcsr = k.fpcsr ∧ RegsWritten c c'.k tag poi ws := by
  have same := Skein.setRegs_same k (k.active h) tag poi ws
  have t1 := (Touched.start hr).skein (k'' := k.setRegs (k.active h) tag poi ws) (by rw [same])
  refine ⟨t1, ?_, ?_, ?_, ?_, ?_, ?_⟩
  · show (k.setRegs _ _ _ _).blk = _; rw [same]
  · show (k.setRegs _ _ _ _).ctx = _; rw [same]
  · show (k.setRegs _ _ _ _).clockh = _; rw [same]
  · show (k.setRegs _ _ _ _).preds = _; rw [same]
  · show (k.setRegs _ _ _ _).fpcsr = _; rw [same]
  · exact Skein.setRegs_written (s.iss h k) tag poi ws hn

/-- A result under a type, put where D says: what has been touched, and what the registers hold. -/
theorem Iss.put_touched {s : State} {h : Ctl} {u : Uses} {k : Skein} (hr : s.mayIssue h u k = true) (wide : Bool) (d : Opnd)
    (tag : Shape) (val : Nat → DWord) (poi : Nat → Bool) (hd : wide = true → ∃ n, d = .reg n) :
    let c := s.iss h k
    let c' := c.put wide d tag val poi
    Touched s c'.s k c'.k (pushed c d val poi) [] ∧ c'.id = s.cur ∧ c'.h = h ∧ c'.k.blk = k.blk ∧ c'.k.ctx = k.ctx
      ∧ c'.k.clockh = k.clockh ∧ c'.k.preds = k.preds ∧ c'.k.fpcsr = k.fpcsr
      ∧ RegsWritten c c'.k (fun _ => tag) (fun _ => poi) (destRegs wide d val) := by
  cases d with
  | reg n =>
    have e : (s.iss h k).put wide (.reg n) tag val poi
        = (s.iss h k).withSkein (k.setRegs (k.active h) (fun _ => tag) (fun _ => poi) (resultRegs wide n.toNat val)) := by
      cases wide <;> rfl
    simp only [e]
    obtain ⟨t1, h1, h2, h3, h4, h5, h6⟩ := Iss.regs_touched hr (fun _ => tag) (fun _ => poi) (resultRegs wide n.toNat val)
      (by cases wide <;> simp [resultRegs])
    exact ⟨t1, rfl, rfl, h1, h2, h3, h4, h5, h6⟩
  | chan n p =>
    have t0 := Touched.start hr
    have hw : wide = false := by
      cases wide with
      | false => rfl
      | true => obtain ⟨m, hm⟩ := hd rfl; cases hm
    subst hw
    have e : (s.iss h k).put false (.chan n p) tag val poi
        = (s.iss h k).withBlock ((s.iss h k).pushBlock n.toNat (fun l => (val l).setWidth 32) poi) := rfl
    simp only [e]
    refine ⟨?_, rfl, rfl, rfl, rfl, rfl, rfl, rfl, ?_⟩
    · refine t0.setBlock (pushed (s.iss h k) (.chan n p) val poi) _ ?_
      intro b hb
      have hcb : (s.iss h k).b = b := by simp [State.iss, hb]
      simp only [pushed, ← hcb]
      rfl
    · exact ⟨by simp [destRegs], by simp [destRegs], by simp [destRegs], by intro r _; rfl⟩

theorem RegsWritten.of_regs {c : Iss} {k k' : Skein} {tag : Nat → Shape} {poi : Nat → Nat → Bool}
    {ws : List (Nat × (Nat → Word))} (h : RegsWritten c k tag poi ws) (e : k'.regs = k.regs) :
    RegsWritten c k' tag poi ws := by
  have reg : ∀ n, k'.reg n = k.reg n := fun n => by simp only [Skein.reg, e]
  exact ⟨by simpa only [reg] using h.active, by simpa only [reg] using h.inactive, by simpa only [reg] using h.tags,
    by simpa only [reg] using h.others⟩

/-- A skein whose word may issue is not parked. -/
theorem State.mayIssue_parkless {s : State} {h : Ctl} {u : Uses} {k : Skein} (hr : s.mayIssue h u k = true) : k.park = .no :=
  ((State.mayIssue_iff s h u k).1 hr).2.1

/-- A word whose meaning puts a lane result completes with it. -/
theorem Computes.intro {i : Instr} {s : State} {h : Ctl} {u : Uses} {k : Skein} {gs : List (Nat × Nat)} {wide : Bool}
    {d : Opnd} {tag : Shape} {val : Nat → DWord} {poi : Nat → Bool} (hr : s.mayIssue h u k = true)
    (hd : wide = true → ∃ n, d = .reg n)
    (he : exec i s = .next (finish (((s.iss h k).put wide d tag val poi).meter gs) u false)) :
    Computes i s h u k gs wide d tag val poi := by
  obtain ⟨t1, e1, e2, e3, e4, e5, e6, e7, e8⟩ := Iss.put_touched hr wide d tag val poi hd
  have t2 : Touched s (((s.iss h k).put wide d tag val poi).meter gs).s k ((s.iss h k).put wide d tag val poi).k
      (pushed (s.iss h k) d val poi) gs := by
    have := t1.meterAll gs
    rw [← e4] at this
    simpa [Iss.meter] using this
  obtain ⟨k'', l, r1, r2, r3⟩ := finish_lane (u := u) (clocked := u.readsClock) (late := false) t2 (State.mayIssue_parkless hr) e1 e3 e4
    (by simp)
    (by intro hc; simp [hc, e5])
  have e2' : (((s.iss h k).put wide d tag val poi).meter gs).h = h := e2
  rw [e2'] at l
  exact ⟨_, k'', he, l, e8.of_regs r1, by rw [r2, e6], by rw [r3, e7]⟩

/-- A word whose meaning puts a float result and raises flags completes with them. -/
theorem ComputesF.intro {i : Instr} {s : State} {h : Ctl} {u : Uses} {k : Skein} {gs : List (Nat × Nat)} {wide : Bool}
    {d : Opnd} {tag : Shape} {res : Nat → Nat × Fl} {poi : Nat → Bool} (hr : s.mayIssue h u k = true)
    (hd : wide = true → ∃ n, d = .reg n)
    (he : exec i s = .next (finish ((((s.iss h k).put wide d tag (fun l => BitVec.ofNat 64 (res l).1) poi).raise
      (flagsOver (s.iss h k).lanes fun l => (res l).2)).meter gs) u false)) :
    ComputesF i s h u k gs wide d tag res poi := by
  obtain ⟨t1, e1, e2, e3, e4, e5, e6, e7, e8⟩ :=
    Iss.put_touched hr wide d tag (fun l => BitVec.ofNat 64 (res l).1) poi hd
  generalize hc1 : (s.iss h k).put wide d tag (fun l => BitVec.ofNat 64 (res l).1) poi = c1 at *
  generalize hfl : flagsOver (s.iss h k).lanes (fun l => (res l).2) = fl at *
  have hs := t1.skein (k'' := { c1.k with fpcsr := fpcsrOr c1.k.fpcsr fl }) rfl
  have t2 : Touched s ((c1.raise fl).meter gs).s k { c1.k with fpcsr := fpcsrOr c1.k.fpcsr fl }
      (pushed (s.iss h k) d (fun l => BitVec.ofNat 64 (res l).1) poi) gs := by
    have := hs.meterAll gs
    rw [← e4, ← e1] at this
    simpa [Iss.meter, Iss.raise, Iss.withSkein] using this
  obtain ⟨k'', l, r1, r2, r3⟩ := finish_lane (u := u) (c := (c1.raise fl).meter gs) (clocked := u.readsClock) (late := false)
    t2 (State.mayIssue_parkless hr) e1 e3 e4 (by simp) (by intro hc; simp [hc, e5])
  have e2' : ((c1.raise fl).meter gs).h = h := e2
  rw [e2'] at l
  exact ⟨_, k'', he, l, e8.of_regs r1, by rw [r2]; exact e6, by rw [r3]; show fpcsrOr c1.k.fpcsr fl = _; rw [e7, hfl]⟩

/-- A word whose meaning writes a predicate completes with it. -/
theorem Decides.intro {i : Instr} {s : State} {h : Ctl} {u : Uses} {k : Skein} {gs : List (Nat × Nat)} {p : Opnd}
    {val : Nat → Bool} (hr : s.mayIssue h u k = true) (hp : opIdx p ≠ 15)
    (he : exec i s = .next (finish (((s.iss h k).putPred p val).meter gs) u false)) : Decides i s h u k gs p val := by
  have t1 := (Touched.start hr).skein (k'' := k.setPred (opIdx p) (k.active h) val) rfl
  have t2 : Touched s (((s.iss h k).putPred p val).meter gs).s k (k.setPred (opIdx p) (k.active h) val) id gs := by
    have := t1.meterAll gs
    exact this
  obtain ⟨k'', l, r1, r2, r3⟩ := finish_lane (u := u) (c := ((s.iss h k).putPred p val).meter gs) (clocked := u.readsClock)
    (late := false) t2 (State.mayIssue_parkless hr) rfl rfl rfl (by simp) (by intro hc; simp [hc]; rfl)
  have w : PredWritten (s.iss h k) (k.setPred (opIdx p) (k.active h) val) (opIdx p) val :=
    Skein.setPred_written (s.iss h k) (opIdx p) val hp
  refine ⟨_, k'', he, l, ?_, by rw [r1]; rfl, by rw [r3]; rfl⟩
  have pr : ∀ n, k''.pred n = (k.setPred (opIdx p) (k.active h) val).pred n := fun n => by simp only [Skein.pred, r2]
  exact ⟨by simpa only [pr] using w.active, by simpa only [pr] using w.inactive, by simpa only [pr] using w.others⟩

end Sys2Proof.Machine
end

