-- ==== Sys2Proof/Tests/Slice0.lean ====
section
/-! SUPPORT. Tests: decoding of worked words, ill-formed terms, single steps worked from the spec, and for each statement
states and operands that meet its hypotheses. -/

open Sys2Proof Sys2Proof.Machine

namespace Sys2Proof.Tests

-- The kernel evaluates one test at a time, so that the whole compiles in little memory.
set_option Elab.async false

/-! ## A small machine: one skein of 8 lanes, alone in its block -/

/-- Issue fields of a plain word: no flag, no guard. -/
def pt : Ctl := { cls := false, yld := false, stall := 0, setf := 15, wait := 0, gn := false, gp := 15 }

def vec (f : Nat → Nat) : VReg := { tag := .general, lanes := (List.range 8).map fun l => BitVec.ofNat 32 (f l) }
def uni (n : Nat) : VReg := { tag := .uniform, lanes := List.replicate 8 (BitVec.ofNat 32 n) }

/-- Registers: small and large integers, pairs with addresses of words and of lines, floats, and two bolts. -/
def tRegs : Tbl VReg :=
  [(0, vec (· + 1)), (1, vec (0x7FFFFFF8 + 5 * ·)), (2, vec (0x1000 + 8 * ·)), (3, uni 0), (4, uni 0x2000), (5, uni 0),
   (6, vec (0x4000 + 128 * ·)), (7, uni 0), (8, vec (0x3FC00000 + 0x100000 * ·)), (9, vec (0xFF7FFFFD + ·)), (10, uni 4),
   (11, vec (0x100 + 4 * ·)), (12, vec (0x200 + 8 * ·)), (13, vec (7 - ·)), (14, vec (0xFFFFFFF0 + 3 * ·)),
   (15, vec (0x7FFFFFFF + ·)), (16, vec (0x20000000 + 128 * ·)), (17, uni 0), (18, uni 128), (19, uni 0x20000),
   (20, uni 12288), (21, vec (0xFFE0 + 4 * ·)), (22, uni 0x200), (23, uni 64),
   (24, vec (5 + ·)), (25, uni 0xFFFFFFFF), (43, vec (0x80000000 * ·)), (44, uni 0x3F), (48, vec (9 * ·)), (67, uni 7)]

/-- The skein: context 0, grid 1, block 2, core 0. -/
def tk : Skein :=
  { ctx := 0, grid := 1, blk := 2, core := 0, quad := 0, slot := 0, width := 8, num := 0, regCount := 640,
    tid := List.range 8, live := 0xFF, running := 0xFF, pc := 0x20003, regs := tRegs,
    preds := [(1, 0x0F), (2, 0xAA)] }

/-- Its block, with hall A of 64 KiB and hall W of 16 KiB, two channels and two partitions. -/
def tBlock : Block :=
  { ctx := 0, grid := 1, core := 0, skeins := [7], nskein := 1, granA := 16, granW := 4, hallc := [0, 1],
    hallA := [(0x100, 5), (0x104, 0xFF), (0x200, 3)],
    chans := [(0, { off := 0x8000, depth := 4, head := 1, tail := 3, count := 2 }), (1, { off := 0x9000, depth := 4 })] }

def tGrid : Grid :=
  { ctx := 0, num := 3, bx := 8, placed := 1, trapvec := 0x30000, ltag := 77,
    desc := { regs := 640, skeins := 1, granA := 16, granW := 4, hallc := 2, midpre := true } }

/-- The machine in which that skein acts. Virtual addresses below 2^29 are the same physical ones; the next 2^29 lie on a
page with attribute BOLT. -/
def ts : State :=
  { State.reset with
    cur := 7, nextId := 8, skeins := [(7, tk)], blocks := [(2, tBlock)], grids := [(1, tGrid)],
    ctxs := [(0, { state := .resident, launchPorts := true })],
    mem := [(0x1000, 1), (0x1008, 2), (0x2000, 9)],
    cores := [(0, {
      utlb := [{ ctx := 0, vbase := 0, size := 2 ^ 29, entry := 0x13 },
               { ctx := 0, vbase := 2 ^ 29, size := 2 ^ 29, entry := 0x20000053 }],
      hallc := [(0, { ctx := 0, blk := some 2 }), (1, { ctx := 0, blk := some 2 })] })],
    pkg := { extents := [(0, (1, 0))], bringUp := 6 } }

/-! ## States and operands that meet the hypotheses: lanes, floats and register bolts

Each theorem `wit_<statement>` lists, clause by clause, the hypotheses of a statement at concrete values. -/

/-- A register operand. -/
def v (n : Nat) : Opnd := .reg (BitVec.ofNat 10 n)

/-- What the skein's word has at hand. -/
def tc : Iss := ts.iss pt tk

/-- The word may issue with these registers and channels, and no active lane is poisoned. -/
def rdy (u : Uses) (ps : List (Nat → Bool)) : Bool := ts.mayIssue pt u tk && tc.clean ps

def a2 (ty : Ty) (b : SrcImm) : Alu2 := { ty := ty, sat := false, d := v 100, a := v 0, b := b }
def a3 : Alu3 := { ty := .i32, sat := true, d := .chan 0 false, a := v 0, b := .chan 0 false, c := v 13 }
def a1 : Alu1 := { ty := .i64, sat := false, d := v 100, a := v 14 }
def icmp1 : ICmp := { ty := .n64, cc := .ge, p := v 14, a := v 14, b := v 2 }
def sel1 : Sel := { ty := .i32, d := v 639, a := v 652, b := v 0, p := v 1 }
def addc1 : AddC := { ty := .n64, sub := true, d := v 100, a := v 14, b := v 2, p := v 2 }
def lea1 : Lea := { ty := .i32, sh := 2, d := v 100, a := v 2, b := .imm 0xFFFFFF }

theorem wit_integerLanes :
    (∀ f ∈ [a2 .i32 (.imm 5), a2 .n64 (.src (v 14)), { a2 .i32 (.src (.chan 0 true)) with sat := true, d := .chan 0 false }],
      f.wf true = true ∧ rdy (Alu2.uses f f.ty.is64 f.ty.is64)
        [(tc.opnd f.ty.is64 [] f.a).poi, (tc.srcImm f.ty.is64 (Ty.signed f.ty) [f.a] f.b).poi] = true)
    ∧ (∀ wc : Bool, a3.wf true = true ∧ rdy
        { a := regsOf a3.a 1, b := regsOf a3.b 1, c := regsOf a3.c (if wc then 2 else 1), d := regsOf a3.d 1
          reads := chanOf a3.a ++ chanOf a3.b ++ chanOf a3.c, push := pushOf a3.d }
        [(tc.opnd false [] a3.a).poi, (tc.opnd false [a3.a] a3.b).poi, (tc.opnd wc [a3.a, a3.b] a3.c).poi] = true)
    ∧ (∀ wd : Bool, a1.wf true = true ∧ a1.wfCount = true
        ∧ rdy { a := [14, 15], d := regsOf a1.d (if wd then 2 else 1) } [(tc.opnd true [] a1.a).poi] = true)
    ∧ (∀ wb : Bool, let f := a2 .i32 (.imm 0xFFFFFF)
      f.wf false = true ∧ f.wfShift = true
        ∧ rdy (Alu2.uses f wb false) [(tc.opnd false [] f.a).poi, (tc.srcImm wb true [f.a] f.b).poi] = true) := by decide

theorem wit_compareSelect :
    icmp1.p.isPredDst = true ∧ rdy { a := [14, 15], b := [2, 3] } [(tc.opnd true [] icmp1.a).poi, (tc.opnd true [] icmp1.b).poi] = true
    ∧ sel1.d.isAluDst sel1.ty = true ∧ rdy { a := (regsOf sel1.a 1).filter (· < 640), b := [0], d := [639] }
        [fun l => Mask.has (tc.pred sel1.p) l && (tc.single [] sel1.a).poi l,
         fun l => !Mask.has (tc.pred sel1.p) l && (tc.single [sel1.a] sel1.b).poi l] = true
    ∧ addc1.d.isAluDst addc1.ty = true ∧ addc1.p.isPredDst = true
    ∧ rdy { a := [14, 15], b := [2, 3], d := [100, 101] } [(tc.opnd true [] addc1.a).poi, (tc.opnd true [] addc1.b).poi] = true
    ∧ lea1.d.isPair = true ∧ rdy { a := [2, 3], d := [100, 101] } [(tc.pair lea1.a).poi, (tc.srcImm false true [] lea1.b).poi] = true := by
  decide

theorem wit_movesPredicates :
    rdy { a := [0], d := regsOf (v 639) 1 } [] = true ∧ rdy { reads := chanOf (.chan 0 false), push := pushOf (.chan 0 false) } [] = true
    ∧ (v 638).isPair = true ∧ rdy { a := [2, 3], d := regsOf (v 638) 2 } [] = true ∧ rdy { d := [0] } [] = true
    ∧ (v 14).isPredDst = true ∧ rdy { a := [0] } [(tc.single [] (v 0)).poi] = true ∧ rdy {} [] = true
    ∧ (v 639).isReg = true
    ∧ (let x := tc.single [] (v 0)
       let n := ((tc.srcImm false false [] (.imm 15)).val tc.low).toNat
       rdy { a := [0], d := [639] } [fun _ => x.poi (n % 8), fun l => x.poi ((l + n) % 8),
         fun _ => (tc.srcImm false false [] (.imm 15)).poi tc.low] = true)
    ∧ rdy { a := [0], b := [13], d := [639] } [fun l => (tc.single [] (v 0)).poi (((tc.single [] (v 13)).val l).toNat % 8),
        (tc.single [] (v 13)).poi] = true
    ∧ rdy { a := [0], d := [639] } [fun _ => (tc.single [] (v 0)).poi tc.low, fun _ => (tc.srcImm false true [] (.imm 0xFFFFFF)).poi tc.low] = true
    ∧ rdy { a := (regsOf (v 640) 1).filter (· < 640), d := [639] } [] = true := by decide

theorem wit_scansPacks :
    (v 100).isReg = true ∧ rdy { a := [0], d := [100] } [(tc.single [] (v 0)).poi] = true
    ∧ rdy { a := [0], b := [1], d := [100] } [(tc.single [] (v 100)).poi, (tc.single [] (v 0)).poi, (tc.single [] (v 1)).poi] = true
    ∧ rdy { a := [0], b := [1], c := [13], d := [100] } [(tc.single [] (v 0)).poi, (tc.single [] (v 1)).poi, (tc.single [] (v 13)).poi] = true
    ∧ rdy { d := [100], look := some 0 } [] = true
    ∧ ∃ x, tc.chan 0 = some x ∧ x.count < 2 ^ 16 ∧ x.depth < 2 ^ 16 := by
  refine ⟨by decide, by decide, by decide, by decide, by decide, _, rfl, by decide, by decide⟩

theorem wit_floatLanes :
    (∀ ty ∈ [Ty.f32, .f16x2], Ty.isX ty = true
      ∧ rdy { a := [8], b := [9], d := [100] } [(tc.single [] (v 8)).poi, (tc.single [v 8] (v 9)).poi] = true)
    ∧ Ty.isX2 .f32 = false
    ∧ Flt1.wf { ty := .bf16, rm := .dyn, d := v 100, a := v 8 } = true ∧ rdy { a := [8], d := [100] } [(tc.single [] (v 8)).poi] = true
    ∧ rdy { a := [8], b := [9], c := [0], d := [100] }
        [(tc.single [] (v 8)).poi, (tc.single [v 8] (v 9)).poi, (tc.single [v 8, v 9] (v 0)).poi] = true
    ∧ Ty.isS .f16 = true ∧ (v 0).isPredDst = true
    ∧ rdy { a := [8], b := [9] } [(tc.single [] (v 8)).poi, (tc.single [v 8] (v 9)).poi] = true
    ∧ rdy { a := regsOf (v 14) 1, d := regsOf (v 100) 2 } [(tc.opnd false [] (v 14)).poi] = true
    ∧ rdy { a := regsOf (v 14) 2, d := regsOf (v 100) 1 } [(tc.opnd true [] (v 14)).poi] = true
    ∧ (v 100).isAluDst .i64 = true := by decide

theorem wit_boltRegisters :
    (v 600).isBolt = true ∧ rdy { d := regsOf (v 600) 24 } [] = true ∧ rdy { a := [0], d := regsOf (v 600) 24 } [] = true
    ∧ rdy { a := [14, 15], d := regsOf (v 600) 24 } [] = true
    ∧ rdy { a := regsOf (v 24) 24, b := regsOf (v 48) 24, d := regsOf (v 24) 24 } [] = true
    ∧ rdy { a := regsOf (v 24) 24, d := regsOf (v 24) 24 } [] = true
    ∧ (v 100).isReg = true ∧ Ty.isRnd .e4m3 = true ∧ rdy { a := regsOf (v 24) 24, d := [100] } [] = true
    ∧ (v 3).isPredDst = true ∧ rdy { a := regsOf (v 24) 24, b := regsOf (v 48) 24 }
        [fun l => (tc.bolt (v 24) l).poison, fun l => (tc.bolt (v 48) l).poison] = true
    ∧ (v 100).isData .i64 = true
    ∧ rdy { a := regsOf (v 24) 24, b := [13], d := regsOf (v 100) 2 } [(tc.single [] (v 13)).poi] = true := by decide

theorem wit_boltProducts :
    (v 48).isBolt = true ∧ rdy { a := [0], b := [1], d := regsOf (v 48) 24 } [] = true ∧ ts.leaveAtOnce tk 8
    ∧ rdy { a := [0], b := [1], c := regsOf (v 10) 1, d := regsOf (v 48) 24 } [] = true
    ∧ ts.leaveAtOnce tk (dotN .e2m1 * 8) :=
  ⟨by decide, by decide, .inr ⟨rfl, by decide⟩, by decide, .inr ⟨rfl, by decide⟩⟩

/-- A bolt with a carry. -/
def carryBolt : Bolt := { Bolt.zero with car := 1 :: List.replicate 9 0 }

theorem wit_boltSums :
    Bolt.zero.dig.length = 10 ∧ Bolt.zero.car.length = 10 ∧ carryBolt.dig.length = 10 ∧ carryBolt.car.length = 10
    ∧ (boltNorm carryBolt).dig.length = 10 ∧ (boltNorm carryBolt).car.length = 10
    ∧ boltValue carryBolt = boltValue (boltNorm carryBolt) ∧ boltS carryBolt = boltS (boltNorm carryBolt)
    ∧ carryBolt ≠ boltNorm carryBolt := by decide +kernel


/-! ## Halls, memory and tiles -/

/-- The word may issue in another state with these registers, and no active lane is poisoned. -/
def rd (s : State) (k : Skein) (u : Uses) (ps : List (Nat → Bool)) : Bool := s.mayIssue pt u k && (s.iss pt k).clean ps

/-- The physical places of lanes' virtual addresses. -/
def ph (s : State) (acc : Acc) (ea : Nat → DWord) (l : Nat) : Phys :=
  match s.translate 0 0 (ea l) acc with
  | .ok p => p
  | .error _ => ⟨0, 0⟩

theorem ph_ok {s : State} {acc : Acc} {ea : Nat → DWord} {l : Nat} (h : (s.translate 0 0 (ea l) acc).toBool = true) :
    s.translate 0 0 (ea l) acc = .ok (ph s acc ea l) := by
  unfold ph
  split
  · assumption
  · next e => rw [e] at h; cases h

theorem reaches_ph {s : State} {acc : Acc} {ea : Nat → DWord}
    (h : ∀ l ∈ (s.iss pt tk).lanes, (s.translate 0 0 (ea l) acc).toBool = true) :
    (s.iss pt tk).reaches acc ea (ph s acc ea) := fun l hl => ph_ok (h l hl)

/-- The state with another block. -/
def withBlock (b : Block) : State := { ts with blocks := [(2, b)] }

/-- The words of the lanes of register 21, the last of hall A, full. -/
def lastFull : List Nat := (List.range 8).map (0x3FF8 + ·)

def ldh1 : HallLS := { w := false, ty := .n32, d := v 100, a := v 21, off := .imm 0 }
def ldw1 : FeLS := { ty := .n32, d := v 100, a := v 21, off := .imm 0 }

theorem wit_hallLoadsAndStores :
    ldh1.d.isData ldh1.ty = true ∧ ts.mayIssue pt (HallLS.uses ldh1) tk = true
    ∧ (∀ l ∈ tc.lanes, tc.hallEa (v 21) (.imm 0) l % 4 = 0 ∧ tc.hallEa (v 21) (.imm 0) l + 4 ≤ tc.hallLen false)
    ∧ tc.clean [(tc.single [] (v 21)).poi, tc.offPoison (.imm 0), (tc.opnd false [] (v 100)).poi] = true := by decide

theorem wit_fullEmptyWords :
    (∀ full ∈ [lastFull, []], let s := withBlock { tBlock with full := full }
      ldw1.ty.isInt = true ∧ Ty.bits ldw1.ty = 32 ∧ ldw1.d.isReg = true ∧ s.mayIssue pt (FeLS.uses ldw1) tk = true
      ∧ (∀ l ∈ (s.iss pt tk).lanes, (s.iss pt tk).hallEa (v 21) (.imm 0) l % 4 = 0
          ∧ (s.iss pt tk).hallEa (v 21) (.imm 0) l + 4 ≤ (s.iss pt tk).hallLen false)
      ∧ (s.iss pt tk).clean [((s.iss pt tk).single [] (v 21)).poi, (s.iss pt tk).offPoison (.imm 0),
          ((s.iss pt tk).single [] (v 100)).poi] = true ∧ s.settled tk = true
      ∧ ∀ l ∈ (s.iss pt tk).lanes, full.contains ((s.iss pt tk).hallEa (v 21) (.imm 0) l / 4) = !full.isEmpty)
    ∧ (∀ n ∈ [0, 65532], let b := SrcImm.imm (BitVec.ofNat 24 n)
      rdy { a := [10], b := regsOfImm b 1 } [fun _ => (tc.single [] (v 10)).poi tc.low,
        fun _ => (tc.srcImm false false [] b).poi tc.low] = true ∧ ts.settled tk = true
      ∧ tc.lowNat (v 10) % 4 = 0 ∧ tc.lowImm false b % 4 = 0 ∧ tc.lowNat (v 10) + tc.lowImm false b ≤ tc.hallLen false) := by
  decide

def amoh1 : Amo :=
  { op := .cas, ord := .acqRel, scope := .block, ret := true, promote := false, ty := .n32, d := v 100, a := v 21, b := v 0 }

theorem wit_hallAtomics :
    amoh1.d.isData amoh1.ty = true ∧ rdy (Amo.uses amoh1 1)
      [(tc.single [] (v 21)).poi, (tc.opnd false [] (v 0)).poi, fun l => (tc.opnd false [] (v 100)).poi l] = true
    ∧ (∀ l ∈ tc.lanes, tc.hallEa (v 21) (.imm 0) l % 4 = 0 ∧ tc.hallEa (v 21) (.imm 0) l + 4 ≤ tc.hallLen false
        ∧ tc.b.hallBad false (tc.hallEa (v 21) (.imm 0) l) 4 = false)
    ∧ ts.settled tk = true := by decide

def ld1 (a : Opnd) : LdSt :=
  { ord := .acq, scope := .device, promote := true, ty := .n64, d := v 100, a := a, off := .imm 0 }
def ldUses (f : LdSt) : Uses := { a := regsOf f.a 2, b := regsOfOff f.off, d := regsOf f.d (nRegs f.ty) }

/-- A store of another skein to the line 0x20 that covers the words of register pair 2. -/
def ownStore : ScbEntry :=
  { ctx := 0, la := 0x20, bytes := (List.range 64).map fun i => (0x1000 + i, 1), writers := [9], cached := true, sent := false, ops := [] }

theorem wit_globalLoads :
    rdy (ldUses (ld1 (v 2))) [(tc.pair (v 2)).poi, tc.offPoison (.imm 0)] = true
    ∧ (∀ l ∈ tc.lanes, (tc.ea (v 2) (.imm 0) l).toNat % 8 = 0) ∧ ts.settled tk = true
    ∧ tc.reaches .load (tc.ea (v 2) (.imm 0)) (ph ts .load (tc.ea (v 2) (.imm 0)))
    ∧ (∀ l ∈ tc.lanes, (ts.homeLine ((ph ts .load (tc.ea (v 2) (.imm 0)) l).pa / 128)).relCore = none)
    ∧ ts.tooMany 0 tc.lanes.length = false
    ∧ (∀ strong : Bool, let p := ph ts .load (tc.ea (v 2) (.imm 0))
        ∀ l ∈ tc.lanes, ts.unsettled 0 8 strong (tc.lanes.map fun j => (j, p j)) ((p l).pa / 128) = false)
    ∧ (let s := ts.modCore 0 fun x => { x with scb := [ownStore] }
       let p := ph s .load (tc.ea (v 2) (.imm 0))
       ∀ l ∈ tc.lanes, s.unsettled 0 8 false (tc.lanes.map fun j => (j, p j)) ((p l).pa / 128) = false
        ∧ s.unsettled 0 8 true (tc.lanes.map fun j => (j, p j)) ((p l).pa / 128) = true)
    ∧ (let f : LdSt := { ld1 (v 14) with ty := .i8, ord := .weak, scope := .skein, promote := false }
       rdy (ldUses f) [(tc.pair f.a).poi, tc.offPoison f.off] = true
       ∧ (∀ l ∈ tc.lanes, (tc.ea f.a f.off l).toNat % 1 = 0)
       ∧ ∃ l e, tc.lanes.head? = some l ∧ ts.translate 0 0 (tc.ea f.a f.off l) .load = .error e) :=
  ⟨by decide, by decide, by decide, reaches_ph (by decide), by decide, by decide, by decide, by decide, by decide, by decide, 0, _,
    by decide, rfl⟩

/-- The state whose grid has a digest level. -/
def withLevel (n : Nat) : State := { ts with grids := [(1, { tGrid with level := n })] }

def st1 : LdSt := { ord := .rel, scope := .device, promote := false, ty := .n64, d := v 14, a := v 2, off := .imm 0 }

theorem wit_globalStoresAndDigests :
    st1.ty.isInt = true ∧ rdy (ldUses st1) [(tc.pair (v 2)).poi, tc.offPoison (.imm 0), (tc.opnd true [] (v 14)).poi] = true
    ∧ (∀ l ∈ tc.lanes, (tc.ea (v 2) (.imm 0) l).toNat % 8 = 0) ∧ ts.settled tk = true
    ∧ tc.reaches .store (tc.ea (v 2) (.imm 0)) (ph ts .store (tc.ea (v 2) (.imm 0))) ∧ tc.g.level = 0
    ∧ (ts.core 0).scb.length + tc.lanes.length ≤ 64
    ∧ (∀ l ∈ tc.lanes, let p := ph ts .store (tc.ea (v 2) (.imm 0)) l
        p.pa % 8 = 0 ∧ ts.plainLine 0 (p.pa / 128) = true)
    ∧ (let f : LdSt := { st1 with ord := .weak, scope := .skein }
       let s := withLevel 1
       let c := s.iss pt tk
       let p := ph s .store (c.ea f.a f.off)
       f.ty.isInt = true ∧ f.ord = .weak ∧ rd s tk (ldUses f) [(c.pair f.a).poi, c.offPoison f.off, (c.opnd true [] f.d).poi] = true
       ∧ (∀ l ∈ c.lanes, (c.ea f.a f.off l).toNat % 8 = 0) ∧ s.settled tk = true ∧ c.reaches .store (c.ea f.a f.off) p
       ∧ (∀ l ∈ c.lanes, ∀ j ∈ c.lanes, l ≠ j → (p l).pa ≠ (p j).pa) ∧ c.g.level = 1
       ∧ (s.core 0).scb.length + c.lanes.length ≤ 64 ∧ tget s.blocks 2 = some tBlock) :=
  ⟨by decide, by decide, by decide, by decide, reaches_ph (by decide), by decide, by decide, by decide, by decide, rfl, by decide,
    by decide, by decide, reaches_ph (by decide), by decide, by decide, by decide, by decide⟩

def amo1 : Amo :=
  { op := .add, ord := .acqRel, scope := .device, ret := true, promote := true, ty := .i64, d := v 100, a := v 2, b := v 14 }

theorem wit_globalAtomics :
    amo1.ty.isAlu = true ∧ amo1.d.isData amo1.ty = true
    ∧ rdy (Amo.uses amo1 2) [(tc.pair (v 2)).poi, (tc.opnd true [] (v 14)).poi, fun _ => false] = true
    ∧ (∀ l ∈ tc.lanes, ((tc.pair (v 2)).val l).toNat % 8 = 0) ∧ ts.settled tk = true
    ∧ tc.reaches .atomic (tc.pair (v 2)).val (ph ts .atomic (tc.pair (v 2)).val) ∧ tc.g.level = 0
    ∧ (∀ l ∈ tc.lanes, let p := ph ts .atomic (tc.pair (v 2)).val l
        p.pa % 8 = 0 ∧ ts.plainLine 0 (p.pa / 128) = true ∧ p.bolt = false ∧ poisonedAt ts.memPoison p.pa 8 = false
        ∧ (ts.homeLine (p.pa / 128)).relCore = none) :=
  ⟨by decide, by decide, by decide, by decide, by decide, reaches_ph (by decide), by decide, by decide⟩

/-- The skein with one lane running. -/
def tk1 : Skein := { tk with running := 4 }
def ts1 : State := { ts with skeins := [(7, tk1)] }

theorem ts1_plain (la : Nat) : ts1.plainLine 0 la = true := by
  have l : ts1.homeLost la = false := by
    unfold State.homeLost
    split <;> rfl
  rw [State.plainLine, l]
  rfl

theorem wit_hintsAndFlushes : let c := ts1.iss pt tk1
    rd ts1 tk1 { a := [6, 7] } [] = true ∧ ts1.settled tk1 = true
    ∧ (∀ l p, l ∈ c.lanes ∧ (c.pair (v 6)).poi l = false ∧ c.offPoison (.imm 0) l = false
        ∧ ts1.translate 0 0 (c.ea (v 6) (.imm 0) l) .load = .ok p → ts1.plainLine 0 (p.pa / 128) = true)
    ∧ c.lanes = [2] ∧ (c.pair (v 6)).poi 2 = false ∧ c.offPoison (.imm 0) 2 = false
    ∧ (∃ p, ts1.translate 0 0 (c.ea (v 6) (.imm 0) 2) .load = .ok p ∧ p.cached = true ∧ p.bolt = false)
    ∧ (ts1.core 0).l1.length + (ts1.core 0).merges.length < 4096 := by
  exact ⟨by decide, by decide, fun _ _ _ => ts1_plain _, by decide, by decide, by decide, ⟨_, ph_ok (by decide), by decide, by decide⟩, by decide⟩

/-- The places of the lines of register pair 16 and 17. -/
def bph (acc : Acc) : Nat → Phys := ph ts acc (tc.pair (v 16)).val

/-- A core that holds the partials of those lines. -/
def merging : State := { ts with cores := [(0, { ts.core 0 with
  merges := (List.range 8).map fun l => (0x400000 + l, { ctx := 0, bolt := Bolt.zero, count := 3 }) })] }

def bamo1 (r : Bool) : BAmo := { ret := r, form := .mul, ty := .f32, d := if r then v 600 else v 0, a := v 16, b := v 8, c := v 9 }

theorem wit_boltMemory :
    tc.clean [(tc.pair (v 16)).poi] = true ∧ (∀ l ∈ tc.lanes, ((tc.pair (v 16)).val l).toNat % 128 = 0) ∧ ts.settled tk = true
    ∧ (∀ acc ∈ [Acc.load, .store, .boltAtomic], ∀ l ∈ tc.lanes, (bph acc l).boltPage = true ∧ (bph acc l).pa % 128 = 0
        ∧ ts.plainLine 0 ((bph acc l).pa / 128) = true)
    ∧ (v 600).isBolt = true ∧ rdy { a := [16, 17], d := regsOf (v 600) 24 } [] = true ∧ tc.reaches .load (tc.pair (v 16)).val (bph .load)
    ∧ ts.tooMany 0 tc.lanes.length = false
    ∧ rdy { a := [16, 17], b := regsOf (v 24) 24 } [] = true ∧ tc.reaches .store (tc.pair (v 16)).val (bph .store) ∧ tc.g.level = 0
    ∧ (ts.core 0).scb.length + tc.lanes.length ≤ 64 ∧ (ts.core 0).merges.length + tc.lanes.length ≤ 4096
    ∧ (∀ r : Bool, ((bamo1 r).ret = true → (bamo1 r).d.isBolt = true) ∧ ts.mayIssue pt (BAmo.uses (bamo1 r)) tk = true)
    ∧ tc.reaches .boltAtomic (tc.pair (v 16)).val (bph .boltAtomic)
    ∧ (∀ l ∈ tc.lanes, ∀ j ∈ tc.lanes, l ≠ j → (bph .boltAtomic l).pa / 128 ≠ (bph .boltAtomic j).pa / 128) :=
  ⟨by decide, by decide, by decide, by decide, by decide, by decide, reaches_ph (by decide), by decide, by decide, reaches_ph (by decide),
    by decide, by decide, by decide, by decide, reaches_ph (by decide), by decide⟩

theorem wit_boltMemory_partials : let s := merging
    let c := s.iss pt tk
    let va := (c.pair (v 16)).val
    rd s tk (BAmo.uses (bamo1 false)) [(c.pair (v 16)).poi] = true
    ∧ (∀ l ∈ c.lanes, (va l).toNat % 128 = 0 ∧ (ph s .boltAtomic va l).boltPage = true) ∧ s.settled tk = true
    ∧ c.reaches .boltAtomic va (ph s .boltAtomic va)
    ∧ (∀ l ∈ c.lanes, (ph s .boltAtomic va l).cached = true ∧ s.quietLine 0 ((ph s .boltAtomic va l).pa / 128) = true
        ∧ tget (s.core 0).merges ((ph s .boltAtomic va l).pa / 128) = some { ctx := 0, bolt := Bolt.zero, count := 3 }) :=
  ⟨by decide, by decide +kernel, by decide, reaches_ph (by decide), by decide +kernel⟩

/-! A partition's 6,144 lines, one behind another on the BOLT page. -/

def tile1 (m : Bool) : MTile := { merge := m, p := 1, a := v 16, b := v 20 }

def tva (j : Nat) : DWord := BitVec.ofNat 64 (0x20000000 + j / 96 * 12288 + j % 96 * 128)
def tpa (j : Nat) : Phys := ⟨0x20000000 + 128 * j, 0x20000053⟩

theorem tile_translate (acc : Acc) (j : Nat) (hj : j < 6144) : ts.translate 0 0 (tva j) acc = .ok (tpa j) := by
  have e : (tva j).toNat = 0x20000000 + 128 * j := by
    rw [tva, BitVec.toNat_ofNat]
    omega
  have t : ts.tlbFind 0 0 (0x20000000 + 128 * j) = some { ctx := 0, vbase := 2 ^ 29, size := 2 ^ 29, entry := 0x20000053 } := by
    simp [State.tlbFind, State.core, State.die, ts, tget]
    omega
  have f : ts.findLeaf 0 0 (tva j) = .ok (0x20000053, 2 ^ 29) := by
    have h : (0x20000000 + 128 * j) / 2 ^ 55 = 0 := by omega
    rw [State.findLeaf, e, h, t]
    rfl
  have a : entryAddr 0x20000053 / 2 ^ 29 * 2 ^ 29 + (0x20000000 + 128 * j) % 2 ^ 29 = 0x20000000 + 128 * j := by
    have h : entryAddr 0x20000053 = 0x20000000 := by decide
    omega
  have c : ts.canon (0x20000000 + 128 * j) = 0x20000000 + 128 * j := by
    have h : (0x20000000 + 128 * j) / 2 ^ 50 % 4 = 0 := by omega
    rw [State.canon, h]
    rfl
  have k : ts.paOk (0x20000000 + 128 * j) = true := by
    have h : (0x20000000 + 128 * j) / 2 ^ 50 % 4 = 0 := by omega
    have g : (0x20000000 + 128 * j) / 2 ^ 30 = 0 := by omega
    simp only [State.paOk, regionOf, h, State.extent, g]
    simp [ts, tget]
    omega
  rw [State.translate, f]
  simp only [e, a, c, k]
  cases acc <;> rfl

theorem tile_line (j : Nat) (hj : j < 6144) :
    (tpa j).boltPage = true ∧ (tpa j).pa % 128 = 0 ∧ ts.plainLine 0 ((tpa j).pa / 128) = true := by
  have h : (0x20000000 + 128 * j) / 2 ^ 50 % 4 = 0 := by omega
  refine ⟨?_, by simp only [tpa]; omega, ?_⟩
  · simp only [tpa, Phys.boltPage, Phys.bolt, regionOf, h]
    decide
  · have l : ts.homeLost ((tpa j).pa / 128) = false := by
      unfold State.homeLost
      split <;> rfl
    rw [State.plainLine, l]
    rfl

theorem wit_tileTransfers :
    (∀ m : Bool, rdy { a := regsOf (tile1 m).a 2, b := regsOf (tile1 m).b 1 }
      [fun _ => (tc.pair (v 16)).poi tc.low, fun _ => (tc.single [] (v 20)).poi tc.low] = true)
    ∧ ((tc.pair (v 16)).val tc.low).toNat = 0x20000000 ∧ tc.lowNat (v 20) = 12288 ∧ ts.settled tk = true
    ∧ (ts.core 0).loom = [] ∧ (∃ x, tc.part 1 = some (1, x)) ∧ tc.g.level = 0 ∧ (ts.core 0).scb.length ≤ 64 ∧ (ts.core 0).merges = []
    ∧ (∀ j < 6144, (tpa j).boltPage = true ∧ (tpa j).pa % 128 = 0 ∧ ts.plainLine 0 ((tpa j).pa / 128) = true)
    ∧ (∀ acc ∈ [Acc.tileStore, .tile], ∀ j < 6144, ts.translate 0 0 (tva j) acc = .ok (tpa j))
    ∧ ∀ j < 6144, ∀ l < 6144, l ≠ j → (tpa j).pa / 128 ≠ (tpa l).pa / 128 := by
  refine ⟨by decide, by decide, by decide, by decide, by decide, ⟨_, rfl⟩, by decide, by decide, by decide, tile_line, fun acc _ => tile_translate acc, ?_⟩
  intro j _ l _ h
  simp only [tpa]
  omega


/-! ## Tiles, counts, fences, control flow -/

/-- The machine with another skein in its place. -/
def asSkein (k : Skein) : State := { ts with skeins := [(7, k)] }

/-- Maps over hall A, the first with a list of row numbers at 0x200, whose row 1 is left out; leave is granted. -/
def mapped : Skein := { tk with leave := .granted, maps :=
  [(0, { ty := .f16, hallW := false, base := 0, stride := 64, list := some 0x200 }),
   (1, { ty := .f16, hallW := true, base := 0, stride := 128, list := none })] }

def mapState : State :=
  { asSkein mapped with blocks := [(2, { tBlock with hallA := [(0x202, 0xFF), (0x203, 0xFF)] })] }

def mmap1 : MMap := { ty := .f32, w := true, idx := true, m := v 15, a := v 10, b := v 22, c := v 22 }
def mma1 : Mma := { p := 1, kb := 1, a := v 0, b := v 1 }

theorem wit_mapsAndTileProducts :
    rdy { a := [10], b := [22], c := [22] }
      [fun _ => (tc.single [] (v 10)).poi tc.low, fun _ => (tc.single [] (v 22)).poi tc.low] = true
    ∧ tc.lowNat (v 10) % 4 = 0 ∧ tc.lowNat (v 22) % 4 = 0
    ∧ (let s := mapState
       let c := s.iss pt mapped
       ∃ a b i x, s.mayIssue pt { hall := true } mapped = true ∧ tget mapped.maps (opIdx mma1.a) = some a ∧ tget mapped.maps (opIdx mma1.b) = some b
        ∧ a.list = some 0x200 ∧ 0x200 + 128 ≤ c.hallLen false ∧ c.b.hallBad false 0x200 128 = false ∧ (a.ty == b.ty) = true
        ∧ c.part mma1.p.toNat = some (i, x)
        ∧ (∀ gather : Bool, ∀ j < 64, let row := if gather then c.b.hallNat false (0x200 + 2 * j) 2 else j
            (gather && row == 0xFFFF) = false →
              a.base.toNat + row * a.stride.toNat + blockBytes a.ty ≤ c.hallLen a.hallW)
        ∧ c.b.hallNat false 0x202 2 = 0xFFFF
        ∧ (∀ j < 96, b.base.toNat + j * b.stride.toNat + blockBytes b.ty ≤ c.hallLen b.hallW) ∧ s.leaveAtOnce mapped 196608)
    ∧ rdy {} [] = true ∧ (∃ x, tc.part 0 = some (0, x)) ∧ ∃ x, tc.part 1 = some (1, x) :=
  ⟨by decide, by decide, by decide, ⟨_, _, _, _, by decide, rfl, rfl, rfl, by decide, by decide, by decide, rfl, by decide,
    by decide, by decide, .inl rfl⟩, by decide, ⟨_, rfl⟩, ⟨_, rfl⟩⟩

/-- The skein with 32 lanes. -/
def wide : Skein := { tk with width := 32, tid := List.range 32, live := 0xFFFFFFFF, running := 0xFFFFFFFF }

theorem wit_roundingAndQuantisation :
    rdy { a := [10], b := [22], hall := true }
      [fun _ => (tc.single [] (v 10)).poi tc.low, fun _ => (tc.single [] (v 22)).poi tc.low] = true
    ∧ tc.lowNat (v 10) % 4 = 0 ∧ tc.lowNat (v 22) % 4 = 0 ∧ (∃ x, tc.part 1 = some (1, x))
    ∧ (∀ j < 64, tc.lowNat (v 10) + j * tc.lowNat (v 22) + 96 * 4 ≤ tc.hallLen false)
    ∧ (let s := asSkein wide
       let c := s.iss pt wide
       (v 100).isReg = true ∧ 32 ≤ wide.width ∧ wide.width % 32 = 0
       ∧ rd s wide { a := [10], d := [100] } [(c.single [] (v 10)).poi] = true
       ∧ rd s wide { a := [10], d := [100], hall := true } [fun _ => (c.single [] (v 10)).poi c.low] = true
       ∧ (∀ l ∈ c.lanes, c.lowNat (v 10) + (l / 32 + 1) * mxBlock .e2m1 ≤ c.hallLen false)
       ∧ Ty.isMx .e4m3 = true ∧ rd s wide { a := [10], b := [8], c := [10], hall := true }
          [fun _ => (c.single [] (v 10)).poi c.low, (c.single [] (v 8)).poi, (c.single [] (v 10)).poi] = true
       ∧ ∀ g ∈ (List.range 1).filter (fun g => c.lanes.any fun l => l / 32 == g),
          c.lowNat (v 10) + g * mxBlock .e4m3 + mxBlock .e4m3 ≤ c.hallLen false) :=
  ⟨by decide, by decide, by decide, ⟨_, rfl⟩, by decide, by decide⟩

/-- Group 4 instructions of the skein under way on core 0, named 20, 21, …; the block lists one hall word that was replaced. -/
def looms (acts : List LoomAct) (reading : Nat) : State :=
  { (ts.modCore 0 fun x => { x with loom := (acts.zip (List.range acts.length)).map fun y =>
      { id := 20 + y.2, sk := 7, blk := 2, ctx := 0, mark := 0, act := y.1 } }) with
    blocks := [(2, { tBlock with reading := reading, past := if reading = 0 then [] else [{ hallW := false, word := 0x40, val := 9, bad := true }] })]
    pending := [.resultLand 7 ⟨some 2, some 20⟩, .resultLand 7 ⟨none, some 21⟩] }

def slotA : MapSlot := { ty := .f16, hallW := false, base := 0, stride := 64, list := none }

/-- What stands first in the loom of a machine may land. -/
def lands (s : State) (act : LoomAct) (p : Nat) : Bool :=
  s.loomHead 20 == some (0, { id := 20, sk := 7, blk := 2, ctx := 0, mark := 0, act := act })
    && ((tget s.blocks 2).bind (·.dying)).isNone && (tget (s.core 0).hallc p).isSome && (tget s.blocks 2).isSome

theorem wit_loomLandings :
    (∀ r ∈ [1, 2], lands (looms [.mul slotA slotA 1 (List.replicate 63 (some 0) ++ [none]) 1, .lines] r)
      (.mul slotA slotA 1 (List.replicate 63 (some 0) ++ [none]) 1) 1 = true)
    ∧ lands (looms [.zero 0] 0) (.zero 0) 0 = true
    ∧ (∀ q ∈ [0, 1], lands (looms [.merge 0 q] 0) (.merge 0 q) q = true)
    ∧ lands (looms [.lines] 0) .lines 0 = true ∧ (looms [.lines] 0).flushed 0 7 = true
    ∧ (looms [.lines] 0 |>.modCore 0 fun x => { x with scb := [{ ownStore with writers := [7] }] }).flushed 0 7 = false
    ∧ (∀ b ∈ [none, some 5], ∀ r ∈ [0, 1], lands (looms [.round .f16 0 false 0x200 192 1 b] r) (.round .f16 0 false 0x200 192 1 b) 1 = true)
    ∧ 96 * rndSize .f16 ≤ 192
    ∧ (let s := looms [.lines, .zero 0] 0
       s.loomHead 21 = none ∧ s.inLoom 21 = true ∧ (s.cores.map Prod.fst).Nodup
       ∧ Instr.resultLand 7 ⟨some 2, some 20⟩ ∈ s.pending) := by decide +kernel

def cnt1 (hall : Bool) (n : Nat) : Cnt :=
  { hall := hall, scope := .block, promote := !hall, a := if hall then v 12 else v 4, b := .imm (BitVec.ofNat 24 n) }
def cntrd1 (hall : Bool) : CntRd :=
  { acq := true, hall := hall, scope := .block, promote := !hall, d := v 100, a := if hall then v 12 else v 4 }

/-- The count words hold 3 in hall A and 9 in memory: thresholds at them and above. -/
theorem wit_countWords :
    tk.met = false ∧ (let k := { tk with met := true }
      ∀ hall : Bool, k.met = true ∧ (asSkein k).mayIssue pt { a := cntRegs hall (if hall then v 12 else v 4), hall := hall } k = true)
    ∧ (∀ hall : Bool, ∀ d ∈ [0, 1], let f := cnt1 hall ((if hall then 3 else 9) + d)
      let off := (tc.cntAddr hall f.a).toNat
      let word := if hall then tc.b.hallNat false off 8 else Mem.nat ts.mem 0x2000 8
      tc.clean [fun _ => (tc.opnd (!hall) [] f.a).poi tc.low, fun _ => (tc.srcImm true false [] f.b).poi tc.low] = true
      ∧ off % 8 = 0 ∧ ts.settled tk = true ∧ (hall = true → off + 8 ≤ tc.hallLen false)
      ∧ ts.mayIssue pt { a := cntRegs hall f.a, b := regsOfImm f.b 2, hall := hall } tk = true
      ∧ (if d = 0 then tc.lowImm true f.b ≤ word else word < tc.lowImm true f.b)
      ∧ ts.mayIssue pt { a := cntRegs hall f.a, d := regsOf (cntrd1 hall).d 2, hall := hall } tk = true ∧ (cntrd1 hall).d.isPair = true
      ∧ (cntrd1 hall).a = f.a ∧ (cntrd1 hall).promote = f.promote)
    ∧ (∀ acc : Acc, (ts.translate 0 0 (tc.cntAddr false (v 4)) acc).toBool = true →
        ts.translate 0 0 (tc.cntAddr false (v 4)) acc = .ok (ph ts acc (fun _ => tc.cntAddr false (v 4)) 0))
    ∧ (∀ acc ∈ [Acc.store, .load], (ts.translate 0 0 (tc.cntAddr false (v 4)) acc).toBool = true
        ∧ let p := ph ts acc (fun _ => tc.cntAddr false (v 4)) 0
          p.pa = 0x2000 ∧ p.pa % 8 = 0 ∧ p.bolt = false ∧ ts.plainLine 0 (p.pa / 128) = true ∧ (ts.homeLine (p.pa / 128)).relCore = none) :=
  ⟨by decide, by decide, by decide, fun _ h => ph_ok (ea := fun _ => tc.cntAddr false (v 4)) (l := 0) h, by decide⟩

/-- A load under way, of one word into register 100. -/
def load1 : LoadOp :=
  { id := 5, dst := 100, ty := .n32, lanes := [⟨0, 0x1000, 0⟩], got := [], overlay := [], flag := none, strong := false
    acq := false, uniform := true, olds := [] }

def loading : Skein := { tk with loads := [load1] }
def inSpan (o sf : Bool) : Skein := { tk with task := { isOpen := o }, sfInd := sf }

theorem wit_fencesDrainsAndSpans :
    rd (asSkein loading) loading {} [] = true ∧ loading.loads ≠ [] ∧ rdy {} [] = true ∧ tk.loads = []
    ∧ ts.settled tk = true ∧ ts.quiet 0 7 = true ∧ (ts.core 0).scb = [] ∧ (∀ q ∈ ts.lines, q.2.relCore = none)
    ∧ (∀ sf : Bool, let k := inSpan false sf
        rd (asSkein k) k {} [] = true ∧ (asSkein k).quiet 0 7 = true ∧ k.noFault = !sf)
    ∧ (∀ o : Bool, ∀ b ∈ [10, 25], let k := inSpan o false
        let c := (asSkein k).iss pt k
        rd (asSkein k) k { a := [4, 5], b := [b] } [fun _ => (c.pair (v 4)).poi c.low, fun _ => (c.single [] (v b)).poi c.low] = true
        ∧ rd (asSkein k) k {} [] = true ∧ (b = 10 ↔ c.lowNat (v b) < 2 ^ 31) ∧ (asSkein k).quiet 0 7 = true
        ∧ k.noFault = true ∧ k.task.isOpen = o)
    ∧ tget ts.grids 1 = some tGrid := by decide

/-- Issue fields with guard p1, which is 1 in lanes 0 to 3. -/
def pg : Ctl := { pt with gp := 1 }
/-- A shed at whose close point the skein stands. -/
def shed1 : Shed := { deferred := 0x30, parked := 0xC0, elsePc := 0x20083, closePc := 0x20003, inElse := false }
def shedding (es : List Shed) : Skein := { tk with running := 0x0F, sheds := es }
/-- The skein may issue with no operand but registers, under a guard. -/
def goes (h : Ctl) (k : Skein) (u : Uses) : Bool := (asSkein k).mayIssue h u k

theorem wit_branches :
    goes pt tk {} = true ∧ tk.running &&& ~~~tk.active pt = 0
    ∧ goes pg tk {} = true ∧ tk.running &&& ~~~tk.active pg ≠ 0 ∧ tk.sheds = []
    ∧ (let k := { tk with sheds := [shed1] }
       goes pg k {} = true ∧ k.running &&& ~~~k.active pg ≠ 0)
    ∧ goes pt tk { a := [4, 5] } = true ∧ tc.clean [(tc.pair (v 4)).poi] = true
    ∧ (∀ a ∈ [4, 6], ∀ l ∈ tc.lanes, ((tc.pair (v a)).val l).toNat < 2 ^ 55 ∧ ((tc.pair (v a)).val l).toNat % 128 ≤ 9)
    ∧ goes pt tk { a := [6, 7] } = true ∧ tc.clean [(tc.pair (v 6)).poi] = true
    ∧ goes pt tk { a := [14, 15] } = true ∧ tc.clean [(tc.pair (v 14)).poi] = true ∧ tc.lanes.head? = some 0
    ∧ 2 ^ 55 ≤ ((tc.pair (v 14)).val 0).toNat
    ∧ (v 100).isPair = true ∧ goes pt tk { d := [100, 101] } = true := by decide

theorem wit_shedStack :
    (let k := shedding (List.replicate 16 shed1)
     goes pt k {} = true ∧ 16 ≤ k.sheds.length)
    ∧ (let k := shedding (List.replicate 15 shed1)
       goes pt k {} = true ∧ k.sheds.length < 16 ∧ k.running &&& ((asSkein k).iss pt k).pred (v 2) ≠ 0
       ∧ k.running &&& ~~~((asSkein k).iss pt k).pred (v 15) = 0)
    ∧ (∀ e ∈ [{ shed1 with closePc := 0x20083 }, shed1, { shed1 with deferred := 0 }, { shed1 with inElse := true }],
        goes pt (shedding [e]) {} = true)
    ∧ (⟨0x30, 0, 0, 0x20083, false⟩ : Shed).closePc ≠ tk.pc ∧ shed1.closePc = tk.pc ∧ shed1.inElse = false ∧ shed1.deferred ≠ 0
    ∧ goes pt tk {} = true ∧ tk.sheds = [] := by decide

/-- Another skein of the block. -/
def tk8 : Skein := { tk with num := 1, tid := (List.range 8).map (8 + ·) }
def two (k q : Skein) (b : Block) : State := { ts with skeins := [(7, k), (8, q)], blocks := [(2, b)] }
def twoBlock : Block := { tBlock with skeins := [7, 8], nskein := 2 }

theorem wit_exitYieldAndNop :
    goes pg tk {} = true ∧ tk.live &&& ~~~tk.active pg ≠ 0 ∧ tk.running &&& ~~~tk.active pg ≠ 0 ∧ tk.entry = none
    ∧ (let k := shedding [{ shed1 with deferred := 0xF0, parked := 0 }]
       goes pt k {} = true ∧ k.live &&& ~~~k.active pt ≠ 0 ∧ k.running &&& ~~~k.active pt = 0 ∧ k.entry = none ∧ k.hnd = false
       ∧ ∀ e ∈ k.sheds, e.inElse = false ∧ e.deferred ≠ 0)
    ∧ goes pt tk {} = true ∧ tk.live &&& ~~~tk.active pt = 0 ∧ ts.settled tk = true ∧ ts.looming 0 7 = false ∧ tk.noFault = true
    ∧ tget ts.blocks 2 = some tBlock ∧ tget ts.grids 1 = some tGrid ∧ tBlock.grid = 1 ∧ tBlock.skeins = [7]
    ∧ (∀ q ∈ ts.skeins, q.2.meeting = .no)
    ∧ (let s := two tk tk8 twoBlock
       s.mayIssue pt {} tk = true ∧ s.settled tk = true ∧ s.looming 0 7 = false ∧ tget s.blocks 2 = some twoBlock ∧ twoBlock.skeins ≠ [7]
       ∧ (∃ i ∈ twoBlock.skeins, i ≠ 7) ∧ ∀ q ∈ s.skeins, q.2.meeting = .no) := by decide

theorem wit_meetings :
    (∀ m ∈ [Meeting.no, .meet 3], let s := two tk { tk8 with meeting := m } twoBlock
      s.mayIssue pt {} tk = true ∧ tget s.blocks 2 = some twoBlock ∧ 7 ∈ twoBlock.skeins ∧ tk.num < 16 ∧ tk.loads = []
      ∧ (if m = .no then ∃ q ∈ s.skeinsOf 2, q.1 ≠ 7 ∧ q.2.meeting = .no
         else ∀ q ∈ s.skeinsOf 2, q.1 ≠ 7 → q.2.meeting = .meet 3)
      ∧ tk.sheds = [] ∧ tk.task.isOpen = false ∧ (∀ f < 12, tk.flag f = 0) ∧ s.settled tk = true ∧ s.looming 0 7 = false
      ∧ tk.noFault = true)
    ∧ (two loading tk8 twoBlock).mayIssue pt {} loading = true ∧ (two loading tk8 twoBlock).quiet 0 7 = true ∧ loading.loads ≠ []
    ∧ goes pt (shedding [shed1]) {} = true ∧ (shedding [shed1]).sheds ≠ []
    ∧ goes pt (inSpan true false) {} = true ∧ (inSpan true false).sheds = [] ∧ (inSpan true false).task.isOpen = true
    ∧ goes pt tk {} = true ∧ tBlock.skeins = [7] ∧ tk.num = 0 ∧ tk.width ≤ 64 ∧ ts.settled tk = true ∧ ts.looming 0 7 = false
    ∧ Mask.lanes tk.live tk.width ≠ [] := by decide


/-! ## Special registers, traps, issue, faults -/

theorem ok_and {ε α : Type} {x : Except ε α} {P : α → Bool} (h : x.toOption.any P = true) : ∃ a, x = .ok a ∧ P a = true := by
  cases x with
  | error e => cases h
  | ok a => exact ⟨a, rfl, h⟩

theorem error_of {ε α : Type} {x : Except ε α} (h : x.toBool = false) : ∃ e, x = .error e := by
  cases x with
  | error e => exact ⟨e, rfl⟩
  | ok a => cases h

/-- Issue fields with p14 as guard, which is 0 everywhere. -/
def poff : Ctl := { pt with gp := 14 }

def rec1 : StoreRec :=
  { sk := 7, pc := 0x20001, mask := 0x02, cause := 3, size := 4, slot := 0
    lanes := [{ lane := 1, ea := 0x1003, data := 5, poison := true }] }

/-- The machine whose core has recorded and unrecorded store faults. -/
def faulty (q w : List StoreRec) (k : Skein) : State := (asSkein k).modCore 0 fun x => { x with recQ := q, recWait := w }

theorem wit_csrReads :
    (∀ n < 0x62, (if csrIs64 n then (v 100).isPair = true else (v 100).isReg = true)
      ∧ ts.mayIssue pt { d := regsOf (v 100) (if csrIs64 n then 2 else 1) } tk = true)
    ∧ (v 638).isPair = true ∧ rdy { d := regsOf (v 638) 2 } [] = true ∧ ts.quiet 0 7 = true ∧ tk.noFault = true
    ∧ (∀ n ∈ [0, 32, 33], rdy { d := regsOf (v 638) 2 } [fun _ => (tc.srcImm false false [] (.imm (BitVec.ofNat 24 n))).poi tc.low] = true
        ∧ tc.lowImm false (.imm (BitVec.ofNat 24 n)) = n)
    ∧ (∀ q ∈ [[], [{ rec1 with sk := 9 }, rec1]], let s := faulty q [] tk
        (630 : BitVec 10).toNat ≤ 630 ∧ s.mayIssue pt { d := regsOf (v 630) 9 } tk = true ∧ (s.core 0).recQ = q)
    ∧ (∀ x ∈ [{ rec1 with sk := 9 }], x.sk ≠ 7) ∧ rec1.sk = 7 ∧ ts.looming 0 7 = false
    ∧ (looms [.lines] 0).looming 0 7 = true ∧ (looms [.lines] 0).mayIssue pt { d := regsOf (v 100) 1 } tk = true := by decide

theorem wit_csrWrites :
    (∀ w : Nat, w ∈ [1, 2] → rdy { a := regsOf (v 4) w } [fun _ => (tc.opnd (w == 2) [] (v 4)).poi tc.low] = true)
    ∧ ((tc.opnd true [] (v 4)).val tc.low).toNat % 128 ≤ 9
    ∧ rdy { a := regsOf (v 14) 2 } [fun _ => (tc.opnd true [] (v 14)).poi tc.low] = true
    ∧ 9 < ((tc.opnd true [] (v 14)).val tc.low).toNat % 128
    ∧ (∀ k ∈ [{ tk with hnd := true }, { tk with firmware := true }],
        rd (asSkein k) k { a := [4, 5] } [fun _ => (((asSkein k).iss pt k).opnd true [] (v 4)).poi ((asSkein k).iss pt k).low] = true
        ∧ rd (asSkein k) k { a := [4] } [fun _ => (((asSkein k).iss pt k).opnd false [] (v 4)).poi ((asSkein k).iss pt k).low] = true)
    ∧ tget ts.skeins 7 = some tk ∧ tk.firmware = false ∧ tk.hnd = false ∧ csrIs64 0x61 = false ∧ csrIs64 1 = true := by decide

/-- A skein in its handler, which it entered from `0x20001` with four lanes running. -/
def handling (pc : DWord) : Skein :=
  { tk with hnd := true, trap := { pc := pc }, entry := some {
      pc := 0x20001, running := 0x0F, sheds := [], live := 0xFF, preds := [], flags := [], stall := 0, spanOpen := false } }

theorem wit_traps :
    tget ts.skeins 7 = some tk ∧ tget ts.grids 1 = some tGrid ∧ tk.hnd = false ∧ tGrid.trapvec ≠ 0
    ∧ (let k := handling 0x20001
       tget (asSkein k).skeins 7 = some k ∧ k.hnd = true ∧ (asSkein k).lingers 2 tBlock = false)
    ∧ ts.lingers 2 tBlock = false ∧ (looms [.lines] 0).lingers 2 tBlock = true ∧ tget (looms [.lines] 0).blocks 2 = some tBlock
    ∧ tget (looms [.lines] 0).skeins 7 = some tk ∧ ({ tGrid with trapvec := 0 } : Grid).trapvec = 0
    ∧ tget ts.blocks 2 = some tBlock ∧ 7 ∈ tBlock.skeins ∧ tBlock.grid = 1 := by decide

theorem wit_trapsAndReturns :
    goes pt tk {} = true ∧ (ts.ctx 0).dbg.brken = false ∧ tk.hnd = false
    ∧ (let s := ts.modCtx 0 fun x => { x with dbg := { x.dbg with brken := true } }
       s.mayIssue pt {} tk = true ∧ (s.ctx 0).dbg.brken = true)
    ∧ (∀ r ∈ [9, 10], let k := handling (BitVec.ofNat 64 (0x20000 + r))
        goes pt k {} = true ∧ k.hnd = true ∧ (r = 10 ↔ 9 < k.trap.pc.toNat % 128) ∧ k.entry.any (fun e => e.running != 0) = true
        ∧ tget (asSkein k).blocks 2 = some tBlock ∧ tget (asSkein k).grids 1 = some tGrid ∧ (asSkein k).lingers 2 tBlock = false)
    ∧ (let k := handling 0x20001
       let s := { looms [.lines] 0 with skeins := [(7, k)] }
       s.mayIssue pt {} k = true ∧ k.hnd = true ∧ tget s.blocks 2 = some tBlock ∧ tget s.grids 1 = some tGrid
       ∧ s.lingers 2 tBlock = true)
    ∧ (∀ i ∈ [0, tBlock.idx], ∀ g ∈ [tGrid], g.lowest = some i → tBlock.idx < i) ∧ tBlock.grid = 1 ∧ 7 ∈ tBlock.skeins
    ∧ (∀ n ∈ [0, 1], rdy {} [fun _ => (tc.srcImm false false [] (.imm (BitVec.ofNat 24 n))).poi tc.low] = true
        ∧ tc.lowImm false (.imm (BitVec.ofNat 24 n)) = n) := by decide

/-- Issue fields that set flag 2, or wait for flag 3. -/
def ps2 : Ctl := { pt with setf := 2 }
def pw3 : Ctl := { pt with wait := 8 }

theorem wit_issueConditions :
    (let k := { tk with regCount := 10 }
     let u := Alu2.uses (a2 .i32 (.imm 5)) false false
     tget (asSkein k).skeins 7 = some k ∧ u.outOfRange k.regCount = some 100)
    ∧ (let f := { a2 .i32 (.imm 5) with a := .chan 2 false }
       (Alu2.uses f false false).outOfRange 640 = none ∧ (Alu2.uses f false false).unbound tBlock = some 2)
    ∧ (let u := Alu2.uses (a2 .i32 (.imm 5)) false false
       u.outOfRange 640 = none ∧ u.unbound tBlock = none
       ∧ pw3.wait.getLsbD 3 = true ∧ ({ tk with flags := [(3, 1)] } : Skein).flag 3 ≠ 0
       ∧ Ctl.flag ps2 = some 2 ∧ ({ tk with flags := [(2, 63)] } : Skein).flag 2 = 63
       ∧ (∃ o ∈ loading.loads, o.noDst = false ∧ ∃ r ∈ u.a ++ u.b ++ u.d,
           o.dst ≤ r ∧ r < o.dst + if o.bolt then 24 else nRegs o.ty)
       ∧ ∃ o ∈ ({ tk with loads := [{ load1 with dst := 80, bolt := true }] } : Skein).loads, o.noDst = false
          ∧ ∃ r ∈ u.a ++ u.b ++ u.d, o.dst ≤ r ∧ r < o.dst + if o.bolt then 24 else nRegs o.ty)
    ∧ (let u := Alu2.uses { a2 .i32 (.imm 5) with a := .chan 0 false } false false
       u.outOfRange 640 = none ∧ u.unbound tBlock = none ∧ u.reads ≠ []
       ∧ ∃ o ∈ ({ tk with loads := [{ load1 with acq := true }] } : Skein).loads, o.acq = true)
    ∧ (let u := Alu2.uses { a2 .i32 (.imm 5) with d := .chan 0 false } false false
       u.outOfRange 640 = none ∧ u.unbound tBlock = none ∧ u.push ≠ none ∧ u.blocked tBlock = none ∧ loading.loads ≠ []
       ∧ (asSkein loading).quiet 0 7 = true ∧ loading.active pt ≠ 0)
    ∧ (let f := { a2 .i32 (.imm 5) with a := .chan 1 false }
       let u := Alu2.uses f false false
       u.outOfRange 640 = none ∧ u.unbound tBlock = none ∧ flagsReady tk pt = true ∧ u.locked tk = false ∧ tk.loads = [] ∧ tk.active pt ≠ 0
       ∧ u.blocked tBlock = some 1) := by decide

/-- The skein whose registers 2 (addresses), 0 (data) and 10 (offset) have poison in lane 5. -/
def poisoned (a d b : Bool) : Skein :=
  let p := fun (x : Bool) (r : VReg) => { r with poison := if x then 0x20 else 0 }
  { tk with regs := tput (tput (tput tRegs 2 (p a (vec (0x1000 + 8 * ·)))) 0 (p d (vec (· + 1)))) 10 (p b (uni 4)) }

theorem wit_operandTraps :
    (∀ a d b : Bool, let k := poisoned a d b
      let c := (asSkein k).iss pt k
      let f : LdSt := { ord := .weak, scope := .skein, promote := false, ty := .n32, d := v 0, a := v 2, off := .vec (v 10) }
      (asSkein k).mayIssue pt (ldUses f) k = true ∧ 5 ∈ c.lanes
      ∧ (c.pair f.a).poi 5 = a ∧ c.offPoison f.off 5 = b ∧ (c.opnd false [] f.d).poi 5 = d
      ∧ ∀ j ∈ c.lanes, j < 5 → (c.pair f.a).poi j = false ∧ c.offPoison f.off j = false ∧ (c.opnd false [] f.d).poi j = false)
    ∧ (let f : LdSt := { ord := .weak, scope := .skein, promote := false, ty := .n32, d := v 100, a := v 2, off := .imm 2 }
       rdy (ldUses f) [(tc.pair f.a).poi, tc.offPoison f.off, (tc.opnd false [] f.d).poi] = true
       ∧ 0 ∈ tc.lanes ∧ (tc.ea f.a f.off 0).toNat % accBytes f.ty ≠ 0) := by decide

/-- The block with every channel bound. -/
def boundBlock : Block := { tBlock with chans := (List.range 32).map fun n => (n, { off := 0x8000, depth := 2 }) }

theorem wit_guardedOff : let s := withBlock boundBlock
    let i := Instr.st poff { st1 with off := .vec (v 0) }
    i.wf = true ∧ (∃ w, encode i = some w ∧ ctlOf w = poff) ∧ (∀ h d n, i ≠ .csrr h d n) ∧ (∀ h a n, i ≠ .csrw h a n)
    ∧ tget s.skeins 7 = some tk ∧ tk.regCount = 640
    ∧ (∀ n < 32, (tget (s.iss poff tk).b.chans n).isSome = true) ∧ tk.loads = [] ∧ flagsReady tk poff = true
    ∧ tk.active poff = 0 := by
  refine ⟨by decide, ⟨_, rfl, by decide⟩, fun _ _ _ h => (by cases h), fun _ _ _ h => (by cases h), by decide, by decide, by decide,
    by decide, by decide, by decide⟩

/-- A load of two bytes, bound, which writes the pair 100 and lowers flag 2. -/
def boundLoad : LoadOp := { load1 with
  lanes := [⟨1, 0x1000, 0⟩], ty := .n64, flag := some 2, got := [⟨0x20, 0, List.replicate 128 7, [(0x1008, 8)]⟩] }

def haltedNow : State := ts.modCtx 0 fun x => { x with dbg := { x.dbg with halt := true } }

theorem wit_issueEvents :
    tget ts.skeins 7 = some tk ∧ ts.cur = 7
    ∧ (match ({ tk with lines := [(0x400, List.replicate 8 0 ++ List.replicate 120 0x1F)] } : Skein).fetched with
        | .illegalOp _ => true
        | _ => false) = true
    ∧ (∀ d ∈ [0, 1], let k := { tk with stall := 5, readyAt := 20 }
        k.stall ≠ 0 ∧ (d = 0 ↔ k.readyAt + k.stall ≤ ({ ts with clk := 25 - d } : State).clk))
    ∧ (∀ d ∈ [0, 1], let s := { ts with clk := 3072 - d }
        s.ready { tk with lines := [(0x400, List.replicate 128 0)] } = true ∧ tk.promoted = none
        ∧ (d = 0 ↔ tk.readyAt + 3072 ≤ s.clk))
    ∧ Instr.resultLand 7 ⟨some 2, none⟩ ∈ ({ ts with pending := [.resultLand 7 ⟨some 2, none⟩] } : State).pending
    ∧ ts.flushed 0 7 = true
    ∧ (ts.modCore 0 fun x => { x with scb := [{ ownStore with writers := [7] }] }).flushed 0 7 = false
    ∧ (∀ b ∈ [boundLoad, { boundLoad with noDst := true }, { boundLoad with bolt := true }], let k := { tk with loads := [b] }
       b ∈ k.loads ∧ (∀ x ∈ k.loads, x.id = b.id → x = b) ∧ LoadOp.bound b = true
       ∧ Instr.loadDataLand 7 b.id ∈ ({ ts with pending := [.loadDataLand 7 b.id] } : State).pending)
    ∧ haltedNow.haltedAt { tk with park := .sleep 3 10 } = true ∧ ts.haltedAt tk = false
    ∧ (let b := { tBlock with full := [0x40] }
       parkHolds b (.word 0 3 [0x100] true) = true ∧ parkHolds b (.countHall 5 2 0x200 3) = true ∧ parkHolds b (.chan 5 1 0) = true
       ∧ (withBlock b).parkedBefore b { tk with park := .word 0 3 [0x100] true } = false)
    ∧ (let k := { tk with park := .count 5 2 0x1000 0x1000 3, met := true }
       k.met = true ∧ (asSkein k).parkedBefore tBlock k = false)
    ∧ (∀ d ∈ [0, 1], let s := { ts with clk := 2 ^ 32 + 4 - d }
        Park.since (.count 4 0 0x1000 0x1000 1) = some 4 ∧ (d = 0 ↔ 4 + 2 ^ 32 ≤ s.clk))
    ∧ (∀ d ∈ [0, 1], d = 0 ↔ 3 + 10 ≤ ({ ts with clk := 13 - d } : State).clk) := by
  decide

theorem wit_storeFaultsAndCauses :
    (∀ n ∈ [31, 32], let s := faulty (List.replicate n { rec1 with sk := 9 }) [rec1] tk
      rec1 ∈ (s.core 0).recWait ∧ ((s.core 0).recWait.filter fun x => x.sk == 7).length = 1
      ∧ (n = 31 ↔ (s.core 0).recQ.length + 1 ≤ 32) ∧ (n = 32 ↔ 32 ≤ (s.core 0).recQ.length))
    ∧ (∀ p ∈ [Park.no, .sleep 3 10], let k := { tk with sfInd := true, park := p }
        let s := faulty [{ rec1 with sk := 9 }, rec1, { rec1 with pc := 5 }] [] k
        k.sfInd = true ∧ s.atBoundary k = true ∧ (s.core 0).recQ.filter (fun x => x.sk == 7) = [rec1, { rec1 with pc := 5 }]
        ∧ rec1.lanes.length = 1)
    ∧ (let k := { tk with held := [⟨0x12, 5, 6⟩] }
       k.held ≠ [] ∧ (asSkein k).atBoundary k = true ∧ k.park = .no ∧ k.sfInd = false)
    ∧ (let k := { tk with sfInd := true, held := [⟨0x12, 5, 6⟩], hnd := true }
       (asSkein k).atBoundary k = false ∧ k.sfInd = true ∧ k.held ≠ []) := by decide

/-- A skein parked, and the machine in which its context has an outstanding fault of page 0x6000. -/
def parkedAt (p : Park) : Skein := { tk with park := p }
def faulted (k : Skein) : State := (asSkein k).modCtx 0 fun x => { x with nextFault := 3, faults := [⟨1, 0, 0x6000, [7]⟩] }
/-- The machine with no TLB entry and a table of one page for address 0. -/
def walking (k : Skein) : State :=
  { asSkein k with
    cores := [], mem := [(0x80000, 0x01), (0x80002, 9), (0x90000, 1), (0x90002, 0xA), (0xA0000, 0x13)]
    ctxs := [(0, { state := .resident, ttroot := 0x80000 })] }

/-- The machine whose core holds the skein's line of code. -/
def warm : State := ts.modCore 0 fun x => { x with icache := [⟨0x400, List.replicate 128 0, 3⟩] }

theorem wit_fetch : tk.park = .no
    ∧ (∃ p, ts.translate 0 0 (BitVec.ofNat 64 (0x400 * 128)) .fetch = .ok p ∧ p.pa % 128 = 0 ∧ p.bolt = false
        ∧ ts.plainLine 0 (p.pa / 128) = true ∧ (ts.core 0).codeLine (p.pa / 128) tk.fenced = none)
    ∧ (∃ p, warm.translate 0 0 (BitVec.ofNat 64 (0x400 * 128)) .fetch = .ok p ∧ p.pa % 128 = 0 ∧ p.bolt = false
        ∧ warm.plainLine 0 (p.pa / 128) = true ∧ ((warm.core 0).codeLine (p.pa / 128) tk.fenced).isSome = true
        ∧ (warm.core 0).codeLine (p.pa / 128) 9 = none)
    ∧ tk.pc.toNat / 128 = 0x400
    ∧ ∃ f, ts.translate 0 0 (BitVec.ofNat 64 ((0x60000003 : Pc).toNat / 128 * 128)) .fetch = .error f :=
  ⟨rfl, ⟨_, ph_ok (ea := fun _ => BitVec.ofNat 64 (0x400 * 128)) (l := 0) (by decide), by decide, by decide, by decide, by decide⟩,
    ⟨_, ph_ok (s := warm) (ea := fun _ => BitVec.ofNat 64 (0x400 * 128)) (l := 0) (by decide), by decide, by decide, by decide,
      by decide, by decide⟩, by decide, error_of (by decide +kernel)⟩

theorem wit_pageFaults :
    (let s := walking (parkedAt (.walk 0x1000 .load (some 0)))
     (∃ p, s.translate 0 0 0x1000 .load = .ok p ∧ (p.pa == 0x1000) = true)
     ∧ (∃ e, s.findLeaf 0 0 0x1000 = .ok e ∧ decide (0 < e.2) = true)
     ∧ s.tlbFind 0 0 0x1000 = none)
    ∧ (∀ n ∈ [0x60000000, 0x60010000], let va := BitVec.ofNat 64 n
      let s := faulted (parkedAt (.walk va .load (some 0)))
      (s.translate 0 0 va .load).toBool = false
      ∧ ((s.ctx 0).faults.find? fun q => q.die == 0 && q.page == va.toNat / 2 ^ 16).isSome = (n == 0x60000000))
    ∧ Instr.translationWalk 7 0x1000 .load ∈ ({ ts with pending := [.translationWalk 7 0x1000 .load] } : State).pending
    ∧ (∀ a ∈ [(Acc.load, 2), (.atomic, 5), (.atomic, 2), (.tileStore, 5)], let k := parkedAt (.fault 1 0x60000000 a.1 a.2 (some 3))
      let s := (faulted k).modCore 0 fun x => { x with recQ := [rec1] }
      ((a.1 ≠ .tileStore ∧ (a.1 = .atomic → a.2 ≠ 2)) ↔ a.1 = .load ∨ a.2 = 5 ∧ a.1 = .atomic)
      ∧ ((s.ctx 0).faults.any fun q => q.id == 1) = true ∧ s.onFault 0 1 = [(7, k)]
      ∧ (s.core 0).recQ.filter (fun q => q.sk == 7) = [rec1] ∧ rec1.lanes.length = 1) := by
  exact ⟨⟨ok_and (P := fun p : Phys => p.pa == 0x1000) (by decide +kernel),
    ok_and (P := fun e : DWord × Nat => decide (0 < e.2)) (by decide +kernel), by decide⟩, by decide +kernel, by decide,
    by decide +kernel⟩


/-! ## Caches, homes, merge state, ordered entries -/

def en1 : ScbEntry :=
  { ctx := 0, la := 0x20, bytes := [(0x1000, 3), (0x1001, 4)], writers := [7], cached := true, sent := false, ops := [(7, 2, 5)] }
def wr1 : WriteReq :=
  { core := 0, ctx := 0, la := 0x20, bytes := [(0x1000, 3), (0x1004, 1), (0x1005, 1), (0x1006, 1), (0x1007, 1)], lclk := 5
    cached := true, writers := [7], narrow := true, bad := [1] }
def wa1 : WriteAck := { core := 0, ctx := 0, la := 0x20, bytes := en1.bytes, wts := 77, cached := true, writers := [7] }
def lr1 : LoadReq :=
  { op := 5, sk := 7, core := 0, ctx := 0, la := 0x20, cached := true, bolt := false, strong := false, lclk := 5, lease := 10
    tag := 33 }
def rp1 : LoadRep :=
  { op := 5, sk := 7, core := 0, ctx := 0, la := 0x20, cached := true, att := 1, data := List.replicate 128 0, poison := [], wts := 2
    rts := 19, tag := 33 }

/-- The machine with stores buffered and steps posted. -/
def storing (scb : List ScbEntry) (is : List Instr) : State :=
  { (ts.modCore 0 fun x => { x with scb := scb, l1 := [(0x20, { data := List.replicate 128 0, rts := 3 })] }) with pending := is }

theorem wit_storeAndLoadPaths :
    (let s := storing [en1, { en1 with la := 0x21 }] [.scbDrain 0 0x20]
     Instr.scbDrain 0 0x20 ∈ s.pending ∧ s.sentEntry 0 0x20 = none
     ∧ ((s.core 0).scb.find? fun x => !x.sent && x.la == 0x20) = some en1)
    ∧ (∀ lost : Bool, let s := { ts.modDie 2 (fun x => { x with lost := lost }) with
          pending := [.homeWrite wr1], memPoison := [(0x1004, 4), (0x1000, 4)], lines := [(0x20, { rts := 9 })]
          skeins := [(7, { tk with park := .count 0 0 0x1000 0x1000 5 })] }
        Instr.homeWrite wr1 ∈ s.pending ∧ s.homeDie wr1.la = some 2 ∧ (s.die 2).lost = lost ∧ s.noPartial wr1.la = true
        ∧ s.sliceRoom wr1.la = true)
    ∧ (∀ ops ∈ [[], [(7, 2, 5)]], let e := { en1 with sent := true, ops := ops }
        let s := storing [e, { en1 with la := 0x21, ops := [] }] [.writeAck wa1]
        Instr.writeAck wa1 ∈ s.pending ∧ s.sentEntry 0 0x20 = some e ∧ (∀ x ∈ (s.core 0).scb.erase e, (7, 2, 5) ∉ x.ops)
        ∧ tget s.skeins 7 = some tk ∧ (tget (s.core 0).l1 0x20).isSome = true)
    ∧ (∀ known bolt : Bool, let r := { lr1 with bolt := bolt }
       let s := { ts.modSlice (ts.homeSlice 0x20) (fun x => { x with tags := if known then [(33, 0)] else [] }) with
          pending := [.homeLoad r], lines := [(0x20, { wts := 2, rts := 9 })] }
       Instr.homeLoad r ∈ s.pending ∧ s.homeDie r.la = some 2 ∧ (s.die 2).lost = false ∧ s.noPartial r.la = true
       ∧ s.sliceRoom r.la = true ∧ (s.slice (s.homeSlice r.la)).knows r.tag = known)
    ∧ (∀ asked ∈ [[], [(lr1, 0)]], let o := { load1 with asked := asked }
       let k := { tk with loads := [o] }
       let s := { asSkein k with pending := [.loadReply rp1] }
       Instr.loadReply rp1 ∈ s.pending ∧ tget s.skeins 7 = some k ∧ k.loads = [o] ∧ o.id = rp1.op
       ∧ (asked ≠ [] ↔ ∃ q ∈ o.asked, q.1.tag = rp1.tag)
       ∧ rp1.cached = true ∧ tget (s.core 0).merges rp1.la = none ∧ (s.core 0).l1.length + (s.core 0).merges.length < 4096) := by
  decide

/-- Core 0 about to tick, and cores whose clocks are apart. -/
def ticking (clk : Nat) : State := { ts.modCore 0 (fun x => { x with lclk := 0x1FFF, tickAt := 100 }) with clk := clk }
def apart (gt : Nat) : State :=
  { ts with cores := [(0, { lclk := 0x7000 }), (5, { lclk := 0x1000 }), (50, { lclk := 0x6800 })], gt := gt
            pkg := { ts.pkg with pclk := 0, sampledAt := 100 } }
def counting (n : Nat) : Skein := { tk with park := .count 4 1 0x1000 0x1000 (BitVec.ofNat 64 n) }

theorem wit_clocksAndEvictions :
    (∀ clk ∈ [99, 100], ∀ core ∈ [0, 5], let s := ticking clk
      (∀ c ∈ s.onCore core, 256 ≤ (s.ctx c).ltick)
      ∧ (s.onCore core ≠ [] → ∃ c ∈ s.onCore core, (s.ctx c).ltick = 256)
      ∧ (core = 0 → (clk = 100 ↔ (s.core core).tickAt ≤ s.clk)) ∧ (core = 0 ↔ s.onCore core ≠ []))
    ∧ (∀ gt ∈ [1099, 1100], (∀ i < 192, (((apart gt).core i).lclk - (apart gt).pkg.pclk).toNat < 2 ^ 15)
        ∧ (gt = 1100 ↔ (apart gt).pkg.sampledAt + 1000 ≤ (apart gt).gt))
    ∧ (∀ d ∈ [none, some 0], let s := { ts with lines := [(0x20, { wts := 3, rts := 50, dirty := d })] }
        tget s.lines 0x20 = some { wts := 3, rts := 50, dirty := d } ∧ (s.homeDie 0x20).isSome = true)
    ∧ (∀ halt met : Bool, let k := { counting 2 with met := met }
        let s := { (asSkein k).modCtx 0 (fun x => { x with dbg := { x.dbg with halt := halt } }) with pending := [.countWake 7] }
        Instr.countWake 7 ∈ s.pending ∧ tget s.skeins 7 = some k ∧ s.haltedAt k = halt ∧ k.met = met)
    ∧ (∀ scb ∈ [[], [en1]], let s := { storing scb [.promoteDrain 0 0x20] with lines := [(0x20, { relCore := some 0 })] }
        Instr.promoteDrain 0 0x20 ∈ s.pending ∧ (s.core 0).scb = scb
        ∧ ∀ i ∈ s.pending, isWriteOf 0 i = false ∧ isWriteAckOf 0 i = false) := by decide +kernel

/-- Two cores that hold the line 0x400000. -/
def mc1 (n : Nat) : MergeCopy := { ctx := 0, bolt := Bolt.zero, count := n }
def held : State :=
  { (ts.modCore 0 fun x => { x with merges := [(0x400000, mc1 3)] }).modCore 50 (fun x => { x with merges := [(0x400000, mc1 5)] }) with
    mergeDir := [(0x400000, [0, 50])] }
def ra1 : RecallAck := { core := 0, la := 0x400000, tag := 12, bolt := Bolt.zero, count := 3 }

theorem wit_mergeState :
    tget held.mergeDir 0x400000 = some [0, 50] ∧ [0, 50].Nodup
    ∧ (∀ c ∈ [0, 50], (tget (held.core c).merges 0x400000).isSome = true ∧ (held.die (c / 48)).lost = false
        ∧ (held.slice (held.homeSlice 0x400000)).tags.length + (held.core c).acks.length < 2 ^ 20)
    ∧ (∀ known lost : Bool, let n := ts.homeSlice 0x400000
        let s := { (ts.modSlice n (fun x => { x with tags := if known then [(12, 0)] else [] })).modDie
            ((ts.homeDie 0x400000).getD 0) (fun x => { x with lost := lost }) with pending := [.recallAck ra1] }
        Instr.recallAck ra1 ∈ s.pending ∧ (s.slice (s.homeSlice ra1.la)).knows ra1.tag = known ∧ s.homeLost ra1.la = lost
        ∧ (∃ i ∈ s.pending, carriesTag 12 i = true) ∧ ∀ i ∈ s.pending, carriesTag 13 i = false)
    ∧ (∀ gt ∈ [7999, 8000], let s := { ts.modCore 0 (fun k => { k with acks := [(ra1, 0)] }) with gt := gt }
        (ra1, 0) ∈ (s.core ra1.core).acks ∧ (s.core ra1.core).acks = [(ra1, 0)] ∧ (gt = 8000 ↔ 0 + 8000 ≤ s.gt)
        ∧ (gt = 7999 ↔ ∀ a ∈ (s.core 0).acks, a.1.la = ra1.la → s.gt < a.2 + 8000))
    ∧ (∀ gt ∈ [7999, 8000], let k := { tk with loads := [{ load1 with asked := [(lr1, 0)] }] }
        let s := { asSkein k with gt := gt }
        let old := fun q : LoadReq × Nat => q.1 = lr1 ∧ q.2 + 8000 ≤ s.gt
        tget s.skeins lr1.sk = some k ∧ (gt = 8000 ↔ ∃ o ∈ k.loads, ∃ q ∈ o.asked, old q))
    ∧ tget (held.core 50).merges 0x400000 = some (mc1 5) ∧ (held.die (50 / 48)).lost = false ∧ held.homeLost 0x400000 = false := by
  decide

def oe1 (key : Nat) (b : Byte) (backoff : Nat) : OrdEntry :=
  { key := BitVec.ofNat 64 key, grid := 1, blk := 2, ctx := 0, core := 0, sk := 7, span := none, lane := 0, pa := 0x1000, va := 0x1000
    op := none, bolt := false, act := .store [(0x1000, b)], backoff := backoff }
def ordering (f : Nat) (es : List OrdEntry) (is : List Instr) : State :=
  { ts.modSlice (ts.homeSlice 0x20) (fun x => { x with ordered := es }) with
    pending := is, grids := [(1, { tGrid with level := 2, frontier := BitVec.ofNat 64 f, shares := [(0, { die := 0, lo := 3, hi := 9 })] })] }

theorem wit_orderedEntries :
    (tget (ordering 0 [] []).grids 1).isSome = true
    ∧ (let s := ordering 7 [oe1 9 1 0, oe1 5 2 0, oe1 5 3 0, oe1 7 4 0] []
       let ready := fun x : OrdEntry => x.key ≤ s.frontierOf x.grid
       (s.slice (s.homeSlice 0x20)).ordered = [oe1 9 1 0] ++ oe1 5 2 0 :: [oe1 5 3 0, oe1 7 4 0] ∧ ready (oe1 5 2 0)
       ∧ (∀ x ∈ [oe1 9 1 0], ready x → (oe1 5 2 0).key < x.key) ∧ (∀ x ∈ [oe1 5 3 0, oe1 7 4 0], ready x → (oe1 5 2 0).key ≤ x.key)
       ∧ oe1 5 2 0 ∉ [oe1 9 1 0] ∧ (s.homeDie 0x20).isSome = true ∧ s.bareLine 0x20 = true ∧ s.sliceRoom 0x20 = true
       ∧ ∃ x ∈ [oe1 5 3 0, oe1 7 4 0], ready x)
    ∧ (let e := { oe1 5 3 0 with lane := 4 }
       let s := ordering 4 [] [.orderedRetry e, .orderedRetry (oe1 5 3 0)]
       Instr.orderedRetry (oe1 5 3 0) ∈ s.pending ∧ e.sk = 7 ∧ e.pa = 0x1000 ∧ (oe1 5 3 0).lane < e.lane)
    ∧ (∀ b, tget ts.blocks 2 = some b → b.dying = none)
    ∧ (∀ n ∈ [254, 255], ∀ b ∈ [0, 64, 4096], let s := ordering 4 (List.replicate n (oe1 9 1 0)) [.orderedRetry (oe1 5 3 b)]
        Instr.orderedRetry (oe1 5 3 b) ∈ s.pending ∧ (s.homeDie ((oe1 5 3 b).pa / 128)).isSome = true
        ∧ ¬ (oe1 5 3 b).key ≤ s.frontierOf 1 ∧ (n = 254 ↔ (s.slice (s.homeSlice 0x20)).ordered.length < 255)) := by
  refine ⟨by decide +kernel, by decide +kernel, by decide +kernel, ?_, by decide +kernel⟩
  intro b h
  cases h
  rfl


/-! ## Records, rings, copies -/

theorem some_and {α : Type} {x : Option α} {P : α → Bool} (h : x.any P = true) : ∃ a, x = some a ∧ P a = true := by
  cases x with
  | none => cases h
  | some a => exact ⟨a, rfl, h⟩

/-- A 64-bit word, or bytes of one line, that an engine of context 0 reaches at the same physical address. -/
def wordOk (s : State) (va : Nat) (acc : Acc) : Bool :=
  (s.translate 0 0 (BitVec.ofNat 64 va) acc).toOption.any fun q =>
    q.pa == va && va % 8 == 0 && !q.bolt && s.bareLine (va / 128)
def spanOk (s : State) (va n : Nat) (acc : Acc) : Bool :=
  (s.translate 0 0 (BitVec.ofNat 64 va) acc).toOption.any fun q =>
    q.pa == va && decide (va % 128 + n ≤ 128) && !q.bolt && s.bareLine (va / 128)

theorem wordAt_of {s : State} {va : Nat} {acc : Acc} (h : wordOk s va acc = true) : ∃ q, s.wordAt 0 0 va acc q ∧ q.pa = va := by
  obtain ⟨q, h, t⟩ := ok_and (P := fun q : Phys => q.pa == va && va % 8 == 0 && !q.bolt && s.bareLine (va / 128)) h
  simp only [Bool.and_eq_true, beq_iff_eq, Bool.not_eq_true'] at t
  obtain ⟨⟨⟨a, b⟩, c⟩, d⟩ := t
  exact ⟨q, ⟨h, b, by rw [a]; exact b, c, by rw [a]; exact d⟩, a⟩

theorem spanAt_of {s : State} {va n : Nat} {acc : Acc} (h : spanOk s va n acc = true) : ∃ q, s.spanAt 0 0 va n acc q ∧ q.pa = va := by
  obtain ⟨q, h, t⟩ := ok_and (P := fun q : Phys => q.pa == va && decide (va % 128 + n ≤ 128) && !q.bolt && s.bareLine (va / 128)) h
  simp only [Bool.and_eq_true, beq_iff_eq, decide_eq_true_eq, Bool.not_eq_true'] at t
  obtain ⟨⟨⟨a, b⟩, c⟩, d⟩ := t
  exact ⟨q, ⟨h, b, by rw [a], c, by rw [a]; exact d⟩, a⟩

def pS : Port := ⟨0, .shuttle 0 0⟩
def pR : Port := ⟨0, .ring 0⟩

/-- A ring of 16 entries, of which two are taken. -/
def ring1 : Ring :=
  { base := 0xA000, log2n := 4, cls := 0, die := 0, enabled := true, headVa := 0xB000, tailVa := 0xB008, doneVa := 0xB010, taken := 2 }

def xctx : Context :=
  { state := .resident, launchPorts := true, areas := { cntVa := 0x8000, saveVa := 0x100000, saveLen := 0x100000 }, rings := [(0, ring1)]
    events := [(0, { base := 0xC000, headVa := 0xD000, tailVa := 0xD008, en := true, ecount := 2, vector := 3 })] }

/-- The machine with records under way at a port. -/
def engines (p : Port) (rs : List RecSt) : State :=
  { ts with ctxs := [(0, xctx)], ports := [{ port := p, accepted := 9, word := 3, done := [5], recs := rs }] }

def rec0 (n : Nat) (b : Rec) : RecSt :=
  { num := n, tag := 5, trap := false, flag := some 2, sk := some 7, blk := some 2, core := 0, body := b }

/-- The bytes of a MARK of the count word at 0x1000, by 4, with device scope. -/
def markBytes : List Byte := [0x40, 0x0F, 5, 0, 0, 0, 0, 0] ++ leBytes 8 0x1000 ++ leBytes 8 4 ++ [3] ++ List.replicate 39 0

def ask1 : Ask := { port := pS, raw := markBytes, isRing := false, sk := some 7, blk := some 2, grid := some 1, core := 0 }

/-- The machine whose ring's head word is `h`, with a MARK in the next entry. -/
def ringing (h : Nat) : State :=
  { engines pR [] with mem := Mem.write (Mem.write ts.mem 0xB000 (leBytes 8 h)) 0xA080 markBytes }

/-- The ring has just been visited. -/
def visiting (s : State) : State := { s with pkg := { s.pkg with ringLast := some 0 } }

/-- The head word is read, and the next entry's record is accepted. -/
def ringTakes (s : State) : Bool :=
  ((visiting s).bookRead 0 ring1.headVa 8).any fun x =>
    let m0 := x.1.modRing 0 0 fun q => { q with taken := ring1.taken, fresh := false }
    (m0.bookRead 0 (ring1.base + BitVec.ofNat 64 (64 * (ring1.taken % 2 ^ ring1.log2n))) 64).any fun y =>
      let r := y.1.place { port := pR, raw := y.2, isRing := true, core := y.1.engCore pR }
      !m0.ringHeld pR && !m0.backlogFull 0 0 && r.2.1 == .accepted && r.1.ring 0 0 == some ring1

theorem wit_recordsAndRings :
    (∀ ap ∈ [3, 18], let x := tc.single [] (v ap)
      let bad := fun l => l == tc.low && (List.range 16).any fun j => tc.lanePoison (100 + j) l
      (v 638).isReg = true ∧ rdy { a := [ap], b := regsOf (v 100) 16, d := regsOf (v 638) 2 } [tc.lowOnly x, bad] = true
      ∧ tc.flagHigh (tc.recordBytes 100) = false ∧ ts.settled tk = true
      ∧ portOf 0 0 ((x.val tc.low).setWidth 32 : Word).toNat = if ap = 3 then some pS else none)
    ∧ (ts.place ask1).2.1 = .accepted ∧ (ts.place { ask1 with raw := List.replicate 64 0 }).2.1 ≠ .accepted := by decide +kernel

theorem wit_records_queue :
    (∀ n ∈ [63, 64], let s := engines pS (List.replicate n (rec0 4 (.srel 0)))
        s.queueFull pS = decide (n = 64))
    ∧ fieldAt markBytes 0 1 = 0x40 ∧ fieldAt markBytes 8 8 < 2 ^ 55 ∧ fieldAt markBytes 8 8 % 8 = 0 ∧ fieldAt markBytes 24 1 = 3
    ∧ anySet markBytes 25 39 = false ∧ (headerOf false markBytes).isSome = true
    ∧ (∀ x ∈ [(4, 5), (7, 3)], let n := x.1
        let w := x.2
        let s := engines pS [rec0 n (.srel 0)]
        s.record pS n = some (rec0 n (.srel 0)) ∧ tget s.skeins 7 = some tk ∧ (s.port pS).word ≤ w
        ∧ (∀ j < 6, (s.port pS).word < j → j ≤ w → j = n ∨ j ∈ (s.port pS).done) ∧ w + 1 ≠ n ∧ w + 1 ∉ (s.port pS).done
        ∧ s.countVa pS = some 0x8000)
    ∧ (∀ target ∈ [0, 0x1000], ∀ n ∈ [4, 5], let r := rec0 n (.mark (BitVec.ofNat 64 target) 4 3)
        let s := engines pS [rec0 4 (.srel 0), r]
        (n = 5 → s.record pS n = some r) ∧ (n = 5 ↔ ∃ y ∈ (s.port pS).recs, y.num < n)) := by decide +kernel

theorem wit_records_words : let r := rec0 4 (.mark 0x1000 4 3)
    let s := engines pS [r]
    s.record pS 4 = some r ∧ (∀ y ∈ (s.port pS).recs, 4 ≤ y.num)
    ∧ (∃ q, s.wordAt 0 (s.recCore pS r) (0x1000 : DWord).toNat .load q ∧ q.pa = 0x1000)
    ∧ (∃ q, s.wordAt 0 (s.recCore pS r) (0x1000 : DWord).toNat .store q ∧ q.pa = 0x1000)
    ∧ ∃ q, s.wordAt 0 ((s.ctx 0).firstDie * 48) (0x8000 : DWord).toNat .store q ∧ q.pa = 0x8000 :=
  ⟨by decide, by decide, wordAt_of (by decide +kernel), wordAt_of (by decide +kernel), wordAt_of (by decide +kernel)⟩

theorem wit_rings :
    (∀ h ∈ [1, 2, 3, 19], let s := ringing h
      s.ring 0 0 = some ring1 ∧ (s.ctx 0).state = .resident ∧ ring1.taken < 2 ^ 64
      ∧ ring1.enabled = true ∧ ring1.fresh = false ∧ s.nextRing = some (0 * 64 + 0)
      ∧ ((visiting s).bookRead 0 ring1.headVa 8).any (fun x => ofLeBytes x.2 == h) = true
      ∧ ((h < ring1.taken ∨ ring1.taken + 2 ^ ring1.log2n < h) ↔ h = 1 ∨ h = 19))
    ∧ (let s := visiting ((ringing 3).modCtx 0 fun x => { x with rings := [(0, ring1), (5, ring1)] })
       s.ring 0 0 = some ring1 ∧ (s.ctx 0).state = .resident ∧ s.nextRing ≠ some (0 * 64 + 0) ∧ s.nextRing = some (0 * 64 + 5))
    ∧ ringTakes (ringing 3) = true := by decide +kernel

def tmpl1 : Template :=
  { rowlen := 64, planes := 1, sstride := 64, dstride := 64, spstride := 0, dpstride := 0, sfmt := .i8, dfmt := .i8, conv := 0, sat := false }
/-- Rows of 64 bytes, from memory at 0x1000 to hall A at 0x200, or back. -/
def copy1 (k : CopyKind) (rows : Nat) (up : Bool) : CopyRec :=
  { kind := k, src := if up then 0x200 else 0x1000, dst := if up then 0x1000 else 0x200, rows := rows, tmpl := tmpl1
    sspace := if up then 1 else 0, dspace := if up then 0 else 1, index := 0x2000, version := 0x2000, expect := 9, stat := 0xE000 }

/-- What the regulator lets a row of a copy through with. -/
def pays (s : State) (r : RecSt) (c : CopyRec) : State × Option RecSt :=
  s.afford pS r (bucketKey (s.recDie pS r) true) (CopyRec.traffic c)

/-- A copy's first row meets this. -/
def rowIs (s : State) (r : RecSt) (c : CopyRec) (P : State → RecSt → Option Nat → Bool) : Bool :=
  let x := pays s r c
  x.2.any fun r' => (x.1.sourceRow pS r' c 0).toOption.any fun y => P y.1 r' y.2

/-- The row of a copy can be read, and put. -/
def rowReads (c : CopyRec) (s : State) (r : RecSt) (q : Option Nat) : Bool :=
  q.any fun q => (s.copyRead pS r c.sspace (moveAddr c.src (q * c.tmpl.sstride)) (Template.srcLen c.tmpl)).toOption.any fun y =>
    (y.1.putRow pS r c (Template.row c.tmpl y.2)).toBool
def rowFaults (c : CopyRec) (s : State) (r : RecSt) (q : Option Nat) : Bool :=
  q.any fun q => !(s.copyRead pS r c.sspace (moveAddr c.src (q * c.tmpl.sstride)) (Template.srcLen c.tmpl)).toBool

/-- The same with a shuttles' regulator that has nothing to give. -/
def ruled (s : State) (b : Bucket) : State :=
  s.modCtx 0 fun x => { x with buckets := (List.range 8).map fun k => (k, b) }

/-- An index of all ones names no row. -/
def noIndex (s : State) : State := { s with mem := Mem.write s.mem 0x2000 (List.replicate 8 0xFF) }

theorem wit_copies :
    (∀ n ∈ [1023, 1024], let c := copy1 .copy n false
      let r := rec0 4 (.copy c)
      let s := engines pS [r]
      s.record pS 4 = some r ∧ ¬ (∃ q ∈ (s.port pS).recs, q.core = r.core ∧ q.num < 4) ∧ (∀ x ∈ s.ports, x.port = pS)
      ∧ r.leave = .no ∧ (n = 1023 ↔ c.tmpl.planes * c.rows * Template.dstLen c.tmpl < 65536))
    ∧ (∀ k ∈ [CopyKind.copy, .gather], ∀ up : Bool, let c := copy1 k 2 up
        let r := { rec0 4 (.copy c) with started := true }
        let s := engines pS [r]
        s.record pS 4 = some r ∧ r.rows < c.tmpl.planes * c.rows
        ∧ (((tget (s.ctx 0).buckets (bucketKey (s.recDie pS r) true)).getD {}).refill s.gt).rate = 0
        ∧ rowIs s r c (rowReads c) = true ∧ r.owed = [] ∧ (∀ j < 64, CopyRec.wordLater c (CopyRec.rowAt c 0 + j) 1 1 = false) ∧ tget s.blocks 2 = some tBlock ∧ 0x200 + 64 ≤ 4096 * tBlock.granA
        ∧ (∀ j < 64, poisonedAt s.memPoison (0x1000 + j) 1 = false))
    ∧ (let c := { copy1 .gather 2 false with src := 0x70000000 }
       let r := { rec0 4 (.copy c) with started := true }
       let s := engines pS [r]
       rowIs s r c (rowFaults c) = true
       ∧ (pays (ruled s { rate := 5, level := 0 }) r c).2 = none ∧ (pays (ruled s { rate := 5, level := 10 ^ 6 }) r c).2.isSome = true)
    ∧ (let c := copy1 .gather 2 false
       let r := { rec0 4 (.copy c) with started := true }
       rowIs (noIndex (engines pS [r])) r c (fun m r' q => q.isNone && (m.putRow pS r' c []).toBool) = true)
    ∧ (∀ k ∈ [CopyKind.copy, .shard], ∀ e : Bool, let c := copy1 k 2 false
        let r := { rec0 4 (.copy c) with started := true, rows := 2, reread := e, version := some 9 }
        let s := engines pS [r]
        s.record pS 4 = some r ∧ c.tmpl.planes * c.rows ≤ r.rows ∧ r.trap = false)
    ∧ (let r := rec0 3 (.launch ⟨0, 1, 1, 1, 1, 1, 1, 0, false, false, 0, 0⟩)
       let s := engines ⟨0, .launch 0⟩ [r]
       s.record ⟨0, .launch 0⟩ 3 = some r ∧ ∀ g ∈ ({ s with grids := [] } : State).grids, g.2.port = ⟨0, .launch 0⟩ → g.2.num ≠ 3)
    ∧ (∀ allow ∈ [3, 4], ∀ a ∈ [Asker.skein 7, .record pS 4],
        let s := (engines pS [rec0 4 (.srel 0)]).modCore 0 fun k => { k with allow := (allow : Nat), refill := 1, asks := [(a, 9)] }
        (s.core 0).asks = [(a, 9)] ∧ (allow = 4 ↔ ((min 9 (4 * (s.core 0).refill) : Nat) : Int) ≤ (s.core 0).allow)
        ∧ tget s.skeins 7 = some tk ∧ s.record pS 4 = some (rec0 4 (.srel 0)))
    ∧ ((tget (ts.ctx 0).buckets 1).getD {}) = {} := by decide +kernel

theorem wit_copies_ahead :
    (let r := { rec0 4 (.copy (copy1 .copy 2 false)) with resumed := true }
       let q := { rec0 1 (.srel 0) with started := true }
       let s := engines pS [q, { r with resumed := false }]
       s.record pS 4 = some { r with resumed := false } ∧ (∃ x ∈ (s.port pS).recs, x.core = r.core ∧ x.num < 4)
       ∧ (let t := { engines pS [r] with ports := [⟨pS, 9, 3, [5], [r], 0⟩, { port := ⟨0, .shuttle 5 0⟩, recs := [q] }] }
          ∃ x ∈ t.ports, x.port ≠ pS ∧ Port.sameChannel x.port pS = true ∧ ∃ q ∈ x.recs, q.core = r.core ∧ q.started = true)
       ∧ (engines pS [r]).record pS 4 = some r ∧ r.resumed = true)
    ∧ (∀ gt ∈ [999, 1000], ∀ next ∈ [none, some (7, 9)], let b : Bucket := { rate := 5, level := 0, next := next }
        let s := { ruled ts b with gt := gt }
        (tget (s.ctx 0).buckets 3).getD {} = b ∧ (gt = 1000 ↔ 0 < (s.gt - b.refillAt) / 1000)) := by decide +kernel

theorem wit_copies_words : let r := rec0 4 (.copy (copy1 .shard 2 false))
    let s := engines pS [r]
    (∃ q, s.wordAt 0 (s.recCore pS r) (0x2000 : DWord).toNat .load q ∧ q.pa = 0x2000)
    ∧ (∃ q, s.spanAt 0 (s.recCore pS r) (0xE000 : DWord).toNat 16 .store q ∧ q.pa = 0xE000)
    ∧ (∃ q, s.spanAt 0 (s.recCore pS r) 0x1000 64 .load q ∧ q.pa = 0x1000)
    ∧ ∃ q, s.spanAt 0 (s.recCore pS r) 0x1000 64 .store q ∧ q.pa = 0x1000 :=
  ⟨wordAt_of (by decide +kernel), spanAt_of (by decide +kernel), spanAt_of (by decide +kernel), spanAt_of (by decide +kernel)⟩


/-! ## Grids, pre-emption, event rings -/

/-- Any address below 2^29 is its own physical address where core 0 has the TLB of `ts`. -/
theorem low_translate {s : State} (hu : (s.core 0).utlb = (ts.core 0).utlb) (hp : s.pkg = ts.pkg) (acc : Acc) (va : Nat)
    (h : va < 2 ^ 29) : s.translate 0 0 (BitVec.ofNat 64 va) acc = .ok ⟨va, 0x13⟩ := by
  have e : (BitVec.ofNat 64 va).toNat = va := by
    rw [BitVec.toNat_ofNat]
    omega
  have t : s.tlbFind 0 0 va = some { ctx := 0, vbase := 0, size := 2 ^ 29, entry := 0x13 } := by
    rw [State.tlbFind, hu]
    simp [State.core, ts, tget]
    omega
  have f : s.findLeaf 0 0 (BitVec.ofNat 64 va) = .ok (0x13, 2 ^ 29) := by
    have h : va / 2 ^ 55 = 0 := by omega
    rw [State.findLeaf, e, h, t]
    rfl
  have a : entryAddr 0x13 / 2 ^ 29 * 2 ^ 29 + va % 2 ^ 29 = va := by
    have h : entryAddr 0x13 = 0 := by decide
    omega
  have r : va / 2 ^ 50 % 4 = 0 := by omega
  have c : s.canon va = va := by
    rw [State.canon, r]
    rfl
  have k : s.paOk va = true := by
    have g : va / 2 ^ 30 = 0 := by omega
    simp only [State.paOk, regionOf, r, State.extent, g, hp]
    simp [ts, tget]
    omega
  rw [State.translate, f]
  simp only [e, a, c, k]
  cases acc <;> rfl

theorem low_cells {s : State} (hu : (s.core 0).utlb = (ts.core 0).utlb) (hp : s.pkg = ts.pkg) (fuel va : Nat) (bs : List Byte)
    (h : va + bs.length < 2 ^ 29) : ∃ cs, s.cellsVa 0 0 va fuel bs = .ok cs := by
  induction fuel generalizing va bs with
  | zero => exact ⟨_, rfl⟩
  | succ n ih =>
    rw [State.cellsVa]
    split
    · exact ⟨_, rfl⟩
    · next e =>
      rw [low_translate hu hp .store va (by omega)]
      have l : va + (128 - va % 128) + (bs.drop (128 - va % 128)).length < 2 ^ 29 ∨ bs.length < 128 - va % 128 := by
        simp only [List.length_drop]
        omega
      rcases l with l | l
      · obtain ⟨cs, c⟩ := ih _ _ l
        simp only [c]
        exact ⟨_, rfl⟩
      · have d : bs.drop (128 - va % 128) = [] := List.drop_of_length_le (by omega)
        have c : s.cellsVa 0 0 (va + (128 - va % 128)) n [] = .ok [] := by cases n <;> rfl
        simp only [d, c]
        exact ⟨_, rfl⟩

theorem low_poisonWrite {s : State} (hu : (s.core 0).utlb = (ts.core 0).utlb) (hp : s.pkg = ts.pkg) (src : Option Nat) (l : Stamp)
    (va : Nat) (bs : List (Byte × Bool)) (h : va + bs.length < 2 ^ 29) : ∃ m, s.poisonWrite 0 0 src l va bs = .ok m := by
  obtain ⟨cs, c⟩ := low_cells hu hp (bs.length / 128 + 2) va (bs.map Prod.fst) (by rw [List.length_map]; exact h)
  rw [State.poisonWrite, c]
  exact ⟨_, rfl⟩

def pL : Port := ⟨0, .launch 0⟩
def launch1 : RecSt := rec0 3 (.launch ⟨0, 5, 1, 1, 8, 1, 1, 0, false, false, 77, 0⟩)

/-- Grids: one that no core has room for, before one of 5 blocks. -/
def grids1 (serial : Bool) : Tbl Grid :=
  [(1, tGrid),
   (4, { tGrid with num := 2, prio := 9, desc := { tGrid.desc with granA := 300 }, shares := [(0, { die := 0, lo := 0, hi := 1 })] }),
   (5, { tGrid with num := 5, gx := 5, prio := 4, serial := serial, placed := 0, shares := [(0, { die := 0, lo := 0, hi := 2 })] })]
def placing : State := { engines pL [] with grids := grids1 false, pending := [.blockPlace 0] }

/-- A core takes one of those that wait after some that no core takes; the context has no image to bring back. -/
def placeable (s : State) (die : Nat) (saved : Bool) : Bool :=
  let s := s.finished (.blockPlace die)
  let ws := s.queueOn die
  (ws.find? fun w => (s.coreFor ws w die).isSome).any fun w => w.saved.isSome == saved
    && (saved || ((tget s.grids w.grid).any fun g => (s.nextBlock g die).isSome
      && ((s.coreFor ws w die).any fun c => (s.imageFor g.ctx c none).isNone)))

/-- A small block whose kernel carries MIDPRE, and the machine with it alone. -/
def smallSkein : Skein := { tk with regCount := 4 }
def smallBlock : Block := { tBlock with granA := 0, granW := 0, hallc := [], chans := [], hallA := [] }
def saving : State :=
  { engines pL [] with
    skeins := [(7, smallSkein)], blocks := [(2, smallBlock)], cores := [(0, { ts.core 0 with hallc := [] })]
    pending := [.blockSave 2] }
/-- The machine after its save. -/
def savedState : State :=
  match exec (.blockSave 2) saving with
  | .next t => { t with pending := [.blockRestore 2 0] }
  | _ => saving

/-- What a restore reads back, where the core may take the block. -/
def restores (s : State) : Bool :=
  let s := s.finished (.blockRestore 2 0)
  let ws := s.queueOn 0
  (tget s.saved 2).any fun sv => (ws.find? fun w => w.saved == some 2).any fun w =>
    s.mayTake ws w 0 && ws.all (fun v => !(decide (w.prio < v.prio) && s.mayTake ws v 0)) && (s.imageFor w.ctx 0 (some 2)).isNone
      && (s.ctx w.ctx).state != .lost && ((s.readBlock 0 sv).toOption.any fun r =>
          !r.2.2 && r.2.1.skeins.map Prod.fst == [7] && r.2.1.skeins.all fun k => k.2.park == .no)

/-- Every core of die 0 is full of blocks of low priority, and one of higher priority waits. -/
def full : State :=
  { placing with blocks := (List.range 48).map fun c => (c + 10, { tBlock with core := c, granA := 256, skeins := [] }) }

/-- The machine whose context has waited for more than 4 ms. -/
def starving (gt : Nat) : State := { placing with skeins := [], blocks := [], gt := gt }

theorem wit_launches :
    (∀ b : Bool, let s := { engines pL [launch1] with grids := [(1, { tGrid with gx := 5, serial := b })] }
      s.record pL 3 = some launch1 ∧ launch1.paused = false ∧ launch1.started = false ∧ (s.gridOf pL 3).isSome = true
      ∧ ∀ q ∈ (s.port pL).recs, ¬ q.num < 3)
    ∧ (let s := { engines pL [{ launch1 with num := 2 }, launch1] with grids := [(1, { tGrid with gx := 5 })] }
       s.record pL 3 = some launch1 ∧ (s.gridOf pL 3).isSome = true
       ∧ ∃ q ∈ (s.port pL).recs, q.num < 3 ∧ q.started = false ∧ q.body = .launch ⟨0, 5, 1, 1, 8, 1, 1, 0, false, false, 77, 0⟩)
    ∧ (∀ op ∈ [0, 1, 2], let s := engines pR [rec0 4 (.qctl op 1 0)]
        s.record pR 4 = some (rec0 4 (.qctl op 1 0)) ∧ ∀ q ∈ (s.port pR).recs, q.num < 4 → ∀ g ∈ ([] : List Nat), g = 0)
    ∧ (let s := engines pR [launch1, rec0 4 (.qctl 0 1 0)]
       s.record pR 4 = some (rec0 4 (.qctl 0 1 0))
       ∧ ∃ q ∈ (s.port pR).recs, q.num < 4 ∧ q.body = .launch ⟨0, 5, 1, 1, 8, 1, 1, 0, false, false, 77, 0⟩)
    ∧ placeable placing 0 false = true := by decide +kernel

set_option maxRecDepth 100000 in
theorem wit_launches_saved : placeable savedState 0 true = true := by decide +kernel

theorem wit_steals_and_ends :
    (∀ n ∈ [15, 16], ∀ serial : Bool, let g := { tGrid with gx := 200, serial := serial }
      let h : Share := { die := 1, lo := 2, hi := n, extra := [400, 402] }
      let s := { ts with grids := [(1, { g with shares := [(0, { die := 0, lo := 0, hi := 0 }), (1, h)] })]
                         pending := [.stealRequest 1 1 0, .stealReply 1 0 [9, 13]] }
      Instr.stealRequest 1 1 0 ∈ s.pending ∧ Instr.stealReply 1 0 [9, 13] ∈ s.pending
      ∧ (tget ((tget s.grids 1).getD {}).shares 1) = some h ∧ (tget ((tget s.grids 1).getD {}).shares 0).isSome = true
      ∧ (n = 16 ↔ 16 ≤ h.left) ∧ (unplacedOf g 4 h).Nodup)
    ∧ (∀ lv ∈ [0, 1], ∀ e ∈ [0, 1], let g := { tGrid with blocksEnded := e, level := lv, badCount := 0 }
        let s := { ts with grids := [(1, g)], blocks := [], pending := [.gridComplete 1] }
        tget s.grids 1 = some g ∧ (s.ctx g.ctx).state ≠ .lost ∧ (s.finished (.gridComplete 1)).gridDone 1 g = decide (e = 1)
        ∧ g.parent = none ∧ g.submitter = none) := by decide +kernel

theorem wit_blockSave :
    tget saving.blocks 2 = some smallBlock ∧ smallBlock.allEnded = false ∧ saving.blockMidpre smallBlock = true
    ∧ (∀ k ∈ saving.skeinsIn 2, k.2.loads = []) ∧ (∀ j ∈ smallBlock.skeins, saving.quiet 0 j = true) ∧ saving.copiesOf 2 = []
    ∧ (∀ i ∈ saving.pending, i = .blockSave 2) ∧ (∀ o ∈ (saving.core 0).loom, o.blk ≠ 2)
    ∧ (∀ q ∈ (saving.core 0).merges, q.2.ctx ≠ 0)
    ∧ (let m := saving.blockImage smallBlock tGrid (saving.skeinsIn 2) [] []
       (saving.ctx 0).findRun ((m.bytes.length + 65535) / 65536) = some 0 ∧ m.bytes.length < 2 ^ 20) := by decide +kernel

theorem wit_blockSave_writes (l : Stamp) : ∃ s1, saving.poisonWrite 0 0 (dieOf 0) l 0x100000
    (saving.blockImage smallBlock tGrid (saving.skeinsIn 2) [] []).bytes = .ok s1 :=
  low_poisonWrite (by decide) (by decide) _ _ _ _ (Nat.lt_trans (Nat.add_lt_add_left wit_blockSave.2.2.2.2.2.2.2.2.2.2 _) (by decide))

set_option maxRecDepth 100000 in
theorem wit_blockRestore : restores savedState = true := by decide +kernel

theorem partBytes_length (p : Part) : (partBytes p).length = 589824 := by
  have h : ∀ i, ((List.range 24).flatMap fun k => leBytes 4 (boltWord (p.bolt i) k).toNat).length = 96 := fun i => by
    simp [List.length_flatMap, leBytes]
  have g : ∀ n, ((List.range n).map fun _ => 96).sum = 96 * n := fun n => by simp [List.map_const']; omega
  rw [partBytes, List.length_flatMap]
  simp only [h]
  rw [g]

theorem sized_length (n : Nat) (bs : List Byte) : (sized n bs).length = n := by
  simp only [sized, List.length_append, List.length_take, List.length_replicate]
  omega

theorem hallcImage_length (p : Part) : (hallcImage [p]).bytes.length = 590848 := by
  have h : (clean (hallcImage [p]).header).length = 1024 := by
    rw [clean, List.length_map, Image.header, sized_length]
  have g : (hallcImage [p]).segs = [(22, clean (partBytes p))] := rfl
  have l : (padTo 128 (clean (partBytes p))).length = 589824 := by
    rw [padTo, List.length_append, clean, List.length_map, partBytes_length, List.length_replicate]
  rw [Image.bytes, List.length_append, h, g]
  simp only [List.flatMap_cons, List.flatMap_nil, List.append_nil, l]

/-- The machine whose context holds nothing but partition 1 on core 0. -/
def parted : State :=
  { engines pL [] with skeins := [], blocks := [], cores := [(0, { ts.core 0 with hallc := [(1, { ctx := 0 })] })] }

theorem wit_hallcSave :
    ((parted.core 0).hallc.filter fun p => p.2.ctx == 0) = [(1, { ctx := 0 })]
    ∧ (∀ b ∈ parted.blocks, b.2.core = 0 → b.2.ctx ≠ 0) ∧ (∀ q ∈ (parted.core 0).merges, q.2.ctx ≠ 0)
    ∧ (∀ o ∈ (parted.core 0).loom, o.ctx ≠ 0) ∧ (parted.ctx 0).findRun (((hallcImage [{ ctx := 0 }]).bytes.length + 65535) / 65536) = some 0
    ∧ ∃ s1, parted.poisonWrite 0 0 (dieOf 0) (parted.core 0).lclk 0x100000 (hallcImage [{ ctx := 0 }]).bytes = .ok s1 := by
  refine ⟨by decide, by decide, by decide, by decide, ?_, low_poisonWrite (by decide) (by decide) _ _ _ _ ?_⟩ <;> rw [hallcImage_length] <;>
    decide

/-- A block waits that no core takes, blocks could leave for it, and the images fit the areas, or do not. -/
def preempts (s0 : State) (fit : Bool) : Bool :=
  let s := s0.finished (.preemptionPoint 0)
  let leaving := s.blocks.filter fun b => s.beingSaved b.1
  ((s.queueOn 0).find? fun w => (s.coreFor (s.queueOn 0) w 0).isNone).any fun w =>
    !(s.victims w 0).isEmpty && !(s.someCore w 0 (leaving.map Prod.fst))
      && s.savesFit (leaving ++ s.chosen w 0 (leaving.map Prod.fst) (s.victims w 0)) == fit

theorem wit_preemptionAndGuard :
    preempts full false = true
    ∧ preempts (full.modCtx 0 fun x => { x with areas := { x.areas with saveLen := 0x4000000 } }) true = true
    ∧ ((starving 4000000).modCtx 1 fun x => { x with guardCore := some 3 }).guardTaken 0 = true
    ∧ (starving 3999999).starved 0 = false ∧ (starving 4000000).starved 0 = true ∧ (starving 4000000).guardTaken 0 = false
    ∧ ((starving 4000000).guardChoice 0).isSome = true
    ∧ (∀ gt ∈ [5000], let s := { ts with gt := gt, ctxs := [(0, { xctx with guardCore := some 3, guardEnd := 5000 })] }
        (s.ctx 0).guardCore = some 3 ∧ (s.ctx 0).guardEnd ≠ 0 ∧ (s.ctx 0).guardEnd ≤ s.gt) := by decide +kernel

def posting (posted since : Nat) : State :=
  { engines pL [] with ctxs := [(0, { xctx with events :=
      [(0, { base := 0xC000, headVa := 0xD000, tailVa := 0xD008, en := true, ecount := 2, etime := 5, vector := 3, posted := posted
             since := since, oldest := some 7, backlog := [List.replicate 32 1] })] })] }

theorem wit_eventRings :
    (∀ d ∈ [0, 1], let k := { tk with park := .chan 4 0 1 }
      let s := { asSkein k with clk := 1200004 - d }
      tget s.blocks 2 = some tBlock ∧ tBlock.stalled = false ∧ tBlock.skeins.filterMap (tget s.skeins) = [k]
      ∧ (d = 0 ↔ 4 + 1200000 ≤ s.clk))
    ∧ (∀ n ∈ [15, 16], let s := posting n 1
        let e := (tget (s.ctx 0).events 0).getD {}
        e.backlog = [List.replicate 32 1] ∧ (s.tlbFind 0 0 e.headVa.toNat).isSome = true
        ∧ (n = 15 ↔ e.posted < Mem.nat s.mem 0xD008 8 + 2 ^ e.log2n)
        ∧ (e.base + BitVec.ofNat 64 (32 * (e.posted % 2 ^ e.log2n))).toNat = if n = 15 then 0xC1E0 else 0xC000)
    ∧ (∀ x ∈ [(1, 5006), (1, 5007), (2, 0)], let s := { posting 3 x.1 with gt := x.2 }
        (tget (s.ctx 0).events 0).any (fun e => e.en && e.since != 0
          && ((decide (e.ecount ≤ e.since) || e.oldest.any fun u => decide (u + 1000 * e.etime ≤ s.gt)) == (x != (1, 5006)))) = true) := by
  decide +kernel

theorem wit_eventRings_words (n since : Nat) : let s := posting n since
    (∃ q, s.wordAt 0 0 (0xD008 : DWord).toNat .load q ∧ q.pa = 0xD008) ∧ (∃ q, s.wordAt 0 0 (0xD000 : DWord).toNat .store q ∧ q.pa = 0xD000)
    ∧ (∃ q, s.spanAt 0 0 0xC1E0 32 .store q ∧ q.pa = 0xC1E0) ∧ ∃ q, s.spanAt 0 0 0xC000 32 .store q ∧ q.pa = 0xC000 := by
  have b : ∀ la, (posting n since).bareLine la = true := fun la => by
    have l : (posting n since).homeLost la = false := by
      unfold State.homeLost
      split <;> rfl
    rw [State.bareLine, l]
    rfl
  have leaf : ∀ va, (⟨va, 0x13⟩ : Phys).bolt = false := fun va => (show ((0x13 : DWord).getLsbD 6) = false by decide)
  have w : ∀ acc va, va < 2 ^ 29 → va % 8 = 0 → ∃ q, (posting n since).wordAt 0 0 va acc q ∧ q.pa = va := fun acc va h m =>
    ⟨⟨va, 0x13⟩, ⟨low_translate (s := posting n since) rfl rfl acc va h, m, m, leaf va, b _⟩, rfl⟩
  have p : ∀ acc va k, va < 2 ^ 29 → va % 128 + k ≤ 128 → ∃ q, (posting n since).spanAt 0 0 va k acc q ∧ q.pa = va :=
    fun acc va k h m => ⟨⟨va, 0x13⟩, ⟨low_translate (s := posting n since) rfl rfl acc va h, m, rfl, leaf va, b _⟩, rfl⟩
  exact ⟨w _ _ (by decide) (by decide), w _ _ (by decide) (by decide), p _ _ _ (by decide) (by decide), p _ _ _ (by decide) (by decide)⟩


/-! ## Collectives and coded exchange -/

def pC : Port := ⟨0, .reed 0⟩

/-- A collective of two ranks, this one the first, over 3 elements in chunks of one. -/
def coll1 (op : Nat) : Coll :=
  { ctx := 0, die := 0, port := pC, num := 4, planid := 99, ranks := 2, self := 0, root := 0, chunk := 1
    planVa := 0x3000, outVa := 0x5000, statVa := 0xE000, level := 1, queue := 0, tag := 5, grid := none
    body := { plan := 0x3000, src := 0x1000, dst := 0x4000, elems := 3, fmt := .f32, op := op, rm := 0, step := 7 } }

def collRec (k : Coll) : RecSt := rec0 4 (.coll k.body)

/-- The machine with that collective; its context declares the plan and another identifier. -/
def collecting (k : Coll) : State :=
  { engines pC [collRec k] with
    ctxs := [(0, { xctx with ids := [⟨99, false, 0xD100⟩, ⟨98, false, 0xD100⟩] })], colls := [(6, k)] }

/-- One element for a rank. -/
def chunk1 (c rank dest bytes : Nat) : Chunk :=
  { src := .here, planid := 99, step := 7, chunk := c, rank := rank, dest := dest, lead := 0, bytes := bytes, elems := [⟨c, 0x3F800000, false⟩] }

/-- What the reeds' regulator lets through with. -/
def reedPays (s : State) (r : RecSt) (n : Nat) : State × Option RecSt := s.afford pC r (bucketKey (s.recDie pC r) false) n

/-- A line, or bytes of it, where a record of context 0 reads and writes. -/
def lineOk (s : State) (va : DWord) (acc : Acc) : Bool :=
  (s.translate 0 0 va acc).toOption.any fun q =>
    q.pa % 128 == 0 && s.bareLine (q.pa / 128) && (s.homeDie (q.pa / 128)).isSome
      && (List.range 128).all fun j => !(poisonedAt s.memPoison (q.pa + j) 1)

theorem wit_collectives_send :
    (∀ k ∈ [{ coll1 0 with failed := true }, coll1 0, { coll1 0 with accepted := true }, { coll1 0 with accepted := true, sent := [0, 1, 2] },
            { coll1 0 with accepted := true, grid := some 1 }], let s := collecting k
      s.record pC 4 = some (collRec k) ∧ (collRec k).paused = false ∧ s.collFor pC 4 = some (6, k)
      ∧ ∀ d ∈ s.dies, ∀ c ∈ d.2.intake, k.takes c = false)
    ∧ (∀ n ∈ [4094, 4095], let k := coll1 0
        let s := (collecting k).modDie 0 fun d => { d with counters := n }
        k.owned.length = 2 ∧ (n = 4095 ↔ 4096 < (s.die k.die).counters + k.owned.length))
    ∧ (let k := coll1 0
       let s := collecting k
       let n := 128 * (k.elemsIn k.owned).length
       (reedPays s (collRec k) n).2.any (fun r' => ((reedPays s (collRec k) n).1.zeroLines pC r' k (k.elemsIn k.owned)).toBool) = true
       ∧ (reedPays (ruled s { rate := 5, level := 0 }) (collRec k) n).2 = none ∧ k.body.dst.toNat % 128 = 0)
    ∧ (∀ e ∈ [0, 2], lineOk (collecting (coll1 0)) (BitVec.ofNat 64 ((coll1 0).body.dst.toNat + 128 * e)) .store = true)
    ∧ (let k := { coll1 0 with accepted := true }
       let s := collecting k
       k.toSend.filter (fun c => !(k.sent.contains c)) = 0 :: [1, 2] ∧ k.reduces = true ∧ k.owner 0 = k.self ∧ k.owner 1 ≠ k.self
       ∧ (((tget (s.ctx 0).buckets (bucketKey (s.recDie pC (collRec k)) false)).getD {}).refill s.gt).rate = 0
       ∧ (∀ j < 4, poisonedAt s.memPoison (0x1000 + j) 1 = false)
       ∧ Mem.nat s.mem (0x3000 + 64) 8 / 2 ^ 12 = 0 ∧ Mem.nat s.mem (0x3000 + 64) 8 % 2 ^ 10 = 0)
    ∧ (∀ idx ∈ [0, 3], let k := { coll1 0 with grid := some 1, accepted := true }
        let s := { collecting k with pending := [.collChunkFire 1 idx true] }
        s.pending.contains (.collChunkFire 1 idx true) = true ∧ (s.colls.find? fun k => k.2.grid == some 1) = some (6, k)
        ∧ s.record k.port k.num = some (collRec k) ∧ (idx = 3 ↔ k.chunks ≤ idx)
        ∧ (idx = 0 → (s.sendChunk k.port (collRec k) 6 k idx true).toBool = true)) := by decide +kernel

theorem wit_collectives_words : let s := collecting { coll1 0 with accepted := true }
    (∃ q, s.spanAt 0 0 0x1000 4 .load q ∧ q.pa = 0x1000) ∧ (∃ q, s.wordAt 0 0 (0x3000 + 64) .load q ∧ q.pa = 0x3000 + 64)
    ∧ (∃ q, s.spanAt 0 0 0x5000 4 .store q ∧ q.pa = 0x5000) ∧ ∃ q, s.spanAt 0 0 (0xE000 : DWord).toNat 32 .store q ∧ q.pa = 0xE000 :=
  ⟨spanAt_of (by decide +kernel), wordAt_of (by decide +kernel), spanAt_of (by decide +kernel), spanAt_of (by decide +kernel)⟩

theorem wit_collectives_arrive :
    (∀ op ∈ [0, 2], ∀ c ∈ [chunk1 0 1 0 4, chunk1 1 1 0 4], ∀ seen ∈ [[], [(0, 1)]],
      let k := { coll1 op with accepted := true, counters := [(0, 2), (2, 2)], seen := seen }
      let s := { collecting k with pending := [.chunkArrival c] }
      (s.colls.find? fun k => k.2.takes c && k.2.accepted) = some (6, k) ∧ s.record k.port k.num = some (collRec k)
      ∧ c.src = .here ∧ Instr.chunkArrival c ∈ s.pending ∧ (∀ y ∈ c.elems, y.bad = false)
      ∧ (((tget (s.ctx 0).buckets (bucketKey (s.recDie pC (collRec k)) false)).getD {}).refill s.gt).rate = 0
      ∧ ((k.reduces = true ∧ k.owner c.chunk = k.self) ↔ op = 0 ∧ c.chunk = 0)
      ∧ ((c.chunk, c.rank) ∈ k.seen ↔ seen ≠ [] ∧ c.chunk = 0) ∧ c.chunk ∉ k.written ∧ c.elems.length = 1
      ∧ lineOk s (BitVec.ofNat 64 (k.body.dst.toNat + 128 * c.chunk)) .atomic = true) := by decide +kernel

theorem wit_collectives_held :
    (∀ b ∈ [4096, 4097], ∀ own : Bool, let c := { chunk1 0 1 1 b with src := if own then .here else .pod 3 }
        let s := { (collecting (coll1 0)).modDie 0 fun d => { d with intake := [chunk1 9 1 5 (8 * 2 ^ 20 - 4096)] } with
          pending := if own then [.chunkArrival c] else [] }
        (s.colls.find? fun k => k.2.takes c && k.2.accepted) = none ∧ s.declarer c.planid false = some 0
        ∧ (b = 4096 ↔ (s.die ((s.ctx 0).firstDie + c.lead % (s.ctx 0).nDies)).held + c.bytes ≤ 8 * 2 ^ 20)
        ∧ (own = true ↔ c.src = .here) ∧ (own = true ↔ Instr.chunkArrival c ∈ s.pending))
    ∧ (∀ own : Bool, let c := { chunk1 0 0 1 4 with src := if own then .here else .pod 3 }
       let s := { collecting (coll1 0) with
          ctxs := [(0, xctx)], pending := if own then [.chunkArrival c, .chunkResend ⟨c, 16000⟩] else [] }
       (s.colls.find? fun k => k.2.takes c && k.2.accepted) = none ∧ s.declarer c.planid false = none
       ∧ (own = true ↔ Instr.chunkArrival c ∈ s.pending) ∧ (own = true ↔ Instr.chunkResend ⟨c, 16000⟩ ∈ s.pending)
       ∧ (own = true ↔ c.src = .here) ∧ s.senderOf c = some (6, coll1 0)) := by decide +kernel

theorem wit_collectives_reduce :
    (∀ n ∈ [0, 1], let k := { coll1 1 with accepted := true, counters := [(0, n)] }
      let s := { collecting k with pending := [.reduceBlock pC 4 0] }
      s.record pC 4 = some (collRec k) ∧ s.collFor pC 4 = some (6, k) ∧ (n = 0 ↔ tget k.counters 0 = some 0)
      ∧ (n = 0 → (s.reduceCore pC 4 k.die).isSome = true) ∧ k.body.op ≠ 0 ∧ k.span 0 = (0, 1)
      ∧ (((tget (s.ctx 0).buckets (bucketKey (s.recDie pC (collRec k)) false)).getD {}).refill s.gt).rate = 0
      ∧ lineOk s (BitVec.ofNat 64 (k.body.dst.toNat + 128 * 0)) .load = true
      ∧ (boltOfLine (s.lineView false (0x4000 / 128))).poison = false)
    ∧ (let k := { coll1 1 with accepted := true, counters := [(0, 0)] }
       let s := { collecting k with
          pending := [.reduceBlock pC 4 0], blocks := (List.range 768).map fun b => (b + 10, { tBlock with core := b / 16, skeins := [] }) }
       s.record pC 4 = some (collRec k) ∧ s.collFor pC 4 = some (6, k) ∧ s.reduceCore pC 4 k.die = none) := by decide +kernel

/-- A collective that is done at its rank, with two digests. -/
def coll2 (other : DWord) : Coll :=
  { coll1 0 with
    accepted := true, sent := [0, 1, 2], written := [0, 1, 2], digested := true, digests := [(0, 3), (1, other)] }

theorem wit_collectives_end :
    (let k := coll2 3
     let s := collecting k
     s.record pC 4 = some (collRec k) ∧ s.collFor pC 4 = some (6, k) ∧ s.collDone k = true ∧ k.digests.length = k.ranks
     ∧ k.dmatch = 1 ∧ k.exchanges = true ∧ k.grid = none)
    ∧ (let k := { coll2 4 with failed := true }
       k.dmatch ≠ 2 ∧ (collecting k).collFor pC 4 = some (6, k))
    ∧ (let s := { collecting (coll2 3) with pending := [.chunkArrival (chunk1 0 0 1 4)] }
       s.collDone (coll2 3) = false ∧ s.unmerged (coll2 3) = true)
    ∧ (let c := chunk1 0 0 1 4
       let k := { coll1 0 with owed := [c] }
       ((collecting k).colls.find? fun k => k.2.planid == 99 && k.2.body.step == 7 && k.2.self == 0) = some (6, k)
       ∧ (k.owed.find? fun c => c.chunk == 0 && c.dest == 1) = some c)
    ∧ (∀ dest ∈ [0, 1], ∀ pend : Bool, let i := Instr.digestArrival 99 7 1 dest ⟨.here, 5⟩
        let s := { collecting (coll1 0) with pending := if pend then [i] else [] }
        let mine := s.colls.find? fun k => k.2.planid == 99 && k.2.body.step == 7 && k.2.self == dest
        (pend = true ↔ i ∈ s.pending) ∧ (dest = 0 → mine = some (6, coll1 0)) ∧ (dest = 1 → mine = none)
        ∧ s.declarer 99 false ≠ none ∧ s.declarer 97 false = none
        ∧ (1 < (coll1 0).ranks ∧ 1 ≠ (coll1 0).self) ∧ ((coll1 0).ranks ≤ 2 ∧ 0 = (coll1 0).self))
    ∧ (let s := { collecting (coll1 0) with colls := [(6, coll1 0), (7, { coll1 0 with self := 1 })] }
       (s.colls.map Prod.fst).Nodup ∧ tget s.colls 6 = some (coll1 0) ∧ (coll1 0).planid = 99 ∧ (coll1 0).body.step = 7
       ∧ s.waitsOn (coll1 0) 1 = true ∧ tget s.colls 7 = some { coll1 0 with self := 1 }
       ∧ s.waitsOn { coll1 0 with self := 1 } 1 = false) := by decide +kernel

def pH : Port := ⟨0, .heddle 0⟩
def zero4k : List Byte := List.replicate 4096 0
/-- A component for this device's die 0 at 0x8000, of block 5 at 0x6000. -/
def comp1 (check : DWord) : Comp := { bid := 5, dst := 0x8000, rdev := 0, rdie := 0, check := check }
def comp2 : Comp := { bid := 6, dst := 0x9000, rdev := 0, rdie := 1, check := 0 }
def packet1 (cs : List Comp) : Packet := { xid := 97, pod := 0, die := 0, entry := 0, comps := cs, payload := clean zero4k }
def cxch1 : RecSt := { rec0 4 (.cxch 0x3000 1 0) with xid := 97 }

/-- A plan's entry of one component. -/
def entry1 : List Byte :=
  [1] ++ List.replicate 31 0 ++ leBytes 8 5 ++ leBytes 8 0x6000 ++ leBytes 8 0x8000 ++ List.replicate 104 0

/-- The machine with that exchange; its context declares the XID, and its die knows of a block. -/
def exchanging (r : RecSt) : State :=
  { engines pH [r] with
    ctxs := [(0, { xctx with ids := [⟨97, true, 0xD100⟩] })], mem := Mem.write ts.mem (0x3000 + 64) entry1
    dies := [(0, { side := [⟨0, 6, 0xA000, false⟩, ⟨0, 7, 0x70000000, true⟩, ⟨0, 8, 0x70000000, false⟩] })] }

theorem wit_codedExchange_side :
    (∀ b ∈ [6, 7, 9], let bid : DWord := BitVec.ofNat 64 b
      let s := exchanging (rec0 4 (.side bid 0x6000))
      let d := s.die (s.portDie pH)
      s.record pH 4 = some (rec0 4 (.side bid 0x6000)) ∧ d.side.length < 4096
      ∧ ((d.side.find? fun x => x.ctx == 0 && x.bid == bid).map (·.inuse)) = if b = 6 then some false else if b = 7 then some true else none)
    ∧ (∀ b ∈ [6, 7, 9], (exchanging (rec0 4 (.srel (BitVec.ofNat 64 b)))).record pH 4 = some (rec0 4 (.srel (BitVec.ofNat 64 b))))
    ∧ (let s := (exchanging (rec0 4 (.side 9 0x6000))).modDie 0 fun d => { d with side := List.replicate 4096 ⟨1, 5, 0, false⟩ }
       let d := s.die (s.portDie pH)
       4096 ≤ d.side.length ∧ (d.side.find? fun x => x.ctx == 0 && x.bid == 9) = none
       ∧ (d.side.find? fun x => !x.inuse) = some ⟨1, 5, 0, false⟩) := by decide +kernel

/-- The next entry is read. -/
def entryRead (s : State) (P : State → List Byte → Bool) : Bool :=
  (s.engRead 0 (s.recCore pH cxch1) (s.recPlace pH cxch1) (0x3000 + 64) 160).toOption.any fun x => P x.1 x.2.1

theorem wit_codedExchange_cxch :
    (let r := { cxch1 with stats := [(0, 9)] }
     (exchanging r).record pH 4 = some r ∧ r.unwritten = some (0, 9))
    ∧ (let r := { cxch1 with rows := 1, stats := [(0, 1)] }
       (exchanging r).record pH 4 = some r ∧ r.unwritten = none ∧ r.exchanged 1 = true)
    ∧ (exchanging cxch1).record pH 4 = some cxch1 ∧ cxch1.unwritten = none ∧ cxch1.rows < 1
    ∧ entryRead { exchanging cxch1 with mem := [] } (fun m e => m.entryBroken 0 e) = true
    ∧ entryRead ((exchanging cxch1).modDie 0 fun d => { d with slots := 256 }) (fun m e =>
        !m.entryBroken 0 e && !m.canSend 0 ((compsOf e).map (·.comp))) = true
    ∧ entryRead (exchanging cxch1) (fun m e => let ps := compsOf e
        let pays := m.afford pH cxch1 (bucketKey (m.recDie pH cxch1) false) (4096 * ps.length)
        !m.entryBroken 0 e && m.canSend 0 (ps.map (·.comp)) && pays.2.any fun r => (pays.1.readBlocks pH r ps).toBool) = true
    ∧ entryRead (ruled (exchanging cxch1) { rate := 5, level := 0 }) (fun m e => let ps := compsOf e
        !m.entryBroken 0 e && m.canSend 0 (ps.map (·.comp))
          && (m.afford pH cxch1 (bucketKey (m.recDie pH cxch1) false) (4096 * ps.length)).2.isNone) = true := by decide +kernel

theorem wit_codedExchange_words : let s := exchanging cxch1
    (∃ q, s.spanAt 0 0 (0x3000 + 64 + 160 * (0 / 4) + 32 + 32 * (0 % 4) + 27) 1 .store q ∧ q.pa = 0x307B)
    ∧ (∃ q, s.wordAt 0 0 (0xD100 : DWord).toNat .load q ∧ q.pa = 0xD100)
    ∧ ∃ q, s.wordAt 0 0 (0xD100 : DWord).toNat .store q ∧ q.pa = 0xD100 :=
  ⟨spanAt_of (by decide +kernel), wordAt_of (by decide +kernel), wordAt_of (by decide +kernel)⟩

def sound : Comp := comp1 (blockCheck zero4k)

/-- What the regulator lets a packet of n bytes through with, as its slot is given up. -/
def taking (s : State) (i : Instr) (n : Nat) : State × Bool :=
  let x := s.payPacket 0 0 n
  ((x.1.finished i).modDie 0 fun d => { d with slots := d.slots - 1 }, x.2)

/-- The block of a packet is decoded, and can be written; or not. -/
def decodes (s : State) (pk : Packet) (own : Comp) (ok : Bool) : Bool :=
  let t := taking s (.packetDecode 0 pk) (4096 * pk.comps.length)
  let x := t.1.decodePacket 0 0 pk 0 own
  t.2 && x.2.toBool == ok && x.2.toOption.all fun b => (x.1.poisonWrite 0 0 (some 0) (x.1.die 0).pclk own.dst.toNat b).toBool

def falls (s : State) (pk : Packet) (own : Comp) : Bool :=
  let t := taking s (.fallbackArrival 0 pk) 4096
  t.2 && (t.1.poisonWrite 0 0 (some 0) (t.1.die 0).pclk own.dst.toNat pk.payload).toBool

set_option maxRecDepth 100000 in
theorem wit_codedExchange_decode :
    (∀ cs ∈ [[sound], [comp1 1], [sound, comp2]], let pk := packet1 cs
      ∀ i ∈ [Instr.packetDecode 0 pk, .fallbackArrival 0 pk], let s := { exchanging cxch1 with pending := [i] }
        let own := cs.headD comp2
        s.declarerOn pk.xid 0 = some 0 ∧ s.ownComp 0 0 pk = some (0, own) ∧ s.pending.find? (isPacketFor 0) = some i
        ∧ (blockCheck (pk.payload.map Prod.fst) = own.check ↔ cs ≠ [comp1 1])
        ∧ (taking (ruled s { rate := 5, level := 0 }) i 4096).2 = false)
    ∧ (let i := Instr.fallbackArrival 0 (packet1 [sound])
       let s := { exchanging cxch1 with pending := [.packetDecode 0 (packet1 [sound]), i] }
       i ∈ s.pending ∧ s.pending.find? (isPacketFor 0) ≠ some i)
    ∧ decodes { exchanging cxch1 with pending := [.packetDecode 0 (packet1 [sound])] } (packet1 [sound]) sound true = true
    ∧ decodes { exchanging cxch1 with pending := [.packetDecode 0 (packet1 [comp1 1])] } (packet1 [comp1 1]) (comp1 1) false = true
    ∧ falls { exchanging cxch1 with pending := [.fallbackArrival 0 (packet1 [sound])] } (packet1 [sound]) sound = true
    ∧ (exchanging cxch1).ownDevice 0 = true ∧ (exchanging cxch1).ownDevice 9 = false := by decide +kernel

theorem wit_codedExchange_arrive :
    (∀ n ∈ [255, 256], let pk := { packet1 [sound] with pod := 3 }
      let s := (exchanging cxch1).modDie 0 fun d => { d with slots := n }
      Instr.packetDecode 0 pk ∉ s.pending ∧ pk.pod ≠ s.pkg.podnum ∧ s.declarerOn pk.xid 0 = some 0 ∧ pk.comps = [sound]
      ∧ sound.rdev = s.pkg.podnum ∧ sound.rdie < (s.ctx 0).nDies ∧ 0 = (s.ctx 0).firstDie + sound.rdie ∧ (s.die 0).lost = false
      ∧ (n = 256 ↔ 256 ≤ (s.die 0).slots))
    ∧ ((exchanging cxch1).die ((exchanging cxch1).ctx 0).firstDie).lost = false ∧ (packet1 [sound, comp2]).comps.length ≤ 4 := by
  decide +kernel

theorem wit_codedExchange_cancel :
    (∀ b ∈ [6, 8, 9], let s := exchanging cxch1
      let found := (s.die 0).side.find? fun e => e.ctx == 0 && e.bid == BitVec.ofNat 64 b
      (b = 9 ↔ found = none) ∧ found.all (fun e =>
        ((s.modDie 0 fun d => { d with side := (d.side.filter fun y => !(y.ctx == 0 && y.bid == BitVec.ofNat 64 b)) ++ [e] }).poisonRead
          0 0 (some 0) e.va.toNat 33 4096).toBool == decide (b = 6)) = true)
    ∧ ((exchanging cxch1).ctx 0).ids.find? (fun x => x.id == 97 && x.heddle) = some ⟨97, true, 0xD100⟩ := by decide +kernel

theorem wit_codedExchange_nack :
    (∀ again p : Bool, ∀ reason ∈ [3, 17], let q : PlanComp := ⟨0x6000, sound⟩
      let r := { cxch1 with stats := [(0, if again then 6 else 0)], comps := [(0, q)], paused := p }
      let s := exchanging r
      let m : NackMsg := ⟨0, 97, 0, 0, 0, again, reason, 5⟩
      s.askedBy m = some (pH, r, 0, q) ∧ (16 ≤ m.reason ↔ reason = 17) ∧ s.canSend 0 [q.comp] = true
      ∧ (let pays := s.afford pH r (bucketKey (s.recDie pH r) false) 4096
         pays.2.any (fun r' => (pays.1.poisonRead 0 (pays.1.recCore pH r') (pays.1.recPlace pH r') q.src.toNat 33 4096).toBool) = true)
      ∧ ((ruled s { rate := 5, level := 0 }).afford pH r (bucketKey (s.recDie pH r) false) 4096).2 = none)
    ∧ (exchanging cxch1).askedBy ⟨0, 97, 0, 0, 0, false, 3, 5⟩ = none := by decide +kernel

/-! ## Power, the network, stair modules -/

/-- The machine with module 3 of die 0 as given. -/
def stair3 (x : Stair) (gt : Nat) : State := { ts with stairs := [(3, x)], gt := gt }
/-- The machine whose die 0 has only module 3 left, or module 4 too. -/
def lastStairs (x : Stair) (two : Bool) : State :=
  { ts with
    ctxs := ts.ctxs ++ [(1, { state := .saved, mode := 2, device := 1 })]
    stairs := (3, x) :: ((List.range 16).filter fun j => j ≠ 3 && !(two && j == 4)).map fun j => (j, { state := 3 }) }

def trained : Stair := { rate := 36, width := 64, trainedAt := some 0 }

theorem wit_powerAndNetwork :
    (∀ n ∈ [1, 4096], 0 < n ∧ n ≤ 4096) ∧ 4096 < 4097
    ∧ (∀ watts ∈ [2400, 2401], ∀ tj ∈ [105, 106], let s := { ts with pkg := { ts.pkg with samples := List.replicate 120 2400 } }
        let xs := (watts :: s.pkg.samples).take 100
        (s.pkg.watts * xs.length < xs.sum ∨ s.pkg.tjmax < tj) ↔ ¬ (watts = 2400 ∧ tj = 105))
    ∧ (∀ esc ∈ [[], [flowNum (ts.placeOf 32) 0 1]], let s := { ts with
          pending := [.promoteDrain 0 32], pkg := { ts.pkg with fixedClass := false, escaped := esc } }
        s.inNetwork (flowNum (s.placeOf 32) 0 1) = true ∧ (esc = [] ↔ flowNum (s.placeOf 32) 0 1 ∉ s.pkg.escaped)
        ∧ s.inNetwork (flowNum 5 0 1) = false ∧ s.pkg.fixedClass = false)
    ∧ (∀ b ∈ [4, 5], ∀ r q : Bool, let s := { stair3 { trained with readmit := r } 0 with
          pkg := { ts.pkg with bringUp := b }, pending := if q then [.readmit 3] else [] }
        (∀ i ∈ s.pending, s.onNetwork i = false)
        ∧ ((r = true ∨ q = true) ↔ (∃ m ∈ s.stairs, m.2.readmit = true) ∨ ∃ i ∈ s.pending, i = .readmit 3))
    ∧ (∃ i ∈ [Instr.promoteDrain 0 32], ts.onNetwork i = true)
    ∧ (∀ st ∈ [0, 1, 2, 3], ∀ p ∈ [0, 7], let s := { ts with ual := [(p, { state := st })] }
        (s.ctxs.map Prod.fst).Nodup ∧ p < 8 ∧ (s.ualPort p).state = st) ∧ 4 ∈ [0, 1, 2, 4] ∧ 3 ∉ [0, 1, 2, 4] := by decide +kernel

theorem wit_stair_windows :
    (∀ st ∈ [0, 3], ∀ gt ∈ [999999, 1000000], let s := stair3 { trained with state := st } gt
      let x := s.stair 3
      x.state = st ∧ ((st = 0 ∧ gt = 1000000) ↔
        (x.state = 0 ∧ x.trainedAt ≠ none ∧ x.target = none ∧ x.windowAt + 1000000 ≤ s.gt)))
    ∧ (∀ gt ∈ [999999, 1000000], let x := { trained with attrib := [(5, 16), (6, 16)] }
        let s := stair3 x gt
        s.stair 3 = x ∧ (gt = 999999 ↔ s.gt < x.windowAt + 1000000) ∧ x.trainedAt ≠ none ∧ x.target = none
        ∧ x.badLane = some 5 ∧ x.spare ≠ none)
    ∧ ({ trained with attrib := [(5, 15)] } : Stair).badLane = none ∧ ({ trained with attrib := [(5, 16), (6, 9), (7, 9)] } : Stair).badLane = none
    ∧ (∀ bad ∈ [[], [9], [9, 40]], let x := { trained with attrib := [(5, 16)], ruse := 0xF, bad := bad }
        x.badLane = some 5 ∧ x.spare = none ∧ x.halfGood 5 0 = false ∧ x.halfGood 5 1 = decide (bad ≠ [9, 40]))
    ∧ ({ trained with attrib := [(40, 16)], ruse := 0xF } : Stair).halfGood 40 0 = true
    ∧ (∀ n ∈ [4096, 4097], ∀ rate ∈ [32, 36], let x := { trained with windowReplay := n, rate := rate }
        x.badLane = none ∧ (n = 4096 ↔ x.windowReplay ≤ x.limit)) := by decide +kernel

theorem wit_stair_training :
    (∀ st ∈ [0, 1, 2, 3], ∀ step ∈ [0, 2, 5], ∀ code ∈ [0, 1], ∀ w ∈ [1, 2], let t : Retraining :=
        { code := code, width := 64, lane := if step = 2 then some 63 else none, step := step }
      let x := { trained with state := st, target := some t, wakefail := w, readmit := decide (w = 2), inPlace := [0, 5] }
      let s := stair3 x 7
      (s.ctxs.map Prod.fst).Nodup ∧ s.stair 3 = x ∧ x.rewritten = false ∧ x.fell = false ∧ x.spare ≠ none
      ∧ ((x.inPlace ++ [s.gt]).filter fun a => decide (s.gt < a + 100000000)).length = 3 ∧ (w = 1 ↔ x.wakefail + 1 < 3))
    ∧ (∀ two : Bool, let s := { lastStairs trained two with pending := [.moduleRetire 3] }
        (s.stair 3).state ≠ 3 ∧ Instr.moduleRetire 3 ∈ s.pending ∧ (s.die 0).lost = false
        ∧ (two = true ↔ ∃ j < 16, 16 * (3 / 16) + j ≠ 3 ∧ (s.stair (16 * (3 / 16) + j)).state ≠ 3)
        ∧ (s.ctx 0).state = .resident ∧ (s.ctx 0).hasDie 0 = true ∧ (s.ctx 1).hasDie 0 = false
        ∧ (∀ j ∈ s.pending, s.writesTo 0 j = false ∧ isPacketFor 0 j = false) ∧ (∀ k ∈ s.skeins, k.2.loads = [])
        ∧ ∀ k < 48, (s.core (48 * 0 + k)).merges = [] ∧ (s.core (48 * 0 + k)).acks = [])
    ∧ (∀ r : Bool, (lastStairs { trained with readmit := r } true |>.stair 3).readmit = r) := by decide +kernel

theorem wit_stair_sleep :
    (∀ gt ∈ [4, 5], let s := { lastStairs trained true with gt := gt, pkg := { ts.pkg with idle := 5 } }
      s.pkg.idle ≠ 0 ∧ (gt = 5 ↔ (s.die 0).lastFlit + s.pkg.idle ≤ s.gt)
      ∧ ∀ j < 16, (s.stair (16 * 0 + j)).state = 0 ∨ (s.stair (16 * 0 + j)).state = 3)
    ∧ (∀ wk ∈ [none, some 7], ∀ fails ∈ [1, 2], ∀ gt ∈ [16006, 16007], let x := { trained with state := 2, waking := wk, wakefail := fails }
        let s := stair3 x gt
        (s.stair 3).state = 2 ∧ (s.stair 3).waking = wk ∧ (gt = 16006 ↔ s.gt < 7 + 16000) ∧ (fails = 1 ↔ x.wakefail + 1 < 3))
    ∧ (∀ c ∈ [1, 4, 5], ∀ st ∈ [0, 3], ∀ t ∈ [none, some ⟨0, 64, 0, none, 0⟩], let x := { trained with state := st, target := t }
        (stair3 x 0).stair 3 = x ∧ (c = 1 ↔ x.rate = 32 + 4 * c))
    ∧ (∀ fixed : Bool, ∀ st ∈ [0, 1], let s := { stair3 { trained with state := 3 } 0 with
          stairs := [(3, { trained with state := 3 }), (4, { trained with state := st })]
          pkg := { ts.pkg with fixedClass := fixed } }
        (s.stair 3).state = 3 ∧ (s.die (3 / 16)).lost = false ∧ s.pkg.fixedClass = fixed
        ∧ (st = 1 ↔ ∃ j < 16, 16 * (3 / 16) + j ≠ 3
            ∧ ((s.stair (16 * (3 / 16) + j)).state = 1 ∨ (s.stair (16 * (3 / 16) + j)).waking ≠ none)))
    ∧ (∀ r : Bool, (r = true ↔ ∃ j < 16, ((stair3 { trained with readmit := r } 0).stair (16 * 0 + j)).readmit = true)
        ∧ (r = false ↔ ∀ j < 16, ((stair3 { trained with readmit := r } 0).stair (16 * 0 + j)).readmit = false)) := by decide +kernel

/-! ## The host's side: contexts, control, accesses, registers -/

/-- A creation block with one ring and one identifier, on a device of one die. -/
def creation1 : List Byte :=
  [2, 0, 0, 3, 1, 1, 0, 0] ++ leBytes 8 0 ++ leBytes 8 0x100000 ++ leBytes 8 (2 ^ 23 * 48) ++ leBytes 8 0x1A000000 ++ leBytes 8 0x1A010000
    ++ leBytes 8 0x1A020000 ++ leBytes 8 0x1A020100 ++ leBytes 8 0x1A020200 ++ leBytes 8 0 ++ List.replicate 48 0
def ringDesc : List Byte :=
  leBytes 8 0x1A030000 ++ [4, 0, 0, 1, 0, 0, 0, 0] ++ leBytes 8 0x1A040000 ++ leBytes 8 0x1A040008 ++ leBytes 8 0x1A040010 ++ List.replicate 24 0
def identDesc : List Byte := leBytes 8 97 ++ [1, 0, 0, 0, 0, 0, 0, 0] ++ leBytes 8 0x1A040018
def eventDesc : List Byte :=
  leBytes 8 0x1A050000 ++ [4, 0, 3, 0, 0, 0, 0, 0] ++ leBytes 8 0x1A040020 ++ leBytes 8 0x1A040028 ++ List.replicate 32 0

/-- The machine with that block and its tables; context 5 has pinned pages on core 0, or none. -/
def creating (mapped : Bool) : State :=
  { ts with
    mem := Mem.write (Mem.write (Mem.write (Mem.write [] 0x10000 creation1) 0x1A020000 ringDesc) 0x1A020100 identDesc) 0x1A020200 eventDesc
    cores := [(0, { utlb := if mapped then [{ ctx := 5, vbase := 0, size := 2 ^ 29, entry := 0x113 }] else [] })] }

/-- The block is read and names a creation with the answer of its checks. -/
def creates (s : State) (P : Except Nat Context → Bool) : Bool :=
  let x := s.physRead 0x10000 2 128
  (creationOf x.2).any fun b => P (x.1.checkCreation 5 b).2

theorem wit_create :
    (∀ b ∈ [5, 6], ∀ f : Bool, let s := { creating true with pkg := { ts.pkg with bringUp := b, failed := f } }
      s.pkg.failed = f ∧ (b = 6 ↔ s.pkg.bringUp = 6) ∧ (s.ctx 0).state ≠ .free ∧ (s.ctx 5).state = .free)
    ∧ 0x10000 % 64 = 0 ∧ 0x10020 % 64 ≠ 0 ∧ ts.inExtent 0x10000 = true ∧ ts.inExtent (2 ^ 40) = false
    ∧ creationOf ((ts.physRead 0x10000 2 128).2) = none
    ∧ creates (creating false) (fun r => r.toOption.isNone) = true := by decide +kernel

set_option maxRecDepth 100000 in
theorem wit_create_ok : creates (creating true) (fun r => r.toOption.isSome) = true := by decide +kernel

/-- The lines of the new context's count words can be reached. -/
def countsReach (s : State) : Bool :=
  let x := s.physRead 0x10000 2 128
  (creationOf x.2).any fun b =>
    let y := x.1.checkCreation 5 b
    y.2.toOption.any fun c => let t := y.1.setCtx 5 c
      (List.range 256).all fun j => let va := b.cnt.toNat + 128 * j
        (t.translate 5 (c.firstDie * 48) (BitVec.ofNat 64 va) .store).toOption.any fun q =>
          decide (va % 128 + 128 ≤ 128) && q.pa % 128 == va % 128 && !q.bolt && t.bareLine (q.pa / 128)

set_option maxRecDepth 100000 in
theorem wit_create_words : countsReach (creating true) = true := by decide +kernel

def idle1 (st : CtxState) : State := { ts with skeins := [], blocks := [], grids := [], ctxs := [(0, { state := st })] }

/-- A byte of local memory below 2^29 can be reached, and its line is with nobody. -/
theorem low_reaches {s : State} (hp : s.pkg = ts.pkg) (hl : s.mergeDir = []) (hn : s.pending = []) (hd : s.dies = [])
    (hc : s.cores = ts.cores) (a : Nat) (h : a < 2 ^ 29) :
    s.canon a = a ∧ s.reachable a = true ∧ s.bareLine (a / 128) = true := by
  have r : a / 2 ^ 50 % 4 = 0 := by omega
  have c : s.canon a = a := by rw [State.canon, r]; rfl
  have g : a / 2 ^ 30 = 0 := by omega
  refine ⟨c, ?_, ?_⟩
  · rw [State.reachable, c]
    simp only [State.paOk, regionOf, r, State.extent, g, hp]
    simp [ts, tget]
    omega
  · have l : s.homeLost (a / 128) = false := by
      unfold State.homeLost
      split
      · next d e => simp [State.die, hd, tget]
      · rfl
    have o : s.owedAcks (a / 128) = [] := by
      rw [State.owedAcks, hc]
      rfl
    rw [State.bareLine, State.noPartial, l, hl, hn, o]
    rfl

theorem wit_contextLife :
    (∀ st ∈ [CtxState.free, .saved, .resident, .lost], ∀ g : Bool, let s := { idle1 st with grids := if g then [(1, tGrid)] else [] }
      (s.ctx 0).state = st ∧ s.drained 0 = !g ∧ s.lines = [] ∧ (∃ k ∈ s.cores, ∃ q ∈ k.2.hallc, q.2.ctx = 0)
      ∧ (∀ k ∈ s.cores, ∀ m ∈ k.2.merges, m.2.ctx ≠ 0) ∧ (∀ l ∈ s.lines, l.2.dirty ≠ some 0) ∧ s.pkg.bringUp = 6 ∧ s.pkg.failed = false)
    ∧ (∀ n ∈ [2 ^ 40 - 1, 2 ^ 40], ∀ r ∈ [none, some 5], let q : SignReq := ⟨0, 0x1000, (idle1 .saved).meterBody 0 1, none⟩
        let s := { idle1 .saved with pkg := { ts.pkg with signQ := [q], xmssIdx := n, reserved := r } }
        s.pkg.signQ = q :: [] ∧ s.pkg.reserved = r ∧ (n = 2 ^ 40 ↔ 2 ^ 40 ≤ s.pkg.xmssIdx))
    ∧ (let s := idle1 .saved
       s.reachable 0x2000 = true ∧ s.canon 0x2000 % 128 + 32 ≤ 128 ∧ s.bareLine (s.canon 0x2000 / 128) = true
       ∧ s.reachable (2 ^ 40) = false) := by decide +kernel

theorem wit_contextLife_record (n j : Nat) (h : j < 20000) : let s := { idle1 .saved with free := n }
    s.reachable (s.canon 0x1000 + j) = true ∧ s.bareLine ((s.canon 0x1000 + j) / 128) = true := by
  have c : ({ idle1 .saved with free := n } : State).canon 0x1000 = 0x1000 := (low_reaches (s := { idle1 .saved with free := n }) rfl rfl rfl rfl rfl _ (by decide)).1
  simp only [c]
  exact (low_reaches (s := { idle1 .saved with free := n }) rfl rfl rfl rfl rfl _ (by omega)).2

/-- A hall copy under way, or paused. -/
def halted (paused qmode : Bool) (rs : List RecSt) : State :=
  { engines pS (rs.map fun r => { r with paused := paused }) with
    ctxs := [(0, { xctx with dbg := { halt := true, qmode := qmode, dbglist := 0xE000 } })] }

theorem wit_contextControl :
    (∀ paused : Bool, ∀ n ∈ [4, 2 ^ 48 + 4], let r := { rec0 n (.srel 0) with paused := paused }
      let s := engines pS [r]
      (s.ports.map (·.port)).Nodup ∧ s.record pS n = some r ∧ n % 2 ^ 48 = 4 ∧ s.isListed pS n = false)
    ∧ (∀ started : Bool, let r := { rec0 4 (.copy (copy1 .copy 2 false)) with paused := true, started := started }
        let s := { engines pS [r] with ctxs := [(0, { xctx with dbg := { halt := true, qdone := true, listed := [(pS, r)] } })] }
        (s.ctx 0).dbg.listed = [(pS, r)] ∧ s.record pS 4 = some r)
    ∧ (∀ p : Bool, ∀ q : Bool, let r := { rec0 4 (.copy (copy1 .copy 2 false)) with started := true }
        let s := halted p q [r]
        (s.ctx 0).dbg.halt = true ∧ (s.ctx 0).dbg.qmode = q ∧ s.hallRecs 0 = [(pS, { r with paused := p })]
        ∧ (s.ports.map (·.port)).Nodup ∧ ∀ y ∈ (s.port pS).recs, y.num = r.num → y = { r with paused := p })
    ∧ (halted false false []).hallRecs 0 = [] ∧ (∀ k ∈ (halted false false []).cores, ∀ o ∈ k.2.loom, o.ctx ≠ 0)
    ∧ (∃ k ∈ ((halted false false []).modCore 0 fun x => { x with loom := ((looms [.lines] 0).core 0).loom }).cores, ∃ o ∈ k.2.loom, o.ctx = 0)
    ∧ (engines pS []).hallRecs 0 = [] ∧ ((engines pS []).ctx 0).dbg.halt = false := by decide +kernel

theorem wit_contextControl_invalidation :
    (∀ ld : Bool, let k := { tk with park := .count 2 0 0x1000 0x1000 5, loads := if ld then [load1] else [] }
        let s := { asSkein k with pkg := { ts.pkg with invalQ := [(0, 0x1000, 0x10000, 7)] } }
        s.pkg.invalQ = (0, 0x1000, 0x10000, 7) :: [] ∧ s.translating 0 = ld
        ∧ (∀ k ∈ s.cores, k.2.scb = [] ∧ k.2.acks = []) ∧ s.mergeDir = [] ∧ s.pending = []
        ∧ tget s.skeins 7 = some k ∧ (s.skeins.map Prod.fst).Nodup
        ∧ ∃ e ∈ (s.core 0).utlb, e.ctx = 0 ∧ e.vbase < 0x1000 + 0x10000 ∧ 0x1000 < e.vbase + e.size) := by decide +kernel

theorem wit_outsideAccesses :
    (∀ n ∈ [0, 3], ∀ j < n, ts.inExtent (0x107E + j) = true ∧ ts.bareLine ((0x107E + j) / 128) = true)
    ∧ ts.pkg.bringUp = 6 ∧ ts.pkg.failed = false ∧ State.reset.pkg.bringUp ≠ 6
    ∧ (∀ j < 3, ts.inExtent (0x76FFFFFFFF + j) = false) ∧ 0x7700000000 ≤ 0x76FFFFFFFF + 1
    ∧ (∀ n ∈ [4, 8, 255, 256, 257], let s := { ts with pkg := { ts.pkg with windows := [(0x1000, 0x200)] } }
        s.inWindow 0x1000 n = true ∧ (n ≤ 256 → ∀ j < n, s.bareLine ((0x1000 + j) / 128) = true) ∧ s.inWindow 0x11FC (n + 1) = false
        ∧ (n = 257 ↔ 256 < n))
    ∧ accBytes .i32 = 4 ∧ accBytes .i64 = 8 ∧ accBytes .i8 = 1 ∧ 0x1000 % 8 = 0 ∧ 0x1004 % 8 ≠ 0
    ∧ (∀ st ∈ [0, 1], let s := { ts with pkg := { ts.pkg with fwstate := st, rollback := 5 } }
        (st = 1 ↔ s.pkg.fwstate = 1) ∧ s.pkg.rollback ≤ 5 ∧ 4 < s.pkg.rollback)
    ∧ (∀ b ∈ [0, 2, 4, 5, 6], ∀ st ∈ [0, 1], ∀ failed : Bool,
        let s := { ts with pkg := { ts.pkg with bringUp := b, failed := failed, fwstate := st } }
        let n := s.pkg.bringUp + 1
        (b = 6 ↔ 6 < n) ∧ s.pkg.fuseValid = true ∧ (n = 5 → (s.pkg.fwstate = 0 ↔ st = 0))) := by decide +kernel

theorem wit_registerWrites : ts.pkg.bringUp = 6 ∧ ts.pkg.failed = false
    ∧ (∀ h : Bool, let s := { ts with ctxs := [(0, { state := .resident, dbg := { halt := h } })] }
        (s.ctx 0).dbg.halt = h ∧ s.pkg.bringUp = 6 ∧ (0x9 : DWord).getLsbD 0 = true ∧ (0x9 : DWord).getLsbD 3 = true
        ∧ (0x1 : DWord).getLsbD 3 = false)
    ∧ (∀ n ∈ [0x700, 0x701, 0x704, 0x705, 0x706], (n % 8 = 0 ↔ n = 0x700) ∧ (n % 8 = 1 ↔ n = 0x701) ∧ (n % 8 = 4 ↔ n = 0x704)
        ∧ (n % 8 = 5 ↔ n = 0x705) ∧ (2 ≤ n % 4 ↔ n = 0x706))
    ∧ 0 < (ts.ctx 0).nDies := by decide +kernel

/-! ## Decoding and the step -/

/-- The word of `bmac.f32` that the spec prints. -/
def bmacWord : IWord := 0x0CC8048300000B00A0300862

theorem wit_decodeEncode :
    (let i := Instr.lea pt { ty := .n32, sh := 1, d := v 4, a := v 2, b := .src (v 1) }
     i.wf = true ∧ encode i = some 0x003C000F000001002004461E)
    ∧ (∀ off ∈ [(0 : Nat), 0x7FFFFF, 0x800000], (Instr.bra pt (BitVec.ofNat 24 off)).wf = true) := by decide

theorem wit_reservedWords :
    (∀ op ∈ [0x1F, 0x31, 0x56, 0x71, 0x8B, 0xAC, 0xD2, 0xEC, 0xFF], ((BitVec.ofNat 96 op).extractLsb' 0 8).toNat = op)
    ∧ (∀ bit ∈ [26, 69, 92, 95], ((1#96 <<< bit) ||| 0x003C000F000001002004461E : IWord).getLsbD bit = true)
    ∧ (0x003C000F000001002004461E : IWord).extractLsb' 82 4 = 15 ∧ (0x0030000F000001002004461E : IWord).extractLsb' 82 4 = 12
    ∧ (0x0038000F000001002004461E : IWord).extractLsb' 82 4 = 14
    ∧ (0x003C001F000001002004461E : IWord).getLsbD 68 = true := by decide

theorem wit_pcArithmetic :
    (∀ line ∈ [0, 2 ^ 48 - 1], ∀ slot ∈ [0, 9], line < 2 ^ 48 ∧ slot < 10)
    ∧ (BitVec.ofNat 24 0x800000).toInt = -(2 ^ 23 : Nat) ∧ (BitVec.ofNat 24 0x7FFFFF).toInt = (2 ^ 23 - 1 : Nat) := by decide

/-- A line with a clean header whose slot 3 holds a word. -/
def lineOf (w : IWord) : List Byte := List.replicate 44 0 ++ leBytes 12 w.toNat ++ List.replicate 72 0

/-- The machine in whose next step the skein may issue that word. -/
def fetched (w : IWord) (sched : List Move) : State :=
  { ts with sched := sched, clk := 100, skeins := [(7, { tk with lines := [(0x400, lineOf w)] })] }

theorem wit_stepRunsDecoded :
    (∀ sched ∈ [[Move.now 7], [.issue 7], []], let s := fetched bmacWord sched
      let k : Skein := { tk with lines := [(0x400, lineOf bmacWord)] }
      tget s.skeins 7 = some k ∧ s.free? k = true ∧ k.sfInd = false ∧ k.held = []
      ∧ tget k.lines (k.pc.toNat / 128) = some (lineOf bmacWord) ∧ ofLeBytes ((lineOf bmacWord).take 8) < 2 ^ 21
      ∧ (k.pc.toNat / 128, k.pc.toNat % 128) ∉ k.badWords
      ∧ wordOfBytes (((lineOf bmacWord).drop (8 + 12 * (k.pc.toNat % 128))).take 12) = bmacWord
      ∧ s.wins 7 k = true ∧ s.pending = [] ∧ s.pick = some 7)
    ∧ (match decode bmacWord with | .ok (.bmac _ _) => true | _ => false) = true := by decide +kernel

theorem wit_memoryCanonical : ts.memWf = true ∧ (match step (fetched bmacWord [.issue 7]) with | .next t => t.memWf | _ => false) = true
    ∧ (match step State.reset with | .next _ => true | _ => false) = true := by decide +kernel

/-! ## Decoding: words that the spec prints, or worked out bit by bit from its tables -/

/-- Three words, the first of them lowest. -/
def word (w0 w1 w2 : BitVec 32) : IWord := w2 ++ w1 ++ w0

/-- R91, R124: the worked `iadd.i32 v1, v1, -3`. -/
theorem decode_iadd : decode (word 0x10012201 0xFFFFFD00 0x003C000F) =
    .ok (.iadd pt { ty := .i32, sat := false, d := v 1, a := v 1, b := .imm 0xFFFFFD }) := by rfl
/-- The worked encodings of `mxq` (spec 17). -/
theorem decode_ld : decode (word 0x400B06A0 0x00008000 0x0004000F) =
    .ok (.ld { pt with setf := 1 } { ord := .weak, scope := .skein, promote := false, ty := .n32, d := v 11, a := v 4, off := .imm 128 }) := by rfl
theorem decode_qscale : decode (word 0xA00C0E8A 0x00000000 0x003C004F) = .ok (.qscale { pt with wait := 1 } .e4m3 (v 12) (v 10)) := by rfl
theorem decode_qmx : decode (word 0xD0002E88 0x00000B00 0x003C000F) =
    .ok (.qmx pt { ty := .e4m3, sat := true, expl := false, a := v 13, b := v 11, c := v 0 }) := by rfl
theorem decode_dqmx : decode (word 0x000F0E89 0x00000000 0x003C000F) = .ok (.dqmx pt .e4m3 (v 15) (v 0)) := by rfl
/-- The worked encodings of the GEMM (spec 17) and of spec 06. -/
theorem decode_msave : decode (word 0xA0000185 0x00000C00 0x003C000F) = .ok (.msave pt { merge := true, p := 0, a := v 10, b := v 12 }) := by rfl
theorem decode_mma : decode (word 0x00000081 0x00400100 0x003C018F) =
    .ok (.mma { pt with wait := 6 } { p := 0, kb := 1, a := v 0, b := v 1 }) := by rfl
theorem decode_mmap : decode (word 0x40020E80 0x00000500 0x003C000F) =
    .ok (.mmap pt { ty := .e4m3, w := false, idx := false, m := v 2, a := v 4, b := v 5, c := v 0 }) := by rfl
/-- The worked encodings of spec 07 and spec 08. -/
theorem decode_ldf : decode (word 0x200602A4 0x00000000 0x003C000F) = .ok (.ldf pt { ty := .i32, d := v 6, a := v 2, off := .imm 0 }) := by rfl
theorem decode_ste : decode (word 0x200602A5 0x00002000 0x003C000F) = .ok (.ste pt { ty := .i32, d := v 6, a := v 2, off := .imm 32 }) := by rfl
theorem decode_ldh : decode (word 0x000402A2 0x02007C00 0x003C020F) =
    .ok (.ldh { pt with wait := 8 } { w := true, ty := .i32, d := v 4, a := v 0, off := .imm 124 }) := by rfl
/-- The worked encodings of spec 18 and spec 19. -/
theorem decode_cntwait : decode (word 0xA00003CC 0x00001000 0x003C000F) =
    .ok (.cntwait pt { hall := false, scope := .device, promote := false, a := v 10, b := .src (v 16) }) := by rfl
theorem decode_stRlx : decode (word 0x400F22A1 0x00400000 0x003C000F) =
    .ok (.st pt { ord := .rlx, scope := .system, promote := false, ty := .i32, d := v 15, a := v 4, off := .imm 0 }) := by rfl
theorem decode_exit : decode (word 0x000000C7 0x00000000 0x003C000F) = .ok (.exit pt) := by rfl
theorem decode_kill : decode (word 0x000000E6 0x00000000 0x003C000F) = .ok (.kill pt) := by rfl
theorem decode_drains : decode (word 0x000000CF 0x00000000 0x003C000F) = .ok (.drains pt) := by rfl
/-- The worked encodings of spec 20. -/
theorem decode_submit : decode (word 0x600400E0 0x00001000 0x003C0182) = .ok (.submit { pt with wait := 6, gp := 2 } (v 4) (v 6) (v 16)) := by rfl

/-- R106: words that the map does not use. -/
theorem decode_refused : decode (word 0x0000001F 0 0x003C000F) = .error .illegalOp ∧ decode (word 0x10012201 0 0x003C001F) = .error .illegalEnc := by
  exact ⟨rfl, rfl⟩

/-! ## Ill-formed terms: each check refuses one -/

def c0 : Opnd := .chan 0 false
def w2 (d a : Opnd) (b : SrcImm) (t : Ty) : Alu2 := { ty := t, sat := false, d := d, a := a, b := b }
def w3 (d a b c : Opnd) (t : Ty) : Alu3 := { ty := t, sat := false, d := d, a := a, b := b, c := c }
def ls (d a : Opnd) (t : Ty) : LdSt := { ord := .weak, scope := .skein, promote := false, ty := t, d := d, a := a, off := .imm 0 }
def am (op : AOp) : Amo := { op := op, ord := .rlx, scope := .device, ret := true, promote := false, ty := .i32, d := v 1, a := v 2, b := v 4 }
def bq (b : BForm) (t : Ty) (x y : Opnd) : BAmo := { ret := false, form := b, ty := t, d := v 0, a := v 2, b := x, c := y }

theorem wf_control : (Instr.nop { pt with setf := 12 }).wf = false ∧ (Instr.nop { pt with gn := true }).wf = false
    ∧ (Instr.close { pt with gp := 1 }).wf = false ∧ (Instr.shed pt false (v 1) 5 4).wf = false ∧ (Instr.shed pt false (v 16) 5 5).wf = false
    ∧ (Instr.regroup pt (v 16)).wf = false ∧ (Instr.fence pt .rlx .device false).wf = false ∧ (Instr.fence pt .rel .device true).wf = false
    ∧ (Instr.brx pt (v 639)).wf = false ∧ (Instr.call pt (v 639) 0).wf = false ∧ (Instr.nop pt).wf = true := by decide

theorem wf_integer : (Instr.iadd pt (w2 (v 1) (v 2) (.imm 0) .f32)).wf = false ∧ (Instr.iadd pt (w2 (v 640) (v 2) (.imm 0) .i32)).wf = false
    ∧ (Instr.iadd pt (w2 (v 639) (v 2) (.imm 0) .i64)).wf = false ∧ (Instr.iadd pt (w2 (v 1) (v 659) (.imm 0) .i32)).wf = false
    ∧ (Instr.iadd pt (w2 c0 (v 2) (.imm 0) .i64)).wf = false ∧ (Instr.iadd pt (w2 (.chan 0 true) (v 2) (.imm 0) .i32)).wf = false
    ∧ (Instr.irem pt { w2 (v 1) (v 2) (.imm 0) .i32 with sat := true }).wf = false ∧ (Instr.shl pt (w2 (v 1) (v 2) (.src (.chan 32 false)) .i32)).wf = false
    ∧ (Instr.bfx pt (w2 (v 1) (v 2) (.imm 0x10000) .i32)).wf = false ∧ (Instr.iabs pt { ty := .n32, sat := false, d := v 1, a := v 2 }).wf = false
    ∧ (Instr.popc pt { ty := .i64, sat := false, d := v 640, a := v 2 }).wf = false ∧ (Instr.imad pt (w3 (v 1) (v 2) (v 3) (v 659) .i32)).wf = false
    ∧ (Instr.bfi pt (w3 (v 1) (v 2) (v 3) (v 659) .i32)).wf = false ∧ (Instr.icmp pt { ty := .i32, cc := .eq, p := v 15, a := v 1, b := v 2 }).wf = false
    ∧ (Instr.sel pt { ty := .i32, d := v 1, a := v 2, b := v 3, p := v 16 }).wf = false
    ∧ (Instr.iaddc pt { ty := .i32, sub := false, d := v 1, a := v 2, b := v 3, p := v 15 }).wf = false
    ∧ (Instr.lea pt { ty := .i64, sh := 0, d := v 0, a := v 2, b := .imm 0 }).wf = false ∧ (Instr.mov pt true c0 (v 2)).wf = false := by decide

theorem wf_lanes : (Instr.movi pt c0 0).wf = false ∧ (Instr.pand pt .and (v 15) (v 1) (v 2)).wf = false ∧ (Instr.pmovToPred pt (v 1) c0).wf = false
    ∧ (Instr.pmovToReg pt (v 1) (v 16)).wf = false ∧ (Instr.vote pt .any (v 15) (v 1)).wf = false ∧ (Instr.voteBallot pt (v 639) (v 1)).wf = false
    ∧ (Instr.lbcast pt (v 1) (v 2) (.src c0)).wf = false ∧ (Instr.lshuf pt (v 1) (v 2) c0).wf = false
    ∧ (Instr.lscan pt { op := .add, ty := .i64, d := v 1, a := v 2 }).wf = false ∧ (Instr.shape pt c0 (v 2)).wf = false
    ∧ (Instr.pack pt { ty := .i16, sat := false, hi := true, d := v 1, a := v 2, b := v 3 }).wf = false ∧ (Instr.unpack pt .i16 2 (v 1) (v 2)).wf = false
    ∧ (Instr.perm pt (v 1) (v 2) (v 3) c0).wf = false ∧ (Instr.chstat pt (v 1) (.chan 0 true)).wf = false ∧ (Instr.chstat pt (v 1) (v 2)).wf = false := by decide

theorem wf_floats : (Instr.fadd pt { ty := .i32, rm := .rne, d := v 1, a := v 2, b := v 3 }).wf = false
    ∧ (Instr.fdiv pt { ty := .f16x2, rm := .rne, d := v 1, a := v 2, b := v 3 }).wf = false ∧ (Instr.frcp pt { ty := .e4m3, rm := .rne, d := v 1, a := v 2 }).wf = false
    ∧ (Instr.fcmp pt { ty := .f16x2, cc := .eq, p := v 1, a := v 2, b := v 3 }).wf = false ∧ (Instr.fclass pt .f32 (v 1) (v 659)).wf = false
    ∧ (Instr.cvt pt { ty := .f32, rm := .rne, sat := false, sty := .f32, d := v 1, a := v 2 }).wf = false
    ∧ (Instr.cvt pt { ty := .f16, rm := .rne, sat := true, sty := .f32, d := v 1, a := v 2 }).wf = false
    ∧ (Instr.cvti pt { ty := .f32, rm := .rne, sat := false, sty := .f32, d := v 1, a := v 2 }).wf = false
    ∧ (Instr.cvtf pt { ty := .f32, rm := .rne, sat := false, sty := .f16, d := v 1, a := v 2 }).wf = false
    ∧ (Instr.ffma pt { ty := .f32, rm := .rne, d := v 1, a := v 2, b := v 3, c := .chan 40 false }).wf = false
    ∧ (Instr.fmin pt { ty := .n32, d := v 1, a := v 2, b := v 3 }).wf = false := by decide

theorem wf_bolts : (Instr.bzero pt (v 25)).wf = false ∧ (Instr.badd pt { ty := .i64, d := v 24, a := v 1 }).wf = false
    ∧ (Instr.bmac pt { ty := .n8, d := v 24, a := v 1, b := v 2 }).wf = false ∧ (Instr.bdot pt { ty := .i8, mx := true, d := v 24, a := v 1, b := v 2, c := v 3 }).wf = false
    ∧ (Instr.bdot pt { ty := .i8, mx := false, d := v 24, a := v 1, b := v 2, c := v 3 }).wf = false ∧ (Instr.bmerge pt (v 24) (v 25) (v 48)).wf = false
    ∧ (Instr.brnd pt { ty := .f32, rm := .rne, sat := true, d := v 1, a := v 24 }).wf = false ∧ (Instr.bld pt (v 24) (v 639)).wf = false
    ∧ (Instr.bst pt (v 2) (v 624)).wf = false ∧ (Instr.bamo pt (bq .value .f32 (v 4) (v 5))).wf = false ∧ (Instr.bamo pt (bq .mul .n32 (v 4) (v 5))).wf = false
    ∧ (Instr.bamo pt (bq .bolt .f32 (v 24) (v 0))).wf = false ∧ (Instr.bcmp pt { cc := .eq, p := v 15, a := v 24, b := v 48 }).wf = false
    ∧ (Instr.bfix pt { ty := .n32, rm := .rne, d := v 1, a := v 24, b := v 2 }).wf = false ∧ (Instr.bexp pt (v 640) (v 24)).wf = false
    ∧ (Instr.baddi pt { ty := .i64, d := v 24, a := v 2, e := 209 }).wf = false ∧ (Instr.baddi pt { ty := .i32, d := v 24, a := v 2, e := 0xFFFED3 }).wf = false := by decide

theorem wf_matrix : (Instr.mmap pt { ty := .n8, w := false, idx := false, m := v 1, a := v 2, b := v 3, c := v 0 }).wf = false
    ∧ (Instr.mmap pt { ty := .i8, w := false, idx := false, m := v 1, a := v 2, b := v 3, c := v 4 }).wf = false
    ∧ (Instr.mma pt { p := 0, kb := 0, a := v 1, b := v 2 }).wf = false ∧ (Instr.mmag pt { p := 0, kb := 1, a := v 16, b := v 2 }).wf = false
    ∧ (Instr.mrnd pt { ty := .f32, rm := .rne, sat := true, p := 0, a := v 1, b := v 2 }).wf = false
    ∧ (Instr.msave pt { merge := false, p := 0, a := v 639, b := v 2 }).wf = false ∧ (Instr.mload pt { merge := true, p := 0, a := v 2, b := v 4 }).wf = false
    ∧ (Instr.qmx pt { ty := .f32, sat := false, expl := false, a := v 1, b := v 2, c := v 0 }).wf = false
    ∧ (Instr.qmx pt { ty := .e4m3, sat := false, expl := false, a := v 1, b := v 2, c := v 3 }).wf = false ∧ (Instr.dqmx pt .f16 (v 1) (v 2)).wf = false
    ∧ (Instr.qscale pt .e4m3 c0 (v 2)).wf = false ∧ (Instr.mzero { pt with setf := 13 } 0).wf = false := by decide

theorem wf_memory : (Instr.ld pt (ls (v 1) (v 639) .i32)).wf = false ∧ (Instr.ld pt (ls (v 639) (v 2) .i64)).wf = false ∧ (Instr.ld pt (ls (v 1) (v 2) .f32)).wf = false
    ∧ (Instr.ld pt { ls (v 1) (v 2) .i32 with ord := .rel }).wf = false ∧ (Instr.ld pt { ls (v 1) (v 2) .i32 with scope := .device }).wf = false
    ∧ (Instr.st pt { ls (v 1) (v 2) .i32 with ord := .acq }).wf = false ∧ (Instr.ld pt { ls (v 1) (v 2) .i32 with promote := true }).wf = false
    ∧ (Instr.ld pt { ls (v 1) (v 2) .i32 with off := .vec c0 }).wf = false ∧ (Instr.ldf pt { ty := .i8, d := v 1, a := v 2, off := .imm 0 }).wf = false
    ∧ (Instr.ldh pt { w := false, ty := .i32, d := c0, a := v 2, off := .imm 0 }).wf = false ∧ (Instr.fe pt true c0 (.imm 4)).wf = false
    ∧ (Instr.amo pt { am .cas with ret := false, d := v 0 }).wf = false ∧ (Instr.amo pt { am .add with ord := .weak }).wf = false
    ∧ (Instr.amo pt { am .add with ret := false }).wf = false ∧ (Instr.amo pt { am .add with promote := true }).wf = false
    ∧ (Instr.amoh pt (am .add)).wf = false ∧ (Instr.pref pt false (v 639) (.imm 0)).wf = false ∧ (Instr.cflush pt .block (v 2) (.imm 0)).wf = false := by decide

theorem wf_system : (Instr.cntsig pt { hall := false, scope := .device, promote := true, a := v 2, b := .imm 1 }).wf = false
    ∧ (Instr.cntwait pt { hall := true, scope := .device, promote := false, a := v 2, b := .imm 1 }).wf = false
    ∧ (Instr.cntrd pt { acq := false, hall := false, scope := .device, promote := true, d := v 2, a := v 4 }).wf = false
    ∧ (Instr.cntwait pt { hall := false, scope := .device, promote := false, a := v 2, b := .src (v 639) }).wf = false
    ∧ (Instr.submit pt (v 2) (v 1) (v 625)).wf = false ∧ (Instr.submit pt (v 2) (v 1) c0).wf = false ∧ (Instr.csrr pt (v 1) 0x1000).wf = false
    ∧ (Instr.csrr pt (v 639) 0x40).wf = false ∧ (Instr.csrw pt c0 0x10).wf = false ∧ (Instr.sfrq pt (v 631)).wf = false ∧ (Instr.sleep pt (.src c0)).wf = false
    ∧ (Instr.clockGt pt (v 639)).wf = false ∧ (Instr.meter pt (v 2) (.imm 33)).wf = false ∧ (Instr.tbeg pt (v 639) (v 1)).wf = false := by decide

/-! ## Single steps, with results worked from the spec -/

/-- The state after an instruction of the skein. -/
def after (i : Instr) (s : State) : State := match exec i s with | .next t => t | _ => State.reset
/-- The skein, and lane l of its register n. -/
def skein (s : State) : Skein := (tget s.skeins 7).getD { tk with running := 0, pc := 0, regs := [] }
def lane (n l : Nat) (s : State) : Nat := (((skein s).reg n).lanes.getD l 0).toNat
/-- The machine with a register of the skein given. -/
def withReg (n : Nat) (r : VReg) : State := asSkein { tk with regs := tput tRegs n r }

/-- R124: sums wrap; with SAT they stop at the end of the range. -/
theorem test_iadd_wraps : let t := after (.iadd pt (w2 (v 30) (v 15) (.imm 1) .i32)) ts
    lane 30 0 t = 0x80000000 ∧ lane 30 1 t = 0x80000001 ∧ (skein t).pc = 0x20004 := by decide +kernel
theorem test_iadd_saturates : let t := after (.iadd pt { w2 (v 30) (v 15) (.imm 1) .i32 with sat := true }) ts
    lane 30 0 t = 0x7FFFFFFF ∧ lane 30 1 t = 0x80000001 := by decide +kernel
/-- R130: `.sh2` scales operand B by 4. -/
theorem test_lea_scales : let t := after (.lea pt { ty := .i32, sh := 1, d := v 30, a := v 4, b := .src (v 0) }) ts
    lane 30 0 t = 0x2004 ∧ lane 30 7 t = 0x2020 ∧ lane 31 7 t = 0 := by decide +kernel
/-- R62, R63, R66: 470.0 overflows e4m3 after rounding, and 464.0 is a tie (spec 05, the worked `cvt`). -/
theorem test_cvt_e4m3 : let c : Cvt := { ty := .e4m3, rm := .rne, sat := true, sty := .f32, d := v 30, a := v 31 }
    lane 30 0 (after (.cvt pt c) (withReg 31 (uni 0x43EB0000))) = 0x7E
    ∧ lane 30 0 (after (.cvt pt c) (withReg 31 (uni 0x43E80000))) = 0x7E
    ∧ (skein (after (.cvt pt c) (withReg 31 (uni 0x43EB0000)))).fpcsr = (skein ts).fpcsr ||| 0x140
    ∧ (skein (after (.cvt pt c) (withReg 31 (uni 0x43E80000)))).fpcsr = (skein ts).fpcsr ||| 0x100 := by decide +kernel

/-- R75, R77, R81: the worked sum 2^30 + 1 − 2^30 (spec 02). -/
theorem test_bolt_sum :
    let add := fun (b : Bolt) (x : Nat) => boltAdd b (addendOf (valOf .f32 x)) false
    let b := add (add (add Bolt.zero 0x4E800000) 0x3F800000) 0xCE800000
    (List.range 24).map (fun k => (boltWord b k).toNat) = [0, 0, 0, 0, 0, 0, 0, 0, 0, 0x1000, 0, 0, 0xFFFFFFFF, 0xFFFFFFFF, 0xFFFFFFFF,
      0xFFFFFFFF, 0xFFFFFFFF, 0xFFFFFFFF, 0xFFFFFFFF, 0xFFFFFFFF, 0, 0x100, 0, 0]
    ∧ (List.range 24).map (fun k => (boltWord (boltNorm b) k).toNat) = [0, 0, 0, 0, 0, 0, 0, 0, 0, 0x1000, 0, 0, 0, 0, 0, 0, 0, 0, 0, 0, 0, 0, 0, 0]
    ∧ boltRound .f32 0 false b = (0x3F800000, 0) := by decide +kernel

/-- R71, R72: the worked block of e4m3 (spec 02), under SAT and without. -/
theorem test_quantise :
    let vs := [valOf .f32 0x447A0000, valOf .f32 0x40400000, valOf .f32 0x3C23D70A] ++ List.replicate 29 (valOf .f32 0x80000000)
    mxQuantise .e4m3 true none vs = (0x80, [0x7E, 0x3C, 0x03] ++ List.replicate 29 0x80, flNX ||| flOF ||| flUF)
    ∧ (mxQuantise .e4m3 false none vs).2.1 = [0x7F, 0x3C, 0x03] ++ List.replicate 29 0x80 := by decide +kernel

/-- R390: the worked digests d_0 and d_1 of level 1 (spec 15). -/
theorem test_digest : contribution 4 0 = 0x78DDE6E5FD29F054 ∧ contribution 8 0 = 0xF1BBCDCBFA53E0A8
    ∧ contribution 4 0 * 1 + contribution 8 0 * 3 = (0x4E115049EC25924C : DWord) := by decide

/-- R263: the worked home of PA 0x12_3456_7880 (spec 09). -/
theorem test_home : ({ State.reset with pkg := { extents := [(0x48, (1, 0))] } } : State).homeSlice 0x2468ACF1 = 54
    ∧ ({ State.reset with pkg := { extents := [(0x48, (2, 4))] } } : State).homeSlice 0x2468ACF1 = 54 := by decide +kernel

/-- R318: the worked TRAPINFO of a lane retirement (spec 13). -/
theorem test_degradeInfo : degradeInfo { rate := 48, width := 64 } 5 0 2 (some 17) = 0x1140300205 := by decide

/-- R97: the worked branches (spec 03). -/
theorem test_branches : (skein (after (.bra pt 5) (asSkein { tk with pc := 0x400008 }))).pc = 0x400083
    ∧ (skein (after (.bra pt 0xFFFFF7) (asSkein { tk with pc := 0x400008 }))).pc = 0x3FFF89 := by decide +kernel

/-- R137, R138: the divergent loop of spec 04, its `shed`, its first pass, and its two closes. -/
def inLoop (pc : Pc) (running : Mask) (p1 : Mask) (sheds : List Shed) : State :=
  asSkein { tk with pc := pc, running := running, preds := [(1, p1)], sheds := sheds }
theorem test_shed : let k := skein (after (.shed pt false (v 1) 5 5) (inLoop 0x20003 0xFF 0xFE []))
    k.running = 0xFE ∧ k.sheds.map (fun x => (x.deferred, x.parked, x.inElse)) = [(0x01, 0, false)] ∧ k.pc = 0x20004 := by decide +kernel
def loop1 (parked deferred : Mask) (e : Bool) : Shed := { deferred := deferred, parked := parked, elsePc := 0x20008, closePc := 0x20008, inElse := e }
theorem test_shed_pass : let k := skein (after (.bra { pt with gp := 1 } 0xFFFFFD) (inLoop 0x20007 0xFE 0xF0 [loop1 0 1 false]))
    k.running = 0xF0 ∧ k.sheds.map (fun x => (x.deferred, x.parked, x.inElse)) = [(0x01, 0x0E, false)] ∧ k.pc = 0x20004 := by decide +kernel
theorem test_close_else : let k := skein (after (.close pt) (inLoop 0x20008 0x80 0 [loop1 0x7E 1 false]))
    k.running = 0x01 ∧ k.sheds.map (fun x => (x.deferred, x.parked, x.inElse)) = [(0, 0xFE, true)] ∧ k.pc = 0x20008 := by decide +kernel
theorem test_close_end : let k := skein (after (.close pt) (inLoop 0x20008 0x01 0 [loop1 0xFE 0 true]))
    k.running = 0xFF ∧ k.sheds = [] ∧ k.pc = 0x20009 := by decide +kernel

end Sys2Proof.Tests
end

section
/-! PROOFS. The sums of a bolt (spec 02 R73, R75, R78, R79): what its digits and carries add up to modulo 2^640, through
digit sums, carry checks and the normal form. -/

namespace Sys2Proof.Machine

/-! ## Reduction into [−2^639, 2^639) -/

/-- The reduction of R73 is the balanced remainder of the library. -/
theorem wrap640_eq_bmod (t : Int) : wrap640 t = t.bmod (2 ^ 640) := by
  have twice : (2 : Nat) ^ 640 = 2 ^ 639 * 2 := by rw [show 640 = 639 + 1 from rfl, pow_succ]
  rw [wrap640, Int.bmod_def, twice]
  generalize (2 : Nat) ^ 639 = half
  split <;> split <;> omega

theorem wrap640_emod (t : Int) : wrap640 t % (2 ^ 640 : Nat) = t % (2 ^ 640 : Nat) := by
  rw [wrap640_eq_bmod, Int.bmod_emod]

theorem emod_wrap640 (t : Int) : wrap640 (t % (2 ^ 640 : Nat)) = wrap640 t := by
  rw [wrap640_eq_bmod, wrap640_eq_bmod, Int.emod_bmod]

theorem wrap640_add (s t : Int) : wrap640 (wrap640 s + wrap640 t) = wrap640 (s + t) := by
  simp only [wrap640_eq_bmod, ← Int.add_bmod]

/-- A sum with a summand of which only the residue is held. -/
theorem wrap640_add_emod (s t : Int) : wrap640 (s + t % (2 ^ 640 : Nat)) = wrap640 (wrap640 s + t) := by
  simp only [wrap640_eq_bmod, Int.bmod_add_bmod]
  rw [Int.add_bmod, Int.emod_bmod, ← Int.add_bmod]

/-! ## Digits and their sums -/

@[simp] theorem length_digitsOf (n u : Nat) : (digitsOf n u).length = n := by
  induction n generalizing u with
  | zero => rfl
  | succ n ih => simp [digitsOf, ih]

@[simp] theorem length_digits640 (v : Int) : (digits640 v).length = 10 := length_digitsOf 10 _

/-- Digits without carries sum to the number that they were cut from, as far as they reach. -/
theorem boltSum_digitsOf (n i u : Nat) :
    boltSum i (digitsOf n u) (List.replicate n 0) = (u % 2 ^ (64 * n) * 2 ^ (64 * i) : Nat) := by
  induction n generalizing i u with
  | zero => simp [digitsOf, boltSum, Nat.mod_one]
  | succ n ih =>
    have cut : u % 2 ^ (64 * (n + 1)) = u % 2 ^ 64 + 2 ^ 64 * (u / 2 ^ 64 % 2 ^ (64 * n)) := by
      rw [Nat.mul_succ, Nat.add_comm, Nat.pow_add, Nat.mod_mul]
    rw [digitsOf, List.replicate_succ, boltSum, ih, cut, BitVec.toNat_ofNat, Nat.mul_succ, Nat.pow_add]
    push_cast
    ring

theorem boltSum_digits640 (v : Int) : boltSum 0 (digits640 v) (List.replicate 10 0) = v % (2 ^ 640 : Nat) := by
  have pos : 0 < ((2 ^ 640 : Nat) : Int) := by positivity
  have nonneg : 0 ≤ v % (2 ^ 640 : Nat) := Int.emod_nonneg v pos.ne'
  have small : (v % (2 ^ 640 : Nat)).toNat < 2 ^ 640 := by
    rw [Int.toNat_lt nonneg]
    exact Int.emod_lt_of_pos v pos
  rw [digits640, boltSum_digitsOf, show 64 * 10 = 640 from rfl, Nat.mod_eq_of_lt small, Nat.mul_zero, Nat.pow_zero,
    Nat.mul_one, Int.toNat_of_nonneg nonneg]

/-- A digit's sum and its carry out, one digit higher, make the whole sum. -/
theorem digit_add_carry (d u : DWord) (k l : Int) (i : Nat) :
    ((BitVec.ofNat 64 (d.toNat + u.toNat)).toNat * 2 ^ (64 * i) : Nat)
        + (k + l + ((d.toNat + u.toNat) / 2 ^ 64 : Nat)) * (2 ^ (64 * (i + 1)) : Nat)
      = (d.toNat * 2 ^ (64 * i) : Nat) + k * (2 ^ (64 * (i + 1)) : Nat)
        + ((u.toNat * 2 ^ (64 * i) : Nat) + l * (2 ^ (64 * (i + 1)) : Nat)) := by
  have split : (((d.toNat + u.toNat) % 2 ^ 64 : Nat) : Int) + 2 ^ 64 * ((d.toNat + u.toNat) / 2 ^ 64 : Nat)
      = d.toNat + u.toNat := by exact_mod_cast Nat.mod_add_div (d.toNat + u.toNat) (2 ^ 64)
  rw [BitVec.toNat_ofNat, Nat.mul_succ, Nat.pow_add]
  push_cast at split ⊢
  linear_combination (2 : Int) ^ (64 * i) * split

/-- Digit sums whose carries are the sums of the carries add the two sums exactly. -/
theorem boltSum_addDigits (n i : Nat) (ds us : List DWord) (ks ls : List Int) (hd : ds.length = n) (hu : us.length = n)
    (hk : ks.length = n) (hl : ls.length = n) :
    boltSum i (addDigits ds us (List.zipWith (· + ·) ks ls)).1 (addDigits ds us (List.zipWith (· + ·) ks ls)).2
      = boltSum i ds ks + boltSum i us ls := by
  induction n generalizing i ds us ks ls with
  | zero =>
    obtain rfl := List.length_eq_zero_iff.mp hd
    obtain rfl := List.length_eq_zero_iff.mp hu
    rfl
  | succ n ih =>
    obtain ⟨d, ds, rfl⟩ := List.exists_cons_of_length_eq_add_one hd
    obtain ⟨u, us, rfl⟩ := List.exists_cons_of_length_eq_add_one hu
    obtain ⟨k, ks, rfl⟩ := List.exists_cons_of_length_eq_add_one hk
    obtain ⟨l, ls, rfl⟩ := List.exists_cons_of_length_eq_add_one hl
    have rest := ih (i + 1) ds us ks ls (Nat.succ.inj hd) (Nat.succ.inj hu) (Nat.succ.inj hk) (Nat.succ.inj hl)
    simp only [List.zipWith_cons_cons, addDigits, boltSum, rest, digit_add_carry]
    ring

/-- Digit sums onto carries that receive nothing else. -/
theorem boltSum_addDigits_right (ds us : List DWord) (ks : List Int) (hd : ds.length = 10) (hu : us.length = 10)
    (hk : ks.length = 10) :
    boltSum 0 (addDigits ds us ks).1 (addDigits ds us ks).2 = boltSum 0 ds ks + boltSum 0 us (List.replicate 10 0) := by
  have zeros : List.zipWith (· + ·) ks (List.replicate 10 0) = ks := by
    apply List.ext_getElem (by rw [List.length_zipWith, List.length_replicate, hk, Nat.min_self])
    intro j _ _
    rw [List.getElem_zipWith, List.getElem_replicate, Int.add_zero]
  rw [← boltSum_addDigits 10 0 ds us ks (List.replicate 10 0) hd hu hk (List.length_replicate ..), zeros]

/-! ## The normal form and the carry check -/

@[simp] theorem boltValue_boltNorm (b : Bolt) : boltValue (boltNorm b) = boltValue b := by
  rw [boltValue, boltNorm, boltSum_digits640, emod_wrap640, boltValue]

@[simp] theorem boltS_boltNorm (b : Bolt) : boltS (boltNorm b) = boltS b := rfl

theorem digits640_congr {v w : Int} (h : wrap640 v = wrap640 w) : digits640 v = digits640 w := by
  rw [digits640, digits640, ← wrap640_emod v, h, wrap640_emod]

theorem boltS_eq_toNat (b : Bolt) :
    boltS b = b.nan.toNat + 2 * b.pinf.toNat + 4 * b.ninf.toNat + 8 * b.poison.toNat := by
  have bit (c : Bool) (w : Nat) : (if c then w else 0) = w * c.toNat := by cases c <;> simp
  simp only [boltS, bit, Nat.one_mul]

/-- The status byte tells each status bit. -/
theorem boltS_inj {a b : Bolt} (h : boltS a = boltS b) :
    a.nan = b.nan ∧ a.pinf = b.pinf ∧ a.ninf = b.ninf ∧ a.poison = b.poison := by
  rw [boltS_eq_toNat, boltS_eq_toNat] at h
  revert h
  generalize a.nan = n, a.pinf = p, a.ninf = m, a.poison = x, b.nan = n', b.pinf = p', b.ninf = m', b.poison = x'
  revert n p m x n' p' m' x'
  decide

/-- R75: a value with its status bits has one normal form. -/
theorem boltNorm_congr {a b : Bolt} (hv : boltValue a = boltValue b) (hs : boltS a = boltS b) :
    boltNorm a = boltNorm b := by
  obtain ⟨nan, pinf, ninf, poison⟩ := boltS_inj hs
  rw [boltNorm, boltNorm, digits640_congr hv, nan, pinf, ninf, poison]

/-- A carry check answers the bolt or its normal form. -/
theorem carryCheck_eq_or (b : Bolt) : carryCheck b = boltNorm b ∨ carryCheck b = b := by
  rw [carryCheck]
  split
  · exact .inl rfl
  · exact .inr rfl

@[simp] theorem boltValue_carryCheck (b : Bolt) : boltValue (carryCheck b) = boltValue b := by
  obtain h | h := carryCheck_eq_or b
  · rw [h, boltValue_boltNorm]
  · rw [h]

@[simp] theorem boltS_carryCheck (b : Bolt) : boltS (carryCheck b) = boltS b := by
  obtain h | h := carryCheck_eq_or b
  · rw [h, boltS_boltNorm]
  · rw [h]

/-! ## Additions and merges -/

/-- A finite addend goes to the digits with their carries out, and its poison to the status bits. -/
theorem boltAdd_fin (b : Bolt) (q : Int) (p : Bool) :
    boltAdd b (.fin q) p =
      carryCheck { b with
        dig := (addDigits b.dig (digits640 q) b.car).1, car := (addDigits b.dig (digits640 q) b.car).2,
        poison := b.poison || p } := by
  cases p with
  | false => rw [Bool.or_false]; rfl
  | true => rw [Bool.or_true]; rfl

theorem boltValue_boltAdd (b : Bolt) (q : Int) (p : Bool) (hd : b.dig.length = 10) (hk : b.car.length = 10) :
    boltValue (boltAdd b (.fin q) p) = wrap640 (boltValue b + q) := by
  rw [boltAdd_fin, boltValue_carryCheck, boltValue, boltSum_addDigits_right _ _ _ hd (length_digits640 q) hk,
    boltSum_digits640, wrap640_add_emod, boltValue]

theorem boltS_boltAdd (b : Bolt) (q : Int) (p : Bool) :
    boltS (boltAdd b (.fin q) p) = boltS { b with poison := b.poison || p } := by
  rw [boltAdd_fin, boltS_carryCheck]
  rfl

theorem boltValue_boltMerge (a b : Bolt) (hda : a.dig.length = 10) (hka : a.car.length = 10) (hdb : b.dig.length = 10)
    (hkb : b.car.length = 10) : boltValue (boltMerge a b) = wrap640 (boltValue a + boltValue b) := by
  rw [boltMerge, boltValue_carryCheck, boltValue, boltSum_addDigits 10 0 _ _ _ _ hda hdb hka hkb, boltValue, boltValue,
    wrap640_add]

theorem boltS_boltMerge (a b : Bolt) : boltS (boltMerge a b) = boltS a ||| boltS b := by
  rw [boltMerge, boltS_carryCheck]
  simp only [boltS_eq_toNat]
  generalize a.nan = n, a.pinf = p, a.ninf = m, a.poison = x, b.nan = n', b.pinf = p', b.ninf = m', b.poison = x'
  revert n p m x n' p' m' x'
  decide

/-- The order of a merge does not show in its normal form. -/
theorem boltNorm_boltMerge_comm (a b : Bolt) (hda : a.dig.length = 10) (hka : a.car.length = 10)
    (hdb : b.dig.length = 10) (hkb : b.car.length = 10) : boltNorm (boltMerge a b) = boltNorm (boltMerge b a) := by
  apply boltNorm_congr
  · rw [boltValue_boltMerge a b hda hka hdb hkb, boltValue_boltMerge b a hdb hkb hda hka, Int.add_comm]
  · rw [boltS_boltMerge, boltS_boltMerge, Nat.or_comm]

/-- Settles O8: the sums of digits and carries add exactly, and the normal form depends on the value and S alone. -/
theorem boltSums : Obligations.BoltSums := by
  refine ⟨fun b q p hd hk => ?_, fun a b hda hka hdb hkb => ?_, fun b _ _ => ?_, fun _ _ _ _ _ _ => boltNorm_congr⟩
  · obtain ⟨nan, pinf, ninf, poison⟩ := boltS_inj (boltS_boltAdd b q p)
    exact ⟨boltValue_boltAdd b q p hd hk, poison, nan, pinf, ninf⟩
  · exact ⟨boltValue_boltMerge a b hda hka hdb hkb, boltS_boltMerge a b, boltNorm_boltMerge_comm a b hda hka hdb hkb⟩
  · exact ⟨boltValue_boltNorm b, rfl, boltS_boltNorm b⟩

end Sys2Proof.Machine
end

section
/-! PROOFS. Instruction numbers and PCs (spec 03 R88, R97): the PC of a line and a slot, the PC of a number, the fall-through
and branch targets. -/

namespace Sys2Proof.Machine

/-! ## The PC of a line and a slot (R88)

Every fact about instruction numbers goes through `pcAt line slot`: its bits [54:7] are the line, its bits [6:0] the slot. -/

/-- The PC of a slot of a line. -/
def pcAt (line slot : Nat) : Pc := BitVec.ofNat 55 (line * 128 + slot)

theorem pcAt_toNat {line slot : Nat} (hl : line < 2 ^ 48) (hs : slot < 128) :
    (pcAt line slot).toNat = line * 128 + slot := by
  rw [pcAt, BitVec.toNat_ofNat, Nat.mod_eq_of_lt (by omega)]

theorem pcAt_line {line slot : Nat} (hl : line < 2 ^ 48) (hs : slot < 128) :
    ((pcAt line slot).extractLsb' 7 48).toNat = line := by
  rw [BitVec.extractLsb'_toNat, pcAt_toNat hl hs, Nat.shiftRight_eq_div_pow]
  omega

theorem pcAt_slot {line slot : Nat} (hl : line < 2 ^ 48) (hs : slot < 128) :
    ((pcAt line slot).extractLsb' 0 7).toNat = slot := by
  rw [BitVec.extractLsb'_toNat, pcAt_toNat hl hs, Nat.shiftRight_zero]
  omega

theorem pcNum_pcAt {line slot : Nat} (hl : line < 2 ^ 48) (hs : slot < 128) :
    pcNum (pcAt line slot) = line * 10 + slot := by
  rw [pcNum, pcAt_toNat hl hs]
  omega

/-! ## The PC of an instruction number (R88, R97) -/

/-- A number is first reduced modulo 10 × 2^48, so its PC is that of a line and of one of the slots 0 to 9. -/
theorem exists_pcOfNum_eq_pcAt (n : Int) :
    ∃ line slot : Nat, line < 2 ^ 48 ∧ slot < 10 ∧ pcOfNum n = pcAt line slot
      ∧ ((line * 10 + slot : Nat) : Int) = n % (10 * 2 ^ 48 : Nat) := by
  have hlt : (n % (10 * 2 ^ 48 : Nat)).toNat < 10 * 2 ^ 48 := by omega
  exact ⟨_, _, Nat.div_lt_of_lt_mul hlt, Nat.mod_lt _ (by decide), rfl, by omega⟩

/-- The PC of a number is the one line and slot that the number counts, modulo 10 × 2^48. -/
theorem pcOfNum_eq_pcAt {line slot : Nat} {n : Int} (hs : slot < 10)
    (hn : n % (10 * 2 ^ 48 : Nat) = ((line * 10 + slot : Nat) : Int)) : pcOfNum n = pcAt line slot := by
  obtain ⟨line', slot', -, hs', heq, hnum⟩ := exists_pcOfNum_eq_pcAt n
  obtain ⟨rfl, rfl⟩ : line' = line ∧ slot' = slot := by omega
  exact heq

theorem pcOfNum_pcNum_pcAt {line slot : Nat} (hl : line < 2 ^ 48) (hs : slot < 10) :
    pcOfNum (pcNum (pcAt line slot)) = pcAt line slot := by
  rw [pcNum_pcAt hl (by omega)]
  exact pcOfNum_eq_pcAt hs (by omega)

theorem pcOfNum_slot_lt (n : Int) : ((pcOfNum n).extractLsb' 0 7).toNat < 10 := by
  obtain ⟨line, slot, hl, hs, heq, -⟩ := exists_pcOfNum_eq_pcAt n
  rwa [heq, pcAt_slot hl (by omega)]

theorem pcNum_pcOfNum (n : Int) : (pcNum (pcOfNum n) : Int) = n % (10 * 2 ^ 48 : Nat) := by
  obtain ⟨line, slot, hl, hs, heq, hnum⟩ := exists_pcOfNum_eq_pcAt n
  rw [heq, pcNum_pcAt hl (by omega), hnum]

/-! ## Falling through (R88) -/

theorem pcNext_pcAt_of_lt {line slot : Nat} (hl : line < 2 ^ 48) (hs : slot < 9) :
    pcNext (pcAt line slot) = pcAt line (slot + 1) := by
  rw [pcNext, pcNum_pcAt hl (by omega)]
  exact pcOfNum_eq_pcAt (by omega) (by omega)

theorem pcNext_pcAt_last {line : Nat} (hl : line < 2 ^ 48) :
    pcNext (pcAt line 9) = pcAt ((line + 1) % 2 ^ 48) 0 := by
  rw [pcNext, pcNum_pcAt hl (by decide)]
  exact pcOfNum_eq_pcAt (by decide) (by omega)

theorem pcNext_pcAt {line slot : Nat} (hl : line < 2 ^ 48) (hs : slot < 10) :
    pcNext (pcAt line slot) =
      BitVec.ofNat 55 (if slot = 9 then (line + 1) % 2 ^ 48 * 128 else line * 128 + (slot + 1)) := by
  split
  case isTrue h9 => subst h9; exact pcNext_pcAt_last hl
  case isFalse h9 => exact pcNext_pcAt_of_lt hl (by omega)

/-! ## Branches (R97) -/

/-- An offset of 24 bits ranges over −2^23 to 2^23 − 1. -/
theorem branchOffset_bounds (off : BitVec 24) :
    (-(2 ^ 23 : Nat) : Int) ≤ off.toInt ∧ off.toInt ≤ (2 ^ 23 - 1 : Nat) := by
  have hlo := off.le_toInt
  have hhi := off.toInt_lt
  omega

/-- Settles O56: a PC of a line and a slot has the number that R88 gives it, and the PC of a number is the line and slot that
the number counts modulo 10 × 2^48. -/
theorem pcArithmetic : Obligations.PcArithmetic := by
  refine ⟨fun line slot hl hs => ?_, by decide, by decide⟩
  have hs' : slot < 128 := by omega
  refine ⟨pcAt_line hl hs', pcAt_slot hl hs', pcNum_pcAt hl hs', pcNext_pcAt hl hs, ?_, fun off => ?_⟩
  · have zero : (0 : BitVec 24).toInt = 0 := BitVec.toInt_zero
    rw [zero, Int.add_zero]
    exact pcOfNum_pcNum_pcAt hl hs
  · obtain ⟨hlo, hhi⟩ := branchOffset_bounds off
    refine ⟨hlo, hhi, pcOfNum_slot_lt _, ?_⟩
    rw [← pcNum_pcAt hl hs']
    exact pcNum_pcOfNum _

end Sys2Proof.Machine
end
